-- ==== Sys2Proof/Word.lean ====
section
/-!
DEFINITION. The machine's word types: bytes, 32-bit register words, 64-bit pairs and the 96-bit instruction word
(R30, R31, R42). Bit-field and byte-order helpers stand in Decode.lean and Machine/Ops.lean.
-/

namespace Sys2Proof

/-- A byte of memory. -/
abbrev Byte := BitVec 8

/-- The contents of one lane or uniform register (R42). -/
abbrev Word := BitVec 32

/-- A 64-bit value: a register pair, a PC, a meeting register (R42, R293). -/
abbrev Dword := BitVec 64

/-- One instruction word (R30). -/
abbrev IWord := BitVec 96

/-- A set of lanes: bit l stands for lane l (R34). -/
abbrev Mask := BitVec 32

end Sys2Proof
end

