-- ==== Sys2Proof/Config.lean ====
section
/-!
DEFINITION. What the implementation fixes and the free values: constants with no body, of which nothing can be proved.
Each is named in a row of the assumption log.
-/

namespace Sys2Proof

/-- Free values (log 4): the value of the n-th open choice; n comes from State.freeCtr. -/
opaque Config.free : Nat → Nat

/-- Silicon stepping, DEVINFO.STEP (R17; log 17). -/
opaque Config.step : BitVec 8

/-- Which of the two adjacent FP32 values a function of R127 returns, for the function's number, the type code and the
bits of the argument (R127; log 14). -/
opaque Config.upper : Nat → Nat → Nat → Bool

/-- The SHAKE256 digest of the content of a measurement block (R204; log 22). -/
opaque Config.shake : List Nat → Nat

/-- The Ed448 signature of a digest with the device alias key (R202, R204; log 22). -/
opaque Config.sign : Nat → Nat

end Sys2Proof
end

