-- ==== Sys2Proof/Syntax.lean ====
section
/-!
DEFINITION. The instructions and events of the machine, as data. The first 154 constructors of Instr are the words of
R80 to R86 with their operand fields; the others are the events of the opcode table, whose operands name the object the
event acts on (a transaction, a waiting instruction, a group, a launch, a command, a value the host writes).
-/

namespace Sys2Proof

/-- Type codes of R68. -/
inductive Ty
  | i8 | i16 | i32 | i64 | n8 | n16 | n32 | n64 | b8 | b16 | b32 | b64
  | f16 | bf16 | f32 | f64 | e4m3 | e5m2 | f16x2 | bf16x2 | nq4
deriving DecidableEq, Repr

/-- Rounding modes of R69 and R94. -/
inductive Rm | rn | rz | rd | ru
deriving DecidableEq, Repr

/-- Comparison codes of R70. -/
inductive Cmp | eq | ne | lt | le | gt | ge | num | nan | equ | neu | ltu | leu | gtu | geu
deriving DecidableEq, Repr

/-- Cache hints of R71. -/
inductive Ch | no | ef | en | el
deriving DecidableEq, Repr

/-- Register counts of R72. -/
inductive Cnt | x1 | x2 | x4
deriving DecidableEq, Repr

/-- Orderings of R73. -/
inductive MOrd | no | acq | rel | acqrel
deriving DecidableEq, Repr

/-- Atomic and reduction operations of R74. -/
inductive Aop | add | min | max | and | or | xor | inc | dec | exch | cas
deriving DecidableEq, Repr

/-- Special registers of R45. -/
inductive SReg
  | lane | warp | gwarp | groupX | groupY | groupZ | ngroupX | ngroupY | ngroupZ | it
  | core | colX | colY | die | tier | clk | kbase
deriving DecidableEq, Repr

/-- Modes of shfl (R136). -/
inductive ShMode | idx | up | dn | xor
deriving DecidableEq, Repr

/-- Modes of vote (R138). -/
inductive VoteMode | all | any | eq | ballot
deriving DecidableEq, Repr

/-- Conversions of tcopy (R79). -/
inductive Cnv | no | dqBf16 | dqF16 | cvBf16 | cvF32
deriving DecidableEq, Repr

/-- Fields that tidx reads (R280). -/
inductive TFld | lo | hi | arg
deriving DecidableEq, Repr

/-- Counters of mmstat (R342). -/
inductive MmCtr | skip | mma | busy | pin
deriving DecidableEq, Repr

/-- Wear fields of wrec (R410). -/
inductive WKind | bsu | hsu | esu
deriving DecidableEq, Repr

/-- Descriptor modes of mma (R51). -/
inductive Qdm | all | qd4 | qd2
deriving DecidableEq, Repr

/-- What a peer device asks for (R386): a read, a write, or an element of a red or vred. -/
inductive RemOp
  | rd
  | wr
  | red (op : Aop) (t : Ty)
deriving DecidableEq, Repr

/-- What a Solpel vendor-defined message delivers a key for (R200, R212): the context of a function, or a selective IDE
stream with the functions that it carries. -/
inductive KeyFor
  | world (fn : Nat)
  | stream (n : Nat) (fns : List Nat)
deriving DecidableEq, Repr

/-- What a read of the host names (R213, R382): the BAR 0 of a function, or its aperture. -/
inductive BarOf
  | regs (fn : Nat)
  | aperture (fn : Nat)
deriving DecidableEq, Repr

/-- How a request of a peer arrives (R386, R387): the port, and its sequence number in the session. -/
structure FarId where
  port : Nat
  seq : Nat
deriving DecidableEq, Repr

/-- A source operand: lane register, uniform register, special register or immediate (R40). -/
inductive Src
  | v (n : BitVec 8)
  | k (n : BitVec 6)
  | sp (r : SReg)
  | imm (b : BitVec 18)
deriving DecidableEq, Repr

/-- A destination or data operand: lane register or uniform register (R43). -/
inductive Dst
  | v (n : BitVec 8)
  | k (n : BitVec 6)
deriving DecidableEq, Repr

/-- The guard and hint fields that every word carries (R30, R34 to R38). -/
structure Ctl where
  gn : Bool
  gi : BitVec 3
  stall : BitVec 4
  gap : BitVec 3
  give : Bool
  ra : Bool
  rb : Bool
deriving DecidableEq, Repr

/-- The fields of an unguarded word with no hints (R34). -/
def Ctl.plain : Ctl := ⟨false, 7, 0, 0, false, false, false⟩

/-- Every step of the machine: the instructions of R80 to R86, then the events. -/
inductive Instr
  -- integer instructions (R118 to R122)
  | addInteger (c : Ctl) (t : Ty) (d : Dst) (a b : Src)
  | subInteger (c : Ctl) (t : Ty) (d : Dst) (a b : Src)
  | mulInteger (c : Ctl) (t : Ty) (d : Dst) (a b : Src)
  | mulhi (c : Ctl) (t : Ty) (d : Dst) (a b : Src)
  | mulw (c : Ctl) (t : Ty) (d : Dst) (a b : Src)
  | divInteger (c : Ctl) (t : Ty) (d : Dst) (a b : Src)
  | rem (c : Ctl) (t : Ty) (d : Dst) (a b : Src)
  | neg (c : Ctl) (t : Ty) (d : Dst) (a : Src)
  | abs (c : Ctl) (t : Ty) (d : Dst) (a : Src)
  | minInteger (c : Ctl) (t : Ty) (d : Dst) (a b : Src)
  | maxInteger (c : Ctl) (t : Ty) (d : Dst) (a b : Src)
  | and (c : Ctl) (t : Ty) (d : Dst) (a b : Src)
  | or (c : Ctl) (t : Ty) (d : Dst) (a b : Src)
  | xor (c : Ctl) (t : Ty) (d : Dst) (a b : Src)
  | andn (c : Ctl) (t : Ty) (d : Dst) (a b : Src)
  | not (c : Ctl) (t : Ty) (d : Dst) (a : Src)
  | shl (c : Ctl) (t : Ty) (d : Dst) (a b : Src)
  | shr (c : Ctl) (t : Ty) (d : Dst) (a b : Src)
  | sra (c : Ctl) (t : Ty) (d : Dst) (a b : Src)
  | rotl (c : Ctl) (t : Ty) (d : Dst) (a b : Src)
  | bfx (c : Ctl) (t : Ty) (d : Dst) (a b : Src)
  | bfi (c : Ctl) (t : Ty) (d : Dst) (a b p : Src)
  | popc (c : Ctl) (t : Ty) (d : Dst) (a : Src)
  | clz (c : Ctl) (t : Ty) (d : Dst) (a : Src)
  | ctz (c : Ctl) (t : Ty) (d : Dst) (a : Src)
  | brev (c : Ctl) (t : Ty) (d : Dst) (a : Src)
  | lea (c : Ctl) (t : Ty) (sh : BitVec 3) (d : Dst) (a b : Src)
  | addx (c : Ctl) (t : Ty) (gs : BitVec 3) (d : Dst) (a b : Src)
  | cmpInteger (c : Ctl) (t : Ty) (cc : Cmp) (g : BitVec 3) (a b : Src)
  | setb (c : Ctl) (t : Ty) (cc : Cmp) (d : Dst) (a b : Src)
  | sel (c : Ctl) (t : Ty) (gs : BitVec 3) (d : Dst) (a b : Src)
  | mov (c : Ctl) (t : Ty) (d : Dst) (a : Src)
  | movi (c : Ctl) (t : Ty) (d : Dst) (imm : BitVec 40)
  | mad (c : Ctl) (t : Ty) (d : Dst) (a b p : Src)
  | clamp (c : Ctl) (t : Ty) (d : Dst) (a b p : Src)
  -- floating-point instructions (R123 to R129)
  | addFloat (c : Ctl) (t : Ty) (rm : Rm) (d : Dst) (a b : Src)
  | subFloat (c : Ctl) (t : Ty) (rm : Rm) (d : Dst) (a b : Src)
  | mulFloat (c : Ctl) (t : Ty) (rm : Rm) (d : Dst) (a b : Src)
  | fma (c : Ctl) (t : Ty) (rm : Rm) (d : Dst) (a b p : Src)
  | divFloat (c : Ctl) (t : Ty) (rm : Rm) (d : Dst) (a b : Src)
  | rcp (c : Ctl) (t : Ty) (rm : Rm) (d : Dst) (a : Src)
  | sqrt (c : Ctl) (t : Ty) (rm : Rm) (d : Dst) (a : Src)
  | rsq (c : Ctl) (t : Ty) (rm : Rm) (d : Dst) (a : Src)
  | ex2 (c : Ctl) (t : Ty) (d : Dst) (a : Src)
  | lg2 (c : Ctl) (t : Ty) (d : Dst) (a : Src)
  | sin (c : Ctl) (t : Ty) (d : Dst) (a : Src)
  | cos (c : Ctl) (t : Ty) (d : Dst) (a : Src)
  | tanh (c : Ctl) (t : Ty) (d : Dst) (a : Src)
  | minFloat (c : Ctl) (t : Ty) (nan : Bool) (d : Dst) (a b : Src)
  | maxFloat (c : Ctl) (t : Ty) (nan : Bool) (d : Dst) (a b : Src)
  | cmpFloat (c : Ctl) (t : Ty) (cc : Cmp) (g : BitVec 3) (a b : Src)
  | classF (c : Ctl) (t : Ty) (g : BitVec 3) (a b : Src)
  | rndi (c : Ctl) (t : Ty) (rm : Rm) (d : Dst) (a : Src)
  | cpsign (c : Ctl) (t : Ty) (d : Dst) (a b : Src)
  | scale (c : Ctl) (t : Ty) (rm : Rm) (d : Dst) (a b : Src)
  | dot2 (c : Ctl) (t : Ty) (rm : Rm) (d : Dst) (a b p : Src)
  -- conversion and narrow formats (R130 to R135)
  | cvt (c : Ctl) (t st : Ty) (rm : Rm) (d : Dst) (a : Src)
  | pack (c : Ctl) (t : Ty) (rm : Rm) (d : Dst) (a b : Src)
  | unpack (c : Ctl) (t : Ty) (d : Dst) (a : Src)
  | bsel (c : Ctl) (d : Dst) (a b : Src)
  | qnt (c : Ctl) (t : Ty) (d : Dst) (a : Src)
  | dqt (c : Ctl) (t : Ty) (d : Dst) (a b : Src)
  -- cross-lane, random numbers (R136 to R143)
  | shfl (c : Ctl) (m : ShMode) (d : Dst) (a b : Src)
  | bcast (c : Ctl) (d : Dst) (a b : Src)
  | vote (c : Ctl) (m : VoteMode) (d : Dst) (g : BitVec 3)
  | matchW (c : Ctl) (t : Ty) (d : Dst) (a : Src)
  | redw (c : Ctl) (op : Aop) (t : Ty) (d : Dst) (a : Src)
  | scanw (c : Ctl) (op : Aop) (t : Ty) (exc : Bool) (d : Dst) (a : Src)
  | rnd (c : Ctl) (t : Ty) (d : Dst)
  | rndSeed (c : Ctl) (t : Ty) (a b : Src)
  -- Kulisch accumulators (R144 to R146)
  | kzero (c : Ctl) (q : BitVec 2)
  | kadd (c : Ctl) (t : Ty) (q : BitVec 2) (a : Src)
  | ksub (c : Ctl) (t : Ty) (q : BitVec 2) (a : Src)
  | kdot (c : Ctl) (t : Ty) (q : BitVec 2) (a b : Src)
  | kround (c : Ctl) (t : Ty) (rm : Rm) (d : Dst) (q : BitVec 2)
  | ksave (c : Ctl) (d : Dst) (q : BitVec 2)
  | kload (c : Ctl) (q : BitVec 2) (a : Dst)
  | kstat (c : Ctl) (d : Dst) (q : BitVec 2)
  -- memory (R172 to R195)
  | ld (c : Ctl) (t : Ty) (ch : Ch) (n : Cnt) (d : Dst) (a : Src) (off : BitVec 20)
  | st (c : Ctl) (t : Ty) (ch : Ch) (n : Cnt) (d : Dst) (a : Src) (off : BitVec 20)
  | ldk (c : Ctl) (t : Ty) (ch : Ch) (n : Cnt) (d : Dst) (a : Src) (off : BitVec 20)
  | ldsp (c : Ctl) (t : Ty) (n : Cnt) (fe clr : Bool) (d : Dst) (a : Src) (off : BitVec 20)
  | stsp (c : Ctl) (t : Ty) (n : Cnt) (fe : Bool) (d : Dst) (a : Src) (off : BitVec 20)
  | feget (c : Ctl) (d : Dst) (a : Src) (off : BitVec 20)
  | feset (c : Ctl) (a : Src) (off : BitVec 20)
  | feclr (c : Ctl) (a : Src) (off : BitVec 20)
  | atom (c : Ctl) (t : Ty) (op : Aop) (o : MOrd) (d : Dst) (a : Src) (off : BitVec 20)
  | red (c : Ctl) (t : Ty) (op : Aop) (o : MOrd) (d : Dst) (a : Src) (off : BitVec 20)
  | vatom (c : Ctl) (t : Ty) (op : Aop) (o : MOrd) (d : Dst) (a : Src) (off : BitVec 20)
  | vred (c : Ctl) (t : Ty) (op : Aop) (o : MOrd) (d : Dst) (a : Src) (off : BitVec 20)
  | waita (c : Ctl) (tmo : BitVec 4) (d : Dst) (a : Src) (off : BitVec 20)
  | wake (c : Ctl) (a : Src) (off : BitVec 20)
  | pfetch (c : Ctl) (ch : Ch) (a : Src) (off : BitVec 20)
  | evict (c : Ctl) (ch : Ch) (a : Src) (off : BitVec 20)
  | tcopy (c : Ctl) (out shd : Bool) (tag : BitVec 4) (cnv : Cnv) (d : Dst) (a b : Dst)
  | tcwait (c : Ctl) (tag : BitVec 4)
  -- context (R226)
  | trap (c : Ctl) (code : BitVec 12)
  | bkpt (c : Ctl)
  | flagrd (c : Ctl) (d : Dst)
  | flagclr (c : Ctl) (f : BitVec 3)
  | csrr (c : Ctl) (r : BitVec 12) (d : Dst)
  | csrw (c : Ctl) (r : BitVec 12) (a : Dst)
  | rfe (c : Ctl)
  -- queues and counters (R238, R242)
  | tqpush (c : Ctl) (q : BitVec 5) (b : Dst)
  | tqpop (c : Ctl) (d : Dst) (q : BitVec 5)
  | tqtry (c : Ctl) (gs : BitVec 3) (d : Dst) (q : BitVec 5)
  | tqallow (c : Ctl) (d : Dst) (q : BitVec 5)
  | cntsig (c : Ctl) (set : Bool) (a b : Dst)
  | cntwait (c : Ctl) (a b : Dst)
  -- kernel (R262, R263)
  | klaunch (c : Ctl) (d a : Dst)
  | fslot (c : Ctl) (n : BitVec 3) (d : Dst)
  -- task (R280)
  | spawn (c : Ctl) (d a b : Dst)
  | fmark (c : Ctl)
  | await (c : Ctl) (d : Dst)
  | tret (c : Ctl)
  | tidx (c : Ctl) (f : TFld) (d : Dst)
  | tstat (c : Ctl) (d : Dst)
  -- group (R304)
  | nop (c : Ctl)
  | bra (c : Ctl) (off : BitVec 40)
  | brx (c : Ctl) (a : Dst)
  | call (c : Ctl) (d : Dst) (off : BitVec 40)
  | ret (c : Ctl) (a : Dst)
  | exit (c : Ctl)
  | meet (c : Ctl) (off : BitVec 40)
  | yield (c : Ctl) (dl : BitVec 12)
  | ralloc (c : Ctl) (n : BitVec 3)
  | rfree (c : Ctl) (n : BitVec 3)
  | rblk (c : Ctl) (d : Dst)
  | vput (c : Ctl) (f : BitVec 2) (a : Dst)
  | vget (c : Ctl) (f : BitVec 2) (d : Dst)
  | vfree (c : Ctl) (f : BitVec 2) (d : Dst)
  -- barrier (R317, R318)
  | bar (c : Ctl) (b : BitVec 4)
  | barArrive (c : Ctl) (b : BitVec 4)
  | barWait (c : Ctl) (b : BitVec 4)
  | barTest (c : Ctl) (g : BitVec 3) (b : BitVec 4)
  | barset (c : Ctl) (b : BitVec 4) (n : Dst)
  -- tile (R334 to R342)
  | mma (c : Ctl) (fs : BitVec 3) (qdm : Qdm) (acc zsk : Bool) (st : BitVec 2) (d : BitVec 7) (a : BitVec 8) (b : BitVec 6)
  | mmz (c : Ctl) (d : BitVec 7)
  | accmov (c : Ctl) (d a : BitVec 7)
  | accld (c : Ctl) (t : Ty) (glb : Bool) (d : BitVec 7) (a : Dst)
  | accst (c : Ctl) (t : Ty) (glb shd : Bool) (rm : Rm) (d : BitVec 7) (a : Dst)
  | tfetch (c : Ctl) (a : BitVec 6)
  | tunpin (c : Ctl) (a : BitVec 6)
  | mmstat (c : Ctl) (r : MmCtr) (d : Dst)
  -- page (R365)
  | publish (c : Ctl) (a b : Dst)
  | sfetch (c : Ctl) (a : Dst)
  | sevict (c : Ctl) (a : Dst)
  | sstat (c : Ctl) (d a : Dst)
  -- unit (R410)
  | rflv (c : Ctl) (d : Dst)
  | boost (c : Ctl) (lvl : BitVec 2) (d a : Dst)
  | bstat (c : Ctl) (d : Dst)
  | pgateOn (c : Ctl) (d : Dst)
  | pgateOff (c : Ctl) (d : Dst)
  | wrec (c : Ctl) (k : WKind) (d a : Dst)
  -- issue and memory-system events
  | watchdog
  | loadDataReturn (x u : Nat)
  | writeUnitPerformed (x u : Nat)
  | atomicElementApplied (x u : Nat)
  | storeAcknowledged (x : Nat)
  | storeCountDrained (q : Nat)
  | errorReply (x : Nat)
  | pageWalk (die world va : Nat) (wr : Bool)
  | firstTouchScrub (g : Nat)
  | backgroundScrub
  -- events that end waits (q names a waiting instruction)
  | feLoadComplete (q : Nat)
  | feTimeout (q : Nat)
  | waitaRelease (q : Nat)
  | waitaTimeout (q : Nat)
  | waitaFullReturn (q : Nat)
  | copyComplete (y : Nat)
  | copyErrorStop (y : Nat)
  | tcwaitReturn (q : Nat)
  | tqPushTakesEffect (q : Nat)
  | tqPopTakesEffect (q : Nat)
  | cntwaitSatisfied (q : Nat)
  | barComplete (q : Nat)
  | awaitReturn (q l : Nat)
  | awaitHelp (q l : Nat)
  | blockRelease (w : Nat)
  | blockRestore (w : Nat)
  | rallocGrant (q : Nat)
  | vputTakesEffect (q : Nat)
  | vgetTakesEffect (q : Nat)
  | matrixPortComplete (core : Nat)
  | tfetchEntryGranted (q : Nat)
  | tfetchTimeout (q : Nat)
  | variableLatencyResult (w : Nat)
  -- tasks, groups and launches
  | askForWork (core lid : Nat)
  | halyardServe (die : Nat)
  | groupPlacement (lid : Nat)
  | preEmptionRequest (g : Nat)
  | groupSave (g : Nat)
  | deferredSave (g : Nat)
  | groupStop (g : Nat)
  | groupResume (g : Nat)
  | restoreComplete (g : Nat)
  | eventPost (src ctx : Nat)
  | launchStart (lid : Nat)
  | launchCompletion (lid : Nat)
  -- host queues and registers
  | notifyRegisterWrite (fn q v : Nat)
  | copyEntry (e : Nat)
  | copyEntryComplete (e : Nat)
  | counterSignalEntry (e : Nat)
  | counterWaitEntry (e : Nat)
  | eqheadWrite (fn v : Nat)
  | gcqtailWrite (v : Nat)
  | gcqcfgWrite (v : Nat)
  | heqcfgWrite (v : Nat)
  | heqheadWrite (v : Nat)
  | registerWrite (off v : Nat)
  -- Gatchalar commands (k names a taken command)
  | commandTake
  | commandComplete (k : Nat)
  | partition (k : Nat)
  | pshare (k : Nat)
  | bwshare (k : Nat)
  | lifeset (k : Nat)
  | caldsize (k : Nat)
  | configure (k : Nat)
  | lock (k : Nat)
  | start (k : Nat)
  | suspend (k : Nat)
  | resume (k : Nat)
  | stop (k : Nat)
  | key (k : Nat)
  | resumeSlot (k : Nat)
  | discardSlot (k : Nat)
  | tlbinv (k : Nat)
  | pairs (k : Nat)
  | sregion (k : Nat)
  | scrub (k : Nat)
  | peermap (k : Nat)
  | warmreset (k : Nat)
  | linkretrain (k : Nat)
  | peerreset (k : Nat)
  | wearlog (k : Nat)
  | transport (k : Nat)
  -- context events and security messages
  | endOfClearingSequence (fn : Nat)
  | keyRevocation (w : Nat)
  | ideIntegrityFailure (stream : Nat)
  | configurationViolation (fn : Nat)
  | uncorrectableMemoryError (fn : Nat)
  | hostLinkDown
  | hotReset
  | lockInterfaceRequest (ses fn : Nat)
  | startInterfaceRequest (ses fn : Nat)
  | stopInterfaceRequest (ses fn : Nat)
  | getDeviceInterfaceReport (ses fn : Nat)
  | getDeviceInterfaceState (ses fn : Nat)
  | getVersion
  | getCapabilities
  | negotiateAlgorithms
  | getDigests
  | getCertificate
  | challenge
  | getMeasurements (fn : Nat)
  | keyExchange
  | finish (ses : Nat)
  | heartbeat (ses : Nat)
  | keyUpdate (ses : Nat)
  | endSession (ses : Nat)
  | vendorDefinedRequest (ses : Nat) (obj : KeyFor) (key : Nat)
  | unsupportedRequest (code : Nat)
  | mailboxWrite (fn off : Nat) (bytes : List Nat)
  | mailboxRead (bar : BarOf) (off len tag : Nat)
  -- links
  | linkTrainingSuccess (n : Nat)
  | linkTrainingFailure (n : Nat)
  | retrainTrigger (n : Nat)
  | retrainSuccess (n : Nat)
  | retrainFailure (n : Nat)
  | quiesceComplete (n : Nat)
  | warmResetQuiesce (die : Nat)
  | warmResetWriteBack (die : Nat)
  | warmResetErrorReplies (die : Nat)
  | warmResetDieReset (die : Nat)
  | warmResetSelfTest (die : Nat) (failed slices : List Nat)
  | warmResetTraining (die : Nat)
  | reAdmission (die : Nat)
  | remoteAccess (id : FarId) (world va : Nat) (op : RemOp) (bytes : List Nat)
  | peerAcknowledgement (x : Nat)
  | peerSessionEnd (port : Nat)
  -- Sinter
  | logAppend (x u : Nat)
  | tileFetchComplete (r t : Nat)
  | tileFetchFailure (r t : Nat)
  | tileEvictionComplete (r t : Nat)
  | tileEvictionFailure (r t : Nat)
  -- wear, budget, power
  | tick (es : List (Nat × Nat))
  | restEnd (core : Nat)
  | spareCallUp (col : Nat)
  | grantExpiry (g : Nat)
  | boostDecision (q : Nat)
  | nvmRecordWrite
  | powerEstimate (es : List (Nat × Nat))
  | forcedClockSkipping (p : Nat)
  | hbmDerating (stack temp : Nat)
  | hotZoneThrottle (core : Nat)
  | throttleEscalation (core : Nat)
  | throttleEnd (core : Nat)
  | gateApply (col : Nat)
  | gateWake (col : Nat)
  | wakeComplete (col : Nat)
  | supplyDroop (core : Nat)
  | powerFailWarning
  | powerFailClear
  | holdUpExpiry
  | powerOn
  | selfTestEnd (failed slices : List Nat)
  | shockSensor
  | firmwareUpdate
deriving DecidableEq, Repr

end Sys2Proof
end

