-- ==== Sys2Proof/Machine/Form.lean ====
section
/-!
DEFINITION. What makes the fields of an instruction an instruction (R40 to R53, R68 to R79, R87 and the encoding faults
of R147, R195, R312, R321, R344, R416): the type sets, register-group sizes and operand kinds of every row.
-/

namespace Sys2Proof

/-- Width in bits of one value of a type (R88, R91, R93). -/
def Ty.bits : Ty → Nat
  | .i8 | .n8 | .b8 | .e4m3 | .e5m2 => 8
  | .i16 | .n16 | .b16 | .f16 | .bf16 => 16
  | .i32 | .n32 | .b32 | .f32 | .f16x2 | .bf16x2 => 32
  | .i64 | .n64 | .b64 | .f64 => 64
  | .nq4 => 4

/-- Registers that one value of a type occupies (R42, R116). -/
def Ty.regs (t : Ty) : Nat := if t.bits = 64 then 2 else 1

/-- I: .i8 to .i64 (R118). -/
def Ty.isI : Ty → Bool
  | .i8 | .i16 | .i32 | .i64 => true
  | _ => false

/-- N: .n8 to .n64 (R118). -/
def Ty.isN : Ty → Bool
  | .n8 | .n16 | .n32 | .n64 => true
  | _ => false

/-- B: .b8 to .b64 (R118). -/
def Ty.isB : Ty → Bool
  | .b8 | .b16 | .b32 | .b64 => true
  | _ => false

/-- F: .f16, .bf16, .f32, .f64 (R123). -/
def Ty.isF : Ty → Bool
  | .f16 | .bf16 | .f32 | .f64 => true
  | _ => false

/-- P: .f16x2, .bf16x2 (R123). -/
def Ty.isP : Ty → Bool
  | .f16x2 | .bf16x2 => true
  | _ => false

/-- The FP8 types (R91). -/
def Ty.is8 : Ty → Bool
  | .e4m3 | .e5m2 => true
  | _ => false

/-- .i32 .n32 .i64 .n64 (R118). -/
def Ty.isW : Ty → Bool
  | .i32 | .n32 | .i64 | .n64 => true
  | _ => false

/-- .b32 .b64 (R118). -/
def Ty.isBW : Ty → Bool
  | .b32 | .b64 => true
  | _ => false

/-- The types of ex2, lg2, sin, cos, tanh (R123). -/
def Ty.isT : Ty → Bool
  | .f16 | .bf16 | .f32 | .f16x2 | .bf16x2 => true
  | _ => false

/-- The types of the accumulating Kulisch instructions (R144). -/
def Ty.isK : Ty → Bool
  | .f16 | .bf16 | .f32 | .e4m3 | .e5m2 | .f16x2 | .bf16x2 => true
  | _ => false

/-- The types of loads and stores (R177). -/
def Ty.isL : Ty → Bool
  | .i8 | .i16 | .n8 | .n16 | .b8 | .b16 | .b32 | .b64 => true
  | _ => false

/-- The integer comparison codes (R70). -/
def Cmp.isInt : Cmp → Bool
  | .eq | .ne | .lt | .le | .gt | .ge => true
  | _ => false

/-- Operations and types of atom and red (R181). -/
def atomOk (op : Aop) (t : Ty) : Bool :=
  match op with
  | .add => t.isW || t == .f32 || t == .f64 || t.isP
  | .min | .max => t.isW || t == .f32 || t == .f64
  | .and | .or | .xor | .exch | .cas => t.isBW
  | .inc | .dec => t == .n32

/-- Operations and types of vatom and vred (R183). -/
def vatomOk (op : Aop) (t : Ty) : Bool :=
  match op with
  | .add => (t.isI || t.isN) && t.bits != 64 || t == .f32 || t.isP
  | .min | .max => (t.isI || t.isN) && t.bits != 64 || t == .f32
  | .and | .or | .xor => t.isB && t.bits != 64
  | _ => false

/-- Operations and types of redw and scanw (R140). -/
def redOk (op : Aop) (t : Ty) : Bool :=
  match op with
  | .add | .min | .max => t.isW || t == .f32 || t == .f64
  | .and | .or | .xor => t.isBW
  | _ => false

/-- A lane register group of n registers starts at a multiple of n (R42). -/
def Dst.okLane (n : Nat) : Dst → Bool
  | .v i => i.toNat % n == 0
  | .k _ => false

/-- A uniform register group of n registers starts at a multiple of n (R42). -/
def Dst.okUni (n : Nat) : Dst → Bool
  | .v _ => false
  | .k i => i.toNat % n == 0

/-- A lane or uniform register group of n registers starts at a multiple of n (R42, R43). -/
def Dst.okAny (n : Nat) : Dst → Bool
  | .v i => i.toNat % n == 0
  | .k i => i.toNat % n == 0

/-- A source of kind 00, 01 or 10 (R43). -/
def Src.okReg (n : Nat) : Src → Bool
  | .v i => i.toNat % n == 0
  | .k i => i.toNat % n == 0
  | .sp _ => true
  | .imm _ => false

/-- A source of kind 00 or 01: the kinds of source C (R48) and of a scratchpad base (R172). -/
def Src.okGpr (n : Nat) : Src → Bool
  | .v i => i.toNat % n == 0
  | .k i => i.toNat % n == 0
  | .sp _ => false
  | .imm _ => false

/-- The immediate bits that a type leaves unused are zero (R44). -/
def immOk (t : Ty) (b : BitVec 18) : Bool :=
  if t == .f16 || t == .bf16 || t.isP then b.toNat / 65536 == 0
  else if t.is8 then b.toNat / 256 == 0
  else true

/-- Operand B of a VVI instruction of a type (R43, R44). -/
def Src.okI (t : Ty) : Src → Bool
  | .v i => i.toNat % t.regs == 0
  | .k i => i.toNat % t.regs == 0
  | .sp _ => true
  | .imm b => immOk t b

/-- Operand B of a VVI instruction that is 32 bits wide whatever the type (R116): every form is permitted. -/
def Src.okI32 : Src → Bool
  | .v _ => true
  | .k _ => true
  | .sp _ => true
  | .imm _ => true

/-- The lane operand of bcast (R137): the same in every lane. -/
def Src.okBcast : Src → Bool
  | .v _ => false
  | .k _ => true
  | .sp .lane => false
  | .sp .it => false
  | .sp _ => true
  | .imm _ => true

/-- The base of a global access (R172). -/
def Src.okGlobal : Src → Bool
  | .v i => i.toNat % 2 == 0
  | .k i => i.toNat % 2 == 0
  | .sp r => r == .kbase
  | .imm _ => false

/-- The base of ldk (R178). -/
def Src.okGlobalUni : Src → Bool
  | .v _ => false
  | .k i => i.toNat % 2 == 0
  | .sp r => r == .kbase
  | .imm _ => false

/-- How many registers CNT moves, in elements (R72). -/
def Cnt.n : Cnt → Nat
  | .x1 => 1
  | .x2 => 2
  | .x4 => 4

/-- CNT other than one requires .b32 or .b64, and .b64 refuses .x4 (R72). -/
def cntOk (t : Ty) (n : Cnt) : Bool :=
  match n with
  | .x1 => true
  | .x2 => t.isBW
  | .x4 => t == .b32

/-- Registers of the data group of a load or store (R72, R177). -/
def accRegs (t : Ty) (n : Cnt) : Nat := t.regs * n.n

/-- Registers of the data group of atom and red; .cas holds two values (R181). -/
def atomRegs (op : Aop) (t : Ty) : Nat := if op = .cas then 2 * t.regs else t.regs

/-- Registers of one tile row (R336). -/
def rowRegs : Ty → Nat
  | .f32 => 16
  | .bf16x2 | .f16x2 => 8
  | _ => 4

/-- The row types of accld and accst (R336). -/
def Ty.isRow : Ty → Bool
  | .f32 | .bf16x2 | .f16x2 | .e4m3 | .e5m2 => true
  | _ => false

/-- The stride in registers that ASTR selects (R326). -/
def astr (st : BitVec 2) : Nat := 4 * 2 ^ st.toNat

/-- The control registers that R225 assigns. -/
def csrOk (r : BitVec 12) : Bool :=
  r == 0x000 || r == 0x001 || r == 0x010 || r == 0x020 || r == 0x021 || r == 0x022 || r == 0x100

/-- Types of cvt (R130). -/
def Ty.isCvt (t : Ty) : Bool := t.isI || t.isN || t.isF || t.is8

/-- The operand B descriptor pair of mma under QDM (R51, R344). -/
def qdmOk (q : Qdm) (b : BitVec 6) : Bool :=
  match q with
  | .all => b.toNat % 2 == 0
  | .qd4 => b.toNat % 8 == 0
  | .qd2 => b.toNat % 4 == 0

/-- The fields of an instruction are an encoding that R87 accepts. An event has no encoding and no condition here.
DESIGN CHOICE: stsp accepts a uniform data register, as st does (R43, R177, R179; log 84). -/
def formOk : Instr → Bool
  | .addInteger _ t d a b | .subInteger _ t d a b | .mulInteger _ t d a b
  | .minInteger _ t d a b | .maxInteger _ t d a b =>
    (t.isI || t.isN) && d.okLane t.regs && a.okReg t.regs && b.okI t
  | .mulhi _ t d a b | .divInteger _ t d a b | .rem _ t d a b =>
    t.isW && d.okLane t.regs && a.okReg t.regs && b.okI t
  | .mulw _ t d a b =>
    (t == .i16 || t == .n16 || t == .i32 || t == .n32) && d.okLane (t.bits / 16) && a.okReg 1 && b.okI t
  | .neg _ t d a | .abs _ t d a => t.isI && d.okLane t.regs && a.okReg t.regs
  | .and _ t d a b | .or _ t d a b | .xor _ t d a b | .andn _ t d a b =>
    t.isB && d.okLane t.regs && a.okReg t.regs && b.okI t
  | .not _ t d a => t.isB && d.okLane t.regs && a.okReg t.regs
  | .shl _ t d a b | .shr _ t d a b | .rotl _ t d a b =>
    t.isBW && d.okLane t.regs && a.okReg t.regs && b.okI32
  | .sra _ t d a b => (t == .i32 || t == .i64) && d.okLane t.regs && a.okReg t.regs && b.okI32
  | .bfx _ t d a b => t.isW && d.okLane t.regs && a.okReg t.regs && b.okI32
  | .bfi _ t d a b p => t.isBW && d.okLane t.regs && a.okReg t.regs && b.okReg t.regs && p.okGpr 1
  | .popc _ t d a | .clz _ t d a | .ctz _ t d a => t.isBW && d.okLane 1 && a.okReg t.regs
  | .brev _ t d a => t.isBW && d.okLane t.regs && a.okReg t.regs
  | .lea _ t _ d a b => t.isW && d.okLane t.regs && a.okReg t.regs && b.okI32
  | .addx _ t _ d a b => (t == .n32 || t == .n64) && d.okLane t.regs && a.okReg t.regs && b.okI t
  | .cmpInteger _ t cc _ a b => (t.isI || t.isN || t.isB) && cc.isInt && a.okReg t.regs && b.okI t
  | .setb _ t cc d a b =>
    (t.isI || t.isN || t.isB) && cc.isInt && d.okLane 1 && a.okReg t.regs && b.okI t
  | .sel _ t _ d a b => (t.isI || t.isN || t.isB) && d.okLane t.regs && a.okReg t.regs && b.okI t
  | .mov _ t d a => t.isBW && d.okAny t.regs && a.okReg t.regs
  | .movi _ t d imm => (t.isW || t.isBW) && d.okLane t.regs && (t.bits == 64 || imm.toNat / 2 ^ 32 == 0)
  | .mad _ t d a b p | .clamp _ t d a b p =>
    t.isW && d.okLane t.regs && a.okReg t.regs && b.okReg t.regs && p.okGpr t.regs
  | .addFloat _ t _ d a b | .subFloat _ t _ d a b | .mulFloat _ t _ d a b =>
    (t.isF || t.isP) && d.okLane t.regs && a.okReg t.regs && b.okI t
  | .fma _ t _ d a b p =>
    (t.isF || t.isP) && d.okLane t.regs && a.okReg t.regs && b.okReg t.regs && p.okGpr t.regs
  | .divFloat _ t _ d a b => t.isF && d.okLane t.regs && a.okReg t.regs && b.okI t
  | .rcp _ t _ d a | .sqrt _ t _ d a | .rsq _ t _ d a | .rndi _ t _ d a =>
    t.isF && d.okLane t.regs && a.okReg t.regs
  | .ex2 _ t d a | .lg2 _ t d a | .sin _ t d a | .cos _ t d a | .tanh _ t d a =>
    t.isT && d.okLane 1 && a.okReg 1
  | .minFloat _ t _ d a b | .maxFloat _ t _ d a b | .cpsign _ t d a b =>
    (t.isF || t.isP) && d.okLane t.regs && a.okReg t.regs && b.okI t
  | .cmpFloat _ t _ _ a b => t.isF && a.okReg t.regs && b.okI t
  | .classF _ t _ a b => t.isF && a.okReg t.regs && b.okI32
  | .scale _ t _ d a b => t.isF && d.okLane t.regs && a.okReg t.regs && b.okI32
  | .dot2 _ t _ d a b p => t.isP && d.okLane 1 && a.okReg 1 && b.okReg 1 && p.okGpr 1
  | .cvt _ t st rm d a =>
    t.isCvt && st.isCvt && t != st && d.okLane t.regs && a.okReg st.regs &&
      (rm == .rn || !((t.isI || t.isN) && (st.isI || st.isN)))
  | .pack _ t _ d a b => (t.isP || t.is8) && d.okLane 1 && a.okReg 1 && b.okReg 1
  | .unpack _ t d a => (t.isP || t.is8) && d.okLane 2 && a.okReg 1
  | .bsel _ d a b => d.okLane 1 && a.okReg 2 && b.okI32
  | .qnt _ t d a => t == .nq4 && d.okLane 1 && a.okReg 2
  | .dqt _ t d a b => (t == .f32 && d.okLane 2 || t.isP && d.okLane 1) && a.okReg 1 && b.okReg 1
  | .shfl _ _ d a b => d.okLane 1 && a.okReg 1 && b.okI32
  | .bcast _ d a b => d.okAny 1 && a.okReg 1 && b.okBcast
  | .vote _ _ d _ => d.okAny 1
  | .matchW _ t d a => t.isBW && d.okLane 1 && a.okReg t.regs
  | .redw _ op t d a => redOk op t && d.okUni t.regs && a.okReg t.regs
  | .scanw _ op t _ d a => redOk op t && d.okLane t.regs && a.okReg t.regs
  | .rnd _ t d => (t == .b32 || t == .f32 || t == .b64) && d.okLane t.regs
  | .rndSeed _ t a b => t == .b64 && a.okReg 2 && b.okReg 2
  | .kzero _ _ => true
  | .kadd _ t _ a | .ksub _ t _ a => t.isK && a.okReg 1
  | .kdot _ t _ a b => t.isK && a.okReg 1 && b.okReg 1
  | .kround _ t _ d _ => (t == .f32 || t == .bf16 || t == .f64) && d.okAny t.regs
  | .ksave _ d _ => (match d with | .v _ => false | .k i => i.toNat % 2 == 0 && decide (i.toNat ≤ 46))
  | .kload _ _ a => (match a with | .v _ => false | .k i => i.toNat % 2 == 0 && decide (i.toNat ≤ 46))
  | .kstat _ d _ => d.okAny 1
  | .ld _ t _ n d a _ => t.isL && cntOk t n && d.okLane (accRegs t n) && a.okGlobal
  | .st _ t _ n d a _ => t.isL && cntOk t n && d.okAny (accRegs t n) && a.okGlobal
  | .ldk _ t _ n d a _ => t.isL && cntOk t n && d.okUni (accRegs t n) && a.okGlobalUni
  | .ldsp _ t n fe clr d a _ => t.isL && cntOk t n && d.okLane (accRegs t n) && a.okGpr 1 && (fe || !clr)
  | .stsp _ t n _ d a _ => t.isL && cntOk t n && d.okAny (accRegs t n) && a.okGpr 1
  | .feget _ d a _ => d.okLane 1 && a.okGpr 1
  | .feset _ a _ | .feclr _ a _ => a.okGpr 1
  | .atom _ t op _ d a _ => atomOk op t && d.okLane (atomRegs op t) && a.okGlobal
  | .red _ t op o d a _ =>
    atomOk op t && op != .exch && op != .cas && (o == .no || o == .rel) && d.okAny (atomRegs op t) && a.okGlobal
  | .vatom _ t op _ d a _ => vatomOk op t && d.okLane 8 && a.okGlobal
  | .vred _ t op o d a _ => vatomOk op t && (o == .no || o == .rel) && d.okAny 8 && a.okGlobal
  | .waita _ tmo d a _ => decide (tmo.toNat ≤ 12) && d.okLane 1 && a.okGlobal
  | .wake _ a _ | .pfetch _ _ a _ | .evict _ _ a _ => a.okGlobal
  | .tcopy _ out shd _ cnv d a b =>
    d.okUni 1 && a.okUni 2 && b.okUni 1 && (out || !shd) && (!out || cnv == .no)
  | .tcwait _ _ => true
  | .trap _ _ | .bkpt _ | .rfe _ => true
  | .flagrd _ d => d.okAny 1
  | .flagclr _ f => f != 0
  | .csrr _ r d => csrOk r && d.okAny 2
  | .csrw _ r a => r == 0x022 && a.okUni 2
  | .tqpush _ _ b => b.okAny 1
  | .tqpop _ d _ | .tqtry _ _ d _ | .tqallow _ d _ => d.okAny 1
  | .cntsig _ _ a b | .cntwait _ a b => a.okAny 1 && b.okAny 2
  | .klaunch _ d a => d.okAny 1 && a.okAny 2
  | .fslot _ _ d => d.okUni 4
  | .spawn _ d a b => d.okAny 4 && a.okAny 2 && b.okAny 2
  | .fmark _ | .tret _ => true
  | .await _ d => d.okLane 1
  | .tidx _ _ d => d.okAny 2
  | .tstat _ d => d.okAny 1
  | .nop _ | .bra _ _ | .exit _ | .meet _ _ => true
  | .brx _ a | .ret _ a => a.okAny 2
  | .call _ d _ => d.okLane 2
  | .yield _ dl => dl != 0
  | .ralloc _ _ | .rfree _ _ => true
  | .rblk _ d => d.okUni 1
  | .vput _ _ a => a.okLane 1
  | .vget _ _ d => d.okLane 1
  | .vfree _ _ d => d.okAny 1
  | .bar _ _ | .barArrive _ _ | .barWait _ _ | .barTest _ _ _ => true
  | .barset _ _ n => n.okAny 1
  | .mma _ _ q _ _ st _ a b => a.toNat % 4 == 0 && decide (a.toNat + 7 * astr st + 3 ≤ 255) && qdmOk q b
  | .mmz _ _ | .accmov _ _ _ => true
  | .accld _ t glb _ a => t.isRow && (if glb then a.okAny 2 else a.okLane (rowRegs t))
  | .accst _ t glb shd rm _ a =>
    t.isRow && (if glb then a.okAny 2 else a.okLane (rowRegs t) && !shd) && (t != .f32 || rm == .rn)
  | .tfetch _ a | .tunpin _ a => a.toNat % 2 == 0
  | .mmstat _ _ d => d.okUni 1
  | .publish _ a b => a.okAny 1 && b.okAny 1
  | .sfetch _ a | .sevict _ a => a.okAny 2
  | .sstat _ d a => d.okAny 1 && a.okAny 2
  | .rflv _ d => d.okAny 1
  | .boost _ l d a => (l == 1 || l == 2) && d.okAny 1 && a.okAny 1
  | .bstat _ d => d.okAny 2
  | .pgateOn _ d | .pgateOff _ d => d.okAny 1
  | .wrec _ _ d a => d.okAny 2 && a.okAny 1
  | _ => true

end Sys2Proof
end

