-- ==== Sys2Proof/WellFormed.lean ====
section
/-!
DEFINITION. A well-formed instruction: its fields are an encoding that R87 accepts (Machine/Form.lean says which).
-/

namespace Sys2Proof

/-- The fields of i are an instruction under R87. -/
def WellFormed (i : Instr) : Prop := formOk i = true

end Sys2Proof
end

