-- ==== Sys2Proof/Decode.lean ====
section
/-!
DEFINITION. Instruction words to instructions and back (R30, R31, R40 to R53, R67 to R87). A word is first cut into its
fields (Raw); decode reads the fields, and accepts the reading only when the instruction is well formed and writing it
again gives the same fields, so that a set reserved bit is never an instruction (R53, R87). The encoder stands after it.
-/

namespace Sys2Proof

/-- The fields of a word (R30). -/
structure Raw where
  op : BitVec 10
  ctl : Ctl
  md : BitVec 12
  d : BitVec 20
  a : BitVec 20
  b : BitVec 20
deriving DecidableEq, Repr

/-- Why a word is not an instruction (R53, R87); each raises ILLEGAL when it is issued (R54). -/
inductive Reject
  /-- The opcode is in no assignment table (R33, R67). -/
  | unassignedOpcode
  /-- A sub-field holds a reserved code or an operand kind that no operand there accepts. -/
  | reservedCode
  /-- A type, operand, group or modifier that the instruction does not accept (formOk). -/
  | notAccepted
  /-- A reserved bit or an unused field is not zero. -/
  | reservedBits
  /-- Fewer than 12 bytes. -/
  | short
deriving DecidableEq, Repr

/-- One bit. -/
def bit (b : Bool) : BitVec 1 := if b then 1#1 else 0#1

/-- TY codes (R68). -/
def Ty.code : Ty → BitVec 5
  | .i8 => 0x00#5 | .i16 => 0x01#5 | .i32 => 0x02#5 | .i64 => 0x03#5
  | .n8 => 0x04#5 | .n16 => 0x05#5 | .n32 => 0x06#5 | .n64 => 0x07#5
  | .b8 => 0x08#5 | .b16 => 0x09#5 | .b32 => 0x0a#5 | .b64 => 0x0b#5
  | .f16 => 0x0c#5 | .bf16 => 0x0d#5 | .f32 => 0x0e#5 | .f64 => 0x0f#5
  | .e4m3 => 0x10#5 | .e5m2 => 0x11#5 | .f16x2 => 0x12#5 | .bf16x2 => 0x13#5 | .nq4 => 0x14#5

/-- The type of a TY code; 0x15 to 0x1f are reserved (R68). -/
def Ty.ofCode (x : BitVec 5) : Option Ty :=
  match x.toNat with
  | 0x00 => some .i8 | 0x01 => some .i16 | 0x02 => some .i32 | 0x03 => some .i64
  | 0x04 => some .n8 | 0x05 => some .n16 | 0x06 => some .n32 | 0x07 => some .n64
  | 0x08 => some .b8 | 0x09 => some .b16 | 0x0a => some .b32 | 0x0b => some .b64
  | 0x0c => some .f16 | 0x0d => some .bf16 | 0x0e => some .f32 | 0x0f => some .f64
  | 0x10 => some .e4m3 | 0x11 => some .e5m2 | 0x12 => some .f16x2 | 0x13 => some .bf16x2
  | 0x14 => some .nq4
  | _ => none

/-- RM codes (R48, R69). -/
def Rm.code : Rm → BitVec 2
  | .rn => 0#2 | .rz => 1#2 | .rd => 2#2 | .ru => 3#2

/-- The mode of an RM code. -/
def Rm.ofCode (x : BitVec 2) : Rm :=
  match x.toNat with
  | 0 => .rn | 1 => .rz | 2 => .rd | _ => .ru

/-- CMP codes (R70). -/
def Cmp.code : Cmp → BitVec 4
  | .eq => 0x0#4 | .ne => 0x1#4 | .lt => 0x2#4 | .le => 0x3#4 | .gt => 0x4#4 | .ge => 0x5#4
  | .num => 0x6#4 | .nan => 0x7#4 | .equ => 0x8#4 | .neu => 0x9#4 | .ltu => 0xa#4 | .leu => 0xb#4
  | .gtu => 0xc#4 | .geu => 0xd#4

/-- The comparison of a CMP code; 0xe and 0xf are reserved (R70). -/
def Cmp.ofCode (x : BitVec 4) : Option Cmp :=
  match x.toNat with
  | 0x0 => some .eq | 0x1 => some .ne | 0x2 => some .lt | 0x3 => some .le | 0x4 => some .gt | 0x5 => some .ge
  | 0x6 => some .num | 0x7 => some .nan | 0x8 => some .equ | 0x9 => some .neu | 0xa => some .ltu
  | 0xb => some .leu | 0xc => some .gtu | 0xd => some .geu
  | _ => none

/-- CH codes (R71). -/
def Ch.code : Ch → BitVec 2
  | .no => 0#2 | .ef => 1#2 | .en => 2#2 | .el => 3#2

/-- The hint of a CH code. -/
def Ch.ofCode (x : BitVec 2) : Ch :=
  match x.toNat with
  | 0 => .no | 1 => .ef | 2 => .en | _ => .el

/-- CNT codes (R72). -/
def Cnt.code : Cnt → BitVec 2
  | .x1 => 0#2 | .x2 => 1#2 | .x4 => 2#2

/-- The count of a CNT code; 11 is reserved (R72). -/
def Cnt.ofCode (x : BitVec 2) : Option Cnt :=
  match x.toNat with
  | 0 => some .x1 | 1 => some .x2 | 2 => some .x4 | _ => none

/-- ORD codes (R73). -/
def MOrd.code : MOrd → BitVec 2
  | .no => 0#2 | .acq => 1#2 | .rel => 2#2 | .acqrel => 3#2

/-- The ordering of an ORD code. -/
def MOrd.ofCode (x : BitVec 2) : MOrd :=
  match x.toNat with
  | 0 => .no | 1 => .acq | 2 => .rel | _ => .acqrel

/-- AOP codes (R74). -/
def Aop.code : Aop → BitVec 4
  | .add => 0#4 | .min => 1#4 | .max => 2#4 | .and => 3#4 | .or => 4#4 | .xor => 5#4
  | .inc => 6#4 | .dec => 7#4 | .exch => 8#4 | .cas => 9#4

/-- The operation of an AOP code; codes not listed are reserved (R74). -/
def Aop.ofCode (x : BitVec 4) : Option Aop :=
  match x.toNat with
  | 0 => some .add | 1 => some .min | 2 => some .max | 3 => some .and | 4 => some .or | 5 => some .xor
  | 6 => some .inc | 7 => some .dec | 8 => some .exch | 9 => some .cas
  | _ => none

/-- Special-register numbers (R45). -/
def SReg.code : SReg → BitVec 12
  | .lane => 0x000#12 | .warp => 0x001#12 | .gwarp => 0x002#12
  | .groupX => 0x004#12 | .groupY => 0x005#12 | .groupZ => 0x006#12
  | .ngroupX => 0x008#12 | .ngroupY => 0x009#12 | .ngroupZ => 0x00a#12
  | .it => 0x010#12 | .core => 0x020#12 | .colX => 0x021#12 | .colY => 0x022#12 | .die => 0x023#12
  | .tier => 0x024#12 | .clk => 0x030#12 | .kbase => 0x031#12

/-- The special register of a number; every other number is refused (R45). -/
def SReg.ofCode (x : BitVec 12) : Option SReg :=
  match x.toNat with
  | 0x000 => some .lane | 0x001 => some .warp | 0x002 => some .gwarp
  | 0x004 => some .groupX | 0x005 => some .groupY | 0x006 => some .groupZ
  | 0x008 => some .ngroupX | 0x009 => some .ngroupY | 0x00a => some .ngroupZ
  | 0x010 => some .it | 0x020 => some .core | 0x021 => some .colX | 0x022 => some .colY | 0x023 => some .die
  | 0x024 => some .tier | 0x030 => some .clk | 0x031 => some .kbase
  | _ => none

/-- SHM codes (R77). -/
def ShMode.code : ShMode → BitVec 2
  | .idx => 0#2 | .up => 1#2 | .dn => 2#2 | .xor => 3#2

/-- The mode of an SHM code. -/
def ShMode.ofCode (x : BitVec 2) : ShMode :=
  match x.toNat with
  | 0 => .idx | 1 => .up | 2 => .dn | _ => .xor

/-- VTM codes (R77). -/
def VoteMode.code : VoteMode → BitVec 2
  | .all => 0#2 | .any => 1#2 | .eq => 2#2 | .ballot => 3#2

/-- The mode of a VTM code. -/
def VoteMode.ofCode (x : BitVec 2) : VoteMode :=
  match x.toNat with
  | 0 => .all | 1 => .any | 2 => .eq | _ => .ballot

/-- CNV codes (R79). -/
def Cnv.code : Cnv → BitVec 3
  | .no => 0#3 | .dqBf16 => 1#3 | .dqF16 => 2#3 | .cvBf16 => 3#3 | .cvF32 => 4#3

/-- The conversion of a CNV code; 101 to 111 are reserved (R79). -/
def Cnv.ofCode (x : BitVec 3) : Option Cnv :=
  match x.toNat with
  | 0 => some .no | 1 => some .dqBf16 | 2 => some .dqF16 | 3 => some .cvBf16 | 4 => some .cvF32
  | _ => none

/-- FLD codes (R77). -/
def TFld.code : TFld → BitVec 2
  | .lo => 0#2 | .hi => 1#2 | .arg => 2#2

/-- The field of an FLD code; 11 is reserved (R77, R280). -/
def TFld.ofCode (x : BitVec 2) : Option TFld :=
  match x.toNat with
  | 0 => some .lo | 1 => some .hi | 2 => some .arg
  | _ => none

/-- CTR codes (R342). -/
def MmCtr.code : MmCtr → BitVec 2
  | .skip => 0#2 | .mma => 1#2 | .busy => 2#2 | .pin => 3#2

/-- The counter of a CTR code. -/
def MmCtr.ofCode (x : BitVec 2) : MmCtr :=
  match x.toNat with
  | 0 => .skip | 1 => .mma | 2 => .busy | _ => .pin

/-- KIND codes of wrec (R77). -/
def WKind.code : WKind → BitVec 2
  | .bsu => 0#2 | .hsu => 1#2 | .esu => 2#2

/-- The field of a KIND code; 11 is refused (R78, R416). -/
def WKind.ofCode (x : BitVec 2) : Option WKind :=
  match x.toNat with
  | 0 => some .bsu | 1 => some .hsu | 2 => some .esu
  | _ => none

/-- QDM codes (R51). -/
def Qdm.code : Qdm → BitVec 2
  | .all => 0#2 | .qd4 => 1#2 | .qd2 => 2#2

/-- The mode of a QDM code; 11 is reserved (R51). -/
def Qdm.ofCode (x : BitVec 2) : Option Qdm :=
  match x.toNat with
  | 0 => some .all | 1 => some .qd4 | 2 => some .qd2
  | _ => none

/-- An operand field of kind 00 that holds an index (R40, R41). -/
def eRes (i : BitVec n) : BitVec 20 := i.setWidth 20

/-- An operand field of kind 01 (R40). -/
def eUni (i : BitVec 6) : BitVec 20 := 1#2 ++ 0#12 ++ i

/-- The operand field of a destination or register operand (R40). -/
def Dst.enc : Dst → BitVec 20
  | .v i => 0#2 ++ 0#10 ++ i
  | .k i => 1#2 ++ 0#12 ++ i

/-- The operand field of a source (R40). -/
def Src.enc : Src → BitVec 20
  | .v i => 0#2 ++ 0#10 ++ i
  | .k i => 1#2 ++ 0#12 ++ i
  | .sp r => 2#2 ++ 0#6 ++ r.code
  | .imm b => 3#2 ++ b

/-- Source C in MOD 9:0 (R48); only lane and uniform registers have a code. -/
def Src.encC : Src → Option (BitVec 10)
  | .v i => some (0#2 ++ i)
  | .k i => some (1#2 ++ 0#2 ++ i)
  | .sp _ => none
  | .imm _ => none

/-- A register operand of kind 00 or 01 (R40). -/
def pDst (x : BitVec 20) : Option Dst :=
  match (x.extractLsb' 18 2).toNat with
  | 0 => some (.v (x.extractLsb' 0 8))
  | 1 => some (.k (x.extractLsb' 0 6))
  | _ => none

/-- A source operand of any kind (R40). -/
def pSrc (x : BitVec 20) : Option Src :=
  match (x.extractLsb' 18 2).toNat with
  | 0 => some (.v (x.extractLsb' 0 8))
  | 1 => some (.k (x.extractLsb' 0 6))
  | 2 => (SReg.ofCode (x.extractLsb' 0 12)).map .sp
  | _ => some (.imm (x.extractLsb' 0 18))

/-- Source C (R48). -/
def pSrcC (m : BitVec 12) : Option Src :=
  match (m.extractLsb' 8 2).toNat with
  | 0 => some (.v (m.extractLsb' 0 8))
  | 1 => some (.k (m.extractLsb' 0 6))
  | _ => none

/-- TY in MOD 11:7 (R76). -/
def fTy (m : BitVec 12) : Option Ty := Ty.ofCode (m.extractLsb' 7 5)

/-- MOD of layout T (R76). -/
def mT (t : Ty) : BitVec 12 := t.code ++ 0#7

/-- MOD of layout TR (R76). -/
def mTR (t : Ty) (rm : Rm) : BitVec 12 := t.code ++ rm.code ++ 0#5

/-- Opcodes of mad (R80). -/
def opMad : Ty → Option (BitVec 10)
  | .i32 => some 0x030#10 | .n32 => some 0x031#10 | .i64 => some 0x032#10 | .n64 => some 0x033#10
  | _ => none

/-- Opcodes of clamp (R80). -/
def opClamp : Ty → Option (BitVec 10)
  | .i32 => some 0x034#10 | .n32 => some 0x035#10 | .i64 => some 0x036#10 | .n64 => some 0x037#10
  | _ => none

/-- Opcodes of bfi (R80). -/
def opBfi : Ty → Option (BitVec 10)
  | .b32 => some 0x038#10 | .b64 => some 0x039#10
  | _ => none

/-- Opcodes of fma (R81). -/
def opFma : Ty → Option (BitVec 10)
  | .f16 => some 0x0b0#10 | .bf16 => some 0x0b1#10 | .f32 => some 0x0b2#10 | .f64 => some 0x0b3#10
  | .f16x2 => some 0x0b6#10 | .bf16x2 => some 0x0b7#10
  | _ => none

/-- Opcodes of dot2 (R81). -/
def opDot2 : Ty → Option (BitVec 10)
  | .f16x2 => some 0x0b4#10 | .bf16x2 => some 0x0b5#10
  | _ => none

/-- The fields of an instruction (R80 to R86); an event has none. -/
def toRaw : Instr → Option Raw
  | .addInteger c t d a b => some ⟨0x001#10, c, mT t, d.enc, a.enc, b.enc⟩
  | .subInteger c t d a b => some ⟨0x002#10, c, mT t, d.enc, a.enc, b.enc⟩
  | .mulInteger c t d a b => some ⟨0x003#10, c, mT t, d.enc, a.enc, b.enc⟩
  | .mulhi c t d a b => some ⟨0x004#10, c, mT t, d.enc, a.enc, b.enc⟩
  | .mulw c t d a b => some ⟨0x005#10, c, mT t, d.enc, a.enc, b.enc⟩
  | .divInteger c t d a b => some ⟨0x006#10, c, mT t, d.enc, a.enc, b.enc⟩
  | .rem c t d a b => some ⟨0x007#10, c, mT t, d.enc, a.enc, b.enc⟩
  | .neg c t d a => some ⟨0x008#10, c, mT t, d.enc, a.enc, 0⟩
  | .abs c t d a => some ⟨0x009#10, c, mT t, d.enc, a.enc, 0⟩
  | .minInteger c t d a b => some ⟨0x00a#10, c, mT t, d.enc, a.enc, b.enc⟩
  | .maxInteger c t d a b => some ⟨0x00b#10, c, mT t, d.enc, a.enc, b.enc⟩
  | .and c t d a b => some ⟨0x00c#10, c, mT t, d.enc, a.enc, b.enc⟩
  | .or c t d a b => some ⟨0x00d#10, c, mT t, d.enc, a.enc, b.enc⟩
  | .xor c t d a b => some ⟨0x00e#10, c, mT t, d.enc, a.enc, b.enc⟩
  | .not c t d a => some ⟨0x00f#10, c, mT t, d.enc, a.enc, 0⟩
  | .andn c t d a b => some ⟨0x010#10, c, mT t, d.enc, a.enc, b.enc⟩
  | .shl c t d a b => some ⟨0x011#10, c, mT t, d.enc, a.enc, b.enc⟩
  | .shr c t d a b => some ⟨0x012#10, c, mT t, d.enc, a.enc, b.enc⟩
  | .sra c t d a b => some ⟨0x013#10, c, mT t, d.enc, a.enc, b.enc⟩
  | .rotl c t d a b => some ⟨0x014#10, c, mT t, d.enc, a.enc, b.enc⟩
  | .bfx c t d a b => some ⟨0x015#10, c, mT t, d.enc, a.enc, b.enc⟩
  | .popc c t d a => some ⟨0x016#10, c, mT t, d.enc, a.enc, 0⟩
  | .clz c t d a => some ⟨0x017#10, c, mT t, d.enc, a.enc, 0⟩
  | .ctz c t d a => some ⟨0x018#10, c, mT t, d.enc, a.enc, 0⟩
  | .brev c t d a => some ⟨0x019#10, c, mT t, d.enc, a.enc, 0⟩
  | .lea c t sh d a b => some ⟨0x01a#10, c, t.code ++ sh ++ 0#4, d.enc, a.enc, b.enc⟩
  | .addx c t gs d a b => some ⟨0x01b#10, c, t.code ++ 0#4 ++ gs, d.enc, a.enc, b.enc⟩
  | .cmpInteger c t cc g a b => some ⟨0x01c#10, c, t.code ++ cc.code ++ 0#3, eRes g, a.enc, b.enc⟩
  | .setb c t cc d a b => some ⟨0x01d#10, c, t.code ++ cc.code ++ 0#3, d.enc, a.enc, b.enc⟩
  | .sel c t gs d a b => some ⟨0x01e#10, c, t.code ++ 0#4 ++ gs, d.enc, a.enc, b.enc⟩
  | .mov c t d a => some ⟨0x01f#10, c, mT t, d.enc, a.enc, 0⟩
  | .movi c t d imm => some ⟨0x020#10, c, mT t, d.enc, imm.extractLsb' 20 20, imm.extractLsb' 0 20⟩
  | .addFloat c t rm d a b => some ⟨0x080#10, c, mTR t rm, d.enc, a.enc, b.enc⟩
  | .subFloat c t rm d a b => some ⟨0x081#10, c, mTR t rm, d.enc, a.enc, b.enc⟩
  | .mulFloat c t rm d a b => some ⟨0x082#10, c, mTR t rm, d.enc, a.enc, b.enc⟩
  | .minFloat c t nan d a b => some ⟨0x083#10, c, t.code ++ bit nan ++ 0#6, d.enc, a.enc, b.enc⟩
  | .maxFloat c t nan d a b => some ⟨0x084#10, c, t.code ++ bit nan ++ 0#6, d.enc, a.enc, b.enc⟩
  | .cmpFloat c t cc g a b => some ⟨0x085#10, c, t.code ++ cc.code ++ 0#3, eRes g, a.enc, b.enc⟩
  | .rcp c t rm d a => some ⟨0x086#10, c, mTR t rm, d.enc, a.enc, 0⟩
  | .rsq c t rm d a => some ⟨0x087#10, c, mTR t rm, d.enc, a.enc, 0⟩
  | .sqrt c t rm d a => some ⟨0x088#10, c, mTR t rm, d.enc, a.enc, 0⟩
  | .divFloat c t rm d a b => some ⟨0x089#10, c, mTR t rm, d.enc, a.enc, b.enc⟩
  | .ex2 c t d a => some ⟨0x08a#10, c, mT t, d.enc, a.enc, 0⟩
  | .lg2 c t d a => some ⟨0x08b#10, c, mT t, d.enc, a.enc, 0⟩
  | .sin c t d a => some ⟨0x08c#10, c, mT t, d.enc, a.enc, 0⟩
  | .cos c t d a => some ⟨0x08d#10, c, mT t, d.enc, a.enc, 0⟩
  | .tanh c t d a => some ⟨0x08e#10, c, mT t, d.enc, a.enc, 0⟩
  | .classF c t g a b => some ⟨0x08f#10, c, mT t, eRes g, a.enc, b.enc⟩
  | .rndi c t rm d a => some ⟨0x090#10, c, mTR t rm, d.enc, a.enc, 0⟩
  | .cpsign c t d a b => some ⟨0x091#10, c, mT t, d.enc, a.enc, b.enc⟩
  | .scale c t rm d a b => some ⟨0x092#10, c, mTR t rm, d.enc, a.enc, b.enc⟩
  | .cvt c t st rm d a => some ⟨0x100#10, c, t.code ++ st.code ++ rm.code, d.enc, a.enc, 0⟩
  | .pack c t rm d a b => some ⟨0x101#10, c, mTR t rm, d.enc, a.enc, b.enc⟩
  | .unpack c t d a => some ⟨0x102#10, c, mT t, d.enc, a.enc, 0⟩
  | .bsel c d a b => some ⟨0x103#10, c, 0, d.enc, a.enc, b.enc⟩
  | .qnt c t d a => some ⟨0x104#10, c, mT t, d.enc, a.enc, 0⟩
  | .dqt c t d a b => some ⟨0x105#10, c, mT t, d.enc, a.enc, b.enc⟩
  | .shfl c m d a b => some ⟨0x110#10, c, m.code ++ 0#10, d.enc, a.enc, b.enc⟩
  | .vote c m d g => some ⟨0x111#10, c, m.code ++ 0#10, d.enc, eRes g, 0⟩
  | .redw c op t d a => some ⟨0x112#10, c, t.code ++ op.code.extractLsb' 0 3 ++ 0#4, d.enc, a.enc, 0⟩
  | .scanw c op t exc d a => some ⟨0x113#10, c, t.code ++ op.code.extractLsb' 0 3 ++ bit exc ++ 0#3, d.enc, a.enc, 0⟩
  | .matchW c t d a => some ⟨0x114#10, c, mT t, d.enc, a.enc, 0⟩
  | .bcast c d a b => some ⟨0x115#10, c, 0, d.enc, a.enc, b.enc⟩
  | .rnd c t d => some ⟨0x118#10, c, t.code ++ 0#7, d.enc, 0, 0⟩
  | .rndSeed c t a b => some ⟨0x118#10, c, t.code ++ 1#1 ++ 0#6, 0, a.enc, b.enc⟩
  | .kzero c q => some ⟨0x120#10, c, 0, eRes q, 0, 0⟩
  | .kadd c t q a => some ⟨0x121#10, c, mT t, eRes q, a.enc, 0⟩
  | .kdot c t q a b => some ⟨0x122#10, c, mT t, eRes q, a.enc, b.enc⟩
  | .ksub c t q a => some ⟨0x123#10, c, mT t, eRes q, a.enc, 0⟩
  | .kround c t rm d q => some ⟨0x124#10, c, mTR t rm, d.enc, eRes q, 0⟩
  | .ksave c d q => some ⟨0x125#10, c, 0, d.enc, eRes q, 0⟩
  | .kload c q a => some ⟨0x126#10, c, 0, eRes q, a.enc, 0⟩
  | .kstat c d q => some ⟨0x127#10, c, 0, d.enc, eRes q, 0⟩
  | .ld c t ch n d a off => some ⟨0x180#10, c, t.code ++ ch.code ++ n.code ++ 0#3, d.enc, a.enc, off⟩
  | .st c t ch n d a off => some ⟨0x181#10, c, t.code ++ ch.code ++ n.code ++ 0#3, d.enc, a.enc, off⟩
  | .ldk c t ch n d a off => some ⟨0x182#10, c, t.code ++ ch.code ++ n.code ++ 0#3, d.enc, a.enc, off⟩
  | .ldsp c t n fe clr d a off => some ⟨0x183#10, c, t.code ++ 0#2 ++ n.code ++ bit fe ++ bit clr ++ 0#1, d.enc, a.enc, off⟩
  | .stsp c t n fe d a off => some ⟨0x184#10, c, t.code ++ 0#2 ++ n.code ++ bit fe ++ 0#2, d.enc, a.enc, off⟩
  | .feget c d a off => some ⟨0x185#10, c, 0, d.enc, a.enc, off⟩
  | .feset c a off => some ⟨0x186#10, c, 0, 0, a.enc, off⟩
  | .feclr c a off => some ⟨0x187#10, c, 0, 0, a.enc, off⟩
  | .atom c t op o d a off => some ⟨0x188#10, c, t.code ++ op.code ++ o.code ++ 0#1, d.enc, a.enc, off⟩
  | .red c t op o d a off => some ⟨0x189#10, c, t.code ++ op.code ++ o.code ++ 0#1, d.enc, a.enc, off⟩
  | .vatom c t op o d a off => some ⟨0x18a#10, c, t.code ++ op.code ++ o.code ++ 0#1, d.enc, a.enc, off⟩
  | .vred c t op o d a off => some ⟨0x18b#10, c, t.code ++ op.code ++ o.code ++ 0#1, d.enc, a.enc, off⟩
  | .waita c tmo d a off => some ⟨0x18c#10, c, tmo ++ 0#8, d.enc, a.enc, off⟩
  | .wake c a off => some ⟨0x18d#10, c, 0, 0, a.enc, off⟩
  | .pfetch c ch a off => some ⟨0x18e#10, c, 0#5 ++ ch.code ++ 0#5, 0, a.enc, off⟩
  | .evict c ch a off => some ⟨0x18f#10, c, 0#5 ++ ch.code ++ 0#5, 0, a.enc, off⟩
  | .tcopy c out shd tag cnv d a b => some ⟨0x190#10, c, bit out ++ bit shd ++ tag ++ cnv.code ++ 0#3, d.enc, a.enc, b.enc⟩
  | .tcwait c tag => some ⟨0x191#10, c, 0#8 ++ tag, 0, 0, 0⟩
  | .bar c b => some ⟨0x200#10, c, 0, 0, eRes b, 0⟩
  | .barArrive c b => some ⟨0x200#10, c, 1, 0, eRes b, 0⟩
  | .barWait c b => some ⟨0x200#10, c, 2, 0, eRes b, 0⟩
  | .barTest c g b => some ⟨0x200#10, c, 3, eRes g, eRes b, 0⟩
  | .barset c b n => some ⟨0x201#10, c, 0, 0, eRes b, n.enc⟩
  | .tqpush c q b => some ⟨0x208#10, c, 0, 0, eRes q, b.enc⟩
  | .tqpop c d q => some ⟨0x209#10, c, 0, d.enc, eRes q, 0⟩
  | .tqtry c gs d q => some ⟨0x20a#10, c, 0#9 ++ gs, d.enc, eRes q, 0⟩
  | .tqallow c d q => some ⟨0x20b#10, c, 0, d.enc, eRes q, 0⟩
  | .cntsig c set a b => some ⟨0x20c#10, c, 0#11 ++ bit set, 0, a.enc, b.enc⟩
  | .cntwait c a b => some ⟨0x20d#10, c, 0, 0, a.enc, b.enc⟩
  | .spawn c d a b => some ⟨0x210#10, c, 0, d.enc, a.enc, b.enc⟩
  | .fmark c => some ⟨0x211#10, c, 0, 0, 0, 0⟩
  | .await c d => some ⟨0x212#10, c, 0, d.enc, 0, 0⟩
  | .tret c => some ⟨0x213#10, c, 0, 0, 0, 0⟩
  | .tidx c f d => some ⟨0x214#10, c, 0#10 ++ f.code, d.enc, 0, 0⟩
  | .tstat c d => some ⟨0x215#10, c, 0, d.enc, 0, 0⟩
  | .vput c f a => some ⟨0x218#10, c, 0#10 ++ f, 0, a.enc, 0⟩
  | .vget c f d => some ⟨0x219#10, c, 0#10 ++ f, d.enc, 0, 0⟩
  | .vfree c f d => some ⟨0x21a#10, c, 0#10 ++ f, d.enc, 0, 0⟩
  | .mma c fs qdm acc zsk st d a b => some ⟨0x280#10, c, fs ++ qdm.code ++ bit acc ++ bit zsk ++ st ++ 0#3, eRes d, eRes a, eUni b⟩
  | .mmz c d => some ⟨0x281#10, c, 0, eRes d, 0, 0⟩
  | .accld c t glb d a => some ⟨0x282#10, c, t.code ++ bit glb ++ 0#6, eRes d, a.enc, 0⟩
  | .accst c t glb shd rm d a => some ⟨0x283#10, c, t.code ++ bit glb ++ bit shd ++ rm.code ++ 0#3, eRes d, a.enc, 0⟩
  | .accmov c d a => some ⟨0x284#10, c, 0, eRes d, eRes a, 0⟩
  | .tfetch c a => some ⟨0x285#10, c, 0, 0, eUni a, 0⟩
  | .tunpin c a => some ⟨0x286#10, c, 0, 0, eUni a, 0⟩
  | .mmstat c r d => some ⟨0x287#10, c, 0#10 ++ r.code, d.enc, 0, 0⟩
  | .publish c a b => some ⟨0x290#10, c, 0, 0, a.enc, b.enc⟩
  | .sfetch c a => some ⟨0x291#10, c, 0, 0, a.enc, 0⟩
  | .sstat c d a => some ⟨0x292#10, c, 0, d.enc, a.enc, 0⟩
  | .sevict c a => some ⟨0x293#10, c, 0, 0, a.enc, 0⟩
  | .nop c => some ⟨0x300#10, c, 0, 0, 0, 0⟩
  | .bra c off => some ⟨0x301#10, c, 0, 0, off.extractLsb' 20 20, off.extractLsb' 0 20⟩
  | .brx c a => some ⟨0x302#10, c, 0, 0, a.enc, 0⟩
  | .call c d off => some ⟨0x303#10, c, 0, d.enc, off.extractLsb' 20 20, off.extractLsb' 0 20⟩
  | .ret c a => some ⟨0x304#10, c, 0, 0, a.enc, 0⟩
  | .exit c => some ⟨0x305#10, c, 0, 0, 0, 0⟩
  | .meet c off => some ⟨0x306#10, c, 0, 0, off.extractLsb' 20 20, off.extractLsb' 0 20⟩
  | .yield c n => some ⟨0x307#10, c, n, 0, 0, 0⟩
  | .ralloc c n => some ⟨0x308#10, c, 0#9 ++ n, 0, 0, 0⟩
  | .rfree c n => some ⟨0x309#10, c, 0#9 ++ n, 0, 0, 0⟩
  | .rblk c d => some ⟨0x30a#10, c, 0, d.enc, 0, 0⟩
  | .klaunch c d a => some ⟨0x310#10, c, 0, d.enc, a.enc, 0⟩
  | .fslot c n d => some ⟨0x311#10, c, 0#9 ++ n, d.enc, 0, 0⟩
  | .trap c n => some ⟨0x380#10, c, n, 0, 0, 0⟩
  | .bkpt c => some ⟨0x381#10, c, 0, 0, 0, 0⟩
  | .flagrd c d => some ⟨0x382#10, c, 0, d.enc, 0, 0⟩
  | .flagclr c n => some ⟨0x383#10, c, 0#9 ++ n, 0, 0, 0⟩
  | .csrr c r d => some ⟨0x384#10, c, r, d.enc, 0, 0⟩
  | .csrw c r a => some ⟨0x385#10, c, r, 0, a.enc, 0⟩
  | .rfe c => some ⟨0x386#10, c, 0, 0, 0, 0⟩
  | .rflv c d => some ⟨0x390#10, c, 0, d.enc, 0, 0⟩
  | .boost c l d a => some ⟨0x391#10, c, 0#10 ++ l, d.enc, a.enc, 0⟩
  | .bstat c d => some ⟨0x392#10, c, 0, d.enc, 0, 0⟩
  | .pgateOn c d => some ⟨0x393#10, c, 1, d.enc, 0, 0⟩
  | .pgateOff c d => some ⟨0x393#10, c, 0, d.enc, 0, 0⟩
  | .wrec c k d a => some ⟨0x394#10, c, 0#10 ++ k.code, d.enc, a.enc, 0⟩
  | .mad c t d a b p => (opMad t).bind fun o => (p.encC).map fun y => ⟨o, c, 0#2 ++ y, d.enc, a.enc, b.enc⟩
  | .clamp c t d a b p => (opClamp t).bind fun o => (p.encC).map fun y => ⟨o, c, 0#2 ++ y, d.enc, a.enc, b.enc⟩
  | .bfi c t d a b p => (opBfi t).bind fun o => (p.encC).map fun y => ⟨o, c, 0#2 ++ y, d.enc, a.enc, b.enc⟩
  | .fma c t rm d a b p => (opFma t).bind fun o => (p.encC).map fun y => ⟨o, c, rm.code ++ y, d.enc, a.enc, b.enc⟩
  | .dot2 c t rm d a b p => (opDot2 t).bind fun o => (p.encC).map fun y => ⟨o, c, rm.code ++ y, d.enc, a.enc, b.enc⟩  | _ => none

/-- Reads the integer class of R80 to R86. -/
def ofRawInt (r : Raw) : Option Instr :=
  match r.op.toNat with
  | 0x001 => do
    let t ← fTy r.md
    let d ← pDst r.d
    let a ← pSrc r.a
    let b ← pSrc r.b
    some (.addInteger r.ctl t d a b)
  | 0x002 => do
    let t ← fTy r.md
    let d ← pDst r.d
    let a ← pSrc r.a
    let b ← pSrc r.b
    some (.subInteger r.ctl t d a b)
  | 0x003 => do
    let t ← fTy r.md
    let d ← pDst r.d
    let a ← pSrc r.a
    let b ← pSrc r.b
    some (.mulInteger r.ctl t d a b)
  | 0x004 => do
    let t ← fTy r.md
    let d ← pDst r.d
    let a ← pSrc r.a
    let b ← pSrc r.b
    some (.mulhi r.ctl t d a b)
  | 0x005 => do
    let t ← fTy r.md
    let d ← pDst r.d
    let a ← pSrc r.a
    let b ← pSrc r.b
    some (.mulw r.ctl t d a b)
  | 0x006 => do
    let t ← fTy r.md
    let d ← pDst r.d
    let a ← pSrc r.a
    let b ← pSrc r.b
    some (.divInteger r.ctl t d a b)
  | 0x007 => do
    let t ← fTy r.md
    let d ← pDst r.d
    let a ← pSrc r.a
    let b ← pSrc r.b
    some (.rem r.ctl t d a b)
  | 0x008 => do
    let t ← fTy r.md
    let d ← pDst r.d
    let a ← pSrc r.a
    some (.neg r.ctl t d a)
  | 0x009 => do
    let t ← fTy r.md
    let d ← pDst r.d
    let a ← pSrc r.a
    some (.abs r.ctl t d a)
  | 0x00a => do
    let t ← fTy r.md
    let d ← pDst r.d
    let a ← pSrc r.a
    let b ← pSrc r.b
    some (.minInteger r.ctl t d a b)
  | 0x00b => do
    let t ← fTy r.md
    let d ← pDst r.d
    let a ← pSrc r.a
    let b ← pSrc r.b
    some (.maxInteger r.ctl t d a b)
  | 0x00c => do
    let t ← fTy r.md
    let d ← pDst r.d
    let a ← pSrc r.a
    let b ← pSrc r.b
    some (.and r.ctl t d a b)
  | 0x00d => do
    let t ← fTy r.md
    let d ← pDst r.d
    let a ← pSrc r.a
    let b ← pSrc r.b
    some (.or r.ctl t d a b)
  | 0x00e => do
    let t ← fTy r.md
    let d ← pDst r.d
    let a ← pSrc r.a
    let b ← pSrc r.b
    some (.xor r.ctl t d a b)
  | 0x00f => do
    let t ← fTy r.md
    let d ← pDst r.d
    let a ← pSrc r.a
    some (.not r.ctl t d a)
  | 0x010 => do
    let t ← fTy r.md
    let d ← pDst r.d
    let a ← pSrc r.a
    let b ← pSrc r.b
    some (.andn r.ctl t d a b)
  | 0x011 => do
    let t ← fTy r.md
    let d ← pDst r.d
    let a ← pSrc r.a
    let b ← pSrc r.b
    some (.shl r.ctl t d a b)
  | 0x012 => do
    let t ← fTy r.md
    let d ← pDst r.d
    let a ← pSrc r.a
    let b ← pSrc r.b
    some (.shr r.ctl t d a b)
  | 0x013 => do
    let t ← fTy r.md
    let d ← pDst r.d
    let a ← pSrc r.a
    let b ← pSrc r.b
    some (.sra r.ctl t d a b)
  | 0x014 => do
    let t ← fTy r.md
    let d ← pDst r.d
    let a ← pSrc r.a
    let b ← pSrc r.b
    some (.rotl r.ctl t d a b)
  | 0x015 => do
    let t ← fTy r.md
    let d ← pDst r.d
    let a ← pSrc r.a
    let b ← pSrc r.b
    some (.bfx r.ctl t d a b)
  | 0x016 => do
    let t ← fTy r.md
    let d ← pDst r.d
    let a ← pSrc r.a
    some (.popc r.ctl t d a)
  | 0x017 => do
    let t ← fTy r.md
    let d ← pDst r.d
    let a ← pSrc r.a
    some (.clz r.ctl t d a)
  | 0x018 => do
    let t ← fTy r.md
    let d ← pDst r.d
    let a ← pSrc r.a
    some (.ctz r.ctl t d a)
  | 0x019 => do
    let t ← fTy r.md
    let d ← pDst r.d
    let a ← pSrc r.a
    some (.brev r.ctl t d a)
  | 0x01a => do
    let t ← fTy r.md
    let d ← pDst r.d
    let a ← pSrc r.a
    let b ← pSrc r.b
    some (.lea r.ctl t (r.md.extractLsb' 4 3) d a b)
  | 0x01b => do
    let t ← fTy r.md
    let d ← pDst r.d
    let a ← pSrc r.a
    let b ← pSrc r.b
    some (.addx r.ctl t (r.md.extractLsb' 0 3) d a b)
  | 0x01c => do
    let t ← fTy r.md
    let cc ← Cmp.ofCode (r.md.extractLsb' 3 4)
    let a ← pSrc r.a
    let b ← pSrc r.b
    some (.cmpInteger r.ctl t cc (r.d.extractLsb' 0 3) a b)
  | 0x01d => do
    let t ← fTy r.md
    let cc ← Cmp.ofCode (r.md.extractLsb' 3 4)
    let d ← pDst r.d
    let a ← pSrc r.a
    let b ← pSrc r.b
    some (.setb r.ctl t cc d a b)
  | 0x01e => do
    let t ← fTy r.md
    let d ← pDst r.d
    let a ← pSrc r.a
    let b ← pSrc r.b
    some (.sel r.ctl t (r.md.extractLsb' 0 3) d a b)
  | 0x01f => do
    let t ← fTy r.md
    let d ← pDst r.d
    let a ← pSrc r.a
    some (.mov r.ctl t d a)
  | 0x020 => do
    let t ← fTy r.md
    let d ← pDst r.d
    some (.movi r.ctl t d (r.a ++ r.b))
  | 0x030 => do
    let d ← pDst r.d
    let a ← pSrc r.a
    let b ← pSrc r.b
    let p ← pSrcC r.md
    some (.mad r.ctl .i32 d a b p)
  | 0x031 => do
    let d ← pDst r.d
    let a ← pSrc r.a
    let b ← pSrc r.b
    let p ← pSrcC r.md
    some (.mad r.ctl .n32 d a b p)
  | 0x032 => do
    let d ← pDst r.d
    let a ← pSrc r.a
    let b ← pSrc r.b
    let p ← pSrcC r.md
    some (.mad r.ctl .i64 d a b p)
  | 0x033 => do
    let d ← pDst r.d
    let a ← pSrc r.a
    let b ← pSrc r.b
    let p ← pSrcC r.md
    some (.mad r.ctl .n64 d a b p)
  | 0x034 => do
    let d ← pDst r.d
    let a ← pSrc r.a
    let b ← pSrc r.b
    let p ← pSrcC r.md
    some (.clamp r.ctl .i32 d a b p)
  | 0x035 => do
    let d ← pDst r.d
    let a ← pSrc r.a
    let b ← pSrc r.b
    let p ← pSrcC r.md
    some (.clamp r.ctl .n32 d a b p)
  | 0x036 => do
    let d ← pDst r.d
    let a ← pSrc r.a
    let b ← pSrc r.b
    let p ← pSrcC r.md
    some (.clamp r.ctl .i64 d a b p)
  | 0x037 => do
    let d ← pDst r.d
    let a ← pSrc r.a
    let b ← pSrc r.b
    let p ← pSrcC r.md
    some (.clamp r.ctl .n64 d a b p)
  | 0x038 => do
    let d ← pDst r.d
    let a ← pSrc r.a
    let b ← pSrc r.b
    let p ← pSrcC r.md
    some (.bfi r.ctl .b32 d a b p)
  | 0x039 => do
    let d ← pDst r.d
    let a ← pSrc r.a
    let b ← pSrc r.b
    let p ← pSrcC r.md
    some (.bfi r.ctl .b64 d a b p)
  | _ => none

/-- Reads the floating-point class of R80 to R86. -/
def ofRawFlt (r : Raw) : Option Instr :=
  match r.op.toNat with
  | 0x080 => do
    let t ← fTy r.md
    let d ← pDst r.d
    let a ← pSrc r.a
    let b ← pSrc r.b
    some (.addFloat r.ctl t (Rm.ofCode (r.md.extractLsb' 5 2)) d a b)
  | 0x081 => do
    let t ← fTy r.md
    let d ← pDst r.d
    let a ← pSrc r.a
    let b ← pSrc r.b
    some (.subFloat r.ctl t (Rm.ofCode (r.md.extractLsb' 5 2)) d a b)
  | 0x082 => do
    let t ← fTy r.md
    let d ← pDst r.d
    let a ← pSrc r.a
    let b ← pSrc r.b
    some (.mulFloat r.ctl t (Rm.ofCode (r.md.extractLsb' 5 2)) d a b)
  | 0x083 => do
    let t ← fTy r.md
    let d ← pDst r.d
    let a ← pSrc r.a
    let b ← pSrc r.b
    some (.minFloat r.ctl t (r.md.getLsbD 6) d a b)
  | 0x084 => do
    let t ← fTy r.md
    let d ← pDst r.d
    let a ← pSrc r.a
    let b ← pSrc r.b
    some (.maxFloat r.ctl t (r.md.getLsbD 6) d a b)
  | 0x085 => do
    let t ← fTy r.md
    let cc ← Cmp.ofCode (r.md.extractLsb' 3 4)
    let a ← pSrc r.a
    let b ← pSrc r.b
    some (.cmpFloat r.ctl t cc (r.d.extractLsb' 0 3) a b)
  | 0x086 => do
    let t ← fTy r.md
    let d ← pDst r.d
    let a ← pSrc r.a
    some (.rcp r.ctl t (Rm.ofCode (r.md.extractLsb' 5 2)) d a)
  | 0x087 => do
    let t ← fTy r.md
    let d ← pDst r.d
    let a ← pSrc r.a
    some (.rsq r.ctl t (Rm.ofCode (r.md.extractLsb' 5 2)) d a)
  | 0x088 => do
    let t ← fTy r.md
    let d ← pDst r.d
    let a ← pSrc r.a
    some (.sqrt r.ctl t (Rm.ofCode (r.md.extractLsb' 5 2)) d a)
  | 0x089 => do
    let t ← fTy r.md
    let d ← pDst r.d
    let a ← pSrc r.a
    let b ← pSrc r.b
    some (.divFloat r.ctl t (Rm.ofCode (r.md.extractLsb' 5 2)) d a b)
  | 0x08a => do
    let t ← fTy r.md
    let d ← pDst r.d
    let a ← pSrc r.a
    some (.ex2 r.ctl t d a)
  | 0x08b => do
    let t ← fTy r.md
    let d ← pDst r.d
    let a ← pSrc r.a
    some (.lg2 r.ctl t d a)
  | 0x08c => do
    let t ← fTy r.md
    let d ← pDst r.d
    let a ← pSrc r.a
    some (.sin r.ctl t d a)
  | 0x08d => do
    let t ← fTy r.md
    let d ← pDst r.d
    let a ← pSrc r.a
    some (.cos r.ctl t d a)
  | 0x08e => do
    let t ← fTy r.md
    let d ← pDst r.d
    let a ← pSrc r.a
    some (.tanh r.ctl t d a)
  | 0x08f => do
    let t ← fTy r.md
    let a ← pSrc r.a
    let b ← pSrc r.b
    some (.classF r.ctl t (r.d.extractLsb' 0 3) a b)
  | 0x090 => do
    let t ← fTy r.md
    let d ← pDst r.d
    let a ← pSrc r.a
    some (.rndi r.ctl t (Rm.ofCode (r.md.extractLsb' 5 2)) d a)
  | 0x091 => do
    let t ← fTy r.md
    let d ← pDst r.d
    let a ← pSrc r.a
    let b ← pSrc r.b
    some (.cpsign r.ctl t d a b)
  | 0x092 => do
    let t ← fTy r.md
    let d ← pDst r.d
    let a ← pSrc r.a
    let b ← pSrc r.b
    some (.scale r.ctl t (Rm.ofCode (r.md.extractLsb' 5 2)) d a b)
  | 0x0b0 => do
    let d ← pDst r.d
    let a ← pSrc r.a
    let b ← pSrc r.b
    let p ← pSrcC r.md
    some (.fma r.ctl .f16 (Rm.ofCode (r.md.extractLsb' 10 2)) d a b p)
  | 0x0b1 => do
    let d ← pDst r.d
    let a ← pSrc r.a
    let b ← pSrc r.b
    let p ← pSrcC r.md
    some (.fma r.ctl .bf16 (Rm.ofCode (r.md.extractLsb' 10 2)) d a b p)
  | 0x0b2 => do
    let d ← pDst r.d
    let a ← pSrc r.a
    let b ← pSrc r.b
    let p ← pSrcC r.md
    some (.fma r.ctl .f32 (Rm.ofCode (r.md.extractLsb' 10 2)) d a b p)
  | 0x0b3 => do
    let d ← pDst r.d
    let a ← pSrc r.a
    let b ← pSrc r.b
    let p ← pSrcC r.md
    some (.fma r.ctl .f64 (Rm.ofCode (r.md.extractLsb' 10 2)) d a b p)
  | 0x0b4 => do
    let d ← pDst r.d
    let a ← pSrc r.a
    let b ← pSrc r.b
    let p ← pSrcC r.md
    some (.dot2 r.ctl .f16x2 (Rm.ofCode (r.md.extractLsb' 10 2)) d a b p)
  | 0x0b5 => do
    let d ← pDst r.d
    let a ← pSrc r.a
    let b ← pSrc r.b
    let p ← pSrcC r.md
    some (.dot2 r.ctl .bf16x2 (Rm.ofCode (r.md.extractLsb' 10 2)) d a b p)
  | 0x0b6 => do
    let d ← pDst r.d
    let a ← pSrc r.a
    let b ← pSrc r.b
    let p ← pSrcC r.md
    some (.fma r.ctl .f16x2 (Rm.ofCode (r.md.extractLsb' 10 2)) d a b p)
  | 0x0b7 => do
    let d ← pDst r.d
    let a ← pSrc r.a
    let b ← pSrc r.b
    let p ← pSrcC r.md
    some (.fma r.ctl .bf16x2 (Rm.ofCode (r.md.extractLsb' 10 2)) d a b p)
  | _ => none

/-- Reads the conversion, cross-lane, random and Kulisch class of R80 to R86. -/
def ofRawCnv (r : Raw) : Option Instr :=
  match r.op.toNat with
  | 0x100 => do
    let t ← fTy r.md
    let st ← Ty.ofCode (r.md.extractLsb' 2 5)
    let d ← pDst r.d
    let a ← pSrc r.a
    some (.cvt r.ctl t st (Rm.ofCode (r.md.extractLsb' 0 2)) d a)
  | 0x101 => do
    let t ← fTy r.md
    let d ← pDst r.d
    let a ← pSrc r.a
    let b ← pSrc r.b
    some (.pack r.ctl t (Rm.ofCode (r.md.extractLsb' 5 2)) d a b)
  | 0x102 => do
    let t ← fTy r.md
    let d ← pDst r.d
    let a ← pSrc r.a
    some (.unpack r.ctl t d a)
  | 0x103 => do
    let d ← pDst r.d
    let a ← pSrc r.a
    let b ← pSrc r.b
    some (.bsel r.ctl d a b)
  | 0x104 => do
    let t ← fTy r.md
    let d ← pDst r.d
    let a ← pSrc r.a
    some (.qnt r.ctl t d a)
  | 0x105 => do
    let t ← fTy r.md
    let d ← pDst r.d
    let a ← pSrc r.a
    let b ← pSrc r.b
    some (.dqt r.ctl t d a b)
  | 0x110 => do
    let d ← pDst r.d
    let a ← pSrc r.a
    let b ← pSrc r.b
    some (.shfl r.ctl (ShMode.ofCode (r.md.extractLsb' 10 2)) d a b)
  | 0x111 => do
    let d ← pDst r.d
    some (.vote r.ctl (VoteMode.ofCode (r.md.extractLsb' 10 2)) d (r.a.extractLsb' 0 3))
  | 0x112 => do
    let op ← Aop.ofCode (0#1 ++ r.md.extractLsb' 4 3)
    let t ← fTy r.md
    let d ← pDst r.d
    let a ← pSrc r.a
    some (.redw r.ctl op t d a)
  | 0x113 => do
    let op ← Aop.ofCode (0#1 ++ r.md.extractLsb' 4 3)
    let t ← fTy r.md
    let d ← pDst r.d
    let a ← pSrc r.a
    some (.scanw r.ctl op t (r.md.getLsbD 3) d a)
  | 0x114 => do
    let t ← fTy r.md
    let d ← pDst r.d
    let a ← pSrc r.a
    some (.matchW r.ctl t d a)
  | 0x115 => do
    let d ← pDst r.d
    let a ← pSrc r.a
    let b ← pSrc r.b
    some (.bcast r.ctl d a b)
  | 0x118 => do
    let t ← fTy r.md
    if r.md.getLsbD 6 then do
      let a ← pSrc r.a
      let b ← pSrc r.b
      some (.rndSeed r.ctl t a b)
    else do
      let d ← pDst r.d
      some (.rnd r.ctl t d)
  | 0x120 => some (.kzero r.ctl (r.d.extractLsb' 0 2))
  | 0x121 => do
    let t ← fTy r.md
    let a ← pSrc r.a
    some (.kadd r.ctl t (r.d.extractLsb' 0 2) a)
  | 0x122 => do
    let t ← fTy r.md
    let a ← pSrc r.a
    let b ← pSrc r.b
    some (.kdot r.ctl t (r.d.extractLsb' 0 2) a b)
  | 0x123 => do
    let t ← fTy r.md
    let a ← pSrc r.a
    some (.ksub r.ctl t (r.d.extractLsb' 0 2) a)
  | 0x124 => do
    let t ← fTy r.md
    let d ← pDst r.d
    some (.kround r.ctl t (Rm.ofCode (r.md.extractLsb' 5 2)) d (r.a.extractLsb' 0 2))
  | 0x125 => do
    let d ← pDst r.d
    some (.ksave r.ctl d (r.a.extractLsb' 0 2))
  | 0x126 => do
    let a ← pDst r.a
    some (.kload r.ctl (r.d.extractLsb' 0 2) a)
  | 0x127 => do
    let d ← pDst r.d
    some (.kstat r.ctl d (r.a.extractLsb' 0 2))
  | _ => none

/-- Reads the memory class of R80 to R86. -/
def ofRawMem (r : Raw) : Option Instr :=
  match r.op.toNat with
  | 0x180 => do
    let t ← fTy r.md
    let n ← Cnt.ofCode (r.md.extractLsb' 3 2)
    let d ← pDst r.d
    let a ← pSrc r.a
    some (.ld r.ctl t (Ch.ofCode (r.md.extractLsb' 5 2)) n d a (r.b))
  | 0x181 => do
    let t ← fTy r.md
    let n ← Cnt.ofCode (r.md.extractLsb' 3 2)
    let d ← pDst r.d
    let a ← pSrc r.a
    some (.st r.ctl t (Ch.ofCode (r.md.extractLsb' 5 2)) n d a (r.b))
  | 0x182 => do
    let t ← fTy r.md
    let n ← Cnt.ofCode (r.md.extractLsb' 3 2)
    let d ← pDst r.d
    let a ← pSrc r.a
    some (.ldk r.ctl t (Ch.ofCode (r.md.extractLsb' 5 2)) n d a (r.b))
  | 0x183 => do
    let t ← fTy r.md
    let n ← Cnt.ofCode (r.md.extractLsb' 3 2)
    let d ← pDst r.d
    let a ← pSrc r.a
    some (.ldsp r.ctl t n (r.md.getLsbD 2) (r.md.getLsbD 1) d a (r.b))
  | 0x184 => do
    let t ← fTy r.md
    let n ← Cnt.ofCode (r.md.extractLsb' 3 2)
    let d ← pDst r.d
    let a ← pSrc r.a
    some (.stsp r.ctl t n (r.md.getLsbD 2) d a (r.b))
  | 0x185 => do
    let d ← pDst r.d
    let a ← pSrc r.a
    some (.feget r.ctl d a (r.b))
  | 0x186 => do
    let a ← pSrc r.a
    some (.feset r.ctl a (r.b))
  | 0x187 => do
    let a ← pSrc r.a
    some (.feclr r.ctl a (r.b))
  | 0x188 => do
    let t ← fTy r.md
    let op ← Aop.ofCode (r.md.extractLsb' 3 4)
    let d ← pDst r.d
    let a ← pSrc r.a
    some (.atom r.ctl t op (MOrd.ofCode (r.md.extractLsb' 1 2)) d a (r.b))
  | 0x189 => do
    let t ← fTy r.md
    let op ← Aop.ofCode (r.md.extractLsb' 3 4)
    let d ← pDst r.d
    let a ← pSrc r.a
    some (.red r.ctl t op (MOrd.ofCode (r.md.extractLsb' 1 2)) d a (r.b))
  | 0x18a => do
    let t ← fTy r.md
    let op ← Aop.ofCode (r.md.extractLsb' 3 4)
    let d ← pDst r.d
    let a ← pSrc r.a
    some (.vatom r.ctl t op (MOrd.ofCode (r.md.extractLsb' 1 2)) d a (r.b))
  | 0x18b => do
    let t ← fTy r.md
    let op ← Aop.ofCode (r.md.extractLsb' 3 4)
    let d ← pDst r.d
    let a ← pSrc r.a
    some (.vred r.ctl t op (MOrd.ofCode (r.md.extractLsb' 1 2)) d a (r.b))
  | 0x18c => do
    let d ← pDst r.d
    let a ← pSrc r.a
    some (.waita r.ctl (r.md.extractLsb' 8 4) d a (r.b))
  | 0x18d => do
    let a ← pSrc r.a
    some (.wake r.ctl a (r.b))
  | 0x18e => do
    let a ← pSrc r.a
    some (.pfetch r.ctl (Ch.ofCode (r.md.extractLsb' 5 2)) a (r.b))
  | 0x18f => do
    let a ← pSrc r.a
    some (.evict r.ctl (Ch.ofCode (r.md.extractLsb' 5 2)) a (r.b))
  | 0x190 => do
    let cnv ← Cnv.ofCode (r.md.extractLsb' 3 3)
    let d ← pDst r.d
    let a ← pDst r.a
    let b ← pDst r.b
    some (.tcopy r.ctl (r.md.getLsbD 11) (r.md.getLsbD 10) (r.md.extractLsb' 6 4) cnv d a b)
  | 0x191 => some (.tcwait r.ctl (r.md.extractLsb' 0 4))
  | _ => none

/-- Reads the barrier, queue and task class of R80 to R86. -/
def ofRawQue (r : Raw) : Option Instr :=
  match r.op.toNat with
  | 0x200 =>
    match (r.md.extractLsb' 0 2).toNat with
    | 0 => some (.bar r.ctl (r.a.extractLsb' 0 4))
    | 1 => some (.barArrive r.ctl (r.a.extractLsb' 0 4))
    | 2 => some (.barWait r.ctl (r.a.extractLsb' 0 4))
    | _ => some (.barTest r.ctl (r.d.extractLsb' 0 3) (r.a.extractLsb' 0 4))
  | 0x201 => do
    let n ← pDst r.b
    some (.barset r.ctl (r.a.extractLsb' 0 4) n)
  | 0x208 => do
    let b ← pDst r.b
    some (.tqpush r.ctl (r.a.extractLsb' 0 5) b)
  | 0x209 => do
    let d ← pDst r.d
    some (.tqpop r.ctl d (r.a.extractLsb' 0 5))
  | 0x20a => do
    let d ← pDst r.d
    some (.tqtry r.ctl (r.md.extractLsb' 0 3) d (r.a.extractLsb' 0 5))
  | 0x20b => do
    let d ← pDst r.d
    some (.tqallow r.ctl d (r.a.extractLsb' 0 5))
  | 0x20c => do
    let a ← pDst r.a
    let b ← pDst r.b
    some (.cntsig r.ctl (r.md.getLsbD 0) a b)
  | 0x20d => do
    let a ← pDst r.a
    let b ← pDst r.b
    some (.cntwait r.ctl a b)
  | 0x210 => do
    let d ← pDst r.d
    let a ← pDst r.a
    let b ← pDst r.b
    some (.spawn r.ctl d a b)
  | 0x211 => some (.fmark r.ctl )
  | 0x212 => do
    let d ← pDst r.d
    some (.await r.ctl d)
  | 0x213 => some (.tret r.ctl )
  | 0x214 => do
    let f ← TFld.ofCode (r.md.extractLsb' 0 2)
    let d ← pDst r.d
    some (.tidx r.ctl f d)
  | 0x215 => do
    let d ← pDst r.d
    some (.tstat r.ctl d)
  | 0x218 => do
    let a ← pDst r.a
    some (.vput r.ctl (r.md.extractLsb' 0 2) a)
  | 0x219 => do
    let d ← pDst r.d
    some (.vget r.ctl (r.md.extractLsb' 0 2) d)
  | 0x21a => do
    let d ← pDst r.d
    some (.vfree r.ctl (r.md.extractLsb' 0 2) d)
  | _ => none

/-- Reads the matrix, tile and page class of R80 to R86. -/
def ofRawTil (r : Raw) : Option Instr :=
  match r.op.toNat with
  | 0x280 => do
    let qdm ← Qdm.ofCode (r.md.extractLsb' 7 2)
    some (.mma r.ctl (r.md.extractLsb' 9 3) qdm (r.md.getLsbD 6) (r.md.getLsbD 5) (r.md.extractLsb' 3 2) (r.d.extractLsb' 0 7) (r.a.extractLsb' 0 8) (r.b.extractLsb' 0 6))
  | 0x281 => some (.mmz r.ctl (r.d.extractLsb' 0 7))
  | 0x282 => do
    let t ← fTy r.md
    let a ← pDst r.a
    some (.accld r.ctl t (r.md.getLsbD 6) (r.d.extractLsb' 0 7) a)
  | 0x283 => do
    let t ← fTy r.md
    let a ← pDst r.a
    some (.accst r.ctl t (r.md.getLsbD 6) (r.md.getLsbD 5) (Rm.ofCode (r.md.extractLsb' 3 2)) (r.d.extractLsb' 0 7) a)
  | 0x284 => some (.accmov r.ctl (r.d.extractLsb' 0 7) (r.a.extractLsb' 0 7))
  | 0x285 => some (.tfetch r.ctl (r.a.extractLsb' 0 6))
  | 0x286 => some (.tunpin r.ctl (r.a.extractLsb' 0 6))
  | 0x287 => do
    let d ← pDst r.d
    some (.mmstat r.ctl (MmCtr.ofCode (r.md.extractLsb' 0 2)) d)
  | 0x290 => do
    let a ← pDst r.a
    let b ← pDst r.b
    some (.publish r.ctl a b)
  | 0x291 => do
    let a ← pDst r.a
    some (.sfetch r.ctl a)
  | 0x292 => do
    let d ← pDst r.d
    let a ← pDst r.a
    some (.sstat r.ctl d a)
  | 0x293 => do
    let a ← pDst r.a
    some (.sevict r.ctl a)
  | _ => none

/-- Reads the control and group class of R80 to R86. -/
def ofRawCtl (r : Raw) : Option Instr :=
  match r.op.toNat with
  | 0x300 => some (.nop r.ctl )
  | 0x301 => some (.bra r.ctl (r.a ++ r.b))
  | 0x302 => do
    let a ← pDst r.a
    some (.brx r.ctl a)
  | 0x303 => do
    let d ← pDst r.d
    some (.call r.ctl d (r.a ++ r.b))
  | 0x304 => do
    let a ← pDst r.a
    some (.ret r.ctl a)
  | 0x305 => some (.exit r.ctl )
  | 0x306 => some (.meet r.ctl (r.a ++ r.b))
  | 0x307 => some (.yield r.ctl (r.md))
  | 0x308 => some (.ralloc r.ctl (r.md.extractLsb' 0 3))
  | 0x309 => some (.rfree r.ctl (r.md.extractLsb' 0 3))
  | 0x30a => do
    let d ← pDst r.d
    some (.rblk r.ctl d)
  | 0x310 => do
    let d ← pDst r.d
    let a ← pDst r.a
    some (.klaunch r.ctl d a)
  | 0x311 => do
    let d ← pDst r.d
    some (.fslot r.ctl (r.md.extractLsb' 0 3) d)
  | _ => none

/-- Reads the system and unit class of R80 to R86. -/
def ofRawSys (r : Raw) : Option Instr :=
  match r.op.toNat with
  | 0x380 => some (.trap r.ctl (r.md))
  | 0x381 => some (.bkpt r.ctl )
  | 0x382 => do
    let d ← pDst r.d
    some (.flagrd r.ctl d)
  | 0x383 => some (.flagclr r.ctl (r.md.extractLsb' 0 3))
  | 0x384 => do
    let d ← pDst r.d
    some (.csrr r.ctl (r.md) d)
  | 0x385 => do
    let a ← pDst r.a
    some (.csrw r.ctl (r.md) a)
  | 0x386 => some (.rfe r.ctl )
  | 0x390 => do
    let d ← pDst r.d
    some (.rflv r.ctl d)
  | 0x391 => do
    let d ← pDst r.d
    let a ← pDst r.a
    some (.boost r.ctl (r.md.extractLsb' 0 2) d a)
  | 0x392 => do
    let d ← pDst r.d
    some (.bstat r.ctl d)
  | 0x393 => do
    let d ← pDst r.d
    if r.md.getLsbD 0 then some (.pgateOn r.ctl d) else some (.pgateOff r.ctl d)
  | 0x394 => do
    let k ← WKind.ofCode (r.md.extractLsb' 0 2)
    let d ← pDst r.d
    let a ← pDst r.a
    some (.wrec r.ctl k d a)
  | _ => none

/-- Reads the fields of a word by the class of its opcode (R67). -/
def ofRaw (r : Raw) : Option Instr :=
  match (r.op.extractLsb' 7 3).toNat with
  | 0 => ofRawInt r
  | 1 => ofRawFlt r
  | 2 => ofRawCnv r
  | 3 => ofRawMem r
  | 4 => ofRawQue r
  | 5 => ofRawTil r
  | 6 => ofRawCtl r
  | _ => ofRawSys r

/-- The opcodes that R80 to R86 assign. -/
def opAssigned (op : BitVec 10) : Bool :=
  let n := op.toNat
  (1 ≤ n && n ≤ 0x20) || (0x30 ≤ n && n ≤ 0x39) || (0x80 ≤ n && n ≤ 0x92) || (0xb0 ≤ n && n ≤ 0xb7) ||
  (0x100 ≤ n && n ≤ 0x105) || (0x110 ≤ n && n ≤ 0x115) || n == 0x118 || (0x120 ≤ n && n ≤ 0x127) ||
  (0x180 ≤ n && n ≤ 0x191) || n == 0x200 || n == 0x201 || (0x208 ≤ n && n ≤ 0x20d) ||
  (0x210 ≤ n && n ≤ 0x215) || (0x218 ≤ n && n ≤ 0x21a) || (0x280 ≤ n && n ≤ 0x287) ||
  (0x290 ≤ n && n ≤ 0x293) || (0x300 ≤ n && n ≤ 0x30a) || n == 0x310 || n == 0x311 ||
  (0x380 ≤ n && n ≤ 0x386) || (0x390 ≤ n && n ≤ 0x394)

/-- Cuts a word into its fields (R30). -/
def unpackWord (w : IWord) : Raw where
  op := w.extractLsb' 86 10
  ctl :=
    { gn := w.getLsbD 85
      gi := w.extractLsb' 82 3
      stall := w.extractLsb' 78 4
      gap := w.extractLsb' 75 3
      give := w.getLsbD 74
      ra := w.getLsbD 73
      rb := w.getLsbD 72 }
  md := w.extractLsb' 60 12
  d := w.extractLsb' 40 20
  a := w.extractLsb' 20 20
  b := w.extractLsb' 0 20

/-- Joins the fields of a word (R30). -/
def packWord (r : Raw) : IWord :=
  r.op ++ bit r.ctl.gn ++ r.ctl.gi ++ r.ctl.stall ++ r.ctl.gap ++ bit r.ctl.give ++ bit r.ctl.ra ++ bit r.ctl.rb ++
    r.md ++ r.d ++ r.a ++ r.b

/-- The instruction that the fields of a word stand for, or why there is none (R53, R87). -/
def decodeRaw (r : Raw) : Except Reject Instr :=
  if opAssigned r.op then
    match ofRaw r with
    | none => .error .reservedCode
    | some i =>
      if formOk i then
        if toRaw i = some r then .ok i else .error .reservedBits
      else .error .notAccepted
  else .error .unassignedOpcode

/-- The instruction of a word (R54, R87). -/
def decodeWord (w : IWord) : Except Reject Instr := decodeRaw (unpackWord w)

/-- The words of an instruction; events have none. -/
def encode (i : Instr) : Option IWord := (toRaw i).map packWord

/-- The value of bytes, the lowest address first (R4, R31). -/
def leNat : List Byte → Nat
  | [] => 0
  | b :: bs => b.toNat + 256 * leNat bs

/-- n bytes of a value, the lowest address first (R4, R31). -/
def leBytes : Nat → Nat → List Byte
  | 0, _ => []
  | n + 1, x => BitVec.ofNat 8 x :: leBytes n (x / 256)

/-- Decodes the first instruction of a list of bytes, and gives the bytes after it. -/
def decodeBytes (bs : List Byte) : Except Reject (Instr × List Byte) :=
  if bs.length < 12 then .error .short
  else (decodeWord (BitVec.ofNat 96 (leNat (bs.take 12)))).map fun i => (i, bs.drop 12)

/-- The bytes of an instruction, the lowest address first (R31); events have none. -/
def encodeBytes (i : Instr) : Option (List Byte) := (encode i).map fun w => leBytes 12 w.toNat

/-- The instruction that the decoder reads from a word whose bits are w (bits above nbits are zero). -/
def decodeTableWord (nbits w : Nat) : Option Instr :=
  match decodeBytes (leBytes 12 (w % 2 ^ nbits)) with
  | .ok (i, _) => some i
  | .error _ => none

end Sys2Proof
end

