-- ==== Sys2Proof/Machine/Cipher.lean ====
section
/-!
DEFINITION. AES-256 and its use on the sectors of global memory (R199). The cipher is that of FIPS 197 and the mode the XEX
construction of IEEE 1619, both named by the manual and taken from outside it (log 8).
-/

namespace Sys2Proof.Machine

/-! ### The field of AES -/

/-- Multiplication by x. -/
def xtime (a : Byte) : Byte := if a.msb then (a <<< 1) ^^^ 0x1b else a <<< 1

/-- Product; n bits of the second factor are left. -/
def gmulGo : Nat → Byte → Byte → Byte
  | 0, _, _ => 0
  | n + 1, a, b => (if b.getLsbD 0 then a else 0) ^^^ gmulGo n (xtime a) (b >>> 1)

/-- Product. -/
def gmul (a b : Byte) : Byte := gmulGo 8 a b

/-- The inverse of a non-zero element, and 0 of 0: the power 254. -/
def ginv (a : Byte) : Byte :=
  let a2 := gmul a a
  let a4 := gmul a2 a2
  let a8 := gmul a4 a4
  let a16 := gmul a8 a8
  let a32 := gmul a16 a16
  let a64 := gmul a32 a32
  let a128 := gmul a64 a64
  gmul a128 (gmul a64 (gmul a32 (gmul a16 (gmul a8 (gmul a4 a2)))))

/-- The byte turned left by n bits. -/
def byteRol (a : Byte) (n : Nat) : Byte := a.rotateLeft n

/-- SubBytes of one byte. -/
def sbox (a : Byte) : Byte :=
  let b := ginv a
  b ^^^ byteRol b 1 ^^^ byteRol b 2 ^^^ byteRol b 3 ^^^ byteRol b 4 ^^^ 0x63

/-- InvSubBytes of one byte. -/
def invSbox (a : Byte) : Byte := ginv (byteRol a 1 ^^^ byteRol a 3 ^^^ byteRol a 6 ^^^ 0x05)

/-! ### Key expansion -/

/-- Bytewise exclusive or. -/
def xorBytes (a b : List Byte) : List Byte := List.zipWith (fun x y => x ^^^ y) a b

/-- One word of the schedule after the words ws, newest first; i is its number, rc the round constant. -/
def keyWord (ws : List (List Byte)) (i : Nat) (rc : Byte) : List Byte :=
  let t := ws.getD 0 []
  let t := if i % 8 = 0 then
      (match t.map sbox with
        | [a, b, c, d] => [b ^^^ rc, c, d, a]
        | _ => [])
    else if i % 8 = 4 then t.map sbox
    else t
  xorBytes (ws.getD 7 []) t

/-- n more words from number i on. -/
def keyGo : Nat → Nat → Byte → List (List Byte) → List (List Byte)
  | 0, _, _, ws => ws
  | n + 1, i, rc, ws => keyGo n (i + 1) (if i % 8 = 0 then xtime rc else rc) (keyWord ws i rc :: ws)

/-- A list of 16 bytes as four words. -/
def fourWords (b : List Byte) : List (List Byte) := [b.take 4, (b.drop 4).take 4, (b.drop 8).take 4, (b.drop 12).take 4]

/-- n round keys out of the words of a schedule. -/
def roundKeys : Nat → List (List Byte) → List (List Byte)
  | 0, _ => []
  | n + 1, ws => (ws.take 4).flatten :: roundKeys n (ws.drop 4)

/-- The 15 round keys of a key of 32 bytes. -/
def schedule (key : List Byte) : List (List Byte) :=
  roundKeys 15 (keyGo 52 8 1 (fourWords (key.take 16) ++ fourWords (key.drop 16)).reverse).reverse

/-! ### Rounds -/

/-- The bytes at some places of a block. -/
def permute (f : Nat → Nat) (b : List Byte) : List Byte :=
  [0, 1, 2, 3, 4, 5, 6, 7, 8, 9, 10, 11, 12, 13, 14, 15].map fun i => b.getD (f i) 0

/-- One column times a row of coefficients. -/
def mixRow (k c : List Byte) : Byte := (List.zipWith gmul k c).foldl (fun a b => a ^^^ b) 0

/-- A column times the circulant matrix of four coefficients. -/
def mixCol (a b c d : Byte) (x : List Byte) : List Byte :=
  [mixRow [a, b, c, d] x, mixRow [d, a, b, c] x, mixRow [c, d, a, b] x, mixRow [b, c, d, a] x]

/-- MixColumns with four coefficients. -/
def mixCols (a b c d : Byte) (x : List Byte) : List Byte := ((fourWords x).map (mixCol a b c d)).flatten

/-- The rounds after the first key: the last of them mixes no columns. -/
def encRounds : List (List Byte) → List Byte → List Byte
  | [], x => x
  | [k], x => xorBytes k (permute (fun i => 5 * i % 16) (x.map sbox))
  | k :: ks, x => encRounds ks (xorBytes k (mixCols 2 3 1 1 (permute (fun i => 5 * i % 16) (x.map sbox))))

/-- AES-256 of a block. -/
def aesEnc (key x : List Byte) : List Byte :=
  match schedule key with
  | [] => x
  | k :: ks => encRounds ks (xorBytes k x)

/-- The inverse rounds, the round keys last to first. -/
def decRounds : List (List Byte) → List Byte → List Byte
  | [], x => x
  | [k], x => xorBytes k ((permute (fun i => 13 * i % 16) x).map invSbox)
  | k :: ks, x => decRounds ks (mixCols 14 11 13 9 (xorBytes k ((permute (fun i => 13 * i % 16) x).map invSbox)))

/-- The inverse of AES-256 on a block. -/
def aesDec (key x : List Byte) : List Byte :=
  match (schedule key).reverse with
  | [] => x
  | k :: ks => decRounds ks (xorBytes k x)

/-! ### Sectors (R199) -/

/-- The data half and the tweak half of a key pair. -/
def keyHalves (key : Nat) : List Byte × List Byte := (leBytes 32 key, leBytes 32 (key / 2 ^ 256))

/-- The encrypted tweak of block j of a sector (R199). -/
def xtsTweak (key sec j : Nat) : List Byte := aesEnc (keyHalves key).2 (leBytes 16 (sec * 2 + j))

/-- Block j of a sector encrypted. -/
def xtsEnc (key sec j : Nat) (x : List Byte) : List Byte :=
  let t := xtsTweak key sec j
  xorBytes t (aesEnc (keyHalves key).1 (xorBytes t x))

/-- Block j of a sector decrypted. -/
def xtsDec (key sec j : Nat) (x : List Byte) : List Byte :=
  let t := xtsTweak key sec j
  xorBytes t (aesDec (keyHalves key).1 (xorBytes t x))

end Sys2Proof.Machine
end

