-- ==== Sys2Proof/Machine/Tbl.lean ====
section
/-!
DEFINITION. Sparse tables: lists of (key, value) pairs with strictly rising keys. Registers, memory, object tables and
counters of the state are held in this one form; a table read through getD lists no entry equal to its default, so that
equal tables are equal lists.
-/

namespace Sys2Proof

/-- A sparse table. -/
abbrev Tbl (α : Type) := List (Nat × α)

/-- The entry of a key. -/
def Tbl.find {α : Type} : Tbl α → Nat → Option α
  | [], _ => none
  | (j, x) :: t, k => if j = k then some x else Tbl.find t k

/-- The entry of a key, or d where nothing is listed. -/
def Tbl.getD {α : Type} (t : Tbl α) (k : Nat) (d : α) : α :=
  match Tbl.find t k with
  | some x => x
  | none => d

/-- Lists x under k. -/
def Tbl.put {α : Type} : Tbl α → Nat → α → Tbl α
  | [], k, x => [(k, x)]
  | (j, y) :: t, k, x =>
    if k < j then (k, x) :: (j, y) :: t
    else if k = j then (k, x) :: t
    else (j, y) :: Tbl.put t k x

/-- Removes the entry of k. -/
def Tbl.del {α : Type} : Tbl α → Nat → Tbl α
  | [], _ => []
  | (j, y) :: t, k => if j = k then Tbl.del t k else (j, y) :: Tbl.del t k

/-- Writes x under k in a table whose unlisted keys read as d: the default is not listed. -/
def Tbl.setD {α : Type} [DecidableEq α] (t : Tbl α) (k : Nat) (x d : α) : Tbl α :=
  if x = d then Tbl.del t k else Tbl.put t k x

/-- Changes the entry of k where there is one. -/
def Tbl.upd {α : Type} : Tbl α → Nat → (α → α) → Tbl α
  | [], _, _ => []
  | (j, y) :: t, k, f => if j = k then (j, f y) :: t else (j, y) :: Tbl.upd t k f

/-- Changes every entry. -/
def Tbl.mapV {α : Type} (t : Tbl α) (f : Nat → α → α) : Tbl α := t.map fun e => (e.1, f e.1 e.2)

/-- Keeps the entries that satisfy p. -/
def Tbl.keep {α : Type} (t : Tbl α) (p : Nat → α → Bool) : Tbl α := t.filter fun e => p e.1 e.2

/-- The keys rise strictly. -/
def Tbl.sorted {α : Type} : Tbl α → Bool
  | [] => true
  | [_] => true
  | (j, _) :: (k, y) :: t => decide (j < k) && Tbl.sorted ((k, y) :: t)

/-- No entry equals the default. -/
def Tbl.tight {α : Type} [DecidableEq α] (t : Tbl α) (d : α) : Bool := t.all fun e => decide (e.2 ≠ d)

end Sys2Proof
end

