-- ==== Sys2Proof/Machine/State.lean ====
section
/-!
DEFINITION. The state of the machine as plain data: lanes, warps, groups, cores, launches, memory, contexts, queues,
links, Sinter regions, wear, power, and the fields of the model's own (marked so). State.reset is the machine right
after power-on reset.
-/

namespace Sys2Proof.Machine

/-- Why a step stops. -/
inductive Fault
  /-- The meaning of a word was run while no warp issues it (State.cur is none or names no warp). Raised by every meaning
  of a word; step never does so. Safe. -/
  | noIssuer
deriving DecidableEq, Repr

/-- Why an instruction has no meaning. -/
inductive Refusal
  /-- The arm of exec has no meaning yet. Raised by exec alone. Safe. -/
  | notModelled (mnemonic : String)
deriving DecidableEq, Repr

/-- Bytes by address, in the canonical form of Host.Cell lists: rising addresses, no listed zero (log 1, log 2). -/
abbrev Memory := List Host.Cell

/-! ### Lanes -/

/-- A pending fixed-latency result (R39, R117): register number (256 + n for guard n, 512 + n for uniform n), the value
before the producer and the core cycle from which the result is read. -/
structure Haz where
  reg : Nat
  old : Word
  ready : Nat
deriving DecidableEq, Repr

/-- The random state of a lane (R142). -/
structure Rng where
  key : BitVec 64
  ctr : BitVec 128
  idx : Nat
deriving DecidableEq, Repr

/-- A frame (R265); ran is the RAN mark of tstat (R281). -/
structure Frame where
  count : Nat
  failed : Nat
  ran : Bool
deriving DecidableEq, Repr

/-- The parent frame of a range: warp, lane and depth of the spawning lane's frame (R264). -/
structure FrameRef where
  w : Nat
  lane : Nat
  lvl : Nat
deriving DecidableEq, Repr

/-- The task context of a running iteration (R264, R271, R272). -/
structure Task where
  it : Nat
  hi : Nat
  slo : Nat
  shi : Nat
  arg : Nat
  entry : Nat
  parent : FrameRef
  inl : Bool
deriving DecidableEq, Repr

/-- A continuation of an inline run (R272); fail marks one of a lane whose iteration is ending FAILED (R276, R277), and help
one of a run that a waiting instruction began, to which the lane returns (R274). -/
structure Cont where
  pc : Dword
  mr : Dword
  g : BitVec 7
  task : Option Task
  base : Nat
  fail : Bool
  help : Bool
deriving DecidableEq, Repr

/-- One lane (R148, R284); helped marks one that an inline run has just returned to the instruction that it waits in, since
when its cycles of waiting count (R274); ra and rb are the registers that the reuse cache keeps as operand A and as operand B, each until
the next instruction of the lane that reads it there (R38). -/
structure Lane where
  v : Tbl Word
  haz : List Haz
  g : BitVec 7
  pc : Dword
  mr : Dword
  hs : Bool
  epc : Dword
  emr : Dword
  rng : Rng
  exited : Bool
  frames : List Frame
  base : Nat
  task : Option Task
  conts : List Cont
  barUntil : Nat
  starve : Nat
  wait : Option Nat
  since : Nat
  helped : Bool
  ending : Option Bool
  ra : List Nat
  rb : List Nat
deriving DecidableEq, Repr

/-! ### Warps -/

/-- A Kulisch accumulator as its 576-bit pattern (R110). -/
abbrev Kul := BitVec 576

/-- A copy tag of a warp (R193, R194): copies outstanding and a failure kept (class, offset). -/
structure Tag where
  out : Nat
  fail : Option (Nat × Nat)
deriving DecidableEq, Repr

/-- The fault that a released warp takes at a barrier (R314, R319). -/
inductive BTrap | no | sat | kovf
deriving DecidableEq, Repr

/-- What a warp holds of one barrier (R314). -/
structure BarW where
  arr : Bool
  done : Bool
  trp : BTrap
deriving DecidableEq, Repr

/-- Registers that the scoreboard holds (R117, R287): lanes, first register (512 + n for uniform n), how many, and the
access that releases them (none for a variable-latency lane instruction). -/
structure Hold where
  lanes : Mask
  reg : Nat
  n : Nat
  tx : Option Nat
deriving DecidableEq, Repr

/-- What %warp, %gwarp, %group and %ngroup read in a warp (R45, R271). -/
structure Ident where
  warp : Nat
  gwarp : Nat
  grp : Nat
deriving DecidableEq, Repr

/-- One warp (R148, R284, R301). -/
structure Warp where
  gid : Nat
  isTask : Bool
  core : Nat
  tier : Nat
  place : Nat
  quad : Nat
  ident : Ident
  k : Tbl Word
  uhaz : List Haz
  ka : List Kul
  lanes : List Lane
  yield : Nat
  stores : Nat
  loads : Nat
  shd : Nat
  matOut : Nat
  held : BitVec 8
  emer : Option Nat
  saved : BitVec 8
  bars : Tbl BarW
  tags : Tbl Tag
  trapcause : Dword
  trapaddr : Dword
  score : List Hold
  redo : List Nat
  lastIssue : Nat
  gapUntil : Nat
  give : Nat
  deferred : Option Dword
  stopped : Bool
  idleSince : Nat
deriving DecidableEq, Repr

/-- Why an instruction waits. -/
inductive WKindW
  | drain | fe | sleep | tcwait | copySlot | tqpush | tqpop | counter | bar | await | ending | ralloc | vput | vget
  | tfetch | boost | matrix | access | flag
deriving DecidableEq, Repr

/-- A waiting instruction: its warp, itself, the lanes of M, their PC, the cycle it began to wait, and what it has found
so far (R168, R180, R184, R192, R237, R241, R275, R299, R302, R317, R340, R412). -/
structure Wait where
  w : Nat
  ins : Instr
  lanes : Mask
  pc : Dword
  since : Nat
  kind : WKindW
  stat : Tbl Nat
  sat : Bool
deriving DecidableEq, Repr

/-! ### Groups and launches -/

/-- States of a group (R282); UNPLACED groups are not held. -/
inductive GState
  | resident | stopping | saved | stopped | resuming | retired | ended
deriving DecidableEq, Repr

/-- A fault as it is raised (R205, R221). -/
structure FRec where
  cls : Nat
  pc : Dword
  addr : Nat
  lanes : Mask
  perf : Mask
  lvl : Nat
  info : Nat
  warp : Nat
  dbl : Bool
deriving DecidableEq, Repr

/-- The fault that will stop a group (R205, R208): its record, the cycle in which it was raised, the warp that took it and the
lanes that its instruction retires in, where it is post-retire; the barrier whose phase the instruction consumes (R319) and
the copy tag whose failure it reports (R193); and every warp that raised a fault since. -/
structure Pend where
  f : FRec
  clk : Nat
  w : Nat
  act : Mask
  bar : Option Nat
  tag : Option Nat
  warps : List Nat
deriving DecidableEq, Repr

/-- A tile queue (R240): slot count, content with the tier of the pushing warp, allowance. -/
structure TileQ where
  slots : Nat
  content : List (Word × Nat)
  allow : Nat
deriving DecidableEq, Repr

/-- A barrier (R313). -/
structure BarG where
  exp : Nat
  cnt : Nat
  held : Option Nat
deriving DecidableEq, Repr

/-- A boost grant (R400): level, ticks left, whether its first boundary is still to come. -/
structure Grant where
  lvl : Nat
  left : Nat
  fresh : Bool
deriving DecidableEq, Repr

/-- Matrix counters of a group on one tier (R342). -/
structure MmCnt where
  skip : Nat
  mma : Nat
  busy : Nat
deriving DecidableEq, Repr

/-- A group of warps (R282 to R285, R313). -/
structure Group where
  lid : Nat
  num : Nat
  world : Nat
  core : Nat
  pair : Bool
  st : GState
  warps : List Nat
  gflags : BitVec 3
  traparm : BitVec 2
  spad : Tbl Byte
  fe : Tbl Bool
  tiles : Tbl Word
  tqs : Tbl TileQ
  bars : Tbl BarG
  xw : Nat
  vfifo : Tbl (List (List Word))
  preempt : Bool
  pend : Option Pend
  frec : Option FRec
  inPlace : Bool
  mmc : Tbl MmCnt
  grant : Option Grant
  lastBoost : Nat
  slot : Option Nat
  ready : Bool
deriving DecidableEq, Repr

/-- The fields of a launch record that a launch keeps (R247, R248, R250). -/
structure LRec where
  kbase : Nat
  entry : Nat
  trapoff : Nat
  groupw : Nat
  regs : Nat
  prio : Nat
  rf : Nat
  sp : Nat
  acc : Nat
  arm : BitVec 2
  strict : Bool
  ng : Nat × Nat × Nat
  yield : Nat
  rect : Nat × Nat × Nat × Nat
  tqs : List Nat
  sigaddr : Nat
  sigval : Nat
  dstatus : Nat
  slots : List (List Byte)
deriving DecidableEq, Repr

/-- States of a launch (R252). -/
inductive LState | waiting | checking | dispatching | draining | completing | done
deriving DecidableEq, Repr

/-- A launch (R252 to R256): from a queue entry or from klaunch, its record, its counts, what it may not use, and the core or
pair whose groups of lower priority it has pre-empted for its next group (R259). -/
structure Launch where
  world : Nat
  entry : Option Nat
  copy : List Byte
  recAddr : Nat
  prio : Nat
  rc : LRec
  st : LState
  next : Nat
  retired : Nat
  ended : Nat
  claimed : List Nat
  barred : List Nat
  order : Nat
  claim : Option Nat
deriving DecidableEq, Repr

/-! ### Cores -/

/-- A task record (R264). -/
structure TRec where
  lo : Nat
  hi : Nat
  slo : Nat
  shi : Nat
  entry : Nat
  arg : Nat
  parent : FrameRef
  seq : Nat
  owner : Nat
  lid : Nat
  ident : Ident
deriving DecidableEq, Repr

/-- A copy of the copy engine (R189 to R193): warp, group, world, direction, shadow mark, tag, conversion, the place of its
first scratchpad byte, the global address, its count, the physical address of each 4 KiB page of the global range, the
addresses of its Sinter-managed pages, the tiles (virtual address over 65,536) whose fetch failed, with the class, and the
flags that a later flagclr of its warp has cleared (R109). -/
structure Copy where
  id : Nat
  w : Nat
  gid : Nat
  world : Nat
  out : Bool
  shd : Bool
  tag : Nat
  cnv : Cnv
  soff : Nat
  va : Nat
  n : Nat
  pas : List Nat
  sms : List Nat
  bad : List (Nat × Nat)
  mute : BitVec 3
deriving DecidableEq, Repr

/-- A descriptor that a group has pinned (R339): whether the pin table holds its entry, the lines that the entry holds in L2,
the physical lines that its tfetch found and, by aligned virtual word, the values that an mma of the group may still read (R341). -/
structure Pin where
  world : Nat
  gid : Nat
  desc : Nat
  held : Bool
  holds : List Nat
  lines : List Nat
  old : List (Nat × List Byte)
deriving DecidableEq, Repr

/-- An instruction in the queue of the matrix engine (R323): the waiting instruction it ends, its warp, the registers
and addresses it took at issue, lane by lane or quarter by quarter, and the L2 lines, each with its world, that an mma holds (R339). -/
structure MatOp where
  q : Nat
  w : Nat
  vals : List (List Word)
  addrs : List Nat
  holds : List (Nat × Nat)
deriving DecidableEq, Repr

/-- How a core rests (R393, R394): marked, or resting with the ticks left and the recovery earned, in tenths of 1 mBSU. A
rest that began within a tick has 21 left: the rest of that tick does not count. -/
inductive Rest
  | no | marked
  | resting (ticks : Nat) (rec : Nat)
deriving DecidableEq, Repr

/-- Gating of an upper core (R414): open, requested by a group, gated with the recovery earned in tenths of 1 mBSU, or
waking since a cycle with the request that came meanwhile. -/
inductive Gate
  | open
  | pending (gid : Nat)
  | gated (gid : Nat) (rec : Nat)
  | waking (since : Nat) (next : Option Nat)
deriving DecidableEq, Repr

/-- A line of the instruction cache (R19; log 34): the number of its 32 bytes, the world of its tag, its bytes. -/
structure ILine where
  world : Nat
  line : Nat
  bytes : List Byte
deriving DecidableEq, Repr

/-- One core (R19, R45, R264, R299, R323, R339, R391). -/
structure Core where
  clk : Nat
  quad : Nat
  rest : Rest
  gate : Gate
  drain : Bool
  level : Nat
  emer : Option Nat
  recs : List TRec
  l1 : Tbl (List Byte)
  ic : List ILine
  epoch : Tbl Nat
  copies : List Copy
  matq : List MatOp
  pins : List Pin
  ports : Tbl Nat
  cycles : Nat
  issues : Nat
  busy : Nat
deriving DecidableEq, Repr

/-! ### Memory system -/

/-- A present L2 line: the number of its 128 bytes in memory, the world of its tag, the offsets of its bytes stored since it
was last written back, and its retention hint (R152, R154, R169). -/
structure Line where
  world : Nat
  line : Nat
  dirty : List Nat
  hint : Ch
deriving DecidableEq, Repr

/-- One access unit in flight: lane, virtual and physical address, size, data (of a store or an atomic element, the
operand; of a finished read, what it read), its byte offset in the lane's access, the memory type of its page (R348),
whether the page is Sinter-managed, the peer port it goes to, and the class of an error reply that it has met (R155, R176, R386). -/
structure Acc where
  lane : Nat
  va : Nat
  pa : Nat
  n : Nat
  data : List Byte
  idx : Nat
  mt : Nat
  sm : Bool
  port : Option Nat
  err : Option Nat
deriving DecidableEq, Repr

/-- Kinds of access in flight. -/
inductive TxKind | load | store | atomic
deriving DecidableEq, Repr

/-- The accesses of one instruction in flight (R160, R168, R176): units to be performed, units that have been performed,
what it still owes the store count, the flags that its elements reported, lane by lane, those that a later flagclr of the
lane has cleared (R109), and the waiting instruction that it ends (R168, R181). -/
structure Txn where
  w : Nat
  core : Nat
  world : Nat
  kind : TxKind
  ins : Instr
  m : Mask
  pc : Dword
  units : List Acc
  got : List Acc
  owed : Nat
  flags : Tbl (BitVec 3)
  mute : Tbl (BitVec 3)
  q : Option Nat
deriving DecidableEq, Repr

/-- An armed monitor of waita (R184): home slice, world, waiting instruction, sector and the lanes that watch it. -/
structure Monitor where
  slice : Nat
  world : Nat
  q : Nat
  sector : Nat
  lanes : Mask
deriving DecidableEq, Repr

/-- A cached translation entry (R353): die, world, level, virtual prefix, the entry word and the address it was read from, and, of
a leaf of level 1 or 2, the 4 KiB parts of the virtual range for which it records DF since (R350). -/
structure TEnt where
  die : Nat
  world : Nat
  lvl : Nat
  vpn : Nat
  ent : Nat
  addr : Nat
  parts : List Nat
deriving DecidableEq, Repr

/-- A publish-table entry (R355). -/
structure Pair where
  world : Nat
  sel : Bool
deriving DecidableEq, Repr

/-- States of a Sinter tile (R358). -/
inductive SState | resident | absent | arriving | leaving
deriving DecidableEq, Repr

/-- A log entry (R360). -/
structure LogE where
  op : Nat
  ty : Nat
  size : Nat
  off : Nat
  seq : Nat
  val : Nat
deriving DecidableEq, Repr

/-- A Sinter tile (R358, R360). -/
structure STile where
  st : SState
  cap : Nat
  log : List LogE
  seq : Nat
  sat : Bool
  inv : Bool
  refetch : Bool
deriving DecidableEq, Repr

/-- A Sinter region (R357). -/
structure Region where
  world : Nat
  num : Nat
  vbase : Nat
  backing : Nat
  logbase : Nat
  tiles : List STile
deriving DecidableEq, Repr

/-! ### Contexts and queues -/

/-- States of a context (R196). -/
inductive CState | free | configured | locked | running | suspended | error | departing
deriving DecidableEq, Repr

/-- A page of a ring whose translation is held from CONFIGURE on: its physical address, and the level, the value and the
address of its leaf (R219, R228, R350). -/
structure HPage where
  pa : Nat
  lvl : Nat
  ent : Nat
  addr : Nat
deriving DecidableEq, Repr

/-- A submission queue (R228, R230). -/
structure SubQ where
  base : Nat
  log2n : Nat
  tail : Nat
  nerr : Bool
  pages : List HPage
deriving DecidableEq, Repr

/-- A peer window (R385). -/
structure Window where
  vbase : Nat
  size : Nat
  rbase : Nat
  port : Nat
  rworld : Nat
deriving DecidableEq, Repr

/-- A context (R196, R197, R218, R219); depart is 1 while its departure waits to write its last status words (R209, R235). -/
structure Ctx where
  st : CState
  prot : Bool
  part : Nat
  root : Nat
  eqbase : Nat
  eqlog2 : Nat
  eqvec : Nat
  eqhead : Nat
  eqtail : Nat
  eqpages : List HPage
  qs : Nat
  cbase : Nat
  ccount : Nat
  allot : Nat
  abase : Nat
  sqs : Tbl SubQ
  devq : Nat
  windows : List Window
  depart : Nat
  grans : List Nat
  cores : List Nat
deriving DecidableEq, Repr

/-- States of a key slot (R199). -/
inductive KState | empty | valid | revoked
deriving DecidableEq, Repr

/-- A key slot (R199). -/
structure KeySlot where
  st : KState
  key : Nat
deriving DecidableEq, Repr

/-- Where an outstanding submission entry stands (R232); ended, where only its status word is still to be written (R230). -/
inductive EState | waiting | started | ended
deriving DecidableEq, Repr

/-- An outstanding submission entry (R229 to R234). -/
structure Entry where
  world : Nat
  q : Nat
  idx : Nat
  kind : Nat
  after : Bool
  set : Bool
  tag : Nat
  status : Nat
  a : Nat
  b : Nat
  c : Nat
  st : EState
  moved : Nat
  lid : Option Nat
  sat : Bool
deriving DecidableEq, Repr

/-- States of a Caldera slot (R222). -/
inductive SlState | free | held | resuming | ended
deriving DecidableEq, Repr

/-- What a slot holds (R222, R223): the owner, the group, its warps, its task records. -/
structure Slot where
  st : SlState
  world : Nat
  gid : Option Nat
  recs : List TRec
deriving DecidableEq, Repr

/-- An event that its source holds (R220, R221): the ring it goes to (a function, or 1,024 for the hypervisor ring); ends
names the launch that has one more ENDED group once the event is posted (R208). -/
structure Event where
  ring : Nat
  src : Nat
  seq : Nat
  kind : Nat
  cls : Nat
  pc : Nat
  addr : Nat
  lanes : Nat
  perf : Nat
  group : Nat
  launch : Nat
  slot : Nat
  warp : Nat
  lvl : Nat
  info : Nat
  time : Nat
  ends : Option Nat
deriving DecidableEq, Repr

/-! ### Gatchalar -/

/-- The command and hypervisor-event rings (R213). -/
structure Gcq where
  base : Nat
  en : Bool
  vec : Nat
  log2n : Nat
  tail : Nat
  head : Nat
deriving DecidableEq, Repr

/-- Where a taken command stands (R215); paused, where its effect waits for the host link, a die or a tile. -/
inductive CmdSt | taken | started | paused | ended
deriving DecidableEq, Repr

/-- A taken command (R214, R215); track holds the groups that SUSPEND waits for, or the accesses that TLBINV waits for
(R353), and blk the block in host memory that the command has read. -/
structure Cmd where
  seq : Nat
  code : Nat
  flags : Nat
  rsv : Nat
  tag : Nat
  compl : Nat
  args : List Nat
  st : CmdSt
  status : Nat
  detail : Nat
  value : Nat
  track : List Nat
  blk : Option (List Byte)
deriving DecidableEq, Repr

/-- A partition (R27, R217, R260, R396, R403, R404). -/
structure Part where
  mask : BitVec 40
  weight : Nat
  share : Nat
  bw : Tbl Nat
  hours : Nat
  lbr : Nat
  est : Nat
  borrow : Nat
  reef : Nat
  at3 : Nat
  below3 : Nat
  skip : Nat
deriving DecidableEq, Repr

/-- A wear record (R390). -/
structure Wear where
  bsu : Nat
  hsu : Nat
  esu : Nat
  base : Nat
deriving DecidableEq, Repr

/-- A wear-log entry (R401). -/
structure WLog where
  time : Nat
  kind : Nat
  part : Nat
  unit : Nat
  info : Nat
  value : Nat
  lbr : Nat
deriving DecidableEq, Repr

/-- States of a link (R371). -/
inductive LkState | down | active | retraining | quiescing | resetting
deriving DecidableEq, Repr

/-- The reset of a die (R378): the step that runs, the step of the failure that will end it, or 0 (R381), and whether
the die is isolated, so that no command asked for it (R374). -/
structure Warm where
  step : Nat
  bad : Nat
  iso : Bool
deriving DecidableEq, Repr

/-- A hot zone (R406): its hot column, the partitions throttled for it and when the last one was. -/
structure Zone where
  col : Nat
  parts : List Nat
  since : Nat
deriving DecidableEq, Repr

/-- The supply (R408, R409): the self-test, a device that runs, one with a power-fail warning, a self-test with one, and no
supply. -/
inductive Power | selfTest | on | failing | testFailing | off
deriving DecidableEq, Repr

/-- A write of the queue engine that waits for a die or a tile (R359, R379): world, virtual address and bytes, and the
entry that is outstanding until its status word is written by it, or whether it is the DSTATUS word of a launch of klaunch, which is
outstanding until then (R230, R262). -/
structure Late where
  world : Nat
  va : Nat
  bytes : List Byte
  ends : Option Nat
  dev : Bool
deriving DecidableEq, Repr

/-- A host access that waits at the mailbox engine (R166): a write or read of the aperture, a read of BAR 0, or a write of
a notify register. -/
inductive MbOp
  | write (fn off : Nat) (bytes : List Nat)
  | read (fn off len tag : Nat)
  | reg (fn off len tag : Nat)
  | notify (fn q v : Nat)
deriving DecidableEq, Repr

/-- How far the host access at the head of the mailbox engine is: the address of its next part, the bytes before it, what a read has
read of them, and whether it started in this very step (R382). -/
structure MbRun where
  va : Nat
  pos : Nat
  got : List Byte
  fresh : Bool
deriving DecidableEq, Repr

/-- A request that came in over a peer port, with its sequence number, and waits for a die or a tile (R359, R378, R387). -/
structure FarReq where
  port : Nat
  seq : Nat
  world : Nat
  va : Nat
  op : RemOp
  bytes : List Nat
deriving DecidableEq, Repr

/-- The round robin of a die's dispatcher at one priority (R260): the partitions that had pending groups, placements since
then, those of each partition, and the function served last of each. -/
structure Turn where
  parts : List Nat
  n : Nat
  counts : Tbl Nat
  last : Tbl Nat
deriving DecidableEq, Repr

/-- SPDM and TDISP responder (R202): version agreed, algorithms agreed, sessions (established or not). -/
structure Spdm where
  version : Bool
  caps : Bool
  algos : Bool
  sessions : Tbl Bool
deriving DecidableEq, Repr

/-- A selective IDE stream (R202): the functions that it carries, and its key. -/
structure IdeStream where
  fns : List Nat
  key : Nat
deriving DecidableEq, Repr

/-- Messages of the security protocols that the device answers (R202). -/
inductive Msg
  | version | capabilities | algorithms | digests | certificate | challenge | measurements | keyExchange | finish | heartbeat
  | keyUpdate | endSession | vendor | lockInterface | startInterface | stopInterface | interfaceReport | interfaceState
  | other (code : Nat)
deriving DecidableEq, Repr

/-- What leaves the device (R213, R219, R383, R387; the protocol answers of R202). -/
inductive Out
  | msix (fn vec : Nat)
  | readData (fn tag : Nat) (bytes : List Byte)
  | completerAbort (fn tag : Nat)
  | writeRefused (fn : Nat)
  | answer (m : Msg) (vals : List Nat)
  | errorAnswer (m : Msg)
  | peerSend (port seq world va : Nat) (op : RemOp) (bytes : List Nat)
  | peerData (port : Nat) (bytes : List Byte)
  | peerError (port cls : Nat)
deriving DecidableEq, Repr

/-! ### The whole state -/

/-- Model's own: the issuing PC group of a step. forced holds M where a waiting instruction issues again; late tells that
the yield counter stood at zero, so that the instruction raises WATCHDOG (R295); draw numbers the free values with which
the opportunity fetched the word and read its guard (R35, R39); spent tells that WATCHDOG has ended the iterations of the task
warp's other lanes in this very cycle (R277). -/
structure Cur where
  w : Nat
  act : Mask
  pc : Dword
  forced : Option Mask
  q : Option Nat
  late : Bool
  draw : Nat
  spent : Bool
deriving DecidableEq, Repr

/-- Model's own: a move of the agenda: an event or an instruction of the host, or one quadrant of a core. -/
inductive Move
  | ev (i : Instr)
  | issue (core : Nat)
deriving DecidableEq, Repr

/-- The state of the machine. agenda, cur, second, turn, freeCtr and nextId are the model's own (log 3, log 4). -/
structure State where
  /-- The moves that the host has chosen next (log 3). -/
  agenda : List Move
  /-- The group that issues in this step. -/
  cur : Option Cur
  /-- The group that issues on the second port in the next step (R288). -/
  second : Option Cur
  /-- Whose turn it is in the default order (log 3). -/
  turn : Nat
  /-- Numbers the free values (log 4). -/
  freeCtr : Nat
  /-- The identity of the next group, warp, launch, access, wait or command. -/
  nextId : Nat
  /-- R19; a core not listed is as reset leaves it. -/
  cores : Tbl Core
  /-- R282. -/
  groups : Tbl Group
  /-- R148, R284. -/
  warps : Tbl Warp
  /-- Instructions that wait. -/
  waits : Tbl Wait
  /-- R252. -/
  launches : Tbl Launch
  /-- HBM as plaintext (R22, R199). -/
  mem : Memory
  /-- The key under which each 32-byte sector was written (R199). -/
  secKey : Tbl Nat
  /-- By set: its present lines, the latest used first (R170). -/
  l2 : Tbl (List Line)
  /-- The slices of each die in use (R151). -/
  slices : List (List Nat)
  /-- Cached translation entries (R353). -/
  tcache : List TEnt
  /-- By granule (R364). -/
  unscrubbed : Tbl Bool
  /-- Accesses in flight (R160). -/
  txns : Tbl Txn
  /-- R184. -/
  monitors : List Monitor
  /-- By pair number (R355). -/
  pubTab : Tbl Pair
  /-- By world (R164). -/
  epochs : Tbl Nat
  /-- R357. -/
  regions : List Region
  /-- By function (R196). -/
  ctxs : Tbl Ctx
  /-- By world (R199). -/
  keys : Tbl KeySlot
  /-- R229. -/
  entries : Tbl Entry
  /-- R236. -/
  counters : Tbl Nat
  /-- R222, R441. -/
  nslots : Nat
  /-- R222. -/
  slots : Tbl Slot
  /-- R220. -/
  evq : List Event
  /-- By source (R220). -/
  seqs : Tbl Nat
  /-- Microseconds (R221). -/
  time : Nat
  /-- The estimates of the last microsecond of the tick have been formed, while TICK is still to end it (R403). -/
  estDone : Bool
  /-- R213. -/
  gcq : Gcq
  /-- R213. -/
  heq : Gcq
  /-- R215. -/
  cmds : Tbl Cmd
  /-- The memory of the host. -/
  hostMem : Memory
  /-- What has left the device. -/
  outs : List Out
  /-- R27. -/
  parts : Tbl Part
  /-- The rail of every cluster (R26, R402; at reset log 20). -/
  rails : Tbl Nat
  /-- CLUSTER_OK (R17). -/
  clusterOk : BitVec 40
  /-- SPARESTAT, by die (R17). -/
  spares : List Nat
  /-- The remap table: the spare that serves a column (R15). -/
  colSpare : Tbl Nat
  /-- Columns that are not usable (R16). -/
  colBad : List Nat
  /-- Wear records (R390). -/
  units : Tbl Wear
  /-- The records as of the last tick (R258, R415). -/
  ticked : Tbl Wear
  /-- Columns whose call-up found no spare (R395). -/
  nospare : List Nat
  /-- Call-ups that are due: by column, the unit and its value (R395). -/
  calls : Tbl (Nat × Nat)
  /-- By unit: the last temperature (R391). -/
  temps : Tbl Nat
  /-- R401. -/
  wlog : Tbl WLog
  /-- R401. -/
  wlogNext : Nat
  /-- The records in MRAM (R401). -/
  nvmUnits : Tbl Wear
  /-- The budgets in MRAM (R401). -/
  nvmLbr : Tbl Nat
  /-- When they were written. -/
  nvmAt : Nat
  /-- R409. -/
  transport : Bool
  /-- R371, R375; a link not listed is DOWN. -/
  links : Tbl LkState
  /-- By die (R378). -/
  warm : Tbl Warm
  /-- Dies whose reset has failed (R381). -/
  dead : List Nat
  /-- By port: since when it is down (R387). -/
  portDown : Tbl Nat
  /-- By port: the accesses that it has accepted before it quiesced (R387). -/
  portMark : Tbl Nat
  /-- By port: the number of its next request (R387). -/
  peerSeq : Tbl Nat
  /-- By port: the numbers of requests that have been applied (R387). -/
  farSeen : Tbl (List Nat)
  /-- By HBM stack (R405). -/
  derates : Tbl Nat
  /-- R406. -/
  zones : List Zone
  /-- R408. -/
  power : Power
  /-- R202. -/
  spdm : Spdm
  /-- Selective IDE streams (R202). -/
  ide : Tbl IdeStream
  /-- Firmware images (R204). -/
  images : Tbl Nat
  /-- The result of the last transport self-test (R204). -/
  tested : List Nat
  /-- Digests of the measurement blocks (R204). -/
  meas : Tbl Nat
  /-- By function: the locked configuration (R204). -/
  measured : Tbl (List Nat)
  /-- By die and priority (R260). -/
  rr : Tbl Turn
  /-- Cores that ask for work, with their launch (R267). -/
  asks : List (Nat × Nat)
  /-- Writes of the queue engine that wait. -/
  late : List Late
  /-- Host accesses that wait (R166). -/
  mbox : List MbOp
  /-- How far the access at its head is, where it has begun (R382). -/
  mbRun : Option MbRun
  /-- Requests of peers that wait. -/
  farq : List FarReq
  /-- By die: the numbers of its Halyard (R268). -/
  hseqs : Tbl Nat
deriving DecidableEq, Repr

/-- A ring at reset (R213). -/
def Gcq.reset : Gcq := ⟨0, false, 0, 0, 0, 0⟩

/-- The 40 slices of a die (R151). -/
def allSlices : List Nat :=
  [0, 1, 2, 3, 4, 5, 6, 7, 8, 9, 10, 11, 12, 13, 14, 15, 16, 17, 18, 19,
   20, 21, 22, 23, 24, 25, 26, 27, 28, 29, 30, 31, 32, 33, 34, 35, 36, 37, 38, 39]

/-- The machine right after power-on reset (R7, R196, R213, R219, R371, R409; log 1, 2, 3, 4, 17 to 22 where the
manual gives no value). -/
def State.reset : State where
  agenda := []
  cur := none
  second := none
  turn := 0
  freeCtr := 0
  nextId := 0
  cores := []
  groups := []
  warps := []
  waits := []
  launches := []
  mem := []
  secKey := []
  l2 := []
  slices := [allSlices, allSlices, allSlices, allSlices]
  tcache := []
  unscrubbed := []
  txns := []
  monitors := []
  pubTab := []
  epochs := []
  regions := []
  ctxs := []
  keys := []
  entries := []
  counters := []
  nslots := 4096
  slots := []
  evq := []
  seqs := []
  time := 0
  estDone := false
  gcq := Gcq.reset
  heq := Gcq.reset
  cmds := []
  hostMem := []
  outs := []
  parts := []
  rails := (List.range 40).map fun c => (c, c % 4)
  clusterOk := BitVec.allOnes 40
  spares := [4, 4, 4, 4]
  colSpare := []
  colBad := []
  units := []
  ticked := []
  nospare := []
  calls := []
  temps := []
  wlog := []
  wlogNext := 0
  nvmUnits := []
  nvmLbr := []
  nvmAt := 0
  transport := false
  links := []
  warm := []
  dead := []
  portDown := []
  portMark := []
  peerSeq := []
  farSeen := []
  derates := []
  zones := []
  power := .selfTest
  spdm := ⟨false, false, false, []⟩
  ide := []
  images := []
  tested := []
  meas := []
  measured := []
  rr := []
  asks := []
  late := []
  mbox := []
  mbRun := none
  farq := []
  hseqs := []

end Sys2Proof.Machine
end

