-- ==== Sys2Proof/Machine/Ops.lean ====
section
/-!
DEFINITION. The named operations over registers, lanes, warps and memory that every meaning uses; the end of a task
iteration and the retirement of a group; posting an event; and taking an exception (raise, R205 to R208 and R277) with
the return from one beside it (rfeLane, R227).
-/

namespace Sys2Proof.Machine

/-! ### Lists and masks -/

/-- Changes every element, with its position from i. -/
def mapFrom {α : Type} (f : Nat → α → α) : Nat → List α → List α
  | _, [] => []
  | i, x :: xs => f i x :: mapFrom f (i + 1) xs

/-- Changes element n. -/
def updNth {α : Type} (f : α → α) : Nat → List α → List α
  | _, [] => []
  | 0, x :: xs => f x :: xs
  | n + 1, x :: xs => x :: updNth f n xs

/-- The numbers from i on, n of them. -/
def upTo : Nat → Nat → List Nat
  | _, 0 => []
  | i, n + 1 => i :: upTo (i + 1) n

/-- Lane numbers (R34). -/
def laneNums : List Nat :=
  [0, 1, 2, 3, 4, 5, 6, 7, 8, 9, 10, 11, 12, 13, 14, 15, 16, 17, 18, 19, 20, 21, 22, 23, 24, 25, 26, 27, 28, 29, 30, 31]

/-- Lane l is in the set. -/
def inMask (m : Mask) (l : Nat) : Bool := m.getLsbD l

/-- The lanes of a set, lowest first. -/
def maskLanes (m : Mask) : List Nat := laneNums.filter (inMask m)

/-- The set with lane l alone. -/
def oneLane (l : Nat) : Mask := BitVec.ofNat 32 (2 ^ l)

/-- The lanes of which p holds. -/
def maskOf (p : Nat → Bool) : Mask := laneNums.foldl (fun m l => if p l then m ||| oneLane l else m) 0

/-- The lowest lane of a set; 0 for the empty set. -/
def lowLane (m : Mask) : Nat := (maskLanes m).headD 0

/-! ### Lanes, warps and groups at dispatch -/

/-- The random state at dispatch (R142). -/
def Rng.zero : Rng := ⟨0, 0, 0⟩

/-- A lane at dispatch (R284); pc is ENTRY. -/
def Lane.start (pc : Dword) : Lane where
  v := []
  haz := []
  g := 0
  pc := pc
  mr := 0
  hs := false
  epc := 0
  emr := 0
  rng := Rng.zero
  exited := false
  frames := []
  base := 0
  task := none
  conts := []
  barUntil := 0
  starve := 0
  wait := none
  since := 0
  helped := false
  ending := none
  ra := []
  rb := []

/-- A copy tag at dispatch (R284). -/
def Tag.idle : Tag := ⟨0, none⟩

/-- Barrier items of a warp at dispatch (R314). -/
def BarW.clear : BarW := ⟨false, false, .no⟩

/-- A core that has done nothing since its last reset. -/
def Core.fresh : Core where
  clk := 0
  quad := 0
  rest := .no
  gate := .open
  drain := false
  level := 0
  emer := none
  recs := []
  l1 := []
  ic := []
  epoch := []
  copies := []
  matq := []
  pins := []
  ports := []
  cycles := 0
  issues := 0
  busy := 0

/-- Lane l of a warp. -/
def Warp.lane (w : Warp) (l : Nat) : Lane := w.lanes.getD l (Lane.start 0)

/-- Changes lane l of a warp. -/
def Warp.setLane (w : Warp) (l : Nat) (f : Lane → Lane) : Warp := { w with lanes := updNth f l w.lanes }

/-- Changes the lanes of a set. -/
def Warp.onLanes (w : Warp) (m : Mask) (f : Nat → Lane → Lane) : Warp :=
  { w with lanes := mapFrom (fun l ln => if inMask m l then f l ln else ln) 0 w.lanes }

/-- The core n; one that was never used is as after reset. -/
def State.core (s : State) (n : Nat) : Core := s.cores.getD n Core.fresh

/-- Changes core n. -/
def State.onCore (s : State) (n : Nat) (f : Core → Core) : State := { s with cores := s.cores.put n (f (s.core n)) }

/-- Changes warp w where there is one. -/
def State.onWarp (s : State) (w : Nat) (f : Warp → Warp) : State := { s with warps := s.warps.upd w f }

/-- Changes group g where there is one. -/
def State.onGroup (s : State) (g : Nat) (f : Group → Group) : State := { s with groups := s.groups.upd g f }

/-- Changes launch x where there is one. -/
def State.onLaunch (s : State) (x : Nat) (f : Launch → Launch) : State := { s with launches := s.launches.upd x f }

/-- Changes context n where it is held. -/
def State.onCtx (s : State) (n : Nat) (f : Ctx → Ctx) : State := { s with ctxs := s.ctxs.upd n f }

/-- Changes the lanes of a set in warp w. -/
def State.onLanes (s : State) (w : Nat) (m : Mask) (f : Nat → Lane → Lane) : State :=
  s.onWarp w fun wp => wp.onLanes m f

/-- The state of a context; one that is not held is FREE (R196). -/
def State.cstate (s : State) (n : Nat) : CState :=
  match s.ctxs.find n with
  | some c => c.st
  | none => .free

/-- Free value number j of this step (log 4): no two steps and no two j share one. -/
def State.free (s : State) (j : Nat) : Nat := Config.free (s.freeCtr * 2 ^ 32 + j)

/-- Uses up the free values of this step (log 4). -/
def State.used (s : State) : State := { s with freeCtr := s.freeCtr + 1 }

/-- Takes the next identity. -/
def State.newId (s : State) : Nat × State := (s.nextId, { s with nextId := s.nextId + 1 })

/-! ### The issuing context -/

/-- What a meaning knows of its issue: the warp, its group, launch and core, the active lanes, the effective execution
mask M (R34), the PC and the cycle. q names the waiting instruction that issues again. -/
structure Iss where
  w : Nat
  wp : Warp
  g : Group
  ln : Launch
  act : Mask
  m : Mask
  pc : Dword
  clk : Nat
  q : Option Nat
deriving Repr

/-- One older or newer value of a register with pending results, newest hazard first (R39): either value where a result
is not ready; equal values leave nothing open. -/
def settleHaz (pick : Nat → Bool) (clk reg : Nat) : Nat → List Haz → Word → Word
  | _, [], v => v
  | j, h :: hs, v =>
    if h.reg = reg ∧ clk < h.ready then
      if h.old = v then settleHaz pick clk reg (j + 1) hs v
      else if pick j then v else settleHaz pick clk reg (j + 1) hs h.old
    else settleHaz pick clk reg j hs v

/-- Some result of the register is not ready in cycle clk (R39). -/
def hazOpen (clk reg : Nat) (hs : List Haz) : Bool := hs.any fun h => h.reg == reg && decide (clk < h.ready)

/-- Guard n of a lane, with g7 always true (R34), under R39. -/
def laneGuard (s : State) (clk l : Nat) (ln : Lane) (n : BitVec 3) : Bool :=
  if n = 7 then true
  else
    let now : Word := if ln.g.getLsbD n.toNat then 1 else 0
    settleHaz (fun j => s.free (l * 65536 + (256 + n.toNat) * 32 + j) % 2 = 0) clk (256 + n.toNat) 0 ln.haz now != 0

/-- Some result of guard n of a lane is not ready (R39). -/
def guardOpen (clk : Nat) (ln : Lane) (n : BitVec 3) : Bool := n != 7 && hazOpen clk (256 + n.toNat) ln.haz

/-- The issue that a word's control fields make of the issuing PC group (R34); none when no warp issues. Under STRICT a lane
whose guard is not ready stands in M: the checking scoreboard raises SCHED_STALL where it is read (R39; log 26). -/
def State.iss (s : State) (c : Ctl) : Option Iss :=
  match s.cur with
  | none => none
  | some u =>
    match s.warps.find u.w with
    | none => none
    | some wp =>
      match s.groups.find wp.gid with
      | none => none
      | some g =>
        match s.launches.find g.lid with
        | none => none
        | some ln =>
          let clk := (s.core wp.core).clk
          let m := match u.forced with
            | some f => f
            | none => u.act &&& maskOf fun l =>
                ln.rc.strict && guardOpen clk (wp.lane l) c.gi ||
                  laneGuard { s with freeCtr := u.draw } clk l (wp.lane l) c.gi != c.gn
          some ⟨u.w, wp, g, ln, u.act, m, u.pc, clk, u.q⟩

/-! ### Reading registers -/

/-- Lane register i of lane l, under R39. -/
def Iss.rv (x : Iss) (s : State) (l i : Nat) : Word :=
  let ln := x.wp.lane l
  settleHaz (fun j => s.free (l * 65536 + i * 32 + j) % 2 = 0) x.clk i 0 ln.haz (ln.v.getD i 0)

/-- Uniform register i as lane l reads it, under R39. -/
def Iss.rk (x : Iss) (s : State) (l i : Nat) : Word :=
  settleHaz (fun j => s.free (l * 65536 + (512 + i) * 32 + j) % 2 = 0) x.clk (512 + i) 0 x.wp.uhaz (x.wp.k.getD i 0)

/-- Group coordinates of a linear group number (R256). -/
def coords (ng : Nat × Nat × Nat) (n : Nat) : Nat × Nat × Nat :=
  (n % ng.1, n / ng.1 % ng.2.1, n / ng.1 / ng.2.1)

/-- The column of a core, by R28. -/
def coreCol (n : Nat) : Nat := n / 2

/-- x of a column (R28). -/
def colX (col : Nat) : Nat := col % 16

/-- y of a column (R28). -/
def colY (col : Nat) : Nat := col / 16

/-- The die of a column (R14). -/
def colDie (col : Nat) : Nat := colX col / 8 + 2 * (colY col / 5)

/-- The die of a core (R28). -/
def coreDie (n : Nat) : Nat := colDie (coreCol n)

/-- The cluster of a column (R18). -/
def colCluster (col : Nat) : Nat := 8 * (colY col / 2) + colX col / 2

/-- The value of a special register in lane l (R45, R28, R271). -/
def Iss.sreg (x : Iss) (l : Nat) : SReg → Nat
  | .lane => l
  | .warp => x.wp.ident.warp
  | .gwarp => x.wp.ident.gwarp
  | .groupX => (coords x.ln.rc.ng x.wp.ident.grp).1
  | .groupY => (coords x.ln.rc.ng x.wp.ident.grp).2.1
  | .groupZ => (coords x.ln.rc.ng x.wp.ident.grp).2.2
  | .ngroupX => x.ln.rc.ng.1
  | .ngroupY => x.ln.rc.ng.2.1
  | .ngroupZ => x.ln.rc.ng.2.2
  | .it => match (x.wp.lane l).task with
    | some t => t.it
    | none => 0
  | .core => x.wp.core
  | .colX => colX (coreCol x.wp.core)
  | .colY => colY (coreCol x.wp.core)
  | .die => coreDie x.wp.core
  | .tier => x.wp.tier
  | .clk => x.clk
  | .kbase => x.ln.rc.kbase

/-- The 32-bit value of a source in lane l; an immediate is sign-extended to 32 bits (R43, R116). -/
def Iss.src32 (x : Iss) (s : State) (l : Nat) : Src → Word
  | .v i => x.rv s l i.toNat
  | .k i => x.rk s l i.toNat
  | .sp r => BitVec.ofNat 32 (x.sreg l r)
  | .imm b => b.signExtend 32

/-- The 64-bit value of a source pair in lane l (R42, R45). DESIGN CHOICE: a 32-bit special register is extended by zeros
(log 83). -/
def Iss.src64 (x : Iss) (s : State) (l : Nat) : Src → Dword
  | .v i => x.rv s l (i.toNat + 1) ++ x.rv s l i.toNat
  | .k i => x.rk s l (i.toNat + 1) ++ x.rk s l i.toNat
  | .sp r => BitVec.ofNat 64 (x.sreg l r)
  | .imm b => b.signExtend 64

/-- Register j of a register operand, as lane l reads it. -/
def Iss.reg (x : Iss) (s : State) (l : Nat) (d : Dst) (j : Nat) : Word :=
  match d with
  | .v i => x.rv s l (i.toNat + j)
  | .k i => x.rk s l (i.toNat + j)

/-- The pair of a register operand from register j on, as lane l reads it. -/
def Iss.reg64 (x : Iss) (s : State) (l : Nat) (d : Dst) (j : Nat) : Dword := x.reg s l d (j + 1) ++ x.reg s l d j

/-- A register operand as a source. -/
def Dst.src : Dst → Src
  | .v i => .v i
  | .k i => .k i

/-! ### Writing registers -/

/-- Writes lane register i. -/
def Lane.setV (ln : Lane) (i : Nat) (x : Word) : Lane := { ln with v := ln.v.setD i x 0 }

/-- Writes n registers from the low bits of a value on (R42). -/
def Lane.setVs (ln : Lane) (i : Nat) : Nat → Nat → Lane
  | 0, _ => ln
  | n + 1, x => Lane.setVs (ln.setV i (BitVec.ofNat 32 x)) (i + 1) n (x / 2 ^ 32)

/-- Writes guard n; a write to g7 is discarded (R34, R75). -/
def Lane.setG (ln : Lane) (n : BitVec 3) (b : Bool) : Lane :=
  if n = 7 then ln
  else
    let one : BitVec 7 := BitVec.ofNat 7 (2 ^ n.toNat)
    { ln with g := if b then ln.g ||| one else ln.g &&& ~~~one }

/-- Writes uniform register i. -/
def Warp.setK (w : Warp) (i : Nat) (x : Word) : Warp := { w with k := w.k.setD i x 0 }

/-- Writes n uniform registers from the low bits of a value on (R42). -/
def Warp.setKs (w : Warp) (i : Nat) : Nat → Nat → Warp
  | 0, _ => w
  | n + 1, x => Warp.setKs (w.setK i (BitVec.ofNat 32 x)) (i + 1) n (x / 2 ^ 32)

/-- Notes that the n registers from reg on held these values until cycle ready (R39). -/
def Lane.noteV (ln : Lane) (clk ready reg : Nat) : Nat → Lane
  | 0 => { ln with haz := ln.haz.filter fun h => decide (clk < h.ready) }
  | n + 1 =>
    let ln' := Lane.noteV ln clk ready (reg + 1) n
    { ln' with haz := ⟨reg, ln.v.getD reg 0, ready⟩ :: ln'.haz }

/-- Notes the older value of guard n (R39). -/
def Lane.noteG (ln : Lane) (clk ready : Nat) (n : BitVec 3) : Lane :=
  if n = 7 then ln
  else
    { ln with
      haz := ⟨256 + n.toNat, if ln.g.getLsbD n.toNat then 1 else 0, ready⟩ ::
        ln.haz.filter fun h => decide (clk < h.ready) }

/-- Notes the older values of n uniform registers (R39). -/
def Warp.noteK (w : Warp) (clk ready reg : Nat) : Nat → Warp
  | 0 => { w with uhaz := w.uhaz.filter fun h => decide (clk < h.ready) }
  | n + 1 =>
    let w' := Warp.noteK w clk ready (reg + 1) n
    { w' with uhaz := ⟨512 + reg, w.k.getD reg 0, ready⟩ :: w'.uhaz }

/-- Writes the same n-register value to a destination: in every lane of m, or once (R115). -/
def State.putD (s : State) (w : Nat) (m : Mask) (d : Dst) (n x : Nat) : State :=
  match d with
  | .v i => s.onLanes w m fun _ ln => ln.setVs i.toNat n x
  | .k i => s.onWarp w fun wp => wp.setKs i.toNat n x

/-- Writes a value of its own to a lane destination in each lane of m, or the value of the lowest lane of m to a uniform
one (R281, R367). -/
def State.putEach (s : State) (w : Nat) (m : Mask) (d : Dst) (n : Nat) (f : Nat → Nat) : State :=
  match d with
  | .v i => s.onLanes w m fun l ln => ln.setVs i.toNat n (f l)
  | .k i => s.onWarp w fun wp => wp.setKs i.toNat n (f (lowLane m))

/-! ### Memory bytes -/

/-- A byte of a memory; an unlisted byte reads 0 (log 1, log 2). -/
def memByte (m : Memory) (a : Nat) : Byte := Tbl.getD m a 0

/-- Writes a byte, keeping the canonical form. -/
def memSet (m : Memory) (a : Nat) (b : Byte) : Memory := Tbl.setD m a b 0

/-- The canonical form of a memory: rising addresses, no listed zero. -/
def memWf (m : Memory) : Bool := Tbl.sorted m && Tbl.tight m 0

/-- n bytes from a on. -/
def memBytes (m : Memory) (a n : Nat) : List Byte := (upTo a n).map (memByte m)

/-- Writes bytes from a on. -/
def memSets (m : Memory) : Nat → List Byte → Memory
  | _, [] => m
  | a, b :: bs => memSets (memSet m a b) (a + 1) bs

/-- Size of HBM (R22). -/
def hbmSize : Nat := 512 * 2 ^ 30

/-- The key of a world (R199). -/
def State.key (s : State) (world : Nat) : KeySlot := s.keys.getD world ⟨.empty, 0⟩

/-- A byte of HBM as it reads under a key (R199): the plaintext where the sector was written under the same key or was
never written (log 1), else the ciphertext of the key that wrote it decrypted with the reading key (log 8). -/
def State.hbmByte (s : State) (key pa : Nat) : Byte :=
  match s.secKey.find (pa / 32) with
  | none => memByte s.mem pa
  | some k =>
    if k = key then memByte s.mem pa
    else (xtsDec key (pa / 32) (pa / 16 % 2) (xtsEnc k (pa / 32) (pa / 16 % 2) (memBytes s.mem (pa / 16 * 16) 16))).getD
      (pa % 16) 0

/-- n bytes of HBM under a key. -/
def State.hbmBytes (s : State) (key pa n : Nat) : List Byte := (upTo pa n).map (s.hbmByte key)

/-- The little-endian value of n bytes of HBM under a key. -/
def State.hbmNat (s : State) (key pa n : Nat) : Nat := leNat (s.hbmBytes key pa n)

/-- The memory whose sector sec holds the plaintext that it reads as under a key (R152). -/
def State.sectorMem (s : State) (key sec : Nat) : Memory :=
  match s.secKey.find sec with
  | none => s.mem
  | some k => if k = key then s.mem else memSets s.mem (sec * 32) (s.hbmBytes key (sec * 32) 32)

/-- Merges bytes of one sector at its home slice under a key (R152): the sector is decrypted, merged and encrypted again. -/
def State.hbmMerge (s : State) (key pa : Nat) (bs : List Byte) : State :=
  { s with mem := memSets (s.sectorMem key (pa / 32)) pa bs, secKey := s.secKey.put (pa / 32) key }

/-- Writes bytes of HBM under a key, sector by sector. -/
def State.hbmWrite (s : State) (key : Nat) : Nat → List Byte → State
  | _, [] => s
  | pa, b :: bs => State.hbmWrite (s.hbmMerge key pa [b]) key (pa + 1) bs

/-! ### L2 (R151, R152, R169, R170) -/

/-- The die that owns a physical address (R22). -/
def paDie (pa : Nat) : Nat := pa / 2 ^ 37

/-- The usable slices of a die in ascending index, and the home slice of an address: die * 40 + index (R151). -/
def State.homeSlice (s : State) (pa : Nat) : Nat :=
  let d := paDie pa
  let us := s.slices.getD d []
  let l := pa % 2 ^ 37 / 128
  d * 40 + us.getD ((l ^^^ l / 2 ^ 10 ^^^ l / 2 ^ 20) % us.length) 0

/-- The set of an address in State.l2: its home slice and, in it, one of 1,024 sets (R151, R170; log 10). -/
def State.setOf (s : State) (pa : Nat) : Nat := s.homeSlice pa * 1024 + pa / 128 % 1024

/-- The line is that of an address for a world (R154). -/
def Line.is (y : Line) (world pa : Nat) : Bool := y.world == world && y.line == pa / 128

/-- The line of an address for a world, where L2 holds it (R152). -/
def State.lineAt (s : State) (world pa : Nat) : Option Line := (s.l2.getD (s.setOf pa) []).find? fun y => y.is world pa

/-- Changes every line of L2. -/
def State.l2Map (s : State) (f : Line → Line) : State := { s with l2 := s.l2.mapV fun _ ls => ls.map f }

/-- Drops the lines of which p does not hold. -/
def State.l2Keep (s : State) (p : Line → Bool) : State := { s with l2 := s.l2.mapV fun _ ls => ls.filter p }

/-- A pin entry of some core, or an mma in an engine, holds the line, so that it is no victim (R339). -/
def State.lineHeld (s : State) (y : Line) : Bool :=
  s.cores.any fun e => (e.2.pins.any fun p => p.held && p.world == y.world && p.holds.contains y.line) ||
    e.2.matq.any fun o => o.holds.contains (y.world, y.line)

/-- The rank in which a line is chosen as victim (R170): EF first, then NONE and EN, then EL. -/
def victimRank : Ch → Nat
  | .ef => 0
  | .no | .en => 1
  | .el => 2

/-- The victim among lines given most recent first: the least recently used of the lowest rank that no pin holds (R170,
R339). -/
def State.victim (s : State) (ls : List Line) : Option Line :=
  let free := ls.reverse.filter fun y => !s.lineHeld y
  [0, 1, 2].findSome? fun r => free.find? fun y => victimRank y.hint == r

/-- The other lines of a set of 16 ways, with a way freed for one more (R170). -/
def State.makeRoom (s : State) (ls : List Line) : List Line :=
  if ls.length < 16 then ls
  else match s.victim ls with
    | some v => ls.filter fun y => y != v
    | none => ls

/-- The hint that .el stands for in a set whose other lines are these: EN where it would make a ninth EL line (R170). -/
def hintIn (others : List Line) (ch : Ch) : Ch :=
  if ch = .el ∧ 8 ≤ (others.filter fun y => y.hint == .el).length then .en else ch

/-- The retention hint of a line after an access or a pfetch with an incoming hint (R169). -/
def hintStep (old : Ch) (ch : Ch) : Ch :=
  match old, ch with
  | h, .no => h
  | .no, c => c
  | .ef, c => c
  | .en, .ef => .en
  | .en, c => c
  | .el, _ => .el

/-- An access fills its line where it is absent (with hint base), applies its own hint and marks the n bytes that it writes; the line
is the most recently used one of its set (R152, R169, R170). -/
def State.touchL2 (s : State) (world pa n : Nat) (base ch : Ch) : State :=
  let others := (s.l2.getD (s.setOf pa) []).filter fun y => !y.is world pa
  let (old, others) := match s.lineAt world pa with
    | some y => (y, others)
    | none => (⟨world, pa / 128, [], base⟩, s.makeRoom others)
  let wrote := (upTo (pa % 128) n).filter fun o => !old.dirty.contains o
  let new := ⟨world, pa / 128, old.dirty ++ wrote, hintStep old.hint (hintIn others ch)⟩
  { s with l2 := s.l2.put (s.setOf pa) (new :: others) }

/-! ### L1 -/

/-- Key of an L1 sector: sectors are tagged with the world (R153, R154). -/
def l1Key (world pa : Nat) : Nat := pa / 32 * 2048 + world

/-- Drops a core's copy of a sector. -/
def State.l1Drop (s : State) (core world pa : Nat) : State :=
  s.onCore core fun c => { c with l1 := c.l1.del (l1Key world pa) }

/-- Invalidates every L1 sector of a world on a core: what an acquire point does (R168). -/
def State.acquire (s : State) (core world : Nat) : State :=
  s.onCore core fun c => { c with l1 := c.l1.keep fun k _ => k % 2048 != world }

/-! ### Events -/

/-- The sequence number that a source gives its next event (R220; log 13). -/
def State.nextSeq (s : State) (src : Nat) : Nat := s.seqs.getD src 0

/-- A source takes up an event for a ring: it is numbered, and held until EVENT_POST writes it (R219, R220). -/
def State.raiseEvent (s : State) (e : Event) : State :=
  let n := s.nextSeq e.src
  { s with
    evq := s.evq ++ [{ e with seq := n, time := s.time }]
    seqs := s.seqs.put e.src ((n + 1) % 2 ^ 32) }

/-- An event with no field set. -/
def Event.blank : Event :=
  { ring := 0, src := 0, seq := 0, kind := 0, cls := 0, pc := 0, addr := 0, lanes := 0, perf := 0, group := 0, launch := 0,
    slot := 0, warp := 0, lvl := 0, info := 0, time := 0, ends := none }

/-- The ring that the events of a world go to (R213): its own, or the hypervisor ring for world 1,024. -/
def ringOf (world : Nat) : Nat := world

/-- The fault record of a group (R221); the one of a group that ends counts it for its launch when it is posted (R208). -/
def faultEvent (src : Nat) (g : Group) (ln : Launch) (slot : Nat) (extra : Nat) (f : FRec) : Event :=
  { ring := ringOf g.world, src := src, seq := 0, kind := 1, cls := f.cls, pc := f.pc.toNat, addr := f.addr
    lanes := f.lanes.toNat, perf := f.perf.toNat, group := g.num, launch := ln.recAddr, slot := slot, warp := f.warp
    lvl := f.lvl + extra + (if f.dbl then 128 else 0), info := f.info, time := 0
    ends := if extra = 64 then some g.lid else none }

/-- A STATE event of a context transition (R197). -/
def stateEvent (fn old new : Nat) : Event :=
  { Event.blank with ring := 1024, src := 0xf00, kind := 5, info := new + 16 * old + 65536 * fn }

/-! ### Waits -/

/-- The warp's accesses that a release point waits for are done (R168, R324; loads: log 6). -/
def Warp.drained (w : Warp) : Bool := w.stores == 0 && w.loads == 0 && w.matOut == 0

/-- Ends a wait: its lanes are candidates again, and the warp is no longer idle (R275). -/
def State.unblock (s : State) (q : Nat) : State :=
  match s.waits.find q with
  | none => s
  | some y =>
    { s with
      waits := s.waits.del q
      warps := s.warps.upd y.w fun wp =>
        { wp.onLanes y.lanes (fun _ ln => if ln.wait = some q then { ln with wait := none } else ln) with
          idleSince := (s.core wp.core).clk } }

/-- The warp's instructions may take effect: it has not stopped, its group runs, and no fault stops the group (R208,
R245, R296). -/
def State.runs (s : State) (w : Nat) : Bool :=
  match s.warps.find w with
  | none => false
  | some wp =>
    match s.groups.find wp.gid with
    | none => false
    | some g => !wp.stopped && g.pend.isNone && (g.st == .resident || g.st == .stopping)

/-! ### Meeting registers (R293, R294) -/

/-- Lane l is parked (R293). -/
def Lane.parked (ln : Lane) : Bool := ln.mr != 0 && ln.pc == ln.mr

/-- Every lane of X(v) is parked. -/
def Warp.meetDone (w : Warp) (v : Dword) : Bool :=
  w.lanes.all fun ln => ln.exited || ln.mr != v || ln.pc == v

/-- Releases the lanes of every meeting value all of whose lanes are parked; release is a release point (R168, R294). -/
def Warp.settle (w : Warp) : Warp :=
  if w.drained then
    { w with
      lanes := w.lanes.map fun ln =>
        if !ln.exited && ln.mr != 0 && w.meetDone ln.mr then { ln with mr := 0 } else ln }
  else w

/-- Tests the meeting values of a warp again. -/
def State.settle (s : State) (w : Nat) : State := s.onWarp w Warp.settle

/-- A lane begins to wait in an instruction; after an inline run that returned it there it has waited since the end of the
run (R274). -/
def Lane.waits (ln : Lane) (q clk : Nat) : Lane :=
  { ln with wait := some q, since := if ln.helped then ln.since else clk, helped := false }

/-- Lanes m of the issue begin to wait in instruction i; the other active lanes advance (R34, R287), and
may complete a meeting (R294). A waiting instruction
that issues again keeps its number, its place and what it has found. -/
def State.block (s : State) (x : Iss) (i : Instr) (k : WKindW) (stat : Tbl Nat) : State :=
  match x.q with
  | some q =>
    { s with waits := s.waits.upd q fun y => { y with kind := k, stat := stat } }
  | none =>
    let (q, s) := s.newId
    let s := s.onLanes x.w (x.act &&& ~~~x.m) fun _ ln => { ln with pc := ln.pc + 12 }
    let s := s.onLanes x.w x.m fun _ ln => ln.waits q x.clk
    { s with waits := s.waits.put q ⟨x.w, i, x.m, x.pc, x.clk, k, stat, false⟩ }.settle x.w

/-- The instruction retires in the lanes of M without a transfer: the active lanes advance by 12 (R32, R288). A waiting
instruction that issues again ends its wait. -/
def State.retire (s : State) (x : Iss) : State :=
  let s := match x.q with
    | some q => s.unblock q
    | none => s
  (s.onLanes x.w x.act fun _ ln => { ln with pc := ln.pc + 12 }).settle x.w

/-- The instruction retires; lanes of M go where f says, the other active lanes advance (R305). -/
def State.retireTo (s : State) (x : Iss) (f : Nat → Lane → Lane) : State :=
  let s := s.onLanes x.w (x.act &&& ~~~x.m) fun _ ln => { ln with pc := ln.pc + 12 }
  (s.onLanes x.w x.m f).settle x.w

/-! ### Retirement of groups and the end of iterations -/

/-- Every lane of the warp has exited. -/
def Warp.over (w : Warp) : Bool := w.lanes.all fun ln => ln.exited

/-- The task records that a group owns, in every core's store (R271, R285). -/
def State.ownsRecord (s : State) (gid : Nat) : Bool :=
  s.cores.any fun e => e.2.recs.any fun r => r.owner == gid

/-- The cores that a group occupies (R282, R301). -/
def Group.coreList (g : Group) : List Nat := if g.pair then [g.core, g.core + 1] else [g.core]

/-- The partition that holds a cluster (R27). -/
def State.clusterPart (s : State) (cl : Nat) : Option Nat := (s.parts.find? fun e => e.2.mask.getLsbD cl).map fun e => e.1

/-- The partition that holds a core (R27). -/
def State.corePart (s : State) (n : Nat) : Option Nat := s.clusterPart (colCluster (coreCol n))

/-- Appends an entry to the wear log, a ring of 65,536 entries (R401). -/
def State.logWear (s : State) (kind : Nat) (part : Option Nat) (unit info value : Nat) : State :=
  let lbr := match part with
    | none => 0
    | some p => ((s.parts.find p).map fun k => k.lbr).getD 0
  { s with
    wlog := s.wlog.put (s.wlogNext % 65536) ⟨s.time, kind, part.getD 0xff, unit, info, value, lbr⟩
    wlogNext := s.wlogNext + 1 }

/-- A unit's wear record (R390). -/
def State.wear (s : State) (u : Nat) : Wear := s.units.getD u ⟨0, 0, 0, 0⟩

/-- A unit's wear record as of the last completed tick (R258, R415). -/
def State.lastWear (s : State) (u : Nat) : Wear := s.ticked.getD u ⟨0, 0, 0, 0⟩

/-- A rest of a core ends: the recovery earned, at most a quarter of the BSU accrued since the last rest, is taken off
(R394), and the wear log tells of it (R401). -/
def State.restDone (s : State) (core rec : Nat) (poweredDown : Bool) : State :=
  let w := s.wear core
  let r := min (256 * rec / 10) ((w.bsu - w.base) / 4)
  let s := { s with units := s.units.put core { w with bsu := w.bsu - r, base := w.bsu - r } }
  s.logWear 5 (s.corePart core) core (if poweredDown then 1 else 0) r

/-- A rest that ends with a tick: the record as of that tick holds the recovery already (R258, R394, R438). -/
def State.restTicked (s : State) (core rec : Nat) : State :=
  let s := s.restDone core rec false
  { s with ticked := s.ticked.put core (s.wear core) }

/-- The gate of a core opens, or its pending request lapses; a gated core wakes, and its powered-down rest ends (R394,
R414). -/
def State.openGate (s : State) (n : Nat) : State :=
  match (s.core n).gate with
  | .open => s
  | .pending _ => s.onCore n fun c => { c with gate := .open }
  | .waking t _ => s.onCore n fun c => { c with gate := .waking t none }
  | .gated _ r => (s.onCore n fun c => { c with gate := .waking c.clk none }).restDone n r true

/-- The gate of a core belongs to a group. -/
def Gate.of (g : Gate) (gid : Nat) : Bool :=
  match g with
  | .pending k => k == gid
  | .gated k _ => k == gid
  | .waking _ (some k) => k == gid
  | _ => false

/-- A group is on its cores: resident, stopping or resuming (R282). -/
def Group.onCores (g : Group) : Bool := g.st == .resident || g.st == .stopping || g.st == .resuming

/-- A group of the core other than gid. -/
def State.otherOn (s : State) (gid n : Nat) : Bool :=
  s.groups.any fun e => e.1 != gid && (e.2.onCores || e.2.inPlace) && e.2.coreList.contains n

/-- A group leaves its cores: the emergency token, its pins, its gate requests and gates, and its boost grant end, and a
marked core with no other group begins its rest (R285, R300, R340, R393, R400, R414). -/
def State.leaveCores (s : State) (gid : Nat) : State :=
  match s.groups.find gid with
  | none => s
  | some g =>
    let s := s.cores.foldl (fun s e => if e.2.gate.of gid then s.openGate e.1 else s) s
    let leave (n : Nat) (c : Core) : Core :=
      { c with
        emer := if c.emer = some gid then none else c.emer
        pins := c.pins.filter fun p => p.gid != gid
        rest := if c.rest = .marked ∧ g.coreList.contains n ∧ !s.otherOn gid n then .resting 21 0 else c.rest }
    { s with cores := s.cores.mapV leave, groups := s.groups.upd gid fun g => { g with grant := none, preempt := false } }

/-- A group retires when every warp has ended, no task warp runs and it owns no record (R285). -/
def State.retireCheck (s : State) (gid : Nat) : State :=
  match s.groups.find gid with
  | none => s
  | some g =>
    if (g.st == .resident || g.st == .stopping) &&
        (s.warps.all fun e => e.2.gid != gid || e.2.over) && !s.ownsRecord gid then
      let s := s.leaveCores gid
      let s := s.onGroup gid fun g => { g with st := .retired }
      let s := { s with warps := s.warps.keep fun _ w => w.gid != gid }
      s.onLaunch g.lid fun x => { x with retired := x.retired + 1 }
    else s

/-- One child iteration of a frame ends (R265, R266); the frame may belong to a saved group. -/
def State.frameEnd (s : State) (f : FrameRef) (failed : Bool) : State :=
  s.onWarp f.w fun wp => wp.setLane f.lane fun ln =>
    { ln with
      frames := updNth (fun fr =>
        { fr with count := fr.count - 1, failed := if failed then min (fr.failed + 1) (2 ^ 32 - 1) else fr.failed })
        (ln.frames.length - 1 - f.lvl) ln.frames }

/-- Frames of the running iteration (R265). -/
def Lane.own (ln : Lane) : List Frame := ln.frames.take (ln.frames.length - ln.base)

/-- Every open frame of the lane is marked: an inline run has ended since it was opened (R281). -/
def Lane.markRan (ln : Lane) : Lane := { ln with frames := ln.frames.map fun fr => { fr with ran := true } }

/-- The running iteration of a lane ends (R266, R272): an inline run goes on to its next index or back to its
continuation; the lane of a task warp exits. The frames it left are discarded, and it waits in nothing (R276). -/
def Lane.endIter (ln : Lane) (clk : Nat) : Lane :=
  match ln.task with
  | none => ln
  | some t =>
    let fr := ln.frames.drop (ln.frames.length - ln.base)
    let ln := { ln with wait := none }
    if t.inl then
      if t.it + 1 < t.hi then
        { ln with
          frames := fr, ending := none, pc := BitVec.ofNat 64 t.entry, mr := 0, base := fr.length
          task := some { t with it := t.it + 1 } }
      else
        match ln.conts with
        | [] => { ln with frames := fr, ending := none, task := none, exited := true }
        | k :: ks =>
          Lane.markRan
            { ln with
              frames := fr, ending := if k.fail then some true else none, pc := k.pc, mr := k.mr, g := k.g, task := k.task
              base := k.base, conts := ks, since := clk, helped := k.help }
    else { ln with frames := fr, ending := none, exited := true, mr := 0, task := none }

/-- The word with no hints that ends an iteration (R276). -/
def endWord : Instr := .tret Ctl.plain

/-- A warp lets go of its dynamic blocks, and of the emergency token where it holds the kept-back block (R299, R300). -/
def State.dropBlocks (s : State) (w : Nat) : State :=
  match s.warps.find w with
  | none => s
  | some wp =>
    let s := s.onWarp w fun wp => { wp with held := 0, emer := none, saved := 0 }
    if wp.emer.isSome then s.onCore wp.core fun c => { c with emer := if c.emer = some wp.gid then none else c.emer } else s

/-- Lane l waits for its frames and for the accesses of its warp before it ends (R276). -/
def State.endWait (s : State) (w l : Nat) (failed : Bool) (i : Instr) (clk : Nat) : State :=
  let (q, s) := s.newId
  let pc := ((s.warps.find w).map fun wp => (wp.lane l).pc).getD 0
  let s := s.onWarp w fun wp => wp.setLane l fun ln => { ln.waits q clk with ending := some failed }
  { s with waits := s.waits.put q ⟨w, i, oneLane l, pc, clk, .ending, [], false⟩ }

/-- Ends the running iteration of lane l of warp w, OK or FAILED: its parent frame counts it, and the lane goes on as
R272 says (R266); a lane that was itself ending FAILED waits on. A task warp whose last lane ends frees its places
(R271, R285). The start of a further iteration is an acquire point (R168). -/
def State.iterEnd (s : State) (w l : Nat) (failed : Bool) : State :=
  match s.warps.find w with
  | none => s
  | some wp =>
    match (wp.lane l).task with
    | none => s
    | some t =>
      let s := s.frameEnd t.parent failed
      let clk := (s.core wp.core).clk
      let s := (s.onWarp w fun wp => wp.setLane l fun ln => ln.endIter clk).settle w
      let world := ((s.groups.find wp.gid).map fun g => g.world).getD 0
      let s := if t.inl && decide (t.it + 1 < t.hi) then s.acquire wp.core world else s
      match s.warps.find w with
      | none => s
      | some wp' =>
        if wp'.isTask && wp'.over then
          let s := s.dropBlocks w
          State.retireCheck { s with warps := s.warps.del w } wp.gid
        else if (wp'.lane l).ending = some true then s.endWait w l true endWord clk
        else s

/-- A lane whose iteration must end waits for its frames first (R276): it ends at once when it has none. -/
def State.endOrWait (s : State) (w l : Nat) (failed : Bool) (i : Instr) (clk : Nat) : State :=
  match s.warps.find w with
  | none => s
  | some wp =>
    if (wp.lane l).own.all (fun fr => fr.count == 0) && wp.drained then s.iterEnd w l failed
    else s.endWait w l failed i clk

/-! ### Faults (R205 to R208, R277) -/

/-- A fault of class cls in lanes m with no further field (R221). -/
def Iss.flt (x : Iss) (cls : Nat) (lanes : Mask) (addr : Nat) (info : Nat) : FRec where
  cls := cls
  pc := x.pc
  addr := addr
  lanes := lanes
  perf := 0
  lvl := 0
  info := info
  warp := x.wp.ident.warp
  dbl := false

/-- The lanes of M of which p holds: those that take a fault that is checked lane by lane (R174, R221; log 26). -/
def Iss.failing (x : Iss) (p : Nat → Bool) : Mask := x.m &&& maskOf p

/-- A class that is taken after the instruction retires (R206). -/
def postRetire (cls : Nat) : Bool := cls == 15 || cls == 16 || cls == 17 || cls == 18

/-- Delivery to the trap entry: each lane that takes the fault saves its return PC and meeting register and goes to the
trap entry in handler state; TRAPCAUSE and TRAPADDR tell of it (R207, R225). -/
def State.deliver (s : State) (w : Nat) (kbase trapoff : Nat) (f : FRec) (code : Nat) : State :=
  s.onWarp w fun wp =>
    { (wp.onLanes f.lanes fun _ ln =>
        { ln with
          epc := ln.pc, emr := ln.mr, mr := 0, hs := true, pc := BitVec.ofNat 64 (kbase + trapoff) }) with
      trapcause := BitVec.ofNat 64 (f.lanes.toNat * 2 ^ 32 + f.cls * 2 ^ 24 + code)
      trapaddr := BitVec.ofNat 64 f.addr }

/-- The cycle in which a fault of a group is raised, on the clock of its own or lower core (R205). -/
def State.faultClk (s : State) (g : Group) : Nat := (s.core g.core).clk

/-- A fault stops its group (R205, R208): the group is stopping, and the record waits for GROUP_STOP. Of faults of one
cycle the one of the highest priority is taken, then that of the lowest %warp; a warp whose fault is put aside stands
before its instruction again, and so does every warp that faults once the group is stopping. -/
def State.stopGroup (s : State) (gid : Nat) (p : Pend) : State :=
  match s.groups.find gid with
  | none => s
  | some g =>
    let set (p : Pend) : State := s.onGroup gid fun g =>
      { g with st := if g.st == .resident then .stopping else g.st, pend := some p }
    match g.pend with
    | none => set p
    | some o =>
      let ws := o.warps ++ p.warps
      if o.clk == p.clk && (p.f.cls < o.f.cls || p.f.cls == o.f.cls && decide (p.f.warp < o.f.warp)) then
        set { p with warps := ws }
      else set { o with warps := ws }

/-- A lane no longer waits; the other lanes of its instruction wait on. An instruction of the matrix engine has issued and is
performed for all its lanes, whichever of them still wait (R323, R324). -/
def State.unwait (s : State) (w l : Nat) : State :=
  match (s.warps.find w).bind fun wp => (wp.lane l).wait with
  | none => s
  | some q =>
    let s := s.onWarp w fun wp => wp.setLane l fun ln => { ln with wait := none }
    match s.waits.find q with
    | none => s
    | some y =>
      let rest := y.lanes &&& ~~~(oneLane l)
      if y.kind = .matrix ∨ y.kind = .tfetch then s
      else if rest = 0 then { s with waits := s.waits.del q, monitors := s.monitors.filter fun m => m.q != q }
      else { s with waits := s.waits.upd q fun y => { y with lanes := rest } }

/-- The lanes of warp w that issue on the second port of this cycle (R288). -/
def State.secondLanes (s : State) (w : Nat) : Mask :=
  match s.second with
  | some u => if u.w = w then u.act else 0
  | none => 0

/-- The lanes whose iterations a fault ends: those that took it, and by WATCHDOG every active lane of a task warp (R277). Where
both ports issue, the lanes of the second raise WATCHDOG themselves and end by that, and it ends no other lane (R295). -/
def State.endingLanes (s : State) (x : Iss) (f : FRec) : List Nat :=
  if f.cls = 14 ∧ x.wp.isTask ∧ (s.cur.map fun u => u.spent) ≠ some true then
    laneNums.filter fun l => !(x.wp.lane l).exited && !inMask (s.secondLanes x.w) l
  else maskLanes f.lanes

/-- WATCHDOG loads the yield counter again for the lanes that go on, and tells the second port that it has ended the other
iterations of a task warp (R277, R295). -/
def State.spend (s : State) (x : Iss) (f : FRec) : State :=
  if f.cls = 14 then
    let s := s.onWarp x.w fun wp => { wp with yield := 8 * x.ln.rc.yield }
    { s with second := s.second.map fun u => if u.w = x.w then { u with spent := true } else u }
  else s

/-- Ends iterations as FAILED, and posts the record (R277). -/
def State.failIters (s : State) (x : Iss) (f : FRec) : State :=
  let s := (s.endingLanes x f).foldl (fun s l => (s.unwait x.w l).endOrWait x.w l true endWord x.clk) (s.spend x f)
  s.raiseEvent (faultEvent x.wp.core x.g x.ln 0xffff 0 f)

/-- The fault of a waiting instruction is taken: the phase of its barrier is consumed (R317, R319), or the failure that its
copy tag kept is cleared (R193). -/
def Warp.took (w : Warp) (bar tag : Option Nat) : Warp :=
  { w with
    bars := match bar with
      | some b => w.bars.setD b { w.bars.getD b BarW.clear with done := false, trp := .no } BarW.clear
      | none => w.bars
    tags := match tag with
      | some t => w.tags.setD t { w.tags.getD t Tag.idle with fail := none } Tag.idle
      | none => w.tags }

/-- The lanes that stand in a set advance past their instruction (R206, R288). -/
def State.stepPast (s : State) (w : Nat) (m : Mask) : State :=
  (s.onLanes w m fun _ ln => { ln with pc := ln.pc + 12 }).settle w

/-- What becomes of a fault: it goes to the trap entry (R207), it ends the iterations of its lanes (R277), or it stops the
group (R208). -/
inductive FaultPath | deliver | iterations | stop
deriving DecidableEq, Repr

/-- A lane that takes the fault is in handler state already (R207). -/
def State.nested (s : State) (x : Iss) (f : FRec) : Bool :=
  let wp := (s.warps.find x.w).getD x.wp
  (maskLanes f.lanes).any fun l => (wp.lane l).hs

/-- Every lane that takes the fault runs a task iteration (R277). -/
def State.inTasks (s : State) (x : Iss) (f : FRec) : Bool :=
  let wp := (s.warps.find x.w).getD x.wp
  f.lanes != 0 && (maskLanes f.lanes).all fun l => (wp.lane l).task.isSome

/-- The path of a fault. BKPT always stops the group. Lanes that all run tasks go to the trap entry by TRAP alone, and every
other fault ends their iterations; elsewhere the traps at a barrier are delivered too (R207, R208, R277). -/
def State.faultPath (s : State) (x : Iss) (f : FRec) : FaultPath :=
  let tasks := s.inTasks x f
  if (f.cls == 15 || !tasks && (f.cls == 17 || f.cls == 18)) && x.ln.rc.trapoff != 0 && !s.nested x f then .deliver
  else if f.cls != 16 && tasks then .iterations
  else .stop

/-- The fault as it is held until its group has stopped; a post-retire one of a lane in handler state is a double fault
(R206, R207). -/
def State.pendOf (s : State) (x : Iss) (f : FRec) (bar tag : Option Nat) : Pend :=
  ⟨{ f with dbl := postRetire f.cls && s.nested x f }, s.faultClk x.g, x.w, if postRetire f.cls then x.act else 0, bar, tag,
    [x.w]⟩

/-- Takes a fault (R205 to R208, R277); bar and tag say what its being taken clears. A post-retire class retires its
instruction, so that the return PC is the next one. A delivered fault goes to the trap entry; the iterations of lanes that
all run tasks end FAILED; every other fault stops the group, where the one that is taken retires with GROUP_STOP. BKPT
always stops it. -/
def State.raiseWith (s : State) (x : Iss) (f : FRec) (code : Nat) (bar tag : Option Nat) : State :=
  let off (s : State) : State := match x.q with
    | some q => s.unblock q
    | none => s
  let past (s : State) : State :=
    let s := s.onWarp x.w fun wp => wp.took bar tag
    if postRetire f.cls then s.retire x else off s
  let p := s.pendOf x f bar tag
  match s.faultPath x f with
  | .deliver => ((past s).deliver x.w x.ln.rc.kbase x.ln.rc.trapoff p.f code).settle x.w
  | .iterations => (past s).failIters x p.f
  | .stop => (if postRetire f.cls then s else off s).stopGroup x.wp.gid p

/-- Takes a fault that clears nothing else. -/
def State.raise (s : State) (x : Iss) (f : FRec) (code : Nat) : State := s.raiseWith x f code none none

/-- The group's fault is taken: a post-retire instruction retires, and what its being taken clears is cleared (R206,
R208). -/
def State.takePend (s : State) (p : Pend) : State :=
  (s.onWarp p.w fun wp => wp.took p.bar p.tag).stepPast p.w p.act

/-- rfe in a lane: the return from handler state (R227). -/
def rfeLane (ln : Lane) : Lane := { ln with pc := ln.epc, mr := ln.emr, hs := false }

end Sys2Proof.Machine
end

