-- ==== Sys2Proof/Machine/Operands.lean ====
section
/-!
DEFINITION. Operand forms: which registers an instruction reads and writes (for the register-block check, the checking
scoreboard, the scoreboard and the bank rule), operand values by type (R44, R89, R116) and the checks every word passes
before its effect (R42, R39).
-/

namespace Sys2Proof.Machine

/-- n registers from reg on: lane registers 0 to 255, guards 256 to 263, uniform registers 512 to 575. -/
structure Use where
  reg : Nat
  n : Nat
deriving DecidableEq, Repr

/-- Registers of a source. -/
def useS (n : Nat) : Src → List Use
  | .v i => [⟨i.toNat, n⟩]
  | .k i => [⟨512 + i.toNat, n⟩]
  | .sp _ => []
  | .imm _ => []

/-- Registers of a register operand. -/
def useD (n : Nat) : Dst → List Use
  | .v i => [⟨i.toNat, n⟩]
  | .k i => [⟨512 + i.toNat, n⟩]

/-- A guard; g7 is no register (R34). -/
def useG (g : BitVec 3) : List Use := if g = 7 then [] else [⟨256 + g.toNat, 1⟩]

/-- The A fragment of mma (R326). -/
def useFrag (a : BitVec 8) (st : BitVec 2) : List Use :=
  (upTo 0 8).map fun i => ⟨a.toNat + i * astr st, 4⟩

/-- The descriptor pairs of mma (R51). -/
def useDesc (q : Qdm) (b : BitVec 6) : List Use :=
  match q with
  | .all => [⟨512 + b.toNat, 2⟩]
  | .qd4 => [⟨512 + b.toNat, 8⟩]
  | .qd2 => [⟨512 + b.toNat, 4⟩]

/-- The control fields of a word; events have none. -/
def ctlOf : Instr → Option Ctl := fun i => (toRaw i).map Raw.ctl

/-- Registers that operand A names as a source (R38, R80 to R87); the fragment of an mma among them. -/
def readsA : Instr → List Use
  | .addInteger _ t _ a _ | .subInteger _ t _ a _ | .mulInteger _ t _ a _ | .mulhi _ t _ a _ | .mulw _ t _ a _
  | .divInteger _ t _ a _ | .rem _ t _ a _ | .minInteger _ t _ a _ | .maxInteger _ t _ a _ | .and _ t _ a _
  | .or _ t _ a _ | .xor _ t _ a _ | .andn _ t _ a _ | .setb _ t _ _ a _ | .addFloat _ t _ _ a _
  | .subFloat _ t _ _ a _ | .mulFloat _ t _ _ a _ | .divFloat _ t _ _ a _ | .minFloat _ t _ _ a _
  | .maxFloat _ t _ _ a _ | .cpsign _ t _ a _ | .cmpInteger _ t _ _ a _ | .cmpFloat _ t _ _ a _
  | .neg _ t _ a | .abs _ t _ a | .not _ t _ a | .popc _ t _ a | .clz _ t _ a | .ctz _ t _ a | .brev _ t _ a
  | .mov _ t _ a | .rcp _ t _ _ a | .sqrt _ t _ _ a | .rsq _ t _ _ a | .ex2 _ t _ a | .lg2 _ t _ a | .sin _ t _ a
  | .cos _ t _ a | .tanh _ t _ a | .rndi _ t _ _ a | .matchW _ t _ a | .redw _ _ t _ a | .scanw _ _ t _ _ a
  | .shl _ t _ a _ | .shr _ t _ a _ | .sra _ t _ a _ | .rotl _ t _ a _ | .bfx _ t _ a _ | .classF _ t _ a _
  | .scale _ t _ _ a _ | .lea _ t _ _ a _ | .bfi _ t _ a _ _ | .addx _ t _ _ a _ | .sel _ t _ _ a _
  | .mad _ t _ a _ _ | .clamp _ t _ a _ _ | .fma _ t _ _ a _ _ | .cvt _ _ t _ _ a => useS t.regs a
  | .dot2 _ _ _ _ a _ _ | .pack _ _ _ _ a _ | .dqt _ _ _ a _ | .shfl _ _ _ a _ | .bcast _ _ a _ | .unpack _ _ _ a
  | .kadd _ _ _ a | .ksub _ _ _ a | .kdot _ _ _ a _ | .ldsp _ _ _ _ _ _ a _ | .feget _ _ a _ | .feset _ a _
  | .feclr _ a _ | .stsp _ _ _ _ _ a _ => useS 1 a
  | .bsel _ _ a _ | .qnt _ _ _ a | .rndSeed _ _ a _ | .ld _ _ _ _ _ a _ | .ldk _ _ _ _ _ a _ | .wake _ a _
  | .pfetch _ _ a _ | .evict _ _ a _ | .st _ _ _ _ _ a _ | .atom _ _ _ _ _ a _ | .red _ _ _ _ _ a _
  | .vatom _ _ _ _ _ a _ | .vred _ _ _ _ _ a _ | .waita _ _ _ a _ => useS 2 a
  | .kload _ _ a => useD 18 a
  | .tcopy _ _ _ _ _ _ a _ | .csrw _ _ a | .klaunch _ _ a | .spawn _ _ a _ | .brx _ a | .ret _ a | .sfetch _ a
  | .sevict _ a | .sstat _ _ a => useD 2 a
  | .cntsig _ _ a _ | .cntwait _ a _ | .vput _ _ a | .publish _ a _ | .boost _ _ _ a | .wrec _ _ _ a => useD 1 a
  | .mma _ _ _ _ _ st _ a _ => useFrag a st
  | .accld _ t glb _ a => if glb then useD 2 a else useD (rowRegs t) a
  | .accst _ _ glb _ _ _ a => if glb then useD 2 a else []
  | .tfetch _ a | .tunpin _ a => [⟨512 + a.toNat, 2⟩]
  | _ => []

/-- Registers that operand B names as a source (R38, R80 to R87); the offset of an address is none (R49), nor is a field that
an instruction does not have. -/
def readsB : Instr → List Use
  | .addInteger _ t _ _ b | .subInteger _ t _ _ b | .mulInteger _ t _ _ b | .mulhi _ t _ _ b | .mulw _ t _ _ b
  | .divInteger _ t _ _ b | .rem _ t _ _ b | .minInteger _ t _ _ b | .maxInteger _ t _ _ b | .and _ t _ _ b
  | .or _ t _ _ b | .xor _ t _ _ b | .andn _ t _ _ b | .setb _ t _ _ _ b | .addFloat _ t _ _ _ b
  | .subFloat _ t _ _ _ b | .mulFloat _ t _ _ _ b | .divFloat _ t _ _ _ b | .minFloat _ t _ _ _ b
  | .maxFloat _ t _ _ _ b | .cpsign _ t _ _ b | .cmpInteger _ t _ _ _ b | .cmpFloat _ t _ _ _ b | .bfi _ t _ _ b _
  | .addx _ t _ _ _ b | .sel _ t _ _ _ b | .mad _ t _ _ b _ | .clamp _ t _ _ b _ | .fma _ t _ _ _ b _ => useS t.regs b
  | .shl _ _ _ _ b | .shr _ _ _ _ b | .sra _ _ _ _ b | .rotl _ _ _ _ b | .bfx _ _ _ _ b | .classF _ _ _ _ b
  | .scale _ _ _ _ _ b | .lea _ _ _ _ _ b | .dot2 _ _ _ _ _ b _ | .pack _ _ _ _ _ b | .dqt _ _ _ _ b | .shfl _ _ _ _ b
  | .bcast _ _ _ b | .bsel _ _ _ b | .kdot _ _ _ _ b => useS 1 b
  | .rndSeed _ _ _ b => useS 2 b
  | .tcopy _ _ _ _ _ _ _ b | .tqpush _ _ b | .barset _ _ b | .publish _ _ b => useD 1 b
  | .cntsig _ _ _ b | .cntwait _ _ b | .spawn _ _ _ b => useD 2 b
  | .mma _ _ q _ _ _ _ _ b => useDesc q b
  | _ => []

/-- Registers that an instruction reads elsewhere: source C, the guard that is data, and the data in OPD (R80 to R87). -/
def readsC : Instr → List Use
  | .bfi _ _ _ _ _ p | .dot2 _ _ _ _ _ _ p => useS 1 p
  | .mad _ t _ _ _ p | .clamp _ t _ _ _ p | .fma _ t _ _ _ _ p => useS t.regs p
  | .addx _ _ g _ _ _ | .sel _ _ g _ _ _ | .vote _ _ _ g => useG g
  | .st _ t _ n d _ _ | .stsp _ t n _ d _ _ => useD (accRegs t n) d
  | .atom _ t op _ d _ _ | .red _ t op _ d _ _ => useD (atomRegs op t) d
  | .vatom _ _ _ _ d _ _ | .vred _ _ _ _ d _ _ => useD 8 d
  | .waita _ _ d _ _ | .tcopy _ _ _ _ _ d _ _ => useD 1 d
  | .spawn _ d _ _ => useD 4 d
  | _ => []

/-- Registers that an instruction reads, besides its guard. -/
def readsOf (i : Instr) : List Use := readsA i ++ readsB i ++ readsC i

/-- Registers that an instruction writes. -/
def writesOf : Instr → List Use
  | .addInteger _ t d _ _ | .subInteger _ t d _ _ | .mulInteger _ t d _ _ | .mulhi _ t d _ _ | .divInteger _ t d _ _
  | .rem _ t d _ _ | .neg _ t d _ | .abs _ t d _ | .minInteger _ t d _ _ | .maxInteger _ t d _ _ | .and _ t d _ _
  | .or _ t d _ _ | .xor _ t d _ _ | .andn _ t d _ _ | .not _ t d _ | .shl _ t d _ _ | .shr _ t d _ _ | .sra _ t d _ _
  | .rotl _ t d _ _ | .bfx _ t d _ _ | .bfi _ t d _ _ _ | .brev _ t d _ | .lea _ t _ d _ _ | .sel _ t _ d _ _
  | .mov _ t d _ | .movi _ t d _ | .mad _ t d _ _ _ | .clamp _ t d _ _ _ | .addFloat _ t _ d _ _ | .subFloat _ t _ d _ _
  | .mulFloat _ t _ d _ _ | .fma _ t _ d _ _ _ | .divFloat _ t _ d _ _ | .rcp _ t _ d _ | .sqrt _ t _ d _
  | .rsq _ t _ d _ | .ex2 _ t d _ | .lg2 _ t d _ | .sin _ t d _ | .cos _ t d _ | .tanh _ t d _ | .minFloat _ t _ d _ _
  | .maxFloat _ t _ d _ _ | .rndi _ t _ d _ | .cpsign _ t d _ _ | .scale _ t _ d _ _ | .cvt _ t _ _ d _ | .redw _ _ t d _
  | .scanw _ _ t _ d _ | .rnd _ t d | .kround _ t _ d _ => useD t.regs d
  | .mulw _ t d _ _ => useD (t.bits / 16) d
  | .popc _ _ d _ | .clz _ _ d _ | .ctz _ _ d _ | .setb _ _ _ d _ _ | .dot2 _ _ _ d _ _ _ | .pack _ _ _ d _ _
  | .bsel _ d _ _ | .qnt _ _ d _ | .shfl _ _ d _ _ | .bcast _ d _ _ | .vote _ _ d _ | .matchW _ _ d _ | .kstat _ d _
  | .feget _ d _ _ | .waita _ _ d _ _ | .flagrd _ d | .tqpop _ d _ | .tqallow _ d _ | .klaunch _ d _ | .await _ d
  | .tstat _ d | .rblk _ d | .vget _ _ d | .vfree _ _ d | .mmstat _ _ d | .sstat _ d _ | .rflv _ d | .boost _ _ d _
  | .pgateOn _ d | .pgateOff _ d => useD 1 d
  | .addx _ t g d _ _ => useD t.regs d ++ useG g
  | .cmpInteger _ _ _ g _ _ | .cmpFloat _ _ _ g _ _ | .classF _ _ g _ _ | .barTest _ g _ => useG g
  | .unpack _ _ d _ | .csrr _ _ d | .tidx _ _ d | .call _ d _ | .bstat _ d | .wrec _ _ d _ => useD 2 d
  | .dqt _ t d _ _ => useD (if t == .f32 then 2 else 1) d
  | .ksave _ d _ => useD 18 d
  | .ld _ t _ n d _ _ | .ldk _ t _ n d _ _ | .ldsp _ t n _ _ d _ _ => useD (accRegs t n) d
  | .atom _ t op _ d _ _ => useD (atomRegs op t) d
  | .vatom _ _ _ _ d _ _ => useD 8 d
  | .tqtry _ g d _ => useD 1 d ++ useG g
  | .fslot _ _ d => useD 4 d
  | .accst _ t glb _ _ _ a => if glb then [] else useD (rowRegs t) a
  | _ => []

/-- Every register an instruction touches. -/
def touchesOf (i : Instr) : List Use := readsOf i ++ writesOf i

/-! ### The checks before an effect -/

/-- Lane register r is a base register of the warp or lies in a dynamic block it holds (R42, R298). -/
def regOk (regs : Nat) (held : BitVec 8) (r : Nat) : Bool :=
  decide (r < regs) || (decide (128 ≤ r) && held.getLsbD ((r - 128) / 16))

/-- Every lane register that the instruction touches may be touched (R42). -/
def Iss.blocksOk (x : Iss) (us : List Use) : Bool :=
  us.all fun u => decide (256 ≤ u.reg) || (upTo u.reg u.n).all (regOk x.ln.rc.regs x.wp.held)

/-- The lanes of M in which a register that the instruction reads is not ready (R39). -/
def Iss.early (x : Iss) (us : List Use) : Mask :=
  x.m &&& maskOf fun l => us.any fun u => (upTo u.reg u.n).any fun r =>
    if r < 512 then hazOpen x.clk r (x.wp.lane l).haz else hazOpen x.clk r x.wp.uhaz

/-- The lanes of quarter q in a mask, as eight bits. -/
def quarterOf (m : Mask) (q : Nat) : BitVec 8 := m.extractLsb' (8 * q) 8

/-- The quarters with a lane in M. -/
def activeQuarters (m : Mask) : List Nat := (upTo 0 4).filter fun q => quarterOf m q != 0

/-- The uniform register of quarter q's descriptor (R51). -/
def descReg (m : Qdm) (b : BitVec 6) (q : Nat) : Nat :=
  match m with
  | .all => b.toNat
  | .qd4 => b.toNat + 2 * q
  | .qd2 => b.toNat + 2 * (q / 2)

/-- What an instruction reads with its effective execution mask: mma reads the descriptors of its active quarters (R329). -/
def Iss.readsNow (x : Iss) (i : Instr) : List Use :=
  match i with
  | .mma _ _ q _ _ st _ a b => useFrag a st ++ (activeQuarters x.m).map fun k => ⟨512 + descReg q b k, 2⟩
  | i => readsOf i

/-- The active lanes whose guard is not ready: the guard is read in every active lane, before there is a mask (R34, R39). -/
def Iss.openGuard (x : Iss) (gi : BitVec 3) : Mask :=
  x.act &&& maskOf fun l => (useG gi).any fun u => hazOpen x.clk u.reg (x.wp.lane l).haz

/-- STRICT: a guard, or a register that M reads, is not ready (R39; LANES by log 26). -/
def Iss.stalls (x : Iss) (us : List Use) (gi : BitVec 3) : Option FRec :=
  if x.ln.rc.strict && (x.openGuard gi ||| x.early us) != 0 then some (x.flt 4 x.m 0 0) else none

/-- Register-block and STRICT checks of an issuing word (R42, R39, in the priority of R205): the fault they raise. -/
def Iss.check (x : Iss) (i : Instr) (gi : BitVec 3) : Option FRec :=
  if !x.blocksOk (touchesOf i) then some (x.flt 3 x.m 0 0) else x.stalls (x.readsNow i) gi

/-- Issues a word: with an empty M the active lanes advance and only what `empty` says happens (R292); a failed check
raises its fault; otherwise the instruction has its effect (R34, R39, R42, R54). -/
def issueWord (i : Instr) (s : State) (empty : Iss → State → State) (pre : Iss → State → Option FRec)
    (body : Iss → State → State) : Host.Outcome State Fault Refusal :=
  match ctlOf i with
  | none => .fault .noIssuer
  | some c =>
    match s.iss c with
    | none => .fault .noIssuer
    | some x =>
      if x.m = 0 then .next ((empty x s).retire x)
      else
        match pre x s with
        | some f => .next (s.raise x f f.info)
        | none =>
          match x.check i c.gi with
          | some f => .next (s.raise x f f.info)
          | none => .next (body x s)

/-- Issues a word that faults in nothing after R54 (R187, R340, R367, R415): where its address lies in registers that the warp does
not hold, every lane is dropped. -/
def softWord (i : Instr) (s : State) (body : Iss → State → State) : Host.Outcome State Fault Refusal :=
  match ctlOf i with
  | none => .fault .noIssuer
  | some c =>
    match s.iss c with
    | none => .fault .noIssuer
    | some x => .next (if x.m = 0 || !x.blocksOk (touchesOf i) then s.retire x else body x s)

/-- ILLEGAL with a code of R278 in the lanes of M of which bad holds, where there is one (R205, R221). -/
def Iss.illegalIn (x : Iss) (info : Nat) (bad : Nat → Bool) : Option FRec :=
  if (maskLanes x.m).any bad then some (x.flt 1 (x.failing bad) 0 info) else none

/-- ILLEGAL with a code in every lane of M, where a check of the warp fails (R312, R321). -/
def Iss.illegalIf (x : Iss) (info : Nat) (bad : Bool) : Option FRec := if bad then some (x.flt 1 x.m 0 info) else none

/-- No effect with an empty M (R292). -/
def noEmpty (_ : Iss) (s : State) : State := s

/-- No check before the register-block check. -/
def noPre (_ : Iss) (_ : State) : Option FRec := none

/-! ### Values by type -/

/-- A value of w bits read as a two's-complement integer. -/
def toInt (w x : Nat) : Int := if x % 2 ^ w < 2 ^ (w - 1) then (x % 2 ^ w : Nat) else (x % 2 ^ w : Nat) - (2 ^ w : Nat)

/-- The w-bit pattern of an integer (R90). -/
def ofInt (w : Nat) (z : Int) : Nat := (z % (2 ^ w : Nat)).toNat

/-- A value of a type as an integer: signed for .i types, unsigned otherwise (R88). -/
def tyInt (t : Ty) (x : Nat) : Int := if t.isI then toInt t.bits x else ((x % 2 ^ t.bits : Nat) : Int)

/-- The register value that holds a result of a type (R89): .i types narrower than 32 bits are sign-extended. -/
def tyExt (t : Ty) (x : Nat) : Nat :=
  if t.isI && decide (t.bits < 32) then ofInt 32 (toInt t.bits x) else x % 2 ^ t.bits

/-- FP32 pattern widened exactly to FP64, for an immediate (R44); a NaN is widened as a conversion widens it (R100, log 23). -/
def widen3264 (x : Nat) : Nat :=
  let sgn := x / 2 ^ 31 % 2
  let e := x / 2 ^ 23 % 256
  let f := x % 2 ^ 23
  if e = 255 then sgn * 2 ^ 63 + 2047 * 2 ^ 52 + (if f = 0 then 0 else 2 ^ 51 + f % 2 ^ 22)
  else if e = 0 then
    if f = 0 then sgn * 2 ^ 63
    else
      let k := Nat.log2 f
      sgn * 2 ^ 63 + (k + 874) * 2 ^ 52 + (f - 2 ^ k) * 2 ^ (52 - k)
  else sgn * 2 ^ 63 + (e + 896) * 2 ^ 52 + f * 2 ^ 29

/-- The pattern that an immediate supplies to an operand of a type (R44). -/
def immVal (t : Ty) (b : BitVec 18) : Nat :=
  match t with
  | .f32 => b.toNat * 2 ^ 14
  | .f64 => widen3264 (b.toNat * 2 ^ 14)
  | .f16 | .bf16 => b.toNat % 2 ^ 16
  | .f16x2 | .bf16x2 => b.toNat % 2 ^ 16 * 65537
  | .e4m3 | .e5m2 => b.toNat % 2 ^ 8
  | _ => (b.signExtend 64).toNat % 2 ^ t.bits

/-- The pattern of a source of a type in lane l (R43, R44, R89). -/
def Iss.val (x : Iss) (s : State) (l : Nat) (t : Ty) (a : Src) : Nat :=
  match a with
  | .imm b => immVal t b
  | a => if t.bits = 64 then (x.src64 s l a).toNat else (x.src32 s l a).toNat % 2 ^ t.bits

/-! ### Effects of lane instructions -/

/-- A destination is written by a fixed-latency producer: the older values stay readable until it is ready (R39). -/
def State.noteD (s : State) (x : Iss) (lat : Nat) (d : Dst) (n : Nat) : State :=
  let ready := x.clk + 1 + lat
  match d with
  | .v i => s.onLanes x.w x.m fun _ ln => ln.noteV x.clk ready i.toNat n
  | .k i => s.onWarp x.w fun wp => wp.noteK x.clk ready i.toNat n

/-- A variable-latency result: the scoreboard holds its registers (R117; log 7). -/
def State.holdD (s : State) (x : Iss) (d : Dst) (n : Nat) : State :=
  let r := match d with
    | .v i => i.toNat
    | .k i => 512 + i.toNat
  s.onWarp x.w fun wp => { wp with score := wp.score ++ [⟨x.m, r, n, none⟩] }

/-- Latency of a lane instruction: L cycles, or variable (R117). -/
inductive Lat
  | fixed (n : Nat)
  | variable
deriving DecidableEq, Repr

/-- Notes a coming write of n registers with its latency (R39, R117). -/
def State.note (s : State) (x : Iss) (lat : Lat) (d : Dst) (n : Nat) : State :=
  match lat with
  | .fixed k => s.noteD x k d n
  | .variable => s.holdD x d n

/-- Sets flags in the group's GFLAGS (R107, R108). -/
def State.orFlags (s : State) (gid : Nat) (f : BitVec 3) : State :=
  s.onGroup gid fun g => { g with gflags := g.gflags ||| f }

/-- The result of a lane: its pattern and the flags its condition sets. -/
structure Res where
  val : Nat
  fl : BitVec 3
deriving DecidableEq, Repr

/-- A result that sets no flag. -/
def Res.of (v : Nat) : Res := ⟨v, 0⟩

/-- The flags that the lanes of M set (R108). -/
def Iss.flagsOf (x : Iss) (f : Nat → Res) : BitVec 3 := (maskLanes x.m).foldl (fun a l => a ||| (f l).fl) 0

/-- A lane instruction with a lane destination of n registers: each lane of M computes its own result (R115). -/
def laneEffect (lat : Lat) (d : Dst) (n : Nat) (f : Iss → State → Nat → Res) (x : Iss) (s : State) : State :=
  let r := f x s
  let s1 := s.note x lat d n
  let s2 := match d with
    | .v i => s1.onLanes x.w x.m fun l ln => ln.setVs i.toNat n (r l).val
    | .k i => s1.onWarp x.w fun wp => wp.setKs i.toNat n (r (lowLane x.m)).val
  (s2.orFlags x.wp.gid (x.flagsOf r)).retire x

/-- Executes a lane instruction with a lane destination (R115). -/
def execLane (i : Instr) (lat : Lat) (d : Dst) (n : Nat) (f : Iss → State → Nat → Res) (s : State) :
    Host.Outcome State Fault Refusal :=
  issueWord i s noEmpty noPre (laneEffect lat d n f)

/-- A lane instruction that writes a guard (R118, R125). -/
def guardEffect (lat : Nat) (g : BitVec 3) (f : Iss → State → Nat → Bool) (x : Iss) (s : State) : State :=
  let r := f x s
  let s1 := s.onLanes x.w x.m fun _ ln => ln.noteG x.clk (x.clk + 1 + lat) g
  (s1.onLanes x.w x.m fun l ln => ln.setG g (r l)).retire x

/-- Executes a lane instruction that writes a guard. -/
def execGuard (i : Instr) (lat : Nat) (g : BitVec 3) (f : Iss → State → Nat → Bool) (s : State) :
    Host.Outcome State Fault Refusal :=
  issueWord i s noEmpty noPre (guardEffect lat g f)

/-- A write of one value, once to a uniform destination or in every lane of M (R115). -/
def oneEffect (lat : Lat) (d : Dst) (n : Nat) (f : Iss → State → Res) (x : Iss) (s : State) : State :=
  let r := f x s
  let s1 := s.note x lat d n
  ((s1.putD x.w x.m d n r.val).orFlags x.wp.gid r.fl).retire x

/-- What a uniform destination receives with an empty M (R292). -/
def emptyPut (lat : Lat) (d : Dst) (n v : Nat) (x : Iss) (s : State) : State :=
  match d with
  | .v _ => s
  | .k i => (s.note x lat d n).onWarp x.w fun wp => wp.setKs i.toNat n v

end Sys2Proof.Machine
end

