-- ==== Sys2Proof/Machine/Flags.lean ====
section
/-!
DEFINITION. The flags of GFLAGS (R107), the comparisons that guards and setb take (R70, R118, R125) and the truth values
that instructions write.
-/

namespace Sys2Proof.Machine

/-- SAT, bit 0 of GFLAGS: a result saturated (R107). -/
def fSat : BitVec 3 := 1

/-- INV, bit 1: an invalid operation or conversion (R107). -/
def fInv : BitVec 3 := 2

/-- KOVF, bit 2: a Kulisch accumulator saturated (R107). -/
def fKovf : BitVec 3 := 4

/-- A flag under a condition. -/
def flagIf (f : BitVec 3) (b : Bool) : BitVec 3 := if b then f else 0

/-- A result that sets SAT under a condition. -/
def Res.sat (v : Nat) (b : Bool) : Res := ⟨v, flagIf fSat b⟩

/-- The comparison of two integers under an integer code of R70; the other codes order floating values only. -/
def cmpInt (cc : Cmp) (a b : Int) : Bool :=
  match cc with
  | .eq | .equ => decide (a = b)
  | .ne | .neu => decide (a ≠ b)
  | .lt | .ltu => decide (a < b)
  | .le | .leu => decide (a ≤ b)
  | .gt | .gtu => decide (a > b)
  | .ge | .geu => decide (a ≥ b)
  | .num => true
  | .nan => false

/-- The comparison of two floating values under a code of R70: unord says that an operand is a NaN, and c is the outcome
of the ordered comparison. -/
def cmpFlt (cc : Cmp) (unord : Bool) (lt eq : Bool) : Bool :=
  match cc with
  | .eq => !unord && eq
  | .ne => !unord && !eq
  | .lt => !unord && lt
  | .le => !unord && (lt || eq)
  | .gt => !unord && !(lt || eq)
  | .ge => !unord && !lt
  | .num => !unord
  | .nan => unord
  | .equ => unord || eq
  | .neu => unord || !eq
  | .ltu => unord || lt
  | .leu => unord || lt || eq
  | .gtu => unord || !(lt || eq)
  | .geu => unord || !lt

/-- The mask that setb writes for a truth value (R118). -/
def allOnesIf (b : Bool) : Nat := if b then 0xffffffff else 0

/-- The 32-bit value 1 or 0 of a truth value. -/
def bitOf (b : Bool) : Nat := if b then 1 else 0

end Sys2Proof.Machine
end

