-- ==== Sys2Proof/Machine/Float.lean ====
section
/-!
DEFINITION. Floating-point formats and arithmetic (R91 to R102): unpacking, one exact rounding, saturation, NaNs,
conversions, and the NQ4 format (R103 to R106).
-/

namespace Sys2Proof.Machine

/-! ### Formats (R91, R92) -/

/-- Mantissa bits of a format. -/
def manBits : Ty → Nat
  | .f64 => 52
  | .f32 => 23
  | .f16 | .f16x2 => 10
  | .e4m3 => 3
  | .e5m2 => 2
  | _ => 7

/-- Exponent bias of a format. -/
def expBias : Ty → Nat
  | .f64 => 1023
  | .f16 | .f16x2 | .e5m2 => 15
  | .e4m3 => 7
  | _ => 127

/-- Width of a format; an element's width for a packed type. -/
def fmtBits : Ty → Nat
  | .f64 => 64
  | .f32 => 32
  | .e4m3 | .e5m2 => 8
  | _ => 16

/-- The element type of a packed type; every other type is its own (R93). -/
def elemTy : Ty → Ty
  | .f16x2 => .f16
  | .bf16x2 => .bf16
  | t => t

/-- Pattern of the largest finite value (R91). -/
def maxFin (t : Ty) : Nat :=
  if t = .e4m3 then 0x7e else 2 ^ (fmtBits t - 1) - 2 ^ manBits t - 1

/-- Pattern of +infinity; .e4m3 has none and gives its largest value (R92, R101). -/
def infPat (t : Ty) : Nat := if t = .e4m3 then 0x7e else 2 ^ (fmtBits t - 1) - 2 ^ manBits t

/-- The sign bit of a format as a number, under a condition. -/
def signPat (t : Ty) (neg : Bool) : Nat := if neg then 2 ^ (fmtBits t - 1) else 0

/-- The sign of a pattern. -/
def signOf (t : Ty) (x : Nat) : Bool := x / 2 ^ (fmtBits t - 1) % 2 == 1

/-- The value of a pattern: a NaN, an infinity, or (-1)^neg * m * 2^e. -/
inductive FV
  | nan
  | inf (neg : Bool)
  | fin (neg : Bool) (m : Nat) (e : Int)
deriving DecidableEq, Repr

/-- The exponent of the last place of a subnormal. -/
def minExp (t : Ty) : Int := 1 - (expBias t : Int) - manBits t

/-- Reads a pattern (R91, R92). -/
def unpackF (t : Ty) (x : Nat) : FV :=
  let mb := manBits t
  let neg := signOf t x
  let mag := x % 2 ^ (fmtBits t - 1)
  let ef := mag / 2 ^ mb
  let mf := mag % 2 ^ mb
  if t = .e4m3 && mag == 0x7f then .nan
  else if t != .e4m3 && mag == infPat t then .inf neg
  else if t != .e4m3 && decide (infPat t < mag) then .nan
  else if ef = 0 then .fin neg mf (minExp t)
  else .fin neg (2 ^ mb + mf) (minExp t + (ef - 1 : Nat))

/-- A pattern is a NaN. -/
def isNan (t : Ty) (x : Nat) : Bool := unpackF t x == .nan

/-- The quiet bit set (R92). -/
def quiet (t : Ty) (x : Nat) : Nat := if t = .e4m3 then x else x ||| 2 ^ (manBits t - 1)

/-- A generated NaN of a cause (R97). -/
def genNan (t : Ty) (cause : Nat) : Nat :=
  match t with
  | .e4m3 => 0x7f
  | .e5m2 => 0x7e
  | t => infPat t + 2 ^ (manBits t - 1) + cause

/-- An invalid operation: the generated NaN of a cause, with INV (R98). -/
def invalid (t : Ty) (cause : Nat) : Res := ⟨genNan t cause, fInv⟩

/-! ### Rounding (R94 to R96) -/

/-- The quotient is rounded away from zero: rem is what is cut off, half its middle. -/
def roundsUp (rm : Rm) (neg odd : Bool) (rem half : Nat) : Bool :=
  match rm with
  | .rn => decide (half < rem) || rem == half && odd
  | .rz => false
  | .rd => neg && rem != 0
  | .ru => !neg && rem != 0

/-- m * 2^e rounded once to a format, as a magnitude pattern that may exceed the largest finite one (R94). -/
def roundMag (t : Ty) (rm : Rm) (neg : Bool) (m : Nat) (e : Int) : Nat :=
  if m = 0 then 0
  else
    let len := Nat.log2 m + 1
    let q := max (e + len - 1 - manBits t) (minExp t)
    let body :=
      if q ≤ e then m * 2 ^ (e - q).toNat
      else
        let sh := min (q - e).toNat (len + 2)
        let cut := m % 2 ^ sh
        let top := m / 2 ^ sh
        if roundsUp rm neg (top % 2 == 1) cut (2 ^ (sh - 1)) then top + 1 else top
    (q - minExp t).toNat * 2 ^ manBits t + body

/-- (-1)^neg * m * 2^e rounded and saturated (R94 to R96); a zero keeps the sign neg. -/
def packF (t : Ty) (rm : Rm) (neg : Bool) (m : Nat) (e : Int) : Res :=
  let r := roundMag t rm neg m e
  if maxFin t < r then ⟨maxFin t + signPat t neg, fSat⟩ else ⟨r + signPat t neg, 0⟩

/-- A quotient or root with a remainder: the last bit tells that something was cut off. -/
def jam (m : Nat) (rest : Bool) : Nat := 2 * m + bitOf rest

/-- An exact sum of m * 2^e terms: its numerator over 2^e for the smallest exponent. -/
def sumTerms (ts : List (Int × Int)) : Int × Int :=
  let e0 := ts.foldl (fun e p => min e p.2) (ts.headD (0, 0)).2
  (ts.foldl (fun a p => a + p.1 * 2 ^ (p.2 - e0).toNat) 0, e0)

/-- The numerator of a signed value. -/
def signedM (neg : Bool) (m : Nat) : Int := if neg then -(m : Int) else m

/-- The finite terms of a sum, signed. -/
def finTerms (vs : List FV) : List (Int × Int) :=
  vs.filterMap fun v => match v with
    | .fin n m e => some (signedM n m, e)
    | _ => none

/-- Some term is an infinity of the sign. -/
def hasInf (neg : Bool) (vs : List FV) : Bool := vs.any fun v => v == .inf neg

/-- Every term is a zero of the sign. -/
def allZero (neg : Bool) (vs : List FV) : Bool :=
  vs.all fun v => match v with
    | .fin n m _ => n == neg && m == 0
    | _ => false

/-- The exact sum of terms without NaNs, rounded once: opposite infinities give cause 3, an exact zero follows R96. -/
def sumF (t : Ty) (rm : Rm) (vs : List FV) : Res :=
  if hasInf false vs && hasInf true vs then invalid t 3
  else if hasInf false vs then Res.of (infPat t)
  else if hasInf true vs then Res.of (infPat t + signPat t true)
  else
    let r := sumTerms (finTerms vs)
    if r.1 = 0 then Res.of (signPat t (allZero true vs || !allZero false vs && rm == .rd))
    else packF t rm (decide (r.1 < 0)) r.1.natAbs r.2

/-- The product of two values without NaNs; none for zero times infinity (R98). -/
def mulV (a b : FV) : Option FV :=
  match a, b with
  | .fin n m e, .fin n' m' e' => some (.fin (n != n') (m * m') (e + e'))
  | .inf n, .inf n' => some (.inf (n != n'))
  | .inf n, .fin n' m _ => if m = 0 then none else some (.inf (n != n'))
  | .fin n m _, .inf n' => if m = 0 then none else some (.inf (n != n'))
  | _, _ => some .nan

/-- A value that is no sum: rounded, or an infinity of its sign (R94, R95). -/
def putV (t : Ty) (rm : Rm) (v : FV) : Res :=
  match v with
  | .nan => Res.of (genNan t 1)
  | .inf n => Res.of (infPat t + signPat t n)
  | .fin n m e => packF t rm n m e

/-- The opposite value. -/
def negV : FV → FV
  | .nan => .nan
  | .inf n => .inf (!n)
  | .fin n m e => .fin (!n) m e

/-! ### Roots and quotients -/

/-- The bits of the integer root from bit n - 1 down, above r. -/
def isqrtGo (x : Nat) : Nat → Nat → Nat
  | 0, r => r
  | n + 1, r => if (r + 2 ^ n) * (r + 2 ^ n) ≤ x then isqrtGo x n (r + 2 ^ n) else isqrtGo x n r

/-- The integer square root. -/
def isqrt (x : Nat) : Nat := isqrtGo x (Nat.log2 x / 2 + 1) 0

/-- a / b of finite values, b not 0, correctly rounded (R123). -/
def quotF (t : Ty) (rm : Rm) (neg : Bool) (m : Nat) (e : Int) (m' : Nat) (e' : Int) : Res :=
  let k := Nat.log2 m' + 70
  let n := m * 2 ^ k
  packF t rm neg (jam (n / m') (n % m' != 0)) (e - e' - k - 1)

/-- An even exponent: the value as m * 2^e with e even. -/
def evenExp (m : Nat) (e : Int) : Nat × Int := if e % 2 = 0 then (m, e) else (2 * m, e - 1)

/-- The square root of m * 2^e, m not 0, correctly rounded. -/
def rootF (t : Ty) (rm : Rm) (m : Nat) (e : Int) : Res :=
  let p := evenExp m e
  let n := p.1 * 2 ^ 140
  let r := isqrt n
  packF t rm false (jam r (r * r != n)) (p.2 / 2 - 70 - 1)

/-- The reciprocal of the square root of m * 2^e, m not 0, correctly rounded. -/
def rsqF (t : Ty) (rm : Rm) (m : Nat) (e : Int) : Res :=
  let p := evenExp m e
  let k := Nat.log2 p.1 + 70
  let r := isqrt (2 ^ (2 * k) / p.1)
  packF t rm false (jam r (r * r * p.1 != 2 ^ (2 * k))) (-(p.2 / 2) - k - 1)

/-! ### Basic operations (R98, R123, R126, R128) -/

/-- The first NaN among patterns of a format, quieted (R98). -/
def firstNan (t : Ty) : List Nat → Option Nat
  | [] => none
  | x :: xs => if isNan t x then some (quiet t x) else firstNan t xs

/-- A result where no operand is a NaN, else the first NaN quieted (R98). -/
def nanOr (t : Ty) (xs : List Nat) (r : Res) : Res :=
  match firstNan t xs with
  | some n => Res.of n
  | none => r

/-- add (R123). -/
def addF (t : Ty) (rm : Rm) (a b : Nat) : Res := nanOr t [a, b] (sumF t rm [unpackF t a, unpackF t b])

/-- sub (R123). -/
def subF (t : Ty) (rm : Rm) (a b : Nat) : Res := nanOr t [a, b] (sumF t rm [unpackF t a, negV (unpackF t b)])

/-- mul (R123). -/
def mulF (t : Ty) (rm : Rm) (a b : Nat) : Res :=
  nanOr t [a, b] (match mulV (unpackF t a) (unpackF t b) with
    | none => invalid t 4
    | some v => putV t rm v)

/-- fma (R98, R123). -/
def fmaF (t : Ty) (rm : Rm) (a b p : Nat) : Res :=
  nanOr t [a, b, p] (match mulV (unpackF t a) (unpackF t b) with
    | none => invalid t 4
    | some v => sumF t rm [v, unpackF t p])

/-- The quotient of two values without NaNs (R126). -/
def divV (t : Ty) (rm : Rm) (a b : FV) : Res :=
  match a, b with
  | .inf _, .inf _ => invalid t 5
  | .inf n, .fin n' _ _ => Res.of (infPat t + signPat t (n != n'))
  | .fin n _ _, .inf n' => Res.of (signPat t (n != n'))
  | .fin n m e, .fin n' m' e' =>
    if m' = 0 then if m = 0 then invalid t 5 else Res.of (infPat t + signPat t (n != n'))
    else quotF t rm (n != n') m e m' e'
  | _, _ => Res.of (genNan t 1)

/-- div (R123, R126). -/
def divF (t : Ty) (rm : Rm) (a b : Nat) : Res := nanOr t [a, b] (divV t rm (unpackF t a) (unpackF t b))

/-- rcp (R123, R126). -/
def rcpF (t : Ty) (rm : Rm) (a : Nat) : Res := nanOr t [a] (divV t rm (.fin false 1 0) (unpackF t a))

/-- sqrt (R123, R126). -/
def sqrtF (t : Ty) (rm : Rm) (a : Nat) : Res :=
  nanOr t [a] (match unpackF t a with
    | .fin n m e => if m = 0 then Res.of (signPat t n) else if n then invalid t 5 else rootF t rm m e
    | .inf n => if n then invalid t 5 else Res.of (infPat t)
    | .nan => Res.of a)

/-- rsq (R123, R126). -/
def rsqrtF (t : Ty) (rm : Rm) (a : Nat) : Res :=
  nanOr t [a] (match unpackF t a with
    | .fin n m e =>
      if m = 0 then Res.of (infPat t + signPat t n) else if n then invalid t 5 else rsqF t rm m e
    | .inf n => if n then invalid t 5 else Res.of 0
    | .nan => Res.of a)

/-- m * 2^e rounded to an integer under a mode, as a magnitude. -/
def roundInt (rm : Rm) (neg : Bool) (m : Nat) (e : Int) : Nat :=
  if 0 ≤ e then m * 2 ^ e.toNat
  else
    let sh := min (-e).toNat (Nat.log2 m + 3)
    let top := m / 2 ^ sh
    if roundsUp rm neg (top % 2 == 1) (m % 2 ^ sh) (2 ^ (sh - 1)) then top + 1 else top

/-- rndi (R128). -/
def rndiF (t : Ty) (rm : Rm) (a : Nat) : Res :=
  nanOr t [a] (match unpackF t a with
    | .fin n m e => if 0 ≤ e then Res.of a else Res.of (packF t .rz n (roundInt rm n m e) 0).val
    | _ => Res.of a)

/-- scale (R128). -/
def scaleF (t : Ty) (rm : Rm) (a : Nat) (n : Int) : Res :=
  nanOr t [a] (match unpackF t a with
    | .fin s m e => packF t rm s m (e + n)
    | _ => Res.of a)

/-- cpsign (R128): the bits of a with the sign of b. -/
def cpsignF (t : Ty) (a b : Nat) : Nat := a % 2 ^ (fmtBits t - 1) + signPat t (signOf t b)

/-- A number that orders patterns that are no NaN, with -0 below +0 (R124). -/
def ordKey (t : Ty) (x : Nat) : Int :=
  let mag := x % 2 ^ (fmtBits t - 1)
  if signOf t x then -(mag : Int) - 1 else mag

/-- min and max (R124). -/
def minMaxF (t : Ty) (isMax nanQ : Bool) (a b : Nat) : Nat :=
  match isNan t a, isNan t b with
  | true, true => quiet t a
  | true, false => if nanQ then quiet t a else b
  | false, true => if nanQ then quiet t b else a
  | false, false =>
    if isMax then (if ordKey t a < ordKey t b then b else a) else (if ordKey t b < ordKey t a then b else a)

/-- The value order of patterns that are no NaN, with -0 equal to +0 (R125). -/
def valKey (t : Ty) (x : Nat) : Int :=
  let mag := x % 2 ^ (fmtBits t - 1)
  if signOf t x then -(mag : Int) else mag

/-- cmp on floating types (R70, R125). -/
def cmpF (t : Ty) (cc : Cmp) (a b : Nat) : Bool :=
  cmpFlt cc (isNan t a || isNan t b) (decide (valKey t a < valKey t b)) (valKey t a == valKey t b)

/-- The class of a pattern (R125). -/
def classOf (t : Ty) (x : Nat) : Nat :=
  match unpackF t x with
  | .nan => if x / 2 ^ (manBits t - 1) % 2 = 1 then 8 else 9
  | .inf n => if n then 0 else 7
  | .fin n m _ =>
    if m = 0 then (if n then 3 else 4)
    else if m < 2 ^ manBits t then (if n then 2 else 5)
    else if n then 1 else 6

/-! ### Conversions (R100 to R102) -/

/-- A NaN as another format holds it (R100; log 23): the payload bits below both quiet bits are kept. -/
def nanTo (dt st : Ty) (x : Nat) : Nat :=
  let sg := signPat dt (signOf st x)
  match dt with
  | .e4m3 => 0x7f + sg
  | .e5m2 => 0x7e + sg
  | dt =>
    if st.is8 then genNan dt 6 + sg
    else genNan dt 0 + x % 2 ^ (manBits st - 1) % 2 ^ (manBits dt - 1) + sg

/-- A floating value in another floating format (R94 to R101). -/
def cvtFF (dt st : Ty) (rm : Rm) (x : Nat) : Res :=
  match unpackF st x with
  | .nan => Res.of (nanTo dt st x)
  | .inf n => Res.sat (infPat dt + signPat dt n) (dt == .e4m3)
  | .fin n m e => packF dt rm n m e

/-- The nearest end of an integer type's range, with SAT outside it (R101). -/
def clampInt (t : Ty) (z : Int) : Res :=
  let lo : Int := if t.isI then -2 ^ (t.bits - 1) else 0
  let hi : Int := if t.isI then 2 ^ (t.bits - 1) - 1 else 2 ^ t.bits - 1
  if z < lo then ⟨tyExt t (ofInt t.bits lo), fSat⟩
  else if hi < z then ⟨tyExt t (ofInt t.bits hi), fSat⟩
  else Res.of (tyExt t (ofInt t.bits z))

/-- A magnitude that no integer type holds, for values whose exponent is beyond every integer. -/
def hugeInt (rm : Rm) (n : Bool) (m : Nat) (e : Int) : Int :=
  if m ≠ 0 ∧ 70 < e then (if n then -2 ^ 80 else 2 ^ 80) else signedM n (roundInt rm n m e)

/-- A floating value as an integer (R101). -/
def cvtFI (dt st : Ty) (rm : Rm) (x : Nat) : Res :=
  match unpackF st x with
  | .nan => ⟨0, fInv⟩
  | .inf n => clampInt dt (if n then -2 ^ 80 else 2 ^ 80)
  | .fin n m e => clampInt dt (hugeInt rm n m e)

/-- An integer as a floating value (R101). -/
def cvtIF (dt : Ty) (rm : Rm) (z : Int) : Res := packF dt rm (decide (z < 0)) z.natAbs 0

/-- cvt (R130). DESIGN CHOICE: an integer that its destination type cannot hold, of equal or greater width, is clamped as a
narrowing one is (log 85). -/
def cvtOp (dt st : Ty) (rm : Rm) (x : Nat) : Res :=
  if st.isI || st.isN then
    if dt.isI || dt.isN then clampInt dt (tyInt st x) else cvtIF dt rm (tyInt st x)
  else if dt.isI || dt.isN then cvtFI dt st rm x
  else cvtFF dt st rm x

/-! ### Packed values (R93) -/

/-- Element j of a packed register, or the value itself. -/
def elemOf (t : Ty) (x j : Nat) : Nat := if t.isP then x / 2 ^ (16 * j) % 2 ^ 16 else x

/-- Applies an operation to a value, or to each element of a packed value (R93). -/
def perElem (t : Ty) (f : Nat → Res) : Res :=
  if t.isP then
    let r0 := f 0
    let r1 := f 1
    ⟨r0.val + r1.val * 2 ^ 16, r0.fl ||| r1.fl⟩
  else f 0

/-! ### NQ4 (R103 to R106) -/

/-- The codebook in units of 2^-7 (R103). -/
def nqBook : List Int := [-128, -96, -72, -54, -38, -23, -11, 0, 9, 19, 30, 42, 56, 73, 97, 128]

/-- Codebook value of a code, in units of 2^-7. -/
def nqLevel (q : Nat) : Int := nqBook.getD (q % 16) 0

/-- An element by R105: code q, scale code c, superblock scale S as an FP32 pattern. -/
def nqValue (q c sp : Nat) : Res :=
  let p := nqLevel q * (c + 1)
  match unpackF .f32 sp with
  | .nan => Res.of (genNan .f32 2)
  | .inf n =>
    if p = 0 then invalid .f32 4 else Res.of (infPat .f32 + signPat .f32 (n != decide (p < 0)))
  | .fin n m e =>
    let r := packF .f32 .rn (n != decide (p < 0)) (p.natAbs * m) (e - 7)
    match unpackF .f32 r.val with
    | .fin n' m' e' => ⟨(packF .f32 .rn n' m' (e' - 8)).val, r.fl⟩
    | _ => r

/-- The distance of a level from u = num / den (den positive), times 128 * den. -/
def nqDist (num den : Int) (q : Nat) : Nat := (nqLevel q * den - num * 128).natAbs

/-- Index distance from code 7, which settles ties (R106). -/
def nqTie (q : Nat) : Nat := if q < 7 then 7 - q else q - 7

/-- The better of two codes for u (R106). -/
def nqBetter (num den : Int) (a b : Nat) : Nat :=
  let da := nqDist num den a
  let db := nqDist num den b
  if db < da || db == da && (decide (nqTie b < nqTie a) || nqTie b == nqTie a && decide (b < a)) then b else a

/-- The code of an FP32 value under the multiplier (c + 1) * 2^-8 (R101, R106). -/
def nqCode (c x : Nat) : Res :=
  match unpackF .f32 x with
  | .nan => ⟨7, fInv⟩
  | .inf n => ⟨if n then 0 else 15, fSat⟩
  | .fin n m e =>
    if m = 0 then Res.of 7
    else
      let num : Int := signedM n m * 2 ^ (e + 8).toNat
      let den : Int := (c + 1 : Nat) * 2 ^ (-(e + 8)).toNat
      if den < num then ⟨15, fSat⟩
      else if num < -den then ⟨0, fSat⟩
      else Res.of ((upTo 0 16).foldl (nqBetter num den) 0)

end Sys2Proof.Machine
end

