-- ==== Sys2Proof/Machine/Translate.lean ====
section
/-!
DEFINITION. Translation (R345 to R355, R357): the walk with its checks, cached entries, permissions, accessed and dirty
bits, shadow pairs, the publish epoch, scrubbing of walked granules, peer windows, and the places no frame may lie in.
-/

namespace Sys2Proof.Machine

/-! ### Dies, keys and granules -/

/-- The HBM stack of a granule: of die d, the stack M(2d) holds the even granules and M(2d + 1) the odd ones (R22). -/
def stackOf (pa : Nat) : Nat := 2 * paDie pa + pa / 4096 % 2

/-- Accesses to the die's range meet error replies (R374, R379, R381). -/
def State.dieErr (s : State) (d : Nat) : Bool :=
  s.dead.contains d || ((s.warm.find d).map fun w => decide (4 ≤ w.step)).getD false

/-- Accesses to the die's range are held at their senders (R378, step 2). -/
def State.dieHeld (s : State) (d : Nat) : Bool := ((s.warm.find d).map fun w => w.step == 2 || w.step == 3).getD false

/-- The number of the host link in the order of R369. -/
def hostLink : Nat := 8

/-- The state of a link (R371). -/
def State.link (s : State) (n : Nat) : LkState := s.links.getD n .down

/-- The host link carries requests. -/
def State.hostUp (s : State) : Bool := s.link hostLink == .active

/-- Requests over the host link wait for the end of a retrain (R373). -/
def State.hostWaits (s : State) : Bool := s.link hostLink == .retraining

/-- The device is powered: it is not off. -/
def State.powered (s : State) : Bool := s.power != .off

/-- The device runs: its self-test is over. -/
def State.running (s : State) : Bool := s.power == .on || s.power == .failing

/-! ### Routes (R23, R374) -/

/-- The link between two adjacent dies, in the order of R369. -/
def ddLink (a b : Nat) : Nat :=
  let lo := min a b
  let hi := max a b
  if lo = 0 ∧ hi = 1 then 4 else if lo = 2 ∧ hi = 3 then 5 else if lo = 0 ∧ hi = 2 then 6 else 7

/-- The links of the routes between two places, in the order in which they are tried: dies 0 to 3, and the hub as 4. A
diagonal pair goes through the die of the same row first; adjacent dies use their own link, and else the other way round the
ring; a die reaches the hub by its own link, and else through its neighbour in x, then in y (R23, R374). -/
def routesOf (a b : Nat) : List (List Nat) :=
  if a = b then [[]]
  else if b = 4 then [[a], [ddLink a (a ^^^ 1), a ^^^ 1], [ddLink a (a ^^^ 2), a ^^^ 2]]
  else if a = 4 then [[b], [b ^^^ 1, ddLink b (b ^^^ 1)], [b ^^^ 2, ddLink b (b ^^^ 2)]]
  else if a ^^^ b = 3 then [[ddLink a (a ^^^ 1), ddLink (a ^^^ 1) b], [ddLink a (a ^^^ 2), ddLink (a ^^^ 2) b]]
  else
    let o := 3 - (a ^^^ b)
    [[ddLink a b], [ddLink a (a ^^^ o), ddLink (a ^^^ o) (b ^^^ o), ddLink (b ^^^ o) b]]

/-- The route that a request takes: the first all of whose links are ACTIVE; without one it waits (R23, R374; log 91). -/
def State.route (s : State) (a b : Nat) : Option (List Nat) := (routesOf a b).find? fun r => r.all fun n => s.link n == .active

/-- A request from a die, or from the hub, for an address is held at its sender: the address's die quiesces, or no route
leads there now (R374, R378). -/
def State.away (s : State) (src pa : Nat) : Bool := s.dieHeld (paDie pa) || (s.route src (paDie pa)).isNone

/-- The number of a peer port's link in the order of R369. -/
def portLink (p : Nat) : Nat := 9 + p

/-- Requests of access x over a peer port are answered: the port is ACTIVE, or it quiesces and has accepted them before
(R371, R387). -/
def State.portUp (s : State) (p x : Nat) : Bool :=
  s.link (portLink p) == .active || s.link (portLink p) == .quiescing && decide (x < s.portMark.getD p 0)

/-- The class of the error reply that an access of a world meets at an address, if any (R176, R199, R379). -/
def State.replyErr (s : State) (world pa : Nat) : Option Nat :=
  if (s.key world).st ≠ .valid then some 10
  else if s.dieErr (paDie pa) then some 11
  else none

/-- The 4 KiB granule of an address. -/
def granOf (pa : Nat) : Nat := pa / 4096

/-- The granule of the address is unscrubbed (R364). -/
def State.unscr (s : State) (pa : Nat) : Bool := s.unscrubbed.getD (granOf pa) false

/-- Scrubs a granule for a world: zeros under its key, and the scrub bit cleared (R364). -/
def State.scrubNow (s : State) (key g : Nat) : State :=
  let zs := List.replicate 4096 (0 : Byte)
  { s with
    mem := memSets s.mem (g * 4096) zs
    secKey := (upTo (g * 128) 128).foldl (fun t n => t.put n key) s.secKey
    unscrubbed := s.unscrubbed.del g }

/-- A walker or engine access meets an unscrubbed granule: it is scrubbed first (R364). -/
def State.scrubFirst (s : State) (world pa : Nat) : State :=
  if s.unscr pa then s.scrubNow (s.key world).key (granOf pa) else s

/-! ### Places that no frame may lie in (R347 step 3, R441) -/

/-- The Caldera store and the block save areas of a die: from the first byte to the end of the die's range. -/
def State.reserveLow (s : State) (d : Nat) : Nat := (d + 1) * 2 ^ 37 - s.nslots * 2 ^ 20 - 80 * 2 ^ 20

/-- Two ranges of bytes meet. -/
def meetRange (a n b m : Nat) : Bool := decide (a < b + m) && decide (b < a + n)

/-- The range of n bytes from pa on meets the Caldera store or a block save area. -/
def State.inReserve (s : State) (pa n : Nat) : Bool :=
  [0, 1, 2, 3].any fun d => meetRange pa n (s.reserveLow d) ((d + 1) * 2 ^ 37 - s.reserveLow d)

/-- The range meets the log area of a Sinter region (R357). -/
def State.inLogs (s : State) (pa n : Nat) : Bool :=
  s.regions.any fun r => meetRange pa n r.logbase (4096 * r.tiles.length)

/-- A frame of n bytes that step 3 of R347 refuses (log 25). -/
def State.badFrame (s : State) (pa n : Nat) : Bool :=
  decide (hbmSize < pa + n) || s.inReserve pa n || s.inLogs pa n

/-! ### Entries -/

/-- Bit n of a number. -/
def bitAt (x n : Nat) : Bool := x / 2 ^ n % 2 == 1

/-- The bits of x from lo on, n of them. -/
def fieldOf (x lo n : Nat) : Nat := x / 2 ^ lo % 2 ^ n

/-- Physical address of the FRAME field (R346). -/
def frameOf (e : Nat) : Nat := fieldOf e 12 40 * 4096

/-- Bytes that a leaf of a level covers. -/
def leafSize (lvl : Nat) : Nat := 2 ^ (12 + 9 * lvl)

/-- Step 2 of R347: a valid entry that is refused with PAGE_RESERVED_BIT. -/
def entReserved (e lvl : Nat) : Bool :=
  let leaf := bitAt e 1
  let sm := bitAt e 10
  let sh := bitAt e 9
  let ch := bitAt e 8
  fieldOf e 53 11 != 0 || leaf && decide (3 ≤ lvl) || !leaf && lvl == 0 || !leaf && (bitAt e 52 || fieldOf e 2 10 != 0) ||
    leaf && (sm && lvl != 0 || (sh || ch) && lvl == 2 || sm && sh) || fieldOf e 6 2 == 3 ||
    leaf && !sh && (lvl == 1 && fieldOf e 12 9 != 0 || lvl == 2 && fieldOf e 12 18 != 0)

/-- The entry key of a virtual address at a level (R353): the bits that select it. -/
def vpnOf (va lvl : Nat) : Nat := va / 2 ^ (12 + 9 * lvl)

/-- The cached values of an entry (R353). -/
def State.cached (s : State) (die world lvl vpn : Nat) : List Nat :=
  (s.tcache.filter fun t => t.die == die && t.world == world && t.lvl == lvl && t.vpn == vpn).map fun t => t.ent

/-- Remembers the value of an entry that has passed its checks, and its address. -/
def State.cache (s : State) (die world lvl vpn e addr : Nat) : State :=
  let t : TEnt := ⟨die, world, lvl, vpn, e, addr, []⟩
  if s.tcache.any fun k => { k with parts := [] } == t then s else { s with tcache := s.tcache ++ [t] }

/-- Picks one of several values: the first, where they are one (R353; log 11). -/
def State.pickOne (s : State) (now : Nat) (old : List Nat) : Nat × State :=
  let os := old.filter (fun o => o != now)
  if os = [] then (now, s)
  else ((now :: os).getD (s.free 40001 % (os.length + 1)) now, s.used)

/-- An 8-byte word that the walker reads for a world at its home slice: what memory holds, or a value that is still cached
(R351, R353). -/
def State.walkRead (s : State) (die world lvl vpn pa : Nat) : Nat × State :=
  let s := (s.scrubFirst world pa).touchL2 world pa 0 .no .no
  s.pickOne (s.hbmNat (s.key world).key pa 8) (s.cached die world lvl vpn)

/-- Why a translation fails: the fault class and the level (R221). -/
structure TBad where
  cls : Nat
  lvl : Nat
deriving DecidableEq, Repr

/-- A leaf found by a walk: its level, its value and the address it was read from. -/
structure TLeaf where
  lvl : Nat
  ent : Nat
  addr : Nat
deriving DecidableEq, Repr

/-- The outcome of a walk; held, where a read of it is held back at its sender, for a die that quiesces (R378). -/
inductive TWalk
  | leaf (l : TLeaf)
  | bad (b : TBad)
  | held (pa : Nat)
deriving DecidableEq, Repr

/-- Installs the other entries of a consistent contiguous group, where each of their frames passes its check too; else the single
leaf stands alone (R347, R352). -/
def State.installGroup (s : State) (die world va : Nat) (l : TLeaf) : State :=
  if bitAt l.ent 8 && !bitAt l.ent 9 && !bitAt l.ent 10 then
    let base := l.addr / 128 * 128
    let key := (s.key world).key
    let es := (upTo 0 16).map fun i => s.hbmNat key (base + 8 * i) 8
    let e0 := es.getD 0 0
    let sz := leafSize l.lvl
    let ok := (upTo 0 16).all fun i =>
      let e := es.getD i 0
      bitAt e 0 && bitAt e 1 && bitAt e 8 && !bitAt e 9 && !bitAt e 10 && fieldOf e 2 9 == fieldOf e0 2 9 &&
        frameOf e == frameOf e0 + i * sz && !entReserved e l.lvl && !s.badFrame (frameOf e) sz
    if ok && frameOf e0 % (16 * sz) == 0 then
      let v0 := vpnOf va l.lvl / 16 * 16
      (upTo 0 16).foldl (fun s i => s.cache die world l.lvl (v0 + i) (es.getD i 0) (base + 8 * i)) s
    else s
  else s

/-- The walk from a table of level lvl on; n levels are left (R345, R347, R351). -/
def walkGo (die world va : Nat) : Nat → Nat → State → TWalk × State
  | 0, _, s => (.bad ⟨7, 0⟩, s)
  | lvl + 1, table, s =>
    let pa := table + 8 * (vpnOf va lvl % 512)
    match s.replyErr world pa with
    | some k => (.bad ⟨k, 0⟩, s)
    | none =>
      if s.away die pa then (.held pa, s)
      else
        let (e, s) := s.walkRead die world lvl (vpnOf va lvl) pa
        let keep (s : State) : State := s.cache die world lvl (vpnOf va lvl) e pa
        if !bitAt e 0 then (.bad ⟨8, lvl⟩, s)
        else if entReserved e lvl then (.bad ⟨7, lvl⟩, s)
        else if bitAt e 1 then
          if !bitAt e 9 && s.badFrame (frameOf e) (leafSize lvl) then (.bad ⟨8, lvl⟩, s)
          else (.leaf ⟨lvl, e, pa⟩, (keep s).installGroup die world va ⟨lvl, e, pa⟩)
        else if s.badFrame (frameOf e) 4096 then (.bad ⟨8, lvl⟩, s)
        else walkGo die world va lvl (frameOf e) (keep s)

/-- The translation root of a world (R197, R345); a world that is not configured has none. -/
def State.root (s : State) (world : Nat) : Option Nat := (s.ctxs.find world).map fun c => c.root

/-- The leaves of the address that a cache may still hold beside what a walk finds (R353). -/
def State.heldLeaves (s : State) (die world va : Nat) (found : Option Nat) : List TLeaf :=
  (s.tcache.filter fun t =>
    t.die == die && t.world == world && decide (t.lvl ≤ 2) && bitAt t.ent 1 && t.vpn == vpnOf va t.lvl &&
      some t.ent != found).map fun t => ⟨t.lvl, t.ent, t.addr⟩

/-- The walk of an address, or a leaf that is still cached (R353; log 11). -/
def State.walk (s : State) (die world va : Nat) : TWalk × State :=
  match s.root world with
  | none => (.bad ⟨8, 4⟩, s)
  | some root =>
    let r := walkGo die world va 5 root s
    let found := match r.1 with
      | .leaf l => some l.ent
      | _ => none
    match s.heldLeaves die world va found with
    | [] => r
    | ls =>
      match ls[s.free 40002 % (ls.length + 1)]? with
      | none => (r.1, r.2.used)
      | some l => (.leaf l, s.used)

/-! ### From a leaf to an address -/

/-- What an access needs of a leaf (R349). -/
inductive Perm | none | r | w | a | x
deriving DecidableEq, Repr

/-- The leaf has the permission (R349). -/
def permOk (e : Nat) : Perm → Bool
  | .none => true
  | .r => bitAt e 2
  | .w => bitAt e 3
  | .a => bitAt e 4
  | .x => bitAt e 5 && !bitAt e 9 && !bitAt e 10

/-- A translated address: physical address, memory type, the Sinter region and tile it lies in, the leaf, and the publish
epoch where a shadow pair was consulted. -/
structure Hit where
  pa : Nat
  mt : Nat
  sint : Option (Nat × Nat)
  leaf : TLeaf
  epoch : Option Nat
deriving DecidableEq, Repr

/-- The outcome of a translation; held, where a read of it is held back at its sender (R378). -/
inductive Tr
  | ok (h : Hit)
  | bad (b : TBad)
  | held (pa : Nat)
deriving DecidableEq, Repr

/-- The region of a world that holds an address: its place in State.regions and the tile (R357). -/
def State.regionOf (s : State) (world va : Nat) : Option (Nat × Nat) :=
  let go (i : Nat) (r : Region) : Option (Nat × Nat) :=
    if r.world == world && decide (r.vbase ≤ va) && decide (va < r.vbase + 65536 * r.tiles.length) then
      some (i, (va - r.vbase) / 65536)
    else none
  ((upTo 0 s.regions.length).zip s.regions).findSome? fun p => go p.1 p.2

/-- A leaf of a shadow pair: the descriptor's checks, the selector and the epoch (R354, R355). -/
def State.pairLeaf (s : State) (die world va : Nat) (l : TLeaf) (need : Perm) (shd : Bool) : Tr × State :=
  let da := frameOf l.ent / 4096 * 16
  if s.badFrame da 16 then (.bad ⟨8, l.lvl⟩, s)
  else
    match s.replyErr world da with
    | some k => (.bad ⟨k, 0⟩, s)
    | none =>
      if s.away die da then (.held da, s)
      else
      let (d0, s) := s.walkRead die world 8 (da / 16) da
      let (d1, s) := s.walkRead die world 9 (da / 16) (da + 8)
      let fa := fieldOf d0 0 40
      let fb := fieldOf d1 0 40
      let bad := fieldOf d0 52 12 != 0 || fieldOf d1 40 24 != 0 || l.lvl == 1 && (fa % 512 != 0 || fb % 512 != 0)
      let sz := leafSize l.lvl
      if bad then (.bad ⟨7, l.lvl⟩, s)
      else if s.badFrame (fa * 4096) sz || s.badFrame (fb * 4096) sz then (.bad ⟨8, l.lvl⟩, s)
      else
        let s := (s.cache die world 8 (da / 16) d0 da).cache die world 9 (da / 16) d1 (da + 8)
        match s.pubTab.find (fieldOf d0 40 12) with
        | none => (.bad ⟨9, l.lvl⟩, s)
        | some p =>
          if p.world != world || !permOk l.ent need then (.bad ⟨9, l.lvl⟩, s)
          else
            let f := if p.sel != shd then fb else fa
            (.ok ⟨f * 4096 + va % sz, fieldOf l.ent 6 2, none, l, some (s.epochs.getD world 0)⟩, s)

/-- Translates an address of a world for a need; shd takes the frame that is not selected (R163). -/
def State.xlate (s : State) (die world va : Nat) (need : Perm) (shd : Bool) : Tr × State :=
  if 2 ^ 57 ≤ va then (.bad ⟨8, 4⟩, s)
  else
    match s.walk die world va with
    | (.bad b, s) => (.bad b, s)
    | (.held pa, s) => (.held pa, s)
    | (.leaf l, s) =>
      if bitAt l.ent 9 then s.pairLeaf die world va l need shd
      else
        let pa := frameOf l.ent + va % leafSize l.lvl
        if bitAt l.ent 10 then
          match s.regionOf world va with
          | none => (.bad ⟨8, 0⟩, s)
          | some rt =>
            if permOk l.ent need then (.ok ⟨pa, fieldOf l.ent 6 2, some rt, l, none⟩, s) else (.bad ⟨9, l.lvl⟩, s)
        else if permOk l.ent need then (.ok ⟨pa, fieldOf l.ent 6 2, none, l, none⟩, s)
        else (.bad ⟨9, l.lvl⟩, s)

/-- The value of a leaf with its accessed and, for a write, its dirty bit (R350). -/
def adBits (e : Nat) (wr : Bool) : Nat :=
  let e1 := if bitAt e 11 then e else e + 2 ^ 11
  if wr && !bitAt e1 52 then e1 + 2 ^ 52 else e1

/-- A cached entry is that of a leaf for an address. -/
def TEnt.isLeaf (t : TEnt) (die world va : Nat) (l : TLeaf) : Bool :=
  t.die == die && t.world == world && t.lvl == l.lvl && t.vpn == vpnOf va l.lvl && t.ent == l.ent

/-- A cached entry follows an access through its leaf: AF, and DF for the 4 KiB part written (R350). -/
def TEnt.followed (t : TEnt) (va : Nat) (wr : Bool) : TEnt :=
  if t.lvl = 0 then { t with ent := adBits t.ent wr }
  else
    { t with
      ent := adBits t.ent false
      parts := if wr && !bitAt t.ent 52 then va / 4096 :: t.parts else t.parts }

/-- Sets the accessed and dirty bits of a leaf where the entry in use lacks them, which records DF for each 4 KiB part by itself: an
OR at the leaf's home slice, whose granule is scrubbed first; the cached entry follows (R350, R364). -/
def State.setAD (s : State) (die world va : Nat) (l : TLeaf) (wr : Bool) : State :=
  let recorded := s.tcache.any fun t => t.isLeaf die world va l && t.parts.contains (va / 4096)
  let wr := wr && !recorded
  let e := adBits l.ent wr
  if e = l.ent then s
  else
    let s := s.scrubFirst world l.addr
    let key := (s.key world).key
    let now := s.hbmNat key l.addr 8
    let put (v : Nat) : Nat :=
      let v1 := if bitAt e 11 && !bitAt v 11 then v + 2 ^ 11 else v
      if bitAt e 52 && !bitAt v1 52 then v1 + 2 ^ 52 else v1
    let s := (s.hbmWrite key l.addr (leBytes 8 (put now))).touchL2 world l.addr 8 .no .no
    { s with tcache := s.tcache.map fun t => if t.isLeaf die world va l then t.followed va wr else t }

/-- A translation returned an epoch: a newer one makes the access an acquire point of the core (R164, R168). -/
def State.seeEpoch (s : State) (core world : Nat) (ep : Option Nat) : State :=
  match ep with
  | none => s
  | some e =>
    if (s.core core).epoch.getD world 0 < e then
      (s.acquire core world).onCore core fun c => { c with epoch := c.epoch.setD world e 0 }
    else s

/-! ### Peer windows (R385, R386) -/

/-- The peer window of a world that holds an address; no address with one of the bits 63:57 set lies in a window, but fails its
translation at level 4 (R150). -/
def State.windowOf (s : State) (world va : Nat) : Option Window :=
  if 2 ^ 57 ≤ va then none
  else
    match s.ctxs.find world with
    | none => none
    | some c => c.windows.find? fun w => decide (w.vbase ≤ va) && decide (va < w.vbase + w.size)

end Sys2Proof.Machine
end

