-- ==== Sys2Proof/Machine/Memory.lean ====
section
/-!
DEFINITION. How lane accesses perform: the checks of R174, the accesses in flight (R157 to R160), L1 and the home slices
(R151 to R153), monitors of waita (R184, R185), the end of a read, and error replies (R176).
-/

namespace Sys2Proof.Machine

/-! ### Addresses and checks (R172 to R174) -/

/-- The effective address of a global access in a lane (R49, R172). -/
def Iss.ea (x : Iss) (s : State) (l : Nat) (a : Src) (off : BitVec 20) : Nat :=
  (x.src64 s l a + off.signExtend 64).toNat

/-- The scratchpad offset of a lane (R172). -/
def Iss.spOff (x : Iss) (s : State) (l : Nat) (a : Src) (off : BitVec 20) : Nat :=
  (x.src32 s l a + off.signExtend 32).toNat

/-- What the checks find for a lane's access: a failure, a local address, a peer window, or a walk that a quiescing die holds
back (R378). -/
inductive LTr
  | bad (b : TBad)
  | loc (h : Hit)
  | win (w : Window)
  | held (pa : Nat)
deriving DecidableEq, Repr

/-- A lane's access and what the checks find for it. -/
structure LReq where
  lane : Nat
  va : Nat
  tr : LTr
deriving DecidableEq, Repr

/-- Checks one lane's access: alignment, the bits of R150, peer window, translation and permission (R150, R173, R386). -/
def Iss.trLane (x : Iss) (s : State) (va align : Nat) (need : Perm) (winOk shd : Bool) : LTr × State :=
  if va % align ≠ 0 then (.bad ⟨6, 0⟩, s)
  else
    match s.windowOf x.g.world va with
    | some w => (if winOk then .win w else .bad ⟨9, 4⟩, s)
    | none =>
      match s.xlate (coreDie x.wp.core) x.g.world va need shd with
      | (.ok h, s) => (.loc h, s)
      | (.bad b, s) => (.bad b, s)
      | (.held pa, s) => (.held pa, s)

/-- Checks the accesses of lanes in ascending order (R174). -/
def Iss.trAll (x : Iss) (align : Nat) (need : Perm) (winOk shd : Bool) :
    List (Nat × Nat) → State → List LReq × State
  | [], s => ([], s)
  | (l, va) :: rest, s =>
    let (t, s) := x.trLane s va align need winOk shd
    let (ts, s) := Iss.trAll x align need winOk shd rest s
    (⟨l, va, t⟩ :: ts, s)

/-- The failure that an instruction raises: the highest-priority class, of the lowest lane that has it (R174, R205). -/
def worstOf : List LReq → Option (TBad × Nat)
  | [] => none
  | r :: rest =>
    match r.tr, worstOf rest with
    | .bad b, some (b', va') => if b'.cls < b.cls then some (b', va') else some (b, r.va)
    | .bad b, none => some (b, r.va)
    | _, w => w

/-- The lanes that fail with a class (R174, R205). -/
def Iss.badLanes (x : Iss) (cls : Nat) (rs : List LReq) : Mask :=
  x.failing fun l => rs.any fun r => r.lane == l && (match r.tr with
    | .bad b => b.cls == cls
    | _ => false)

/-- The fault of a failed check in the lanes that take it (R174; log 26). -/
def Iss.memFault (x : Iss) (b : TBad) (lanes : Mask) (va : Nat) : FRec := { x.flt b.cls lanes va 0 with lvl := b.lvl }

/-- After the checks have passed: the accessed and dirty bits of every leaf, and the publish epochs (R350, R164). -/
def Iss.noteHits (x : Iss) (wr : Bool) : List LReq → State → State
  | [], s => s
  | r :: rest, s =>
    match r.tr with
    | .loc h =>
      let s := s.setAD (coreDie x.wp.core) x.g.world r.va h.leaf wr
      Iss.noteHits x wr rest (s.seeEpoch x.wp.core x.g.world h.epoch)
    | _ => Iss.noteHits x wr rest s

/-- The publish epochs that checked addresses return, where no access is made (R164). -/
def Iss.seeEpochs (x : Iss) (rs : List LReq) (s : State) : State :=
  rs.foldl (fun s r => match r.tr with
    | .loc h => s.seeEpoch x.wp.core x.g.world h.epoch
    | _ => s) s

/-- The first walk that a quiescing die holds back. -/
def heldOf (rs : List LReq) : Option Nat :=
  rs.findSome? fun r => match r.tr with
    | .held pa => some pa
    | _ => none

/-- Checks the lanes ls at the addresses that f gives, and goes on where every lane passes; the lanes that fail with the
class raised take the fault (R174; log 26). Instruction i waits where a quiescing die holds back a walk (R378). -/
def Iss.checked (x : Iss) (i : Instr) (s : State) (ls : List Nat) (align : Nat) (need : Perm) (winOk shd wr : Bool)
    (f : Nat → Nat) (go : List LReq → State → State) : State :=
  let (rs, s1) := x.trAll align need winOk shd (ls.map fun l => (l, f l)) s
  match heldOf rs with
  | some pa => s1.block x i .drain [(1, pa), (2, 0)]
  | none =>
    match worstOf rs with
    | some (b, va) => s1.raise x (x.memFault b (x.badLanes b.cls rs) va) 0
    | none => go rs (x.noteHits wr rs s1)

/-! ### Access units (R155) -/

/-- A unit of a lane's access at byte offset idx. -/
def LReq.unit (r : LReq) (idx n : Nat) (data : List Byte) : Acc :=
  match r.tr with
  | .loc h => ⟨r.lane, r.va + idx, h.pa + idx, n, data, idx, h.mt, h.sint.isSome, none, none⟩
  | .win w => ⟨r.lane, r.va + idx, w.rbase + (r.va - w.vbase) + idx, n, data, idx, 0, false, some w.port, none⟩
  | .bad b => ⟨r.lane, r.va + idx, 0, n, data, idx, 0, false, none, some b.cls⟩
  | .held pa => ⟨r.lane, r.va + idx, pa, n, data, idx, 0, false, none, none⟩

/-- The address is Sinter-managed (R357). -/
def LReq.sm (r : LReq) : Bool :=
  match r.tr with
  | .loc h => h.sint.isSome
  | _ => false

/-- The units of a lane's access of n bytes: naturally aligned parts of at most sz bytes (R155). -/
def LReq.units (r : LReq) (n sz : Nat) (bytes : List Byte) : List Acc :=
  let k := min n sz
  (upTo 0 (n / k)).map fun i => r.unit (k * i) k ((bytes.drop (k * i)).take k)

/-- The size of the parts of a store: words, and whole elements for a Sinter-managed page (R155, R360; log 27). -/
def LReq.part (r : LReq) (elem : Nat) : Nat := if r.sm then elem else min elem 4

/-- Enters an access in flight: its identity, and the warp's counts (R168; log 6). -/
def State.launchTxn (s : State) (x : Iss) (i : Instr) (kind : TxKind) (units : List Acc) (owed : Nat) (q : Option Nat) :
    Nat × State :=
  let (n, s) := s.newId
  let t : Txn := ⟨x.w, x.wp.core, x.g.world, kind, i, x.m, x.pc, units, [], owed, [], [], q⟩
  let s := { s with txns := s.txns.put n t }
  (n, s.onWarp x.w fun wp =>
    { wp with
      stores := wp.stores + owed
      loads := if owed = 0 then wp.loads + 1 else wp.loads })

/-- A unit in a peer window becomes a request of its remote world, with the next number of its port; a read sends its count
alone (R385 to R387). -/
def State.sendPeer (s : State) (world : Nat) (op : RemOp) (a : Acc) : State :=
  match a.port with
  | none => s
  | some p =>
    let n := s.peerSeq.getD p 0
    let rworld := ((s.windowOf world a.va).map fun w => w.rworld).getD 0
    let bytes := if op = .rd then List.replicate a.n 0 else a.data.map fun b => b.toNat
    { s with peerSeq := s.peerSeq.put p (n + 1), outs := s.outs ++ [.peerSend p n rworld a.pa op bytes] }

/-- The requests that units in a peer window send (R386, R387). -/
def State.sendPeers (s : State) (world : Nat) (op : RemOp) (us : List Acc) : State :=
  us.foldl (fun s a => s.sendPeer world op a) s

/-- The scoreboard holds the n registers from reg on until access n ends (R287). -/
def State.holdTx (s : State) (w : Nat) (m : Mask) (reg n tx : Nat) : State :=
  s.onWarp w fun wp => { wp with score := wp.score ++ [⟨m, reg, n, some tx⟩] }

/-! ### Order of units of one word (R157, R158) -/

/-- Two units touch a common word. -/
def Acc.meets (a b : Acc) : Bool :=
  a.port == b.port && decide (a.pa / 4 ≤ (b.pa + b.n - 1) / 4) && decide (b.pa / 4 ≤ (a.pa + a.n - 1) / 4)

/-- The threads whose program order a unit stands in: its lane, and of ldk every lane of M (R155, R178). -/
def Txn.threads (t : Txn) (a : Acc) : Mask :=
  match t.ins with
  | .ldk .. => t.m
  | _ => oneLane a.lane

/-- The units that later accesses of the same threads stand behind: those to be performed, and of a load those performed too,
since a resume reads every lane of a failed load again (R158, R176). -/
def Txn.standing (t : Txn) : List Acc := if t.kind = .load then t.got ++ t.units else t.units

/-- A unit a of access t stands behind a unit of the earlier access e: one thread, one word (R157, R158). -/
def Txn.before (e t : Txn) (a : Acc) : Bool :=
  e.w == t.w && e.standing.any fun b => e.threads b &&& t.threads a != 0 && a.meets b

/-- A unit of access x stands behind no earlier unit of its threads to the same word. -/
def State.inOrder (s : State) (x : Nat) (t : Txn) (a : Acc) : Bool :=
  s.txns.all fun e => decide (x ≤ e.1) || !e.2.before t a

/-- The units of an access that are performed with one of them: those of the same 32-byte sector, in the order of their lanes, since
the unit makes one request of them (R157, R175, R184). Each request in a peer window goes by itself. -/
def Txn.with (t : Txn) (a : Acc) : List Acc :=
  match a.port with
  | some _ => [a]
  | none => t.units.filter fun b => b.port.isNone && b.pa / 32 == a.pa / 32

/-! ### Sinter tiles of an access (R358, R359) -/

/-- The tile that holds an address of a Sinter-managed page. -/
def State.tileAt (s : State) (world va : Nat) : Option (Nat × Nat × STile) :=
  match s.regionOf world va with
  | none => none
  | some (r, t) =>
    match s.regions[r]? with
    | none => none
    | some g => (g.tiles[t]?).map fun st => (r, t, st)

/-- Changes tile t of region r. -/
def State.onTile (s : State) (r t : Nat) (f : STile → STile) : State :=
  { s with regions := updNth (fun g => { g with tiles := updNth f t g.tiles }) r s.regions }

/-- The tile of a unit admits plain accesses: the page is ordinary, or the tile is RESIDENT. -/
def State.tileOk (s : State) (world : Nat) (a : Acc) : Bool :=
  !a.sm || match s.tileAt world a.va with
    | some (_, _, t) => t.st == .resident
    | none => true

/-- An access that waits for an ABSENT tile starts its fetch (R359). -/
def State.forceTile (s : State) (world va : Nat) : State :=
  match s.tileAt world va with
  | some (r, t, st) => if st.st = .absent then s.onTile r t fun y => { y with st := .arriving } else s
  | none => s

/-- Every unit of a Sinter-managed page forces its tile (R359). -/
def State.forceTiles (s : State) (world : Nat) (us : List Acc) : State :=
  us.foldl (fun s a => if a.sm then s.forceTile world a.va else s) s

/-- The access is kept for a resume and does not run now (R176). -/
def State.isKept (s : State) (x : Nat) (t : Txn) : Bool :=
  match s.warps.find t.w with
  | some wp => wp.redo.contains x
  | none => true

/-- A unit can be performed now: its granule is scrubbed, its slice answers, its tile is RESIDENT, nothing earlier stands
before it (R160, R359, R364, R378). -/
def State.unitOk (s : State) (x : Nat) (t : Txn) (a : Acc) : Bool :=
  a.err.isNone && !s.isKept x t && s.inOrder x t a &&
    match a.port with
    | some p => s.portUp p x
    | none => s.replyErr t.world a.pa == none && !s.away (coreDie t.core) a.pa && !s.unscr a.pa && s.tileOk t.world a

/-- The cache hint of an instruction (R71). -/
def hintOf : Instr → Ch
  | .ld _ _ ch _ _ _ _ | .st _ _ ch _ _ _ _ | .ldk _ _ ch _ _ _ _ => ch
  | _ => .no

/-- The hint that a fill of a page sets (R348, R169). -/
def fillHint (mt : Nat) : Ch := if mt = 2 then .ef else .no

/-- The hint that a fill by an access sets; engine accesses, those of accst, ignore the memory type (R162, R348). -/
def Txn.fill (t : Txn) (a : Acc) : Ch :=
  match t.ins with
  | .accst .. => .no
  | _ => fillHint a.mt

/-! ### Reads -/

/-- The bytes of a sector that a read unit takes. -/
def sliceOf (bs : List Byte) (pa n : Nat) : List Byte := (bs.drop (pa % 32)).take n

/-- A sector fills a place of L1, which holds 6,144: a free choice makes way where it is full (R19; log 9). -/
def Core.fillL1 (c : Core) (k : Nat) (bs : List Byte) (pick : Nat) : Core :=
  let l1 := c.l1.del k
  let l1 := if l1.length < 6144 then l1 else l1.eraseIdx (pick % l1.length)
  { c with l1 := l1.put k bs }

/-- Performs a read unit: at the home slice, or from the core's L1, whose copy may be stale until it is replaced (R153,
R158, R348; log 9). -/
def State.readUnit (s : State) (t : Txn) (a : Acc) : List Byte × State :=
  let key := (s.key t.world).key
  let now := s.hbmBytes key a.pa a.n
  let s1 := s.touchL2 t.world a.pa 0 (t.fill a) (hintOf t.ins)
  let fill := s.hbmBytes key (a.pa / 32 * 32) 32
  let put (s : State) : State := s.onCore t.core fun c => c.fillL1 (l1Key t.world a.pa) fill (s.free 40008)
  if a.mt = 1 then (now, s1.l1Drop t.core t.world a.pa)
  else
    match (s.core t.core).l1.find (l1Key t.world a.pa) with
    | none => (now, put s1)
    | some bs =>
      let old := sliceOf bs a.pa a.n
      if old = now then (now, s1)
      else if s.free 40003 % 2 = 0 then (old, s1.used)
      else (now, (put s1).used)

/-! ### Monitors (R184, R185) -/

/-- A write was performed on a sector: the first event of every waita that watches it (R185). -/
def State.notifyWrite (s : State) (pa : Nat) : State :=
  s.monitors.foldl (fun s m =>
    if m.sector = pa / 32 then
      { s with waits := s.waits.upd m.q fun y =>
          if y.sat then y
          else { y with sat := true, stat := (maskLanes m.lanes).foldl (fun st l => st.put l 1) y.stat } }
    else s) s

/-! ### Writes -/

/-- After a write at the home slice: the words of the core's own L1 copy follow (R153; log 28). -/
def State.refreshL1 (s : State) (core world key pa n : Nat) : State :=
  match (s.core core).l1.find (l1Key world pa) with
  | none => s
  | some bs =>
    let lo := pa % 32 / 4 * 4
    let hi := (pa % 32 + n + 3) / 4 * 4
    let now := s.hbmBytes key (pa / 32 * 32 + lo) (hi - lo)
    s.onCore core fun c => { c with l1 := c.l1.put (l1Key world pa) (bs.take lo ++ now ++ bs.drop hi) }

/-- A write that invalidates the core's L1 copy of the sector instead of updating it (R337). -/
def dropsL1 : Instr → Bool
  | .accst .. => true
  | _ => false

/-- Performs a write unit at its home slice (R152, R157). -/
def State.writeUnit (s : State) (t : Txn) (a : Acc) : State :=
  let key := (s.key t.world).key
  let s := s.hbmMerge key a.pa a.data
  let s := s.touchL2 t.world a.pa a.n (t.fill a) (hintOf t.ins)
  let s := if dropsL1 t.ins then s.l1Drop t.core t.world a.pa else s.refreshL1 t.core t.world key a.pa a.n
  s.notifyWrite a.pa

/-! ### Release points -/

/-- A release point: the instruction goes on once the accesses of its warp are done, and waits for them otherwise (R168). -/
def Iss.released (x : Iss) (s : State) (i : Instr) (go : State → State) : State :=
  if x.wp.drained then go s else s.block x i .drain []

/-- What an instruction that waits found in its way is gone: the tile of address 0 is RESIDENT, and accesses from its die to
address 1 are no longer held back, or meet an error reply by now (R332, R359, R374, R378, R379). -/
def State.freeAt (s : State) (die world : Nat) (st : Tbl Nat) : Bool :=
  (match st.find 0 with
    | none => true
    | some va => match s.tileAt world va with
      | some (_, _, t) => t.st == .resident
      | none => true) &&
  (match st.find 1 with
    | none => true
    | some pa => !s.away die pa || (s.replyErr world pa).isSome)

/-- The first of the checked addresses whose request, or a walk for it, is held at its sender now (R373, R374, R378). -/
def Iss.heldBack (x : Iss) (s : State) (rs : List LReq) : Option Nat :=
  rs.findSome? fun r => match r.tr with
    | .held pa => some pa
    | .loc h => if s.freeAt (coreDie x.wp.core) x.g.world [(1, h.pa)] then none else some h.pa
    | _ => none

/-- The first of the checked addresses that stands in an engine's way: an ABSENT tile, whose fetch is forced, or a die that
quiesces (R332, R359, R378). -/
def State.inTheWay (s : State) (die world : Nat) (rs : List LReq) : Option (State × Tbl Nat) :=
  rs.findSome? fun r => match r.tr with
    | .loc h =>
      if h.sint.isSome && !(s.freeAt die world [(0, r.va)]) then some (s.forceTile world r.va, [(0, r.va)])
      else if !s.freeAt die world [(1, h.pa)] then some (s, [(1, h.pa)])
      else none
    | _ => none

/-- The error replies that checked addresses meet: the class of the highest priority, with its first address (R176, R205). -/
def State.replyOf (s : State) (world : Nat) (rs : List LReq) : Option (Nat × Nat) :=
  rs.foldr (fun r best => match r.tr with
    | .loc h => match s.replyErr world h.pa, best with
      | none, b => b
      | some k, none => some (k, r.va)
      | some k, some (k', v') => if k ≤ k' then some (k, r.va) else some (k', v')
    | _ => best) none

/-! ### The end of a read -/

/-- The little-endian value of the bytes that a lane's units read. -/
def gotVal (got : List Acc) (l : Nat) : Nat :=
  got.foldl (fun v a => if a.lane = l then v + leNat a.data * 2 ^ (8 * a.idx) else v) 0

/-- The value and the number of registers that an access writes from the bytes it read (R89, R177, R181, R183). -/
def readVal (i : Instr) (v : Nat) : Nat × Nat :=
  match i with
  | .ld _ t _ n _ _ _ | .ldk _ t _ n _ _ _ => (if accRegs t n = 1 then tyExt t v else v, accRegs t n)
  | .atom _ t _ _ _ _ _ => (v, t.regs)
  | .vatom _ _ _ _ _ _ _ => (v, 8)
  | _ => (v, 1)

/-- The destination of a reading access. -/
def readDst : Instr → Option Dst
  | .ld _ _ _ _ d _ _ | .ldk _ _ _ _ d _ _ | .atom _ _ _ _ d _ _ | .vatom _ _ _ _ d _ _ => some d
  | _ => none

/-- Writes the destination of a reading access in the lanes of m. -/
def State.putRead (s : State) (t : Txn) (m : Mask) : State :=
  match readDst t.ins with
  | none => s
  | some (.v i) =>
    s.onLanes t.w m fun l ln =>
      let r := readVal t.ins (gotVal t.got l)
      ln.setVs i.toNat r.2 r.1
  | some (.k i) =>
    let r := readVal t.ins (gotVal t.got (lowLane m))
    s.onWarp t.w fun wp => wp.setKs i.toNat r.2 r.1

/-- The scoreboard lets go of the registers that access x held. -/
def State.unhold (s : State) (w x : Nat) : State :=
  s.onWarp w fun wp => { wp with score := wp.score.filter fun h => h.tx != some x }

/-- A waiting instruction is done: its lanes advance (R288). -/
def State.waitDone (s : State) (q : Nat) : State :=
  match s.waits.find q with
  | none => s
  | some y =>
    let s := s.onWarp y.w fun wp =>
      wp.onLanes y.lanes fun _ ln => if ln.wait = some q then { ln with pc := ln.pc + 12 } else ln
    (s.unblock q).settle y.w

/-- The access is an acquire point after its value returns (R168). -/
def acquires : Instr → Bool
  | .atom _ _ _ o _ _ _ | .vatom _ _ _ o _ _ _ => o == .acq || o == .acqrel
  | _ => false

/-- The flags of an access that reported some, lane by lane, but for those that a later flagclr of the lane cleared (R109). -/
def Txn.set (t : Txn) : BitVec 3 :=
  laneNums.foldl (fun f l => f ||| (t.flags.getD l 0 &&& ~~~(t.mute.getD l 0))) 0

/-- A lane's element reports flags. -/
def Txn.report (t : Txn) (l : Nat) (f : BitVec 3) : Txn := { t with flags := t.flags.setD l (t.flags.getD l 0 ||| f) 0 }

/-- The flags that atomic elements report are set in the issuing group (R181). -/
def State.flagsTo (s : State) (t : Txn) : State :=
  match s.warps.find t.w with
  | none => s
  | some wp => s.orFlags wp.gid t.set

/-- The rows that an accld has read go to the engine, where the instruction completes (R337). -/
def State.rowsBack (s : State) (t : Txn) (q : Nat) : State :=
  let rows := laneNums.map fun l => (upTo 0 16).map fun j => BitVec.ofNat 32 (gotVal t.got l / 2 ^ (32 * j))
  s.onCore t.core fun c => { c with matq := c.matq.map fun o => if o.q = q then { o with vals := rows } else o }

/-- A reading access has returned whole: its registers are written, an acquiring one invalidates L1, and an instruction
that waited for it is done (R168, R177, R182). -/
def State.finishRead (s : State) (x : Nat) (t : Txn) : State :=
  let s := { s with txns := s.txns.del x }
  let s := (s.putRead t t.m).unhold t.w x
  let s := (s.onWarp t.w fun wp => { wp with loads := wp.loads - 1 }).flagsTo t
  let s := if acquires t.ins then s.acquire t.core t.world else s
  match t.q, t.ins with
  | some q, .accld .. => s.rowsBack t q
  | some q, _ => s.waitDone q
  | none, _ => s.settle t.w

/-- Unit u of access x leaves the list of units to perform. -/
def dropNth {α : Type} : Nat → List α → List α
  | _, [] => []
  | 0, _ :: xs => xs
  | n + 1, x :: xs => x :: dropNth n xs

/-! ### Error replies (R176, R193) -/

/-- The class that a unit fails with now: an error it has met, or the error reply of its slice. -/
def State.unitErr (s : State) (t : Txn) (a : Acc) : Option Nat :=
  match a.err with
  | some k => some k
  | none => if a.port.isSome then none else s.replyErr t.world a.pa

/-- The issue of an access in flight, for the fault that it raises. -/
def State.issOf (s : State) (t : Txn) : Option Iss :=
  match s.warps.find t.w with
  | none => none
  | some wp =>
    match s.groups.find wp.gid with
    | none => none
    | some g =>
      match s.launches.find g.lid with
      | none => none
      | some ln => some ⟨t.w, wp, g, ln, t.m, t.m, t.pc, (s.core wp.core).clk, t.q⟩

/-- The lanes that take a failure of an access: every lane of M; of ldk, whose faults are those of one lane, the lowest
(R176, R178; log 26). -/
def Txn.takers (t : Txn) : Mask :=
  match t.ins with
  | .ldk .. => oneLane (lowLane t.m)
  | _ => t.m

/-- Lanes of an access none of whose units is left: the performed mask (R176). -/
def perfMask (t : Txn) : Mask := t.takers &&& ~~~(maskOf fun l => t.units.any fun a => a.lane == l)

/-- The highest-priority class among failing units, and the address of the lowest lane that has it (R205, R174). The code of a
failure is its class, with the level of a walk above it (R221). -/
def State.worstUnit (s : State) (t : Txn) : List Acc → Option (Nat × Nat × Nat)
  | [] => none
  | a :: rest =>
    match s.unitErr t a, State.worstUnit s t rest with
    | some k, some (k', l', va') =>
      if k % 32 < k' % 32 || k % 32 == k' % 32 && decide (a.lane ≤ l') then some (k, a.lane, a.va - a.idx) else some (k', l', va')
    | some k, none => some (k, a.lane, a.va - a.idx)
    | none, r => r

/-- What stays of a failed access for a resume: a load is to read every lane again, a write only its units left (R176). -/
def Txn.again (t : Txn) : Txn :=
  match t.kind with
  | .load => { t with units := (t.got ++ t.units).map fun a => { a with data := [], err := none }, got := [] }
  | _ => { t with units := t.units.map fun a => { a with err := none } }

/-- An instruction that executes again from its PC after a fault of its accesses, so that none of them is kept (R184, R337). -/
def Txn.anew (t : Txn) : Bool :=
  match t.ins with
  | .waita .. | .accld .. => true
  | _ => false

/-- A failed accld leaves the engine (R323). -/
def State.leaveMat (s : State) (t : Txn) : State :=
  match t.ins with
  | .accld .. => s.onWarp t.w fun wp => { wp with matOut := wp.matOut - 1 }
  | _ => s

/-- An access in flight ends before all of it is performed: the performed units stand, an atomic returns the old values of the
performed lanes, and the warp's counts no longer wait for it (R176). -/
def State.cutTxn (s : State) (t : Txn) : State :=
  let s := if t.kind = .atomic then (s.putRead t (perfMask t)).flagsTo t else s
  (s.leaveMat t).onWarp t.w fun wp =>
    { wp with
      stores := wp.stores - t.owed
      loads := if t.owed = 0 then wp.loads - 1 else wp.loads }

/-- An access that has ended is kept for a resume, under its number and so in its place among the accesses of its threads; an
instruction that executes again from its PC keeps none (R157, R158, R176; log 29). -/
def State.keepTxn (s : State) (x : Nat) (t : Txn) : State :=
  if t.anew then
    ({ s with
      txns := s.txns.del x
      monitors := s.monitors.filter fun m => some m.q != t.q } : State).unhold t.w x
  else
    let keep : Txn := { t.again with q := none, owed := if t.owed = 0 then 0 else t.units.length, flags := [] }
    ({ s with txns := s.txns.put x keep } : State).onWarp t.w fun wp => { wp with redo := wp.redo ++ [x] }

/-- Access x is put aside where a unit of it stands behind a kept access: it is kept for the resume too, without a fault of its
own, and its instruction stands before its issue where it has not retired (R157, R158; log 29). -/
def State.putAside (s : State) (x : Nat) : State :=
  match s.txns.find x with
  | none => s
  | some t =>
    if !s.isKept x t && t.units.any fun a => s.txns.any fun e => decide (e.1 < x) && s.isKept e.1 e.2 && e.2.before t a then
      let s := (s.cutTxn t).keepTxn x t
      match t.q with
      | some q => s.unblock q
      | none => s
    else s

/-- Every unit left of access x has failed: the performed ones stand, and the instruction raises the fault. Where it stops the
group, the access is kept for the resume, with the later ones that stand behind it; where it ends iterations, nothing is executed
again (R176, R277; log 29). -/
def State.failTxn (s : State) (x : Nat) (t : Txn) (code va : Nat) : State :=
  match s.issOf t with
  | none => { s with txns := s.txns.del x }
  | some y =>
    let f : FRec := { y.flt (code % 32) t.takers va 0 with perf := perfMask t, lvl := code / 32 }
    let s := s.cutTxn t
    if s.inTasks y f then (({ s with txns := s.txns.del x } : State).unhold t.w x).raise y f 0
    else
      let s := s.keepTxn x t
      let s := if t.anew then s else (s.txns.map fun e => e.1).foldl (fun s k => if x < k then s.putAside k else s) s
      s.raise y f 0

end Sys2Proof.Machine
end

