-- ==== Sys2Proof/Machine/Global.lean ====
section
/-!
DEFINITION. ld, st and ldk (R177, R178), pfetch and evict (R187, R188).
-/

namespace Sys2Proof.Machine

/-- Bytes of a lane's access (R173). -/
def accSize (t : Ty) (n : Cnt) : Nat := t.bits / 8 * n.n

/-- The first register of a destination, as the scoreboard numbers it. -/
def dstBase : Dst → Nat
  | .v i => i.toNat
  | .k i => 512 + i.toNat

/-- A load's accesses start, its registers are held, and it retires (R174, R177). -/
def loadGo (i : Instr) (t : Ty) (n : Cnt) (d : Dst) (x : Iss) (rs : List LReq) (s : State) : State :=
  let us := rs.flatMap fun r => r.units (accSize t n) 4 []
  let (tx, s) := s.launchTxn x i .load us 0 none
  let s := (s.forceTiles x.g.world us).sendPeers x.g.world .rd us
  (s.holdTx x.w x.m (dstBase d) (accRegs t n) tx).retire x

/-- The effect of ld (R177). -/
def ldEffect (i : Instr) (t : Ty) (n : Cnt) (d : Dst) (a : Src) (off : BitVec 20) (x : Iss) (s : State) : State :=
  x.checked i s (maskLanes x.m) (accSize t n) .r true false false (fun l => x.ea s l a off) (loadGo i t n d x)

/-- ld (R177). -/
def execLd (c : Ctl) (t : Ty) (ch : Ch) (n : Cnt) (d : Dst) (a : Src) (off : BitVec 20) (s : State) :
    Host.Outcome State Fault Refusal :=
  issueWord (.ld c t ch n d a off) s noEmpty noPre (ldEffect (.ld c t ch n d a off) t n d a off)

/-- The bytes that a store of n bytes takes from its register group (R177). -/
def Iss.storeBytes (x : Iss) (s : State) (l : Nat) (d : Dst) (regs n : Nat) : List Byte :=
  leBytes n ((upTo 0 regs).foldl (fun v j => v + (x.reg s l d j).toNat * 2 ^ (32 * j)) 0)

/-- A store's write units start, each counted, and it retires (R168, R174, R177). -/
def storeGo (i : Instr) (t : Ty) (n : Cnt) (d : Dst) (x : Iss) (s0 : State) (rs : List LReq) (s : State) : State :=
  let us := rs.flatMap fun r =>
    r.units (accSize t n) (r.part (t.bits / 8)) (x.storeBytes s0 r.lane d (accRegs t n) (accSize t n))
  let (_, s) := s.launchTxn x i .store us us.length none
  (s.sendPeers x.g.world .wr us).retire x

/-- The effect of st (R177). -/
def stEffect (i : Instr) (t : Ty) (n : Cnt) (d : Dst) (a : Src) (off : BitVec 20) (x : Iss) (s : State) : State :=
  x.checked i s (maskLanes x.m) (accSize t n) .w true false true (fun l => x.ea s l a off) (storeGo i t n d x s)

/-- st (R177). -/
def execSt (c : Ctl) (t : Ty) (ch : Ch) (n : Cnt) (d : Dst) (a : Src) (off : BitVec 20) (s : State) :
    Host.Outcome State Fault Refusal :=
  issueWord (.st c t ch n d a off) s noEmpty noPre (stEffect (.st c t ch n d a off) t n d a off)

/-- The effect of ldk: one access at the uniform address (R178). -/
def ldkEffect (i : Instr) (t : Ty) (n : Cnt) (d : Dst) (a : Src) (off : BitVec 20) (x : Iss) (s : State) : State :=
  x.checked i s [lowLane x.m] (accSize t n) .r false false false (fun l => x.ea s l a off) (loadGo i t n d x)

/-- ldk (R178). -/
def execLdk (c : Ctl) (t : Ty) (ch : Ch) (n : Cnt) (d : Dst) (a : Src) (off : BitVec 20) (s : State) :
    Host.Outcome State Fault Refusal :=
  issueWord (.ldk c t ch n d a off) s noEmpty noPre (ldkEffect (.ldk c t ch n d a off) t n d a off)

/-! ### Retention hints -/

/-- The lanes of a retention hint, with what their addresses translate to: the instruction waits where a request, or a walk for one,
is held at its sender (R373, R378). -/
def Iss.hinting (x : Iss) (i : Instr) (a : Src) (off : BitVec 20) (s : State) (go : List LReq → State → State) : State :=
  let (rs, s1) := x.trAll 1 .none false false ((maskLanes x.m).map fun l => (l, x.ea s l a off)) s
  match x.heldBack s1 rs with
  | some pa => s1.block x i .drain [(1, pa), (2, 0)]
  | none => go rs (x.seeEpochs rs s1)

/-- The lane is dropped by pfetch: its slice answers with errors, its granule is unscrubbed, or its tile ABSENT or LEAVING (R187). -/
def State.unfetched (s : State) (world : Nat) (h : Hit) : Bool :=
  (s.replyErr world h.pa).isSome || s.unscr h.pa ||
    match h.sint with
    | none => false
    | some (r, t) => match (s.regions[r]?).bind fun g => g.tiles[t]? with
      | some st => st.st == .absent || st.st == .leaving
      | none => false

/-- A lane of pfetch: the line is filled, at NONE whatever the memory type, and the hint applied; a lane that fails in any
way is dropped, one in a peer window among them, since pfetch never faults (R187; log 30). -/
def pfetchLane (ch : Ch) (x : Iss) (s : State) (r : LReq) : State :=
  match r.tr with
  | .loc h =>
    if s.unfetched x.g.world h then s
    else (s.setAD (coreDie x.wp.core) x.g.world r.va h.leaf false).touchL2 x.g.world h.pa 0 .no ch
  | _ => s

/-- The effect of pfetch (R187). -/
def pfetchEffect (i : Instr) (ch : Ch) (a : Src) (off : BitVec 20) (x : Iss) (s : State) : State :=
  x.hinting i a off s fun rs s => (rs.foldl (pfetchLane ch x) s).retire x

/-- pfetch (R187). -/
def execPfetch (c : Ctl) (ch : Ch) (a : Src) (off : BitVec 20) (s : State) : Host.Outcome State Fault Refusal :=
  softWord (.pfetch c ch a off) s (pfetchEffect (.pfetch c ch a off) ch a off)

/-- The hint of a line after evict (R169). -/
def evictHint (old ch : Ch) : Ch := if ch = .en then .en else hintStep old ch

/-- evict changes the hint of the line of an address, where L2 holds it, and its place in the order of use not (R169, R170,
R188). -/
def State.evictL2 (s : State) (world pa : Nat) (ch : Ch) : State :=
  { s with l2 := s.l2.upd (s.setOf pa) fun ls =>
      let ch := hintIn (ls.filter fun y => !y.is world pa) ch
      ls.map fun y => if y.is world pa then { y with hint := evictHint y.hint ch } else y }

/-- A lane of evict: the hint of a present line changes, and the core's L1 sectors of the line are dropped. A lane whose
translation fails, or whose slice answers with errors, is dropped (R188). -/
def evictLane (ch : Ch) (x : Iss) (s : State) (r : LReq) : State :=
  match r.tr with
  | .loc h =>
    if (s.replyErr x.g.world h.pa).isSome then s
    else
      [0, 32, 64, 96].foldl (fun s k => s.l1Drop x.wp.core x.g.world (h.pa / 128 * 128 + k)) (s.evictL2 x.g.world h.pa ch)
  | _ => s

/-- The effect of evict; in a peer window it raises PAGE_PERM with level 4, which is no failed translation (R188, R386; log 30). -/
def evictEffect (i : Instr) (ch : Ch) (a : Src) (off : BitVec 20) (x : Iss) (s : State) : State :=
  x.hinting i a off s fun rs s =>
    let ws := rs.filter fun r => (s.windowOf x.g.world r.va).isSome
    match worstOf ws with
    | some (b, va) => s.raise x (x.memFault b (x.badLanes b.cls ws) va) 0
    | none => (rs.foldl (evictLane ch x) s).retire x

/-- evict (R188). -/
def execEvict (c : Ctl) (ch : Ch) (a : Src) (off : BitVec 20) (s : State) : Host.Outcome State Fault Refusal :=
  issueWord (.evict c ch a off) s noEmpty noPre (evictEffect (.evict c ch a off) ch a off)

end Sys2Proof.Machine
end

