-- ==== Sys2Proof/Machine/Atomic.lean ====
section
/-!
DEFINITION. Atomics and reductions (R181 to R183), and sleeping on an address (R184 to R186).
-/

namespace Sys2Proof.Machine

/-! ### The operations (R181) -/

/-- apply(old, x) of a type; x holds the compare value and then the new one for .cas (R181). -/
def applyOp (op : Aop) (t : Ty) (old x : Nat) : Res :=
  let w := t.bits
  match op with
  | .add =>
    if t.isP then perElem t fun j => addF (elemTy t) .rn (elemOf t old j) (elemOf t x j)
    else if t.isF then addF t .rn old x
    else Res.of ((old + x) % 2 ^ w)
  | .min =>
    if t.isF then Res.of (minMaxF t false false old x)
    else Res.of (if tyInt t x < tyInt t old then x else old)
  | .max =>
    if t.isF then Res.of (minMaxF t true false old x)
    else Res.of (if tyInt t old < tyInt t x then x else old)
  | .and => Res.of (old &&& x)
  | .or => Res.of (old ||| x)
  | .xor => Res.of (old ^^^ x)
  | .inc => Res.of (if x ≤ old then 0 else old + 1)
  | .dec => Res.of (if old = 0 ∨ x < old then x else old - 1)
  | .exch => Res.of x
  | .cas => Res.of (if old = x % 2 ^ w then x / 2 ^ w else old)

/-- The operation and the element type of an atomic instruction (R181, R183). -/
def aopOf : Instr → Aop × Ty
  | .atom _ t op _ _ _ _ | .red _ t op _ _ _ _ => (op, t)
  | .vatom _ t op _ _ _ _ | .vred _ t op _ _ _ _ => (op, elemTy t)
  | _ => (.exch, .b32)

/-- Bytes of one operand value: .cas carries two (R181). -/
def operandBytes (op : Aop) (t : Ty) : Nat := if op = .cas then 2 * (t.bits / 8) else t.bits / 8

/-- The ordering makes the instruction a release point (R168). -/
def ordRel : MOrd → Bool
  | .rel | .acqrel => true
  | _ => false

/-! ### atom, red, vatom, vred -/

/-- The atomic element units of a lane: one for atom and red, one for each element of a vector (R182, R183). -/
def atomUnits (vec : Bool) (op : Aop) (t : Ty) (r : LReq) (bytes : List Byte) : List Acc :=
  let n := (elemTy t).bits / 8
  if vec then (upTo 0 (32 / n)).map fun i => r.unit (n * i) n ((bytes.drop (n * i)).take n)
  else [r.unit 0 (t.bits / 8) (bytes.take (operandBytes op t))]

/-- The bytes that a lane supplies. -/
def Iss.atomBytes (x : Iss) (s : State) (l : Nat) (vec : Bool) (op : Aop) (t : Ty) (d : Dst) : List Byte :=
  if vec then x.storeBytes s l d 8 32 else x.storeBytes s l d (atomRegs op t) (operandBytes op t)

/-- The bytes and the alignment of a lane's access (R173). -/
def atomSize (vec : Bool) (t : Ty) : Nat := if vec then 32 else t.bits / 8

/-- A returning atomic starts. One that acquires keeps its lanes until the value returns (R168); the registers of another
are held. -/
def atomGo (i : Instr) (vec : Bool) (op : Aop) (t : Ty) (o : MOrd) (d : Dst) (x : Iss) (s0 : State) (rs : List LReq)
    (s : State) : State :=
  let us := rs.flatMap fun r => atomUnits vec op t r (x.atomBytes s0 r.lane vec op t d)
  if o = .acq ∨ o = .acqrel then
    let q := x.q.getD s.nextId
    let s := s.block x i .access []
    let (_, s) := s.launchTxn x i .atomic us 0 (some q)
    s.forceTiles x.g.world us
  else
    let (tx, s) := s.launchTxn x i .atomic us 0 none
    let s := s.forceTiles x.g.world us
    let s := s.holdTx x.w x.m (dstBase d) (if vec then 8 else t.regs) tx
    s.retire x

/-- A reduction starts: each element is counted, and it retires (R168, R182). -/
def redGo (i : Instr) (vec : Bool) (op : Aop) (t : Ty) (d : Dst) (x : Iss) (s0 : State) (rs : List LReq) (s : State) :
    State :=
  let us := rs.flatMap fun r => atomUnits vec op t r (x.atomBytes s0 r.lane vec op t d)
  let (_, s) := s.launchTxn x i .atomic us us.length none
  (s.sendPeers x.g.world (.red op t) us).retire x

/-- A release point where the ordering says so (R168). -/
def Iss.ordered (x : Iss) (s : State) (i : Instr) (o : MOrd) (go : State → State) : State :=
  if ordRel o then x.released s i go else go s

/-- The effect of a returning atomic (R181, R183). -/
def atomEffect (i : Instr) (vec : Bool) (op : Aop) (t : Ty) (o : MOrd) (d : Dst) (a : Src) (off : BitVec 20) (x : Iss)
    (s : State) : State :=
  x.ordered s i o fun s =>
    x.checked i s (maskLanes x.m) (atomSize vec t) .a false false true (fun l => x.ea s l a off)
      (atomGo i vec op t o d x s)

/-- The effect of a reduction (R181, R183). -/
def redEffect (i : Instr) (vec : Bool) (op : Aop) (t : Ty) (o : MOrd) (d : Dst) (a : Src) (off : BitVec 20) (x : Iss)
    (s : State) : State :=
  x.ordered s i o fun s =>
    x.checked i s (maskLanes x.m) (atomSize vec t) .a true false true (fun l => x.ea s l a off) (redGo i vec op t d x s)

/-- atom (R181, R182). -/
def execAtom (c : Ctl) (t : Ty) (op : Aop) (o : MOrd) (d : Dst) (a : Src) (off : BitVec 20) (s : State) :
    Host.Outcome State Fault Refusal :=
  issueWord (.atom c t op o d a off) s noEmpty noPre (atomEffect (.atom c t op o d a off) false op t o d a off)

/-- red (R181, R182). -/
def execRed (c : Ctl) (t : Ty) (op : Aop) (o : MOrd) (d : Dst) (a : Src) (off : BitVec 20) (s : State) :
    Host.Outcome State Fault Refusal :=
  issueWord (.red c t op o d a off) s noEmpty noPre (redEffect (.red c t op o d a off) false op t o d a off)

/-- vatom (R183). -/
def execVatom (c : Ctl) (t : Ty) (op : Aop) (o : MOrd) (d : Dst) (a : Src) (off : BitVec 20) (s : State) :
    Host.Outcome State Fault Refusal :=
  issueWord (.vatom c t op o d a off) s noEmpty noPre (atomEffect (.vatom c t op o d a off) true op t o d a off)

/-- vred (R183). -/
def execVred (c : Ctl) (t : Ty) (op : Aop) (o : MOrd) (d : Dst) (a : Src) (off : BitVec 20) (s : State) :
    Host.Outcome State Fault Refusal :=
  issueWord (.vred c t op o d a off) s noEmpty noPre (redEffect (.vred c t op o d a off) true op t o d a off)

/-! ### Applying elements at the home slice (R182) -/

/-- Two units name the same element. -/
def Acc.same (a b : Acc) : Bool := a.pa == b.pa && a.n == b.n && a.port == b.port

/-- Every unit of the element stands behind no earlier access of its thread. -/
def State.elemOk (s : State) (x : Nat) (t : Txn) (a : Acc) : Bool :=
  (t.units.all fun b => !a.same b || s.inOrder x t b) &&
    (t.units.takeWhile fun b => b != a).all fun b => a.same b || !(a.port == b.port && meetRange a.pa a.n b.pa b.n)

/-- What the lanes of one element read and leave, in lane order: the read units, the last value and the flags that each lane
reports (R182). -/
def applyLanes (op : Aop) (t : Ty) : Nat → List Acc → List Acc × Nat × List (Nat × BitVec 3)
  | v, [] => ([], v, [])
  | v, a :: as =>
    let r := applyOp op t v (leNat a.data)
    let (g, w, fl) := applyLanes op t r.val as
    ({ a with data := leBytes a.n v } :: g, w, (a.lane, r.fl) :: fl)

/-- Applies the element of unit a in one step: every lane that names it, lowest first (R182). -/
def State.applyElem (s : State) (x : Nat) (t : Txn) (a : Acc) : State :=
  let key := (s.key t.world).key
  let (op, ty) := aopOf t.ins
  let (g, v, fl) := applyLanes op ty (s.hbmNat key a.pa a.n) (t.units.filter a.same)
  let t' : Txn := fl.foldl (fun t e => t.report e.1 e.2) { t with
    units := t.units.filter fun b => !a.same b
    got := if t.owed = 0 then t.got ++ g else t.got }
  let s := s.hbmMerge key a.pa (leBytes a.n v)
  let s := (s.touchL2 t.world a.pa a.n (t.fill a) .no).l1Drop t.core t.world a.pa
  let s := { s.notifyWrite a.pa with txns := s.txns.put x t' }
  if t'.units = [] ∧ t'.owed = 0 then s.finishRead x t' else s

/-! ### waita and wake -/

/-- Cycles that a TMO code stands for (R184). -/
def tmoCycles (n : BitVec 4) : Nat := 2 ^ (10 + n.toNat)

/-- waita's comparisons start: one word per lane, with the expected value, at the home slices (R184; log 32). -/
def waitaGo (i : Instr) (d : Dst) (x : Iss) (s0 : State) (rs : List LReq) (s : State) : State :=
  let us := rs.map fun r => r.unit 0 4 (x.storeBytes s0 r.lane d 1 4)
  let q := x.q.getD s.nextId
  let s := s.block x i .sleep []
  let (_, s) := s.launchTxn x i .load us 0 (some q)
  s.forceTiles x.g.world us

/-- The effect of waita (R184). -/
def waitaEffect (i : Instr) (d : Dst) (a : Src) (off : BitVec 20) (x : Iss) (s : State) : State :=
  x.checked i s (maskLanes x.m) 4 .r false false false (fun l => x.ea s l a off) (waitaGo i d x s)

/-- waita (R184). -/
def execWaita (c : Ctl) (tmo : BitVec 4) (d : Dst) (a : Src) (off : BitVec 20) (s : State) :
    Host.Outcome State Fault Refusal :=
  issueWord (.waita c tmo d a off) s noEmpty noPre (waitaEffect (.waita c tmo d a off) d a off)

/-- The lanes of waita that name a sector are compared with memory and, where one of them is unchanged, a monitor is armed
in the same step; a full table makes their status FULL (R184). -/
def State.waitaSector (s : State) (x : Nat) (t : Txn) (q : Nat) (a : Acc) : State :=
  let key := (s.key t.world).key
  let us := t.units.filter fun b => b.pa / 32 == a.pa / 32
  let changed := us.filter fun b => s.hbmBytes key b.pa 4 != b.data
  let still := us.filter fun b => s.hbmBytes key b.pa 4 == b.data
  let slice := s.homeSlice a.pa
  let full := decide (256 ≤ (s.monitors.filter fun m => m.slice == slice).length)
  let mark (v : Nat) (us : List Acc) (st : Tbl Nat) := us.foldl (fun st b => st.put b.lane v) st
  let s := { s with waits := s.waits.upd q fun y =>
    { y with stat := (if full then mark 4 still else id) (mark 0 changed y.stat) } }
  let s := if still = [] || full then s
    else { s with monitors := s.monitors ++
      [⟨slice, t.world, q, a.pa / 32, maskOf fun l => still.any fun b => b.lane == l⟩] }
  let t' : Txn := { t with units := t.units.filter fun b => b.pa / 32 != a.pa / 32, got := t.got ++ us }
  { s with txns := s.txns.put x t' }

/-- waita returns: d receives each lane's status, and its monitors are released (R184). A lane that the comparison found
CHANGED or FULL keeps that status, whichever event releases the warp; SPURIOUS goes to the others that the event does not
name (log 75). -/
def State.waitaEnd (s : State) (q : Nat) : State :=
  match s.waits.find q with
  | none => s
  | some y =>
    match y.ins with
    | .waita _ _ d _ _ =>
      let s := s.putEach y.w y.lanes d 1 fun l => y.stat.getD l 5
      ({ s with monitors := s.monitors.filter fun m => m.q != q }).waitDone q
    | _ => s

/-- The comparisons of a waita are over: it ends where every lane has a status, and sleeps otherwise. DESIGN CHOICE: from here its
timeout counts, and the 512 cycles after which one with a FULL lane returns (R184, R185; log 128). -/
def State.waitaCompared (s : State) (x : Nat) (t : Txn) (q : Nat) : State :=
  let s := { s with txns := s.txns.del x }
  let s := s.onWarp t.w fun wp => { wp with loads := wp.loads - 1 }
  match s.waits.find q with
  | none => s
  | some y =>
    if (maskLanes y.lanes).all fun l => (y.stat.find l).isSome then s.waitaEnd q
    else { s with waits := s.waits.upd q fun y => { y with since := (s.core t.core).clk } }

/-- A wake of a sector: the first event of every waita of the world that watches it (R185, R186). -/
def State.wakeSector (s : State) (world pa : Nat) : State :=
  s.monitors.foldl (fun s m =>
    if m.sector = pa / 32 ∧ m.world = world then
      { s with waits := s.waits.upd m.q fun y =>
          if y.sat then y
          else { y with sat := true, stat := (maskLanes m.lanes).foldl (fun st l => st.put l 2) y.stat } }
    else s) s

/-- wake releases the monitors of its lanes' sectors, and retires (R186). DESIGN CHOICE: R176 does not list wake among the accesses
that meet an error reply; one at a home slice that answers with errors releases what it finds there, and does not fault (log 129). -/
def wakeGo (i : Instr) (x : Iss) (rs : List LReq) (s : State) : State :=
  match x.heldBack s rs with
  | some pa => s.block x i .drain [(1, pa), (2, 0)]
  | none =>
    (rs.foldl (fun s r => match r.tr with
      | .loc h => s.wakeSector x.g.world h.pa
      | _ => s) s).retire x

/-- The effect of wake (R186). -/
def wakeEffect (i : Instr) (a : Src) (off : BitVec 20) (x : Iss) (s : State) : State :=
  x.checked i s (maskLanes x.m) 1 .r false false false (fun l => x.ea s l a off) (wakeGo i x)

/-- wake (R186). -/
def execWake (c : Ctl) (a : Src) (off : BitVec 20) (s : State) : Host.Outcome State Fault Refusal :=
  issueWord (.wake c a off) s noEmpty noPre (wakeEffect (.wake c a off) a off)

end Sys2Proof.Machine
end

