-- ==== Sys2Proof/Machine/Barrier.lean ====
section
/-!
DEFINITION. Barriers (R313 to R321): arrival, the end of a phase with the flag check, exit of a warp, and bar, bar.arrive,
bar.wait, bar.test and barset.
-/

namespace Sys2Proof.Machine

/-! ### State (R313 to R315, R319) -/

/-- Barrier b of a group; one never used expects the full group (R313). -/
def State.bar (s : State) (g : Group) (b : Nat) : BarG :=
  g.bars.getD b ⟨((s.launches.find g.lid).map fun x => x.rc.groupw).getD 0, 0, none⟩

/-- What a warp holds of barrier b (R314). -/
def Warp.bar (w : Warp) (b : Nat) : BarW := w.bars.getD b BarW.clear

/-- Changes what a warp holds of barrier b. -/
def Warp.setBar (w : Warp) (b : Nat) (x : BarW) : Warp := { w with bars := w.bars.setD b x BarW.clear }

/-- The flag check at the end of a phase (R319). -/
def Group.barCheck (g : Group) : BTrap :=
  if g.gflags.getLsbD 0 && g.traparm.getLsbD 0 then .sat
  else if g.gflags.getLsbD 2 && g.traparm.getLsbD 1 then .kovf
  else .no

/-- test(b): enough arrivals end the phase (R315). -/
def State.barTest (s : State) (gid b : Nat) : State :=
  match s.groups.find gid with
  | none => s
  | some g =>
    let k := s.bar g b
    if k.exp ≤ k.cnt + g.xw then
      let t := g.barCheck
      let s := s.onGroup gid fun g => { g with bars := g.bars.put b ⟨k.held.getD k.exp, 0, none⟩ }
      { s with warps := s.warps.mapV fun _ w =>
          if w.gid == gid && (w.bar b).arr then w.setBar b ⟨false, true, t⟩ else w }
    else s

/-- arrive(w, b) (R315). -/
def State.barArrive (s : State) (w gid b : Nat) : State :=
  match s.warps.find w, s.groups.find gid with
  | some wp, some g =>
    if (wp.bar b).arr then s
    else
      let k := s.bar g b
      let s := s.onWarp w fun wp => wp.setBar b { wp.bar b with arr := true }
      (s.onGroup gid fun g => { g with bars := g.bars.put b { k with cnt := k.cnt + 1 } }).barTest gid b
  | _, _ => s

/-- The sixteen barriers. -/
def barNums : List Nat := upTo 0 16

/-- exit of a warp: it no longer counts where it had arrived, and counts as exited everywhere (R315). -/
def State.barExit (s : State) (w gid : Nat) : State :=
  match s.warps.find w with
  | none => s
  | some wp =>
    let s := barNums.foldl (fun s b =>
      if (wp.bar b).arr then
        let s := s.onWarp w fun wp => wp.setBar b { wp.bar b with arr := false }
        s.onGroup gid fun g =>
          let k := s.bar g b
          { g with bars := g.bars.put b { k with cnt := k.cnt - 1 } }
      else s) s
    let s := s.onGroup gid fun g => { g with xw := g.xw + 1 }
    barNums.foldl (fun s b => s.barTest gid b) s

/-! ### Consuming a phase (R317, R319) -/

/-- The issue of a waiting instruction, as it stands. -/
def State.issWait (s : State) (q : Nat) : Option Iss :=
  match s.waits.find q with
  | none => none
  | some y =>
    match s.warps.find y.w with
    | none => none
    | some wp =>
      match s.groups.find wp.gid with
      | none => none
      | some g =>
        match s.launches.find g.lid with
        | none => none
        | some ln => some ⟨y.w, wp, g, ln, y.lanes, y.lanes, y.pc, (s.core wp.core).clk, some q⟩

/-- The waiting instructions of a warp at barrier b: all lanes of one warp take part as one warp (R317). -/
def State.barWaits (s : State) (w b : Nat) : List Nat :=
  (s.waits.filter fun e => e.2.w == w && e.2.kind == .bar && e.2.stat.getD 0 0 == b).map fun e => e.1

/-- The class that a recorded trap raises (R319). -/
def BTrap.cls : BTrap → Nat
  | .no => 0
  | .sat => 17
  | .kovf => 18

/-- The phase that ended is consumed: DONE and TRP are cleared, which is an acquire point (R168, R317). -/
def State.barConsume (s : State) (w core world b : Nat) : State :=
  (s.onWarp w fun wp => wp.setBar b { wp.bar b with done := false, trp := .no }).acquire core world

/-- The lanes of an instruction and of those that complete with it. -/
def allLanes (m : Mask) (xs : List Iss) : Mask := xs.foldl (fun m y => m ||| y.m) m

/-- Instructions of one warp retire together at a barrier, and take the trap recorded for their warp in all their lanes, by the
path of that warp; where it stops the group, they retire and the phase is consumed only once the trap is taken (R207, R277, R317,
R319). -/
def State.barTrap (s : State) (b : Nat) (t : BTrap) (main : Iss) (others : List Nat) : State :=
  let xs := others.filterMap s.issWait
  let f := main.flt t.cls (allLanes main.m xs) 0 0
  let go (s : State) : State :=
    xs.foldl (fun s y => s.retire y) (s.barConsume main.w main.wp.core main.g.world b)
  if t = .no then (go s).retire main
  else match s.faultPath main f with
  | .stop => s.raiseWith { main with act := allLanes main.act xs } f 0 (some b) none
  | _ => (go s).raise main f 0

/-- Where a trap at a barrier stops the group, each other warp that the same phase has released takes its own in the same cycle,
so that of those that stop it the lowest %warp is recorded (R205, R319). -/
def State.barOthers (s : State) (gid b w : Nat) : State :=
  (s.warps.filter fun e => e.2.gid == gid && e.1 != w).foldl (fun s e =>
    match s.barWaits e.1 b with
    | [] => s
    | q :: qs =>
      match s.issWait q with
      | none => s
      | some y =>
        let k := y.wp.bar b
        if k.done && k.trp != .no && !y.wp.stopped then s.barTrap b k.trp y qs else s) s

/-- Instructions of one warp complete together at a barrier, with the recorded trap (R317, R319). -/
def State.barDone (s : State) (b : Nat) (t : BTrap) (main : Iss) (others : List Nat) : State :=
  let f := main.flt t.cls (allLanes main.m (others.filterMap s.issWait)) 0 0
  let u := s.barTrap b t main others
  if t != .no && s.faultPath main f == .stop then u.barOthers main.wp.gid b main.w else u

/-- bar or bar.wait with DONE set: it completes, with every instruction of the warp that waits for the phase (R317). -/
def barComplete (b : Nat) (x : Iss) (s : State) : State :=
  s.barDone b (x.wp.bar b).trp x ((s.barWaits x.w b).filter fun q => some q != x.q)

/-! ### The instructions (R316 to R318) -/

/-- bar waits, or completes where the phase has ended (R317). -/
def barWaitOrDone (i : Instr) (b : Nat) (x : Iss) (s : State) : State :=
  match s.warps.find x.w with
  | none => s
  | some wp => if (wp.bar b).done then barComplete b { x with wp := wp } s else s.block x i .bar [(0, b)]

/-- A copy of warp w, on its core, that is still to set flags: one that converts and is in the engine (R191). -/
def State.converts (s : State) (w core : Nat) : Bool := (s.core core).copies.any fun c => c.w == w && c.cnv != .no

/-- A copy of the issuing warp is still to set flags. -/
def State.converting (s : State) (x : Iss) : Bool := s.converts x.w x.wp.core

/-- An arrival: a release point, which also waits for the flags that the warp's copies are still to set (R109, R168). -/
def Iss.arrives (x : Iss) (s : State) (i : Instr) (go : State → State) : State :=
  if s.converting x then s.block x i .drain [] else x.released s i go

/-- A barrier instruction in a task warp raises ILLEGAL with INFO 6 (R271, R278). -/
def taskBar (x : Iss) : Option FRec := x.illegalIf 6 x.wp.isTask

/-- What a warp that has neither arrived nor an ended phase does raises ILLEGAL with INFO 9 (R317, R321). -/
def noPhase (n : BitVec 4) (x : Iss) (_ : State) : Option FRec :=
  (taskBar x).or (x.illegalIf 9 (!(x.wp.bar n.toNat).arr && !(x.wp.bar n.toNat).done))

/-- The effect of bar: the arrival is a release point (R317). -/
def barEffect (i : Instr) (n : BitVec 4) (x : Iss) (s : State) : State :=
  let k := x.wp.bar n.toNat
  if !k.arr && !k.done then
    x.arrives s i fun s => barWaitOrDone i n.toNat x (s.barArrive x.w x.wp.gid n.toNat)
  else barWaitOrDone i n.toNat x s

/-- bar (R317). -/
def execBar (c : Ctl) (b : BitVec 4) (s : State) : Host.Outcome State Fault Refusal :=
  issueWord (.bar c b) s noEmpty (fun x _ => taskBar x) (barEffect (.bar c b) b)

/-- bar.arrive with DONE set raises ILLEGAL with INFO 10 (R317, R321). -/
def barArrivePre (n : BitVec 4) (x : Iss) (_ : State) : Option FRec :=
  (taskBar x).or (x.illegalIf 10 (x.wp.bar n.toNat).done)

/-- The effect of bar.arrive; one that waited for its release point and finds the phase ended meanwhile raises ILLEGAL like
any other (R317). -/
def barArriveEffect (i : Instr) (n : BitVec 4) (x : Iss) (s : State) : State :=
  match barArrivePre n x s with
  | some f => s.raise x f f.info
  | none => x.arrives s i fun s => (s.barArrive x.w x.wp.gid n.toNat).retire x

/-- bar.arrive (R317). -/
def execBarArrive (c : Ctl) (b : BitVec 4) (s : State) : Host.Outcome State Fault Refusal :=
  issueWord (.barArrive c b) s noEmpty (barArrivePre b) (barArriveEffect (.barArrive c b) b)

/-- The effect of bar.wait (R317). -/
def barWaitEffect (i : Instr) (n : BitVec 4) (x : Iss) (s : State) : State := barWaitOrDone i n.toNat x s

/-- bar.wait (R317). -/
def execBarWait (c : Ctl) (b : BitVec 4) (s : State) : Host.Outcome State Fault Refusal :=
  issueWord (.barWait c b) s noEmpty (noPhase b) (barWaitEffect (.barWait c b) b)

/-- The effect of bar.test: it never blocks and never traps. A true result consumes the phase, with the instructions of the
warp that wait for it (R317). -/
def barTestEffect (gd : BitVec 3) (n : BitVec 4) (x : Iss) (s : State) : State :=
  let k := x.wp.bar n.toNat
  let put (v : Bool) (s : State) : State := (s.onLanes x.w x.m fun _ ln => ln.setG gd v).retire x
  if k.done then
    match (s.barWaits x.w n.toNat).filterMap fun q => (s.issWait q).map fun y => (q, y) with
    | [] => put true (s.barConsume x.w x.wp.core x.g.world n.toNat)
    | (_, y) :: qs => (put true s).barDone n.toNat k.trp y (qs.map fun e => e.1)
  else put false s

/-- bar.test (R317). -/
def execBarTest (c : Ctl) (g : BitVec 3) (b : BitVec 4) (s : State) : Host.Outcome State Fault Refusal :=
  issueWord (.barTest c g b) s noEmpty (noPhase b) (barTestEffect g b)

/-- The count that barset takes (R318). -/
def barCount (d : Dst) (x : Iss) (s : State) : Nat := (x.reg s (lowLane x.m) d 0).toNat

/-- barset of barrier 0 raises ILLEGAL with INFO 11, and a count of 0 or above GROUPW with INFO 12 (R318, R321). -/
def barsetPre (n : BitVec 4) (d : Dst) (x : Iss) (s : State) : Option FRec :=
  (taskBar x).or ((x.illegalIf 11 (n == 0)).or
    (x.illegalIf 12 (decide (barCount d x s = 0) || decide (x.ln.rc.groupw < barCount d x s))))

/-- The effect of barset (R318). -/
def barsetEffect (n : BitVec 4) (d : Dst) (x : Iss) (s : State) : State :=
  let v := barCount d x s
  let k := s.bar x.g n.toNat
  let put (k : BarG) : State := s.onGroup x.wp.gid fun g => { g with bars := g.bars.put n.toNat k }
  let s := if k.cnt = 0 then (put { k with exp := v }).barTest x.wp.gid n.toNat else put { k with held := some v }
  s.retire x

/-- barset (R318). -/
def execBarset (c : Ctl) (b : BitVec 4) (n : Dst) (s : State) : Host.Outcome State Fault Refusal :=
  issueWord (.barset c b n) s noEmpty (barsetPre b n) (barsetEffect b n)

end Sys2Proof.Machine
end

