-- ==== Sys2Proof/Machine/Context.lean ====
section
/-!
DEFINITION. trap, bkpt, rfe, flagrd, flagclr, csrr and csrw (R225 to R227).
-/

namespace Sys2Proof.Machine

/-- The effect of trap: every lane of M takes TRAP with its code (R206, R207, R226). -/
def trapEffect (code : BitVec 12) (x : Iss) (s : State) : State :=
  s.raise x (x.flt 15 x.m 0 code.toNat) code.toNat

/-- trap (R226). -/
def execTrap (c : Ctl) (code : BitVec 12) (s : State) : Host.Outcome State Fault Refusal :=
  issueWord (.trap c code) s noEmpty noPre (trapEffect code)

/-- The effect of bkpt: every lane of M takes BKPT, and the group stops (R226). -/
def bkptEffect (x : Iss) (s : State) : State := s.raise x (x.flt 16 x.m 0 0) 0

/-- bkpt (R226). -/
def execBkpt (c : Ctl) (s : State) : Host.Outcome State Fault Refusal := issueWord (.bkpt c) s noEmpty noPre bkptEffect

/-- The effect of flagrd; it waits for the warp's matrix-port instructions (R226, R324). -/
def flagrdEffect (i : Instr) (d : Dst) (x : Iss) (s : State) : State :=
  if x.wp.matOut = 0 then oneEffect .variable d 1 (fun x _ => Res.of x.g.gflags.toNat) x s else s.block x i .flag []

/-- flagrd (R226). -/
def execFlagrd (c : Ctl) (d : Dst) (s : State) : Host.Outcome State Fault Refusal :=
  issueWord (.flagrd c d) s noEmpty noPre (flagrdEffect (.flagrd c d) d)

/-- The flags that lane l of an access has reported, and those that it may yet report, are cleared (R109). -/
def Txn.clear (t : Txn) (f : BitVec 3) (l : Nat) : Txn :=
  { t with flags := t.flags.setD l (t.flags.getD l 0 &&& ~~~f) 0, mute := t.mute.setD l (t.mute.getD l 0 ||| f) 0 }

/-- The effect of flagclr: the named flags are cleared, and so are the sets on their way of the instructions that precede it:
atomics and reductions of its threads in flight, and the copies of the group, which a tqpush, a vput or a cntsig of their warp may
have ordered before it. DESIGN CHOICE: a copy of another thread that nothing orders is cleared too, one of the two outcomes that R109
allows (R109, R226; log 123). -/
def flagclrEffect (f : BitVec 3) (x : Iss) (s : State) : State :=
  let s := s.onGroup x.wp.gid fun g => { g with gflags := g.gflags &&& ~~~f }
  let s := { s with txns := s.txns.mapV fun _ t => if t.w = x.w then (maskLanes x.m).foldl (fun t l => t.clear f l) t else t }
  let clear (y : Copy) : Copy := if y.gid = x.wp.gid then { y with mute := y.mute ||| f } else y
  ({ s with cores := s.cores.mapV fun _ c => { c with copies := c.copies.map clear } }).retire x

/-- flagclr (R226). -/
def execFlagclr (c : Ctl) (f : BitVec 3) (s : State) : Host.Outcome State Fault Refusal :=
  issueWord (.flagclr c f) s noEmpty noPre (flagclrEffect f)

/-! ### Control registers (R17, R225) -/

/-- DEVINFO (R17). -/
def State.devinfo (s : State) : Nat := 0x0ad1 * 2 ^ 48 + Config.step.toNat * 2 ^ 40 + s.clusterOk.toNat

/-- SPARESTAT (R17). -/
def State.sparestat (s : State) : Nat :=
  s.spares.getD 0 0 % 16 + s.spares.getD 1 0 % 16 * 2 ^ 4 + s.spares.getD 2 0 % 16 * 2 ^ 8 + s.spares.getD 3 0 % 16 * 2 ^ 12

/-- CTXINFO of a world (R225). DESIGN CHOICE: PART of the hypervisor's world, which no CONFIGURE loads, reads 0 (log 127). -/
def State.ctxinfo (s : State) (world : Nat) : Nat :=
  let c := s.ctxs.find world
  world + (c.map fun k => k.part % 32).getD 0 * 2 ^ 32 + (if world = 1024 then 2 ^ 46 else 0) +
    (if (c.map fun k => k.prot).getD false then 2 ^ 47 else 0)

/-- Slots of the Caldera store that are not FREE (R222). -/
def State.slotsHeld (s : State) : Nat := (s.slots.filter fun e => e.2.st != .free).length

/-- CALDSTAT (R225). -/
def State.caldstat (s : State) : Nat := (s.nslots - s.slotsHeld) * 2 ^ 32 + s.nslots

/-- The value of a control register as a warp reads it (R225). -/
def csrVal (r : BitVec 12) (x : Iss) (s : State) : Nat :=
  if r = 0x000 then s.devinfo
  else if r = 0x001 then s.sparestat
  else if r = 0x010 then s.ctxinfo x.g.world
  else if r = 0x020 then x.wp.trapcause.toNat
  else if r = 0x021 then x.wp.trapaddr.toNat
  else if r = 0x022 then x.g.traparm.toNat
  else s.caldstat

/-- A privileged register raises PRIV outside the hypervisor world (R52, R225). -/
def csrrPre (r : BitVec 12) (x : Iss) (_ : State) : Option FRec :=
  if r = 0x100 ∧ x.g.world ≠ 1024 then some (x.flt 2 x.m 0 0) else none

/-- The effect of csrr (R225). -/
def csrrEffect (r : BitVec 12) (d : Dst) (x : Iss) (s : State) : State :=
  oneEffect .variable d 2 (fun x s => Res.of (csrVal r x s)) x s

/-- csrr (R226). -/
def execCsrr (c : Ctl) (r : BitVec 12) (d : Dst) (s : State) : Host.Outcome State Fault Refusal :=
  issueWord (.csrr c r d) s noEmpty (csrrPre r) (csrrEffect r d)

/-- The effect of csrw: TRAPARM takes bits 1:0 (R225, R226). -/
def csrwEffect (a : Dst) (x : Iss) (s : State) : State :=
  let v := x.reg64 s (lowLane x.m) a 0
  (s.onGroup x.wp.gid fun g => { g with traparm := v.setWidth 2 }).retire x

/-- csrw (R226). -/
def execCsrw (c : Ctl) (r : BitVec 12) (a : Dst) (s : State) : Host.Outcome State Fault Refusal :=
  issueWord (.csrw c r a) s noEmpty noPre (csrwEffect a)

/-- rfe raises ILLEGAL with INFO 1 where a lane of M is not in handler state (R227). -/
def rfePre (x : Iss) (_ : State) : Option FRec := x.illegalIn 1 fun l => !(x.wp.lane l).hs

/-- The effect of rfe (R227). -/
def rfeEffect (x : Iss) (s : State) : State := s.retireTo x fun _ ln => rfeLane ln

/-- rfe (R227). -/
def execRfe (c : Ctl) (s : State) : Host.Outcome State Fault Refusal := issueWord (.rfe c) s noEmpty rfePre rfeEffect

end Sys2Proof.Machine
end

