-- ==== Sys2Proof/Machine/Scratch.lean ====
section
/-!
DEFINITION. Scratchpad loads and stores with full-empty bits: ldsp, stsp, feget, feset and feclr (R149, R173, R179, R180).
-/

namespace Sys2Proof.Machine

/-- Bytes of a group's scratchpad share on one core (R20, R248). -/
def Iss.share (x : Iss) : Nat := x.ln.rc.sp * 16384

/-- The place of a scratchpad offset among the group's bytes: the tier of a pair in bit 19 (R149). -/
def Iss.spPlace (x : Iss) (off : Nat) : Nat :=
  (if x.g.pair then (x.wp.tier + off / 2 ^ 19) % 2 * 2 ^ 19 else 0) + off % 2 ^ 19

/-- An offset that raises ALIGN for an access of n bytes (R173). -/
def Iss.spBad (x : Iss) (off n align : Nat) : Bool :=
  decide (2 ^ 20 ≤ off) || decide (x.share < off % 2 ^ 19 + n) || (decide (2 ^ 19 ≤ off) && !x.g.pair) ||
    off % align != 0

/-- Checks the scratchpad offsets of M, and goes on where every lane passes (R173, R174, R221). -/
def Iss.spChecked (x : Iss) (s : State) (n align : Nat) (f : Nat → Nat) (go : State → State) : State :=
  let bad (l : Nat) : Bool := x.spBad (f l) n align
  match (maskLanes x.m).find? bad with
  | some l => s.raise x (x.flt 6 (x.failing bad) (f l) 0) 0
  | none => go s

/-- n bytes of the scratchpad at an offset, as a little-endian value. -/
def Iss.spNat (x : Iss) (off n : Nat) : Nat := leNat ((upTo (x.spPlace off) n).map fun a => x.g.spad.getD a 0)

/-- Writes bytes of the scratchpad. -/
def spWrite (t : Tbl Byte) : Nat → List Byte → Tbl Byte
  | _, [] => t
  | a, b :: bs => spWrite (t.setD a b 0) (a + 1) bs

/-- The granule of an offset (R178, R179). -/
def Iss.granule (x : Iss) (off : Nat) : Nat := x.spPlace off / 16

/-- Sets the full-empty bits of granules. -/
def feSets (t : Tbl Bool) (gs : List Nat) (b : Bool) : Tbl Bool := gs.foldl (fun t k => t.setD k b false) t

/-- Writes the full-empty bits of the lanes' granules. -/
def Iss.setFe (x : Iss) (s : State) (f : Nat → Nat) (b : Bool) : State :=
  s.onGroup x.wp.gid fun g => { g with fe := feSets g.fe ((maskLanes x.m).map fun l => x.granule (f l)) b }

/-- Every granule that the lanes of M name is full (R180). -/
def Iss.allFull (x : Iss) (f : Nat → Nat) : Bool := (maskLanes x.m).all fun l => x.g.fe.getD (x.granule (f l)) false

/-- The register value of a scratchpad load in a lane (R89, R179). -/
def Iss.spVal (x : Iss) (t : Ty) (n : Cnt) (off : Nat) : Nat :=
  let v := x.spNat off (accSize t n)
  if accRegs t n = 1 then tyExt t v else v

/-- The offsets of an instruction in each lane, read once. -/
def Iss.offs (x : Iss) (s : State) (a : Src) (off : BitVec 20) : Nat → Nat := fun l => x.spOff s l a off

/-- A load that reads: its registers are written and held by the scoreboard until the result comes (R179; log 7). -/
def ldspRead (t : Ty) (n : Cnt) (fe clr : Bool) (d : Dst) (f : Nat → Nat) (x : Iss) (s : State) : State :=
  let s1 := s.holdD x d (accRegs t n)
  let s2 := match d with
    | .v i => s1.onLanes x.w x.m fun l ln => ln.setVs i.toNat (accRegs t n) (x.spVal t n (f l))
    | .k i => s1.onWarp x.w fun wp => wp.setKs i.toNat (accRegs t n) (x.spVal t n (f (lowLane x.m)))
  let s3 := if clr then x.setFe s2 f false else s2
  let s4 := if fe then s3.acquire x.wp.core x.g.world else s3
  s4.retire x

/-- The effect of ldsp: with .fe, it waits until every granule is full at once (R180). -/
def ldspEffect (i : Instr) (t : Ty) (n : Cnt) (fe clr : Bool) (d : Dst) (a : Src) (off : BitVec 20) (x : Iss)
    (s : State) : State :=
  let f := x.offs s a off
  x.spChecked s (accSize t n) (accSize t n) f fun s =>
    if fe && !x.allFull f then s.block x i .fe [] else ldspRead t n fe clr d f x s

/-- ldsp (R179, R180). -/
def execLdsp (c : Ctl) (t : Ty) (n : Cnt) (fe clr : Bool) (d : Dst) (a : Src) (off : BitVec 20) (s : State) :
    Host.Outcome State Fault Refusal :=
  issueWord (.ldsp c t n fe clr d a off) s noEmpty noPre (ldspEffect (.ldsp c t n fe clr d a off) t n fe clr d a off)

/-- Scratchpad stores to the other tier are counted until they are acknowledged: of stsp, feset and feclr, which write. DESIGN CHOICE
(log 31): R179 counts accesses and R168 stores; ldsp and feget, which wait for their answer themselves, are not counted. -/
def Iss.countFar (x : Iss) (s : State) (i : Instr) (f : Nat → Nat) : State :=
  let k := ((maskLanes x.m).filter fun l => decide (2 ^ 19 ≤ f l)).length
  if k = 0 then s else (s.launchTxn x i .store [] k none).2

/-- The writes of stsp, lanes in ascending order, and with .fe the granules set full (R179). -/
def stspWrite (i : Instr) (t : Ty) (n : Cnt) (fe : Bool) (d : Dst) (f : Nat → Nat) (x : Iss) (s : State) : State :=
  let s1 := s.onGroup x.wp.gid fun g =>
    { g with spad := (maskLanes x.m).foldl (fun m l =>
        spWrite m (x.spPlace (f l)) (x.storeBytes s l d (accRegs t n) (accSize t n))) g.spad }
  let s2 := if fe then x.setFe s1 f true else s1
  (x.countFar s2 i f).retire x

/-- The effect of stsp; with .fe it is a release point (R179). -/
def stspEffect (i : Instr) (t : Ty) (n : Cnt) (fe : Bool) (d : Dst) (a : Src) (off : BitVec 20) (x : Iss) (s : State) :
    State :=
  let f := x.offs s a off
  x.spChecked s (accSize t n) (accSize t n) f fun s =>
    if fe then x.released s i (stspWrite i t n fe d f x) else stspWrite i t n fe d f x s

/-- stsp (R179). -/
def execStsp (c : Ctl) (t : Ty) (n : Cnt) (fe : Bool) (d : Dst) (a : Src) (off : BitVec 20) (s : State) :
    Host.Outcome State Fault Refusal :=
  issueWord (.stsp c t n fe d a off) s noEmpty noPre (stspEffect (.stsp c t n fe d a off) t n fe d a off)

/-- The effect of feget (R179). -/
def fegetEffect (d : Dst) (a : Src) (off : BitVec 20) (x : Iss) (s : State) : State :=
  let f := x.offs s a off
  x.spChecked s 1 1 f fun s =>
    ((s.holdD x d 1).putEach x.w x.m d 1 fun l => bitOf (x.g.fe.getD (x.granule (f l)) false)).retire x

/-- feget (R179). -/
def execFeget (c : Ctl) (d : Dst) (a : Src) (off : BitVec 20) (s : State) : Host.Outcome State Fault Refusal :=
  issueWord (.feget c d a off) s noEmpty noPre (fegetEffect d a off)

/-- The granules of feset are set full, and it retires (R179). -/
def fesetGo (i : Instr) (f : Nat → Nat) (x : Iss) (s : State) : State :=
  (x.countFar (x.setFe s f true) i f).retire x

/-- The effect of feset: a release point (R179). -/
def fesetEffect (i : Instr) (a : Src) (off : BitVec 20) (x : Iss) (s : State) : State :=
  let f := x.offs s a off
  x.spChecked s 1 1 f fun s => x.released s i (fesetGo i f x)

/-- feset (R179). -/
def execFeset (c : Ctl) (a : Src) (off : BitVec 20) (s : State) : Host.Outcome State Fault Refusal :=
  issueWord (.feset c a off) s noEmpty noPre (fesetEffect (.feset c a off) a off)

/-- The effect of feclr (R179). -/
def feclrEffect (i : Instr) (a : Src) (off : BitVec 20) (x : Iss) (s : State) : State :=
  let f := x.offs s a off
  x.spChecked s 1 1 f fun s => (x.countFar (x.setFe s f false) i f).retire x

/-- feclr (R179). -/
def execFeclr (c : Ctl) (a : Src) (off : BitVec 20) (s : State) : Host.Outcome State Fault Refusal :=
  issueWord (.feclr c a off) s noEmpty noPre (feclrEffect (.feclr c a off) a off)

end Sys2Proof.Machine
end

