-- ==== Sys2Proof/Machine/Copy.lean ====
section
/-!
DEFINITION. The copy engine: tcopy and tcwait (R189 to R194), and what a copy does (R191, R193).
-/

namespace Sys2Proof.Machine

/-! ### Limits (R189) -/

/-- The count is outside its limits (R189). -/
def cnvBad (c : Cnv) (n : Nat) : Bool :=
  match c with
  | .no => decide (n < 16) || decide (524288 < n) || n % 16 != 0
  | .dqBf16 | .dqF16 => decide (n < 64) || decide (16384 < n) || n % 64 != 0
  | .cvBf16 => decide (n < 32) || decide (1048576 < n) || n % 32 != 0
  | .cvF32 => decide (n < 16) || decide (262144 < n) || n % 16 != 0

/-- Global bytes of a copy of count n (R104, R189). -/
def cnvGlobal (c : Cnv) (n : Nat) : Nat :=
  match c with
  | .dqBf16 | .dqF16 => 64 + n / 64 + 32 * (n / 64)
  | _ => n

/-- Scratchpad bytes of a copy of count n (R189). -/
def cnvScratch (c : Cnv) (n : Nat) : Nat :=
  match c with
  | .no => n
  | .dqBf16 | .dqF16 => 2 * n
  | .cvBf16 => n / 2
  | .cvF32 => 2 * n

/-- The alignment of the global address (R189). -/
def cnvAlign : Cnv → Nat
  | .dqBf16 | .dqF16 => 64
  | _ => 16

/-- The count, address or offset that is outside its limits, first in the order of R189: the value for ADDR. -/
def copyBad (x : Iss) (c : Cnv) (so va n : Nat) : Option Nat :=
  if cnvBad c n then some n
  else if va % cnvAlign c ≠ 0 then some va
  else if x.spBad so (cnvScratch c n) 16 then some so
  else none

/-! ### Issue (R190) -/

/-- The first address of each page that a range touches. -/
def pagesOf (va n : Nat) : List Nat :=
  va :: (upTo (va / 4096 + 1) ((va + n - 1) / 4096 - va / 4096)).map fun p => p * 4096

/-- The physical page of each translated page. -/
def pageBases (rs : List LReq) : List Nat :=
  rs.map fun r => match r.tr with
    | .loc h => h.pa / 4096 * 4096
    | _ => 0

/-- The copy is accepted and the instruction retires; one issued while 32 are outstanding holds its warp (R190). A source
or destination in an ABSENT Sinter tile forces its fetch (R191). -/
def copyAccept (i : Instr) (out shd : Bool) (tag : BitVec 4) (cnv : Cnv) (so va n : Nat) (x : Iss) (rs : List LReq)
    (s : State) : State :=
  if 32 ≤ (s.core x.wp.core).copies.length then s.block x i .copySlot []
  else
    let (id, s) := s.newId
    let cp : Copy := ⟨id, x.w, x.wp.gid, x.g.world, out, shd, tag.toNat, cnv, x.spPlace so, va, n, pageBases rs,
      (rs.filter LReq.sm).map LReq.va, [], 0⟩
    let s := rs.foldl (fun s r => if r.sm then s.forceTile x.g.world r.va else s) s
    let s := s.onCore x.wp.core fun c => { c with copies := c.copies ++ [cp] }
    let s := s.onWarp x.w fun wp =>
      let t := wp.tags.getD tag.toNat Tag.idle
      { wp with
        tags := wp.tags.setD tag.toNat { t with out := t.out + 1 } Tag.idle
        shd := if shd then wp.shd + 1 else wp.shd }
    s.retire x

/-- The effect of tcopy: its limits, then every page, then the wait for the warp's accesses (R189, R190, R162). -/
def tcopyEffect (i : Instr) (out shd : Bool) (tag : BitVec 4) (cnv : Cnv) (d a b : Dst) (x : Iss) (s : State) : State :=
  let l := lowLane x.m
  let so := (x.reg s l d 0).toNat
  let va := (x.reg64 s l a 0).toNat
  let n := (x.reg s l b 0).toNat
  match copyBad x cnv so va n with
  | some v => s.raise x (x.flt 6 x.m v 0) 0
  | none =>
    let (rs, s1) := x.trAll 1 (if out then .w else .r) false shd ((pagesOf va (cnvGlobal cnv n)).map fun p => (l, p)) s
    match heldOf rs with
    | some pa => s1.block x i .drain [(1, pa), (2, 0)]
    | none =>
      match worstOf rs with
      | some (f, v) => s1.raise x (x.memFault f x.m v) 0
      | none => x.released (x.noteHits out rs s1) i (copyAccept i out shd tag cnv so va n x rs)

/-- tcopy (R189 to R191). -/
def execTcopy (c : Ctl) (out shd : Bool) (tag : BitVec 4) (cnv : Cnv) (d a b : Dst) (s : State) :
    Host.Outcome State Fault Refusal :=
  issueWord (.tcopy c out shd tag cnv d a b) s noEmpty noPre
    (tcopyEffect (.tcopy c out shd tag cnv d a b) out shd tag cnv d a b)

/-- The copies that a tcwait waits for: those that the warp issued with the tag before it, so that one which waits already names its
own (R192). -/
def Iss.tcopies (x : Iss) (s : State) (tag : BitVec 4) : List Nat :=
  let mine := (s.core x.wp.core).copies.filter fun c => c.w == x.w && c.tag == tag.toNat
  let ids := mine.map Copy.id
  match x.q.bind s.waits.find with
  | some y => ids.filter fun n => (y.stat.find n).isSome
  | none => ids

/-- The effect of tcwait: once its copies have left the engine it returns, or raises the failure that the tag keeps; that the fault
is taken clears the failure (R192, R193). -/
def tcwaitEffect (i : Instr) (tag : BitVec 4) (x : Iss) (s : State) : State :=
  let ids := x.tcopies s tag
  if ids ≠ [] then s.block x i .tcwait (ids.map fun n => (n, 1))
  else
    match (x.wp.tags.getD tag.toNat Tag.idle).fail with
    | none => (s.acquire x.wp.core x.g.world).retire x
    | some (cls, off) => s.raiseWith x (x.flt cls x.m 0 (tag.toNat * 2 ^ 28 + off)) 0 none (some tag.toNat)

/-- tcwait (R192, R193). -/
def execTcwait (c : Ctl) (tag : BitVec 4) (s : State) : Host.Outcome State Fault Refusal :=
  issueWord (.tcwait c tag) s noEmpty noPre (tcwaitEffect (.tcwait c tag) tag)

/-! ### What a copy does (R191, R193) -/

/-- What a unit of a copy counts: source bytes, or elements of a superblock (R193). -/
def Copy.step (c : Copy) : Nat :=
  match c.cnv with
  | .dqBf16 | .dqF16 => 64
  | .cvBf16 => 32
  | _ => 16

/-- Units of a copy. -/
def Copy.count (c : Copy) : Nat := c.n / c.step

/-- The physical address of byte off of the global range. -/
def Copy.pa (c : Copy) (off : Nat) : Nat :=
  c.pas.getD ((c.va + off) / 4096 - c.va / 4096) 0 + (c.va + off) % 4096

/-- Byte offsets and lengths of the global range that unit i reads or writes (R104). -/
def Copy.parts (c : Copy) (i : Nat) : List (Nat × Nat) :=
  let nb := c.n / 64
  match c.cnv with
  | .dqBf16 | .dqF16 => [(0, 4), (64 + i, 1), (64 + nb + 32 * i, 32)]
  | _ => (upTo 0 (c.step / 16)).map fun j => (c.step * i + 16 * j, 16)

/-- The class of a tile whose fetch failed for a copy (R359). -/
def Copy.tileErr (c : Copy) (off : Nat) : Option Nat :=
  (c.bad.find? fun e => e.1 == (c.va + off) / 65536).map fun e => e.2

/-- The error reply that unit i meets, if any (R176, R193). -/
def State.copyErr (s : State) (c : Copy) (i : Nat) : Option Nat :=
  (c.parts i).findSome? fun p =>
    if (c.tileErr p.1).isSome then c.tileErr p.1
    else if (c.tileErr (p.1 + p.2 - 1)).isSome then c.tileErr (p.1 + p.2 - 1)
    else
      match s.replyErr c.world (c.pa p.1) with
      | some k => some k
      | none => s.replyErr c.world (c.pa (p.1 + p.2 - 1))

/-- The first unit that meets an error reply, from unit i on, n units left. -/
def State.copyFirst (s : State) (c : Copy) : Nat → Nat → Option (Nat × Nat)
  | _, 0 => none
  | i, n + 1 =>
    match s.copyErr c i with
    | some k => some (i, k)
    | none => State.copyFirst s c (i + 1) n

/-- The granules of a part are scrubbed, and its lines filled in L2, before it is read (R364, R169). -/
def State.partFirst (s : State) (c : Copy) (p : Nat × Nat) : State :=
  let (a, b) := (c.pa p.1, c.pa (p.1 + p.2 - 1))
  (((s.scrubFirst c.world a).scrubFirst c.world b).touchL2 c.world a 0 .no .no).touchL2 c.world b 0 .no .no

/-- Bytes of the global range, scrubbed first where they must be (R364). -/
def State.copyRead (s : State) (c : Copy) (off n : Nat) : List Byte :=
  (upTo off n).map fun o =>
    let pa := c.pa o
    if s.unscr pa then 0 else s.hbmByte (s.key c.world).key pa

/-- The FP32 patterns of little-endian bytes, w bytes each. -/
def wordsOf (w : Nat) : Nat → List Byte → List Nat
  | 0, _ => []
  | n + 1, bs => leNat (bs.take w) :: wordsOf w n (bs.drop w)

/-- The scratchpad bytes that unit i of an .in copy produces, and the flags it sets (R105, R191). -/
def State.copyConv (s : State) (c : Copy) (i : Nat) : List Byte × BitVec 3 :=
  let join (w : Nat) (rs : List Res) : List Byte × BitVec 3 :=
    (rs.flatMap fun r => leBytes w r.val, rs.foldl (fun f r => f ||| r.fl) 0)
  match c.cnv with
  | .no => (s.copyRead c (16 * i) 16, 0)
  | .cvBf16 => join 2 ((wordsOf 4 8 (s.copyRead c (32 * i) 32)).map (cvtFF .bf16 .f32 .rn))
  | .cvF32 => join 4 ((wordsOf 2 8 (s.copyRead c (16 * i) 16)).map (cvtFF .f32 .bf16 .rn))
  | k =>
    let sc := leNat (s.copyRead c 0 4)
    let cc := leNat (s.copyRead c (64 + i) 1)
    let qs := s.copyRead c (64 + c.n / 64 + 32 * i) 32
    let dt := if k = .dqBf16 then Ty.bf16 else .f16
    join 2 ((upTo 0 64).map fun e =>
      let b := (qs.getD (e / 2) 0).toNat
      let v := nqValue (if e % 2 = 0 then b % 16 else b / 16) cc sc
      let r := cvtFF dt .f32 .rn v.val
      ⟨r.val, v.fl ||| r.fl⟩)

/-- Scratchpad bytes per unit. -/
def Copy.spStep (c : Copy) : Nat := cnvScratch c.cnv c.step

/-- Runs unit i of a copy (R191). -/
def State.copyUnit (s : State) (c : Copy) (i : Nat) : State :=
  let place := c.soff + c.spStep * i
  if c.out then
    match s.groups.find c.gid with
    | none => s
    | some g =>
      let bs := (upTo place 16).map fun a => g.spad.getD a 0
      let pa := c.pa (16 * i)
      let s := (s.scrubFirst c.world pa).hbmMerge (s.key c.world).key pa bs
      (s.touchL2 c.world pa bs.length .no .no).notifyWrite pa
  else
    let s := (c.parts i).foldl (fun s p => s.partFirst c p) s
    let (bs, fl) := s.copyConv c i
    (s.onGroup c.gid fun g =>
      { g with
        spad := spWrite g.spad place bs
        fe := feSets g.fe (upTo (place / 16) (c.spStep / 16)) true }).orFlags c.gid (fl &&& ~~~c.mute)

/-- Runs the first k units of a copy, lowest first. -/
def State.copyUnits (s : State) (c : Copy) (k : Nat) : State := (upTo 0 k).foldl (fun s i => s.copyUnit c i) s

/-- The copy leaves the engine, and its tag counts one less; a failure is kept with the tag (R193), in place of an earlier one
that no tcwait has reported (log 80). -/
def State.copyGone (s : State) (core : Nat) (c : Copy) (fail : Option (Nat × Nat)) : State :=
  let s := s.onCore core fun k => { k with copies := k.copies.filter fun e => e.id != c.id }
  s.onWarp c.w fun wp =>
    let t := wp.tags.getD c.tag Tag.idle
    let f := match fail with
      | some r => some r
      | none => t.fail
    { wp with
      tags := wp.tags.setD c.tag ⟨t.out - 1, f⟩ Tag.idle
      shd := if c.shd then wp.shd - 1 else wp.shd }

/-- The core whose engine holds a copy at its head, with the copy (R190). -/
def State.copyHead (s : State) (y : Nat) : Option (Nat × Copy) :=
  s.cores.findSome? fun e => match e.2.copies with
    | c :: _ => if c.id = y then some (e.1, c) else none
    | [] => none

/-- Nothing holds back a byte of the global range: its tile is RESIDENT and its die is not quiescing (R191, R378). -/
def State.copyByteFree (s : State) (core : Nat) (c : Copy) (off : Nat) : Bool :=
  let page := if (c.va + off) / 4096 = c.va / 4096 then c.va else (c.va + off) / 4096 * 4096
  !s.away (coreDie core) (c.pa off) &&
    (!c.sms.contains page || match s.tileAt c.world page with
      | some (_, _, t) => t.st == .resident
      | none => true)

/-- Nothing holds back the first k units of a copy. -/
def State.copyFree (s : State) (core : Nat) (c : Copy) (k : Nat) : Bool :=
  (upTo 0 k).all fun i => (c.parts i).all fun p => s.copyByteFree core c p.1 && s.copyByteFree core c (p.1 + p.2 - 1)

/-- A copy completes whole (R191). -/
def State.copyComplete (s : State) (y : Nat) : State :=
  match s.copyHead y with
  | none => s
  | some (core, c) =>
    if s.copyFree core c c.count && (s.copyFirst c 0 c.count).isNone then (s.copyUnits c c.count).copyGone core c none else s

/-- A copy stops at the first unit that meets an error reply (R193). -/
def State.copyStop (s : State) (y : Nat) : State :=
  match s.copyHead y with
  | none => s
  | some (core, c) =>
    match s.copyFirst c 0 c.count with
    | none => s
    | some (i, cls) => if s.copyFree core c i then (s.copyUnits c i).copyGone core c (some (cls, c.step * i)) else s

end Sys2Proof.Machine
end

