-- ==== Sys2Proof/Machine/Task.lean ====
section
/-!
DEFINITION. Tasks (R264 to R281): spawn, fmark, await, tret, tidx and tstat; inline execution; how a lane ends; and exit
(R307), which ends lanes too.
-/

namespace Sys2Proof.Machine

/-! ### Inline execution (R272) -/

/-- A lane starts an inline run of [lo, hi): its continuation is pushed, and it goes to the entry (R272); fail and help as
in Cont. -/
def Lane.runInline (ln : Lane) (pc : Dword) (fail help : Bool) (t : Task) : Lane :=
  { ln with
    conts := ⟨pc, ln.mr, ln.g, ln.task, ln.base, fail, help⟩ :: ln.conts
    base := ln.frames.length
    mr := 0
    task := some t
    ending := none
    pc := BitVec.ofNat 64 t.entry }

/-- The task context of an inline run of a record (R264, R272). -/
def TRec.inlineTask (r : TRec) : Task := ⟨r.lo, r.hi, r.slo, r.shi, r.arg, r.entry, r.parent, true⟩

/-! ### spawn (R281) -/

/-- What a lane of spawn asks for. -/
structure SpawnReq where
  lane : Nat
  lo : Nat
  hi : Nat
  arg : Nat
  entry : Nat
deriving DecidableEq, Repr

/-- The operands of a lane. -/
def Iss.spawnReq (x : Iss) (s : State) (d a b : Dst) (l : Nat) : SpawnReq :=
  ⟨l, (x.reg64 s l d 0).toNat, (x.reg64 s l d 2).toNat, (x.reg64 s l a 0).toNat, (x.reg64 s l b 0).toNat⟩

/-- An address is %kbase + 12n for some n (R50). -/
def onGrid (kbase pc : Nat) : Bool := decide (kbase ≤ pc) && (pc - kbase) % 12 == 0

/-- What ALIGN names where a lane's operands are out of bounds: the entry, or else lo (R281). -/
def SpawnReq.bad (r : SpawnReq) (kbase : Nat) : Option Nat :=
  if !onGrid kbase r.entry then some r.entry
  else if r.lo < r.hi ∧ 2 ^ 40 < r.hi - r.lo then some r.lo
  else none

/-- A lane with no frame above its base (R278). -/
def Iss.shut (x : Iss) (l : Nat) : Bool := (x.wp.lane l).own.isEmpty

/-- spawn in such a lane raises ILLEGAL with INFO 2 (R278, R281). -/
def spawnPre (x : Iss) (_ : State) : Option FRec := x.illegalIn 2 x.shut

/-- ALIGN of spawn names what the lowest failing lane has out of bounds (R205, R281). -/
def spawnBad (x : Iss) (rs : List SpawnReq) : Option FRec :=
  match rs.find? fun r => (r.bad x.ln.rc.kbase).isSome with
  | none => none
  | some r =>
    let off (l : Nat) : Bool := rs.any fun q => q.lane == l && (q.bad x.ln.rc.kbase).isSome
    some (x.flt 6 (x.failing off) ((r.bad x.ln.rc.kbase).getD 0) 0)

/-- Records that a core's store holds at most (R264). -/
def storeSize : Nat := 4096

/-- The places of a core's store that are taken: by its records, and by those of groups that are resuming there (R264; log
77). -/
def State.recsTaken (s : State) (n : Nat) : Nat :=
  (s.core n).recs.length + s.slots.foldl (fun k e =>
    match e.2.gid.bind s.groups.find with
    | some g => if e.2.st == .resuming && g.core == n then k + e.2.recs.length else k
    | none => k) 0

/-- The record of a range; its number comes from the die's Halyard (R264). -/
def SpawnReq.toRec (r : SpawnReq) (x : Iss) (seq : Nat) : TRec where
  lo := r.lo
  hi := r.hi
  slo := r.lo
  shi := r.hi
  entry := r.entry
  arg := r.arg
  parent := ⟨x.w, r.lane, (x.wp.lane r.lane).frames.length - 1⟩
  seq := seq
  owner := x.wp.gid
  lid := x.g.lid
  ident := x.wp.ident

/-- spawn in one lane: its frame counts the range, which is entered as a record; where the store is full the lane is
answered, to run it inline (R273, R281). -/
def State.spawnLane (s : State) (x : Iss) (r : SpawnReq) : Option TRec × State :=
  if r.hi ≤ r.lo then (none, s)
  else
    let s := s.onWarp x.w fun wp => wp.setLane r.lane fun ln =>
      { ln with frames := updNth (fun f => { f with count := f.count + (r.hi - r.lo) }) 0 ln.frames }
    let die := coreDie x.wp.core
    let seq := s.hseqs.getD die 0
    let t := r.toRec x seq
    if s.recsTaken x.wp.core < storeSize then
      let s := { s with hseqs := s.hseqs.put die ((seq + 1) % 2 ^ 32) }
      (none, s.onCore x.wp.core fun c => { c with recs := c.recs ++ [t] })
    else (some t, s)

/-- spawn in the lanes of M, lowest first; the lanes that run inline, with their ranges (R281). -/
def State.spawnAll (s : State) (x : Iss) : List SpawnReq → List (Nat × TRec) × State
  | [] => ([], s)
  | r :: rs =>
    let (t, s) := s.spawnLane x r
    let (ts, s) := State.spawnAll s x rs
    match t with
    | none => (ts, s)
    | some t => ((r.lane, t) :: ts, s)

/-- The effect of spawn after its checks and its release point (R273, R281). -/
def spawnGo (x : Iss) (rs : List SpawnReq) (s : State) : State :=
  let (inl, s) := s.spawnAll x rs
  let s := s.retire x
  let s := inl.foldl (fun s e => s.onWarp x.w fun wp =>
    wp.setLane e.1 fun ln => ln.runInline ln.pc false false e.2.inlineTask) s
  if inl.isEmpty then s else (s.acquire x.wp.core x.g.world).settle x.w

/-- The effect of spawn (R281). -/
def spawnEffect (i : Instr) (d a b : Dst) (x : Iss) (s : State) : State :=
  let rs := (maskLanes x.m).map (x.spawnReq s d a b)
  match spawnBad x rs with
  | some f => s.raise x f f.info
  | none => x.released s i (spawnGo x rs)

/-- spawn (R281). -/
def execSpawn (c : Ctl) (d a b : Dst) (s : State) : Host.Outcome State Fault Refusal :=
  issueWord (.spawn c d a b) s noEmpty spawnPre (spawnEffect (.spawn c d a b) d a b)

/-! ### fmark (R265, R281) -/

/-- fmark in a lane that has 8 frames raises ILLEGAL with INFO 3 (R278, R281). -/
def fmarkPre (x : Iss) (_ : State) : Option FRec := x.illegalIn 3 fun l => decide (8 ≤ (x.wp.lane l).frames.length)

/-- The effect of fmark: every lane of M opens a frame (R265). -/
def fmarkEffect (x : Iss) (s : State) : State :=
  (s.onLanes x.w x.m fun _ ln => { ln with frames := ⟨0, 0, false⟩ :: ln.frames }).retire x

/-- fmark (R281). -/
def execFmark (c : Ctl) (s : State) : Host.Outcome State Fault Refusal := issueWord (.fmark c) s noEmpty fmarkPre fmarkEffect

/-! ### await (R275, R281) -/

/-- The innermost frame of a lane is done (R265). -/
def Lane.frameDone (ln : Lane) : Bool :=
  match ln.frames with
  | f :: _ => f.count == 0
  | [] => true

/-- await returns in a lane: d receives FAILED, and the frame is popped (R281). -/
def Lane.awaitPop (ln : Lane) (d : Dst) : Lane :=
  match ln.frames, d with
  | f :: fs, .v i => { ln.setV i.toNat (BitVec.ofNat 32 f.failed) with frames := fs, helped := false }
  | _, _ => ln

/-- await in a lane with no frame above its base raises ILLEGAL with INFO 5 (R278, R281). -/
def awaitPre (x : Iss) (_ : State) : Option FRec := x.illegalIn 5 x.shut

/-- The effect of await: the lanes whose frames are done go on, and the others wait (R281). -/
def awaitEffect (i : Instr) (d : Dst) (x : Iss) (s : State) : State :=
  let ready := x.m &&& maskOf fun l => (x.wp.lane l).frameDone
  let rest := x.m &&& ~~~ready
  let s := s.onLanes x.w ready fun _ ln => ln.awaitPop d
  let s := if ready = 0 then s else s.acquire x.wp.core x.g.world
  if rest = 0 then s.retire x
  else
    let s := s.onLanes x.w (x.act &&& ~~~rest) fun _ ln => { ln with pc := ln.pc + 12 }
    State.block s { x with act := rest, m := rest } i .await []

/-- await (R281). -/
def execAwait (c : Ctl) (d : Dst) (s : State) : Host.Outcome State Fault Refusal :=
  issueWord (.await c d) s noEmpty awaitPre (awaitEffect (.await c d) d)

/-! ### The end of lanes (R266, R276, R307) -/

/-- A lane of a group's own warp exits; the last one frees the warp's blocks, counts at every barrier and may retire the
group (R285, R300, R307, R315). -/
def State.exitLane (s : State) (w l : Nat) : State :=
  let s := (s.onWarp w fun wp => wp.setLane l fun ln =>
    { ln with exited := true, frames := [], ending := none, wait := none }).settle w
  match s.warps.find w with
  | none => s
  | some wp =>
    if wp.over then ((s.dropBlocks w).barExit w wp.gid).retireCheck wp.gid else s

/-- A lane ends: its iteration where it runs one, itself otherwise (R276, R307). -/
def State.laneEnd (s : State) (w l : Nat) (failed : Bool) : State :=
  match s.warps.find w with
  | none => s
  | some wp => if (wp.lane l).task.isSome then s.iterEnd w l failed else s.exitLane w l

/-- A lane may end: its frames above the base are done, and the accesses of its warp too (R168, R276). -/
def Warp.mayEnd (w : Warp) (l : Nat) : Bool := ((w.lane l).own.all fun f => f.count == 0) && w.drained

/-- Lane l of warp w may end now; one that runs no iteration exits, which is an arrival at every barrier and so waits for the
flags that the warp's copies are still to set (R109, R276, R315). -/
def State.canEnd (s : State) (w l : Nat) (wp : Warp) : Bool :=
  wp.mayEnd l && ((wp.lane l).task.isSome || !s.converts w wp.core)

/-- The lanes of M end, each after its frames and the accesses of the warp; the other active lanes advance (R276, R288). -/
def endLanes (i : Instr) (x : Iss) (s : State) : State :=
  let s := s.onLanes x.w (x.act &&& ~~~x.m) fun _ ln => { ln with pc := ln.pc + 12 }
  ((maskLanes x.m).foldl (fun s l => if s.canEnd x.w l x.wp then s.laneEnd x.w l false else s.endWait x.w l false i x.clk)
    s).settle x.w

/-- tret in a lane that runs no iteration raises ILLEGAL with INFO 4 (R278, R281). -/
def tretPre (x : Iss) (_ : State) : Option FRec := x.illegalIn 4 fun l => (x.wp.lane l).task.isNone

/-- tret (R281). -/
def execTret (c : Ctl) (s : State) : Host.Outcome State Fault Refusal :=
  issueWord (.tret c) s noEmpty tretPre (endLanes (.tret c))

/-- exit (R307). -/
def execExit (c : Ctl) (s : State) : Host.Outcome State Fault Refusal :=
  issueWord (.exit c) s noEmpty noPre (endLanes (.exit c))

/-! ### tidx and tstat (R281) -/

/-- The field that tidx reads in a lane; 0 outside a task (R281). -/
def Lane.tfield (ln : Lane) (f : TFld) : Nat :=
  match ln.task, f with
  | none, _ => 0
  | some t, .lo => t.slo
  | some t, .hi => t.shi
  | some t, .arg => t.arg

/-- The effect of tidx (R281). -/
def tidxEffect (f : TFld) (d : Dst) (x : Iss) (s : State) : State :=
  ((s.holdD x d 2).putEach x.w x.m d 2 fun l => (x.wp.lane l).tfield f).retire x

/-- tidx (R281). -/
def execTidx (c : Ctl) (f : TFld) (d : Dst) (s : State) : Host.Outcome State Fault Refusal :=
  issueWord (.tidx c f d) s noEmpty noPre (tidxEffect f d)

/-- A truth value at a bit. -/
def bitIf (b : Bool) (n : Nat) : Nat := if b then 2 ^ n else 0

/-- The tstat word of a lane (R281). -/
def Lane.tstat (ln : Lane) : Nat :=
  let inner := ln.own.head?
  ln.frames.length % 16 * 2 ^ 28 + bitIf ((inner.map fun f => f.count == 0).getD true) 27 + bitIf ln.task.isSome 26 +
    bitIf ((ln.task.map fun t => t.inl).getD false) 25 + bitIf ((inner.map fun f => f.ran).getD false) 24 +
    min ((inner.map fun f => f.failed).getD 0) 0xffff

/-- The effect of tstat (R281). -/
def tstatEffect (d : Dst) (x : Iss) (s : State) : State :=
  ((s.holdD x d 1).putEach x.w x.m d 1 fun l => (x.wp.lane l).tstat).retire x

/-- tstat (R281). -/
def execTstat (c : Ctl) (d : Dst) (s : State) : Host.Outcome State Fault Refusal :=
  issueWord (.tstat c d) s noEmpty noPre (tstatEffect d)

end Sys2Proof.Machine
end

