-- ==== Sys2Proof/Machine/Group.lean ====
section
/-!
DEFINITION. The group instructions (R298 to R311): nop, control transfers, meet, yield, register blocks and vertical
FIFOs.
-/

namespace Sys2Proof.Machine

/-! ### Control transfers (R305, R306) -/

/-- The target of a relative transfer, before it is cut to 64 bits (R305). -/
def target (pc : Dword) (off : BitVec 40) : Int := (pc.toNat : Int) + 12 * off.toInt

/-- The target as an address. -/
def targetPc (pc : Dword) (off : BitVec 40) : Dword := BitVec.ofInt 64 (target pc off)

/-- A lane goes to an address. -/
def Lane.goto (ln : Lane) (pc : Dword) : Lane := { ln with pc := pc }

/-- nop (R307). -/
def execNop (c : Ctl) (s : State) : Host.Outcome State Fault Refusal :=
  issueWord (.nop c) s noEmpty noPre fun x s => s.retire x

/-- Checks a relative target: below %kbase it raises ALIGN, and no lane moves (R305). -/
def Iss.targetOk (x : Iss) (s : State) (off : BitVec 40) (go : State → State) : State :=
  if target x.pc off < (x.ln.rc.kbase : Int) then s.raise x (x.flt 6 x.m (targetPc x.pc off).toNat 0) 0 else go s

/-- The effect of bra (R305). -/
def braEffect (off : BitVec 40) (x : Iss) (s : State) : State :=
  x.targetOk s off fun s => s.retireTo x fun _ ln => ln.goto (targetPc x.pc off)

/-- bra (R305). -/
def execBra (c : Ctl) (off : BitVec 40) (s : State) : Host.Outcome State Fault Refusal :=
  issueWord (.bra c off) s noEmpty noPre (braEffect off)

/-- The effect of call: the link pair receives the next address (R305). -/
def callEffect (d : Dst) (off : BitVec 40) (x : Iss) (s : State) : State :=
  x.targetOk s off fun s =>
    ((s.holdD x d 2).putD x.w x.m d 2 (x.pc + 12).toNat).retireTo x fun _ ln => ln.goto (targetPc x.pc off)

/-- call (R305). -/
def execCall (c : Ctl) (d : Dst) (off : BitVec 40) (s : State) : Host.Outcome State Fault Refusal :=
  issueWord (.call c d off) s noEmpty noPre (callEffect d off)

/-- The effect of brx and ret: each lane of M goes to its own address; bad ones raise ALIGN, with the target of
the lowest such lane (R50, R305). -/
def jumpEffect (a : Dst) (x : Iss) (s : State) : State :=
  let f (l : Nat) : Dword := x.reg64 s l a 0
  let bad (l : Nat) : Bool := !onGrid x.ln.rc.kbase (f l).toNat
  match (maskLanes x.m).find? bad with
  | some l => s.raise x (x.flt 6 (x.failing bad) (f l).toNat 0) 0
  | none => s.retireTo x fun l ln => ln.goto (f l)

/-- brx (R305). -/
def execBrx (c : Ctl) (a : Dst) (s : State) : Host.Outcome State Fault Refusal :=
  issueWord (.brx c a) s noEmpty noPre (jumpEffect a)

/-- ret (R305). -/
def execRet (c : Ctl) (a : Dst) (s : State) : Host.Outcome State Fault Refusal :=
  issueWord (.ret c a) s noEmpty noPre (jumpEffect a)

/-- The effect of meet (R306). -/
def meetEffect (off : BitVec 40) (x : Iss) (s : State) : State :=
  (s.onLanes x.w x.m fun _ ln => { ln with mr := targetPc x.pc off }).retire x

/-- meet (R306). -/
def execMeet (c : Ctl) (off : BitVec 40) (s : State) : Host.Outcome State Fault Refusal :=
  issueWord (.meet c off) s noEmpty noPre (meetEffect off)

/-- The effect of yield: the yield counter is loaded, and the warp stops where a pre-emption request is pending (R295,
R296, R308). -/
def yieldEffect (dl : BitVec 12) (x : Iss) (s : State) : State :=
  (s.onWarp x.w fun wp => { wp with yield := 8 * dl.toNat, stopped := wp.stopped || x.g.preempt }).retire x

/-- yield (R308). -/
def execYield (c : Ctl) (dl : BitVec 12) (s : State) : Host.Outcome State Fault Refusal :=
  issueWord (.yield c dl) s noEmpty noPre (yieldEffect dl)

/-! ### Register blocks (R298 to R300, R309, R310) -/

/-- How many of the eight dynamic blocks a set holds. -/
def blockCount (b : BitVec 8) : Nat := ((upTo 0 8).filter fun i => b.getLsbD i).length

/-- Blocks of the share that a warp uses: its base blocks and its dynamic ones, the kept-back block apart (R298). -/
def Warp.blocks (w : Warp) (regs : Nat) : Nat := regs / 16 + blockCount w.held - bitOf w.emer.isSome

/-- Free blocks of a group's share on a core (R298). -/
def State.freeBlocks (s : State) (gid core : Nat) (rc : LRec) : Nat :=
  rc.rf * 8 - 1 - s.warps.foldl (fun n e =>
    if e.2.gid = gid ∧ e.2.core = core then n + e.2.blocks rc.regs else n) 0

/-- A granted block reads zero in every lane (R300). -/
def Lane.zeroBlock (ln : Lane) (b : Nat) : Lane :=
  { ln with v := ln.v.keep fun i _ => decide (i < 128 + 16 * b) || decide (144 + 16 * b ≤ i) }

/-- The warp holds dynamic block n, zeroed (R309). -/
def State.grantBlock (s : State) (w : Nat) (n : BitVec 3) : State :=
  s.onWarp w fun wp =>
    { wp with held := wp.held ||| BitVec.ofNat 8 (2 ^ n.toNat), lanes := wp.lanes.map fun ln => ln.zeroBlock n.toNat }

/-! ### The block save area (R275, R441) -/

/-- The first byte of the block save area of core n, the i-th of its die (R441). -/
def State.areaOf (s : State) (n : Nat) : Nat :=
  let d := coreDie n
  let i := ((upTo 0 n).filter fun k => coreDie k == d).length
  (d + 1) * 2 ^ 37 - s.nslots * 2 ^ 20 - (i + 1) * 2 ^ 20

/-- Where the area of its core keeps eight registers of a warp, from dynamic register i of lane l on: 128 words for each lane
of each warp place (log 81). -/
def State.areaAt (s : State) (wp : Warp) (l i : Nat) : Nat := s.areaOf wp.core + 4 * ((wp.place * 32 + l) * 128 + i)

/-- The sectors of a set of dynamic blocks in every lane: the lane, and the first of the eight registers, from v128 on. -/
def areaSectors (b : BitVec 8) : List (Nat × Nat) :=
  laneNums.flatMap fun l => ((upTo 0 16).filter fun k => b.getLsbD (k / 2)).map fun k => (l, 8 * k)

/-- The registers of dynamic blocks b of a warp go to the block save area, under the key of its world (R275). -/
def State.toArea (s : State) (w : Nat) (b : BitVec 8) : State :=
  match s.warps.find w with
  | none => s
  | some wp =>
    let key := (s.key (((s.groups.find wp.gid).map fun g => g.world).getD 0)).key
    let s := (areaSectors b).foldl (fun s e =>
      s.hbmMerge key (s.areaAt wp e.1 e.2)
        ((upTo (128 + e.2) 8).flatMap fun i => leBytes 4 ((wp.lane e.1).v.getD i 0).toNat)) s
    s.onWarp w fun wp =>
      { wp with lanes := wp.lanes.map fun ln =>
          { ln with v := ln.v.keep fun i _ => decide (i < 128) || !b.getLsbD ((i - 128) / 16) } }

/-- The registers of the released blocks of a warp come back from the block save area (R275). -/
def State.fromArea (s : State) (w : Nat) : State :=
  match s.warps.find w with
  | none => s
  | some wp =>
    let key := (s.key (((s.groups.find wp.gid).map fun g => g.world).getD 0)).key
    (areaSectors wp.saved).foldl (fun t e =>
      t.onWarp w fun v => v.setLane e.1 fun ln =>
        (upTo 0 8).foldl (fun ln j =>
          ln.setV (128 + e.2 + j) (BitVec.ofNat 32 (s.hbmNat key (s.areaAt wp e.1 e.2 + 4 * j) 4))) ln) s

/-- The other warps of a core that wait in ralloc, each as it would issue again. -/
def State.rallocs (s : State) (x : Iss) : List Iss :=
  (s.waits.filter fun e => e.2.kind == .ralloc && s.runs e.2.w && e.2.w != x.w).filterMap fun e =>
    match s.issWait e.1 with
    | some y => if y.wp.core = x.wp.core then some y else none
    | none => none

/-- x is served before y when the emergency token becomes free (R299). -/
def tokenFirst (x y : Iss) : Bool :=
  decide (y.ln.prio < x.ln.prio) ||
    x.ln.prio == y.ln.prio && (decide (x.g.num < y.g.num) ||
      x.g.num == y.g.num && decide (x.wp.ident.warp ≤ y.wp.ident.warp))

/-- A block of the group's share is free for the warp: no lower warp of its group waits for one (R299). -/
def Iss.takesBlock (x : Iss) (s : State) : Bool :=
  decide (0 < s.freeBlocks x.wp.gid x.wp.core x.ln.rc) &&
    (s.rallocs x).all fun o => o.wp.gid != x.wp.gid || decide (x.wp.ident.warp ≤ o.wp.ident.warp)

/-- The emergency token is free for the warp: its share has no free block, and of the warps that wait it is first (R299). -/
def Iss.takesToken (x : Iss) (s : State) : Bool :=
  s.freeBlocks x.wp.gid x.wp.core x.ln.rc == 0 && (s.core x.wp.core).emer.isNone && (s.rallocs x).all (tokenFirst x)

/-- The effect of ralloc: a free block, or the emergency token with the kept-back block, or a wait (R299, R309). -/
def rallocEffect (i : Instr) (n : BitVec 3) (x : Iss) (s : State) : State :=
  if x.wp.held.getLsbD n.toNat then s.retire x
  else if x.takesBlock s then (s.grantBlock x.w n).retire x
  else if x.takesToken s then
    let s := s.onCore x.wp.core fun c => { c with emer := some x.wp.gid }
    ((s.grantBlock x.w n).onWarp x.w fun wp => { wp with emer := some n.toNat }).retire x
  else s.block x i .ralloc []

/-- ralloc (R309). -/
def execRalloc (c : Ctl) (n : BitVec 3) (s : State) : Host.Outcome State Fault Refusal :=
  issueWord (.ralloc c n) s noEmpty noPre (rallocEffect (.ralloc c n) n)

/-- The effect of rfree: the block is released, and the token with the kept-back block (R309). -/
def rfreeEffect (n : BitVec 3) (x : Iss) (s : State) : State :=
  if x.wp.held.getLsbD n.toNat then
    let last := x.wp.emer = some n.toNat
    let s := s.onWarp x.w fun wp =>
      { wp with
        held := wp.held &&& ~~~(BitVec.ofNat 8 (2 ^ n.toNat))
        emer := if last then none else wp.emer }
    (if last then s.onCore x.wp.core fun c => { c with emer := none } else s).retire x
  else s.retire x

/-- rfree (R309). -/
def execRfree (c : Ctl) (n : BitVec 3) (s : State) : Host.Outcome State Fault Refusal :=
  issueWord (.rfree c n) s noEmpty noPre (rfreeEffect n)

/-- The rblk word (R310). -/
def rblkWord (x : Iss) (s : State) : Nat :=
  min (s.freeBlocks x.wp.gid x.wp.core x.ln.rc) 255 * 2 ^ 24 + x.ln.rc.regs / 16 * 2 ^ 16 + bitIf x.wp.emer.isSome 11 +
    x.wp.emer.getD 0 % 8 * 2 ^ 8 + x.wp.held.toNat

/-- rblk (R310). -/
def execRblk (c : Ctl) (d : Dst) (s : State) : Host.Outcome State Fault Refusal :=
  issueWord (.rblk c d) s noEmpty noPre (oneEffect .variable d 1 fun x s => Res.of (rblkWord x s))

/-! ### Vertical FIFOs (R302, R311, R312) -/

/-- The content of FIFO f, oldest entry first. -/
def Group.fifo (g : Group) (f : BitVec 2) : List (List Word) := g.vfifo.getD f.toNat []

/-- Sets the content of FIFO f. -/
def State.setFifo (s : State) (gid : Nat) (f : BitVec 2) (es : List (List Word)) : State :=
  s.onGroup gid fun g => { g with vfifo := g.vfifo.setD f.toNat es [] }

/-- A FIFO leaves the lower tier (0 and 1) or the upper one (2 and 3) (R302). -/
def fifoTier (f : BitVec 2) : Nat := f.toNat / 2

/-- The checks of R312: the group spans a pair, and FIFO f is on the side that ok tells of the warp's tier. -/
def fifoPre (ok : Nat → Bool) (x : Iss) (_ : State) : Option FRec :=
  if x.g.pair then x.illegalIf 8 (!ok x.wp.tier) else x.illegalIf 7 true

/-- The entry of vput: zero in the lanes outside M (R311). -/
def vputEntry (a : Dst) (x : Iss) (s : State) : List Word :=
  laneNums.map fun l => if inMask x.m l then x.reg s l a 0 else 0

/-- The effect of vput: a release point and a wait for room; it is the sink of the edge from the vget that made it (R156,
R302, R311). -/
def vputEffect (i : Instr) (f : BitVec 2) (a : Dst) (x : Iss) (s : State) : State :=
  if x.wp.drained && decide ((x.g.fifo f).length < 16) then
    ((s.setFifo x.wp.gid f (x.g.fifo f ++ [vputEntry a x s])).acquire x.wp.core x.g.world).retire x
  else s.block x i .vput []

/-- vput (R311). -/
def execVput (c : Ctl) (f : BitVec 2) (a : Dst) (s : State) : Host.Outcome State Fault Refusal :=
  issueWord (.vput c f a) s noEmpty (fifoPre fun t => fifoTier f == t) (vputEffect (.vput c f a) f a)

/-- The effect of vget: a wait for an entry and for the accesses of its warp, which precede a later vput, and an acquire
point after it (R156, R302, R311; log 76). -/
def vgetEffect (i : Instr) (f : BitVec 2) (d : Dst) (x : Iss) (s : State) : State :=
  match x.wp.drained, x.g.fifo f with
  | true, e :: es =>
    let s := (s.setFifo x.wp.gid f es).acquire x.wp.core x.g.world
    ((s.holdD x d 1).putEach x.w x.m d 1 fun l => (e.getD l 0).toNat).retire x
  | _, _ => s.block x i .vget []

/-- vget (R311). -/
def execVget (c : Ctl) (f : BitVec 2) (d : Dst) (s : State) : Host.Outcome State Fault Refusal :=
  issueWord (.vget c f d) s noEmpty (fifoPre fun t => fifoTier f != t) (vgetEffect (.vget c f d) f d)

/-- The effect of vfree (R311). -/
def vfreeEffect (f : BitVec 2) (d : Dst) (x : Iss) (s : State) : State :=
  oneEffect .variable d 1 (fun x _ => Res.of (16 - (x.g.fifo f).length)) x s

/-- vfree (R311). -/
def execVfree (c : Ctl) (f : BitVec 2) (d : Dst) (s : State) : Host.Outcome State Fault Refusal :=
  issueWord (.vfree c f d) s noEmpty (fifoPre fun _ => true) (vfreeEffect f d)

end Sys2Proof.Machine
end

