-- ==== Sys2Proof/Machine/Kernel.lean ====
section
/-!
DEFINITION. The instructions of kernels (R262, R263): klaunch and fslot; what counts as outstanding (R230, R231, R262).
-/

namespace Sys2Proof.Machine

/-- The record fields of a launch whose record has not been read (R252, WAITING). -/
def LRec.blank : LRec where
  kbase := 0
  entry := 0
  trapoff := 0
  groupw := 0
  regs := 0
  prio := 0
  rf := 0
  sp := 0
  acc := 0
  arm := 0
  strict := false
  ng := (1, 1, 1)
  yield := 0
  rect := (0, 0, 0, 0)
  tqs := []
  sigaddr := 0
  sigval := 0
  dstatus := 0
  slots := []

/-- A launch in state WAITING (R252): from entry e or from klaunch, with the copy of its record where it has one. -/
def Launch.start (world : Nat) (e : Option Nat) (copy : List Byte) (addr prio order : Nat) : Launch where
  world := world
  entry := e
  copy := copy
  recAddr := addr
  prio := prio
  rc := LRec.blank
  st := .waiting
  next := 0
  retired := 0
  ended := 0
  claimed := []
  barred := []
  order := order
  claim := none

/-- Launches made by klaunch that a world has outstanding: each until its DSTATUS word is written (R230, R262). -/
def State.devLaunches (s : State) (world : Nat) : Nat :=
  (s.launches.filter fun e => e.2.world == world && e.2.entry.isNone && e.2.st != .done).length +
    (s.late.filter fun l => l.world == world && l.dev).length

/-- Launches in the device launch queue of a world (R262). -/
def State.devQueued (s : State) (world : Nat) : Nat :=
  (s.launches.filter fun e => e.2.world == world && e.2.entry.isNone && e.2.st == .waiting).length

/-- Outstanding entries of a world across its queues, the device launch queue among them (R230, R231, R262). -/
def State.outstanding (s : State) (world : Nat) : Nat :=
  (s.entries.filter fun e => e.2.world == world).length + s.devLaunches world

/-- The entry quota of a world (R231). -/
def State.quota (s : State) (world : Nat) : Nat := ((s.ctxs.find world).map fun c => c.qs).getD 0

/-- klaunch accepts the record at pa: the copy is made, and the launch admitted (R262). -/
def State.acceptLaunch (s : State) (x : Iss) (va pa : Nat) : State :=
  let s := s.scrubFirst x.g.world pa
  let bs := s.hbmBytes (s.key x.g.world).key pa 256
  let prio := min ((bs.getD 23 0).toNat % 8) x.ln.prio
  let (id, s) := s.newId
  { s with launches := s.launches.put id (Launch.start x.g.world none bs va prio id) }

/-- The status that klaunch answers, and what it does (R262). -/
def klaunchGo (i : Instr) (d : Dst) (x : Iss) (va : Nat) (rs : List LReq) (s : State) : State :=
  let put (v : Nat) (s : State) : State := oneEffect .variable d 1 (fun _ _ => Res.of v) x s
  match rs with
  | [⟨_, _, .loc h⟩] =>
    if s.outstanding x.g.world = s.quota x.g.world then put 2 s
    else if s.devQueued x.g.world = 64 then put 10 s
    else
      match s.replyErr x.g.world h.pa with
      | some k => s.raise x (x.flt k x.m va 0) 0
      | none =>
        if s.tileOk x.g.world ⟨0, va, h.pa, 1, [], 0, h.mt, h.sint.isSome, none, none⟩ then put 0 (s.acceptLaunch x va h.pa)
        else (s.forceTile x.g.world va).block x i .drain [(0, va)]
  | _ => s

/-- The effect of klaunch (R262). -/
def klaunchEffect (i : Instr) (d a : Dst) (x : Iss) (s : State) : State :=
  let va := (x.reg64 s (lowLane x.m) a 0).toNat
  x.released s i fun s =>
    let (rs, s) := x.trAll 256 .r false false [(lowLane x.m, va)] s
    match heldOf rs, worstOf rs with
    | some pa, _ => s.block x i .drain [(1, pa)]
    | none, some (b, bad) => s.raise x (x.memFault b x.m bad) 0
    | none, none => klaunchGo i d x va rs (x.noteHits false rs s)

/-- klaunch (R262). -/
def execKlaunch (c : Ctl) (d a : Dst) (s : State) : Host.Outcome State Fault Refusal :=
  issueWord (.klaunch c d a) s noEmpty noPre (klaunchEffect (.klaunch c d a) d a)

/-- The held format slot n of the launch as a value (R250, R263). -/
def Iss.slotVal (x : Iss) (n : BitVec 3) : Nat := leNat (x.ln.rc.slots.getD n.toNat [])

/-- fslot (R263). -/
def execFslot (c : Ctl) (n : BitVec 3) (d : Dst) (s : State) : Host.Outcome State Fault Refusal :=
  issueWord (.fslot c n d) s noEmpty noPre (oneEffect .variable d 4 fun x _ => Res.of (x.slotVal n))

end Sys2Proof.Machine
end

