-- ==== Sys2Proof/Machine/Page.lean ====
section
/-!
DEFINITION. The page instructions (R365 to R367): publish, sfetch, sevict and sstat.
-/

namespace Sys2Proof.Machine

/-- Pair identifier p is assigned to the world (R355). -/
def State.pairOf (s : State) (world p : Nat) : Bool := ((s.pubTab.find p).map fun k => k.world == world).getD false

/-- One step of publish order: n selectors from p on flip, and the world's epoch grows (R356, R366). -/
def State.publish (s : State) (world p n : Nat) : State :=
  { s with
    pubTab := s.pubTab.mapV fun k y => if p ≤ k ∧ k < p + n then { y with sel := !y.sel } else y
    epochs := s.epochs.setD world (s.epochs.getD world 0 + 1) 0 }

/-- The effect of publish: a release point that also waits for the warp's .shd writes (R366). -/
def publishEffect (i : Instr) (a b : Dst) (x : Iss) (s : State) : State :=
  let l := lowLane x.m
  let p := (x.reg s l a 0).toNat
  let n := (x.reg s l b 0).toNat
  if 4096 < p + n then s.raise x (x.flt 6 x.m p 0) 0
  else
    match (upTo p n).find? fun k => !s.pairOf x.g.world k with
    | some k => s.raise x (x.flt 9 x.m k 0) 0
    | none =>
      if x.wp.drained && x.wp.shd == 0 then (if n = 0 then s else s.publish x.g.world p n).retire x
      else s.block x i .drain []

/-- publish (R366). -/
def execPublish (c : Ctl) (a b : Dst) (s : State) : Host.Outcome State Fault Refusal :=
  issueWord (.publish c a b) s noEmpty noPre (publishEffect (.publish c a b) a b)

/-- The tile that a checked address names, where it lies in an SM leaf of a region (R367). -/
def LReq.tile (r : LReq) : Option (Nat × Nat) :=
  match r.tr with
  | .loc h => h.sint
  | _ => none

/-- The lanes of M with what their addresses translate to, in ascending order; the instruction waits where a request, or a walk for
one, is held at its sender (R367, R373, R378). -/
def Iss.onTiles (x : Iss) (i : Instr) (a : Dst) (s : State) (go : List LReq → State → State) : State :=
  let (rs, s1) := x.trAll 1 .none false false ((maskLanes x.m).map fun l => (l, (x.reg64 s l a 0).toNat)) s
  match x.heldBack s1 rs with
  | some pa => s1.block x i .drain [(1, pa), (2, 0)]
  | none => go rs (x.seeEpochs rs s1)

/-- Does f on the tile of each lane; a lane without one is dropped (R367). -/
def eachTile (f : STile → STile) (rs : List LReq) (s : State) : State :=
  rs.foldl (fun s r => match r.tile with
    | some (n, t) => s.onTile n t f
    | none => s) s

/-- sfetch of a tile: an ABSENT one starts its fetch, a LEAVING one once it is ABSENT (R367). -/
def STile.sfetch (t : STile) : STile :=
  match t.st with
  | .absent => { t with st := .arriving }
  | .leaving => { t with refetch := true }
  | _ => t

/-- sevict of a tile: a RESIDENT one starts to leave (R367). -/
def STile.sevict (t : STile) : STile := if t.st = .resident then { t with st := .leaving } else t

/-- The effect of sfetch (R367). -/
def sfetchEffect (i : Instr) (a : Dst) (x : Iss) (s : State) : State :=
  x.onTiles i a s fun rs s => (eachTile STile.sfetch rs s).retire x

/-- sfetch (R367). -/
def execSfetch (c : Ctl) (a : Dst) (s : State) : Host.Outcome State Fault Refusal :=
  softWord (.sfetch c a) s (sfetchEffect (.sfetch c a) a)

/-- The effect of sevict: it waits for the store count (R367). -/
def sevictEffect (i : Instr) (a : Dst) (x : Iss) (s : State) : State :=
  x.released s i fun s => x.onTiles i a s fun rs s => (eachTile STile.sevict rs s).retire x

/-- sevict (R367). -/
def execSevict (c : Ctl) (a : Dst) (s : State) : Host.Outcome State Fault Refusal :=
  softWord (.sevict c a) s (sevictEffect (.sevict c a) a)

/-- The number of a tile state in the sstat word (R367). -/
def SState.code : SState → Nat
  | .resident => 0
  | .absent => 1
  | .arriving => 2
  | .leaving => 3

/-- The sstat word of a tile (R367). -/
def STile.word (t : STile) (region : Nat) : Nat :=
  2 ^ 31 + t.st.code * 2 ^ 29 + (if t.sat then 2 ^ 28 else 0) + (if t.inv then 2 ^ 27 else 0) +
    t.log.length % 512 * 2 ^ 18 + t.cap % 512 * 2 ^ 9 + region % 16

/-- The sstat word of a checked address; 0 where it is not Sinter-managed (R367). -/
def State.sstatWord (s : State) (r : LReq) : Nat :=
  match r.tile with
  | none => 0
  | some (n, t) =>
    match s.regions[n]? with
    | none => 0
    | some g => ((g.tiles[t]?).map fun y => y.word g.num).getD 0

/-- The effect of sstat (R367). -/
def sstatEffect (i : Instr) (d a : Dst) (x : Iss) (s : State) : State :=
  x.onTiles i a s fun rs s =>
    let word (l : Nat) : Nat := ((rs.find? fun r => r.lane == l).map s.sstatWord).getD 0
    ((s.holdD x d 1).putEach x.w x.m d 1 word).retire x

/-- sstat (R367). -/
def execSstat (c : Ctl) (d a : Dst) (s : State) : Host.Outcome State Fault Refusal :=
  softWord (.sstat c d a) s (sstatEffect (.sstat c d a) d a)

end Sys2Proof.Machine
end

