-- ==== Sys2Proof/Machine/Queue.lean ====
section
/-!
DEFINITION. Tile queues (R239 to R245) and dependence counters (R236 to R238): tqpush, tqpop, tqtry, tqallow, cntsig and
cntwait.
-/

namespace Sys2Proof.Machine

/-! ### Tile queues -/

/-- A queue with no slots (R239). -/
def TileQ.zero : TileQ := ⟨0, [], 0⟩

/-- Queue n of a group. -/
def Group.tq (g : Group) (n : BitVec 5) : TileQ := g.tqs.getD n.toNat TileQ.zero

/-- Changes queue n of a group. -/
def State.setTq (s : State) (gid : Nat) (n : BitVec 5) (t : TileQ) : State :=
  s.onGroup gid fun g => { g with tqs := g.tqs.put n.toNat t }

/-- An operation on a queue with no slots raises QUEUE_QUOTA with ADDR the queue number (R243). -/
def Iss.tqChecked (x : Iss) (s : State) (n : BitVec 5) (go : State → State) : State :=
  if (x.g.tq n).slots = 0 then s.raise x (x.flt 12 x.m n.toNat 0) 0 else go s

/-- push (R241). -/
def TileQ.push (t : TileQ) (h : Word) (tier : Nat) : TileQ :=
  { t with content := t.content ++ [(h, tier)], allow := t.allow - 1 }

/-- The handle that a pop returns on a tier: bit 19 is inverted where the other tier of a pair pushed it (R244). -/
def popHandle (pair : Bool) (tier : Nat) (e : Word × Nat) : Word := if pair && e.2 != tier then e.1 ^^^ 0x80000 else e.1

/-- pop: the queue without its first entry (R241). -/
def TileQ.pop (t : TileQ) : TileQ := { t with content := t.content.tail, allow := t.allow + 1 }

/-- The effect of tqpush: a release point that waits until the allowance is not 0, and the sink of the allowance edge (R156,
R241, R242). -/
def tqpushEffect (i : Instr) (n : BitVec 5) (b : Dst) (x : Iss) (s : State) : State :=
  x.tqChecked s n fun s =>
    if x.wp.drained && decide (0 < (x.g.tq n).allow) then
      let s := s.setTq x.wp.gid n ((x.g.tq n).push (x.reg s (lowLane x.m) b 0) x.wp.tier)
      (s.acquire x.wp.core x.g.world).retire x
    else s.block x i .tqpush []

/-- tqpush (R242). -/
def execTqpush (c : Ctl) (q : BitVec 5) (b : Dst) (s : State) : Host.Outcome State Fault Refusal :=
  issueWord (.tqpush c q b) s noEmpty noPre (tqpushEffect (.tqpush c q b) q b)

/-- A pop that returns entry e: the source of the allowance edge and an acquire point (R156, R168, R241). -/
def tqTake (d : Dst) (n : BitVec 5) (e : Word × Nat) (x : Iss) (s : State) : State :=
  let s := (s.setTq x.wp.gid n (x.g.tq n).pop).acquire x.wp.core x.g.world
  oneEffect .variable d 1 (fun x _ => Res.of (popHandle x.g.pair x.wp.tier e).toNat) x s

/-- The effect of tqpop: it waits until the queue is not empty, and until the accesses of its warp, which the allowance edge
orders before a later push, are done (R156, R241, R242; log 76). -/
def tqpopEffect (i : Instr) (d : Dst) (n : BitVec 5) (x : Iss) (s : State) : State :=
  x.tqChecked s n fun s =>
    match x.wp.drained, (x.g.tq n).content with
    | true, e :: _ => tqTake d n e x s
    | _, _ => s.block x i .tqpop []

/-- tqpop (R242). -/
def execTqpop (c : Ctl) (d : Dst) (q : BitVec 5) (s : State) : Host.Outcome State Fault Refusal :=
  issueWord (.tqpop c d q) s noEmpty noPre (tqpopEffect (.tqpop c d q) d q)

/-- The effect of tqtry; like tqpop it removes a handle only after the accesses of its warp (R156, R242; log 76). -/
def tqtryEffect (i : Instr) (gs : BitVec 3) (d : Dst) (n : BitVec 5) (x : Iss) (s : State) : State :=
  x.tqChecked s n fun s =>
    let setG (b : Bool) (s : State) : State := s.onLanes x.w x.m fun _ ln => ln.setG gs b
    match (x.g.tq n).content with
    | [] => (setG false s).retire x
    | e :: _ => x.released s i fun s => tqTake d n e x (setG true s)

/-- tqtry (R242). -/
def execTqtry (c : Ctl) (gs : BitVec 3) (d : Dst) (q : BitVec 5) (s : State) : Host.Outcome State Fault Refusal :=
  issueWord (.tqtry c gs d q) s noEmpty noPre (tqtryEffect (.tqtry c gs d q) gs d q)

/-- The effect of tqallow (R242). -/
def tqallowEffect (d : Dst) (n : BitVec 5) (x : Iss) (s : State) : State :=
  x.tqChecked s n (oneEffect .variable d 1 (fun x _ => Res.of (x.g.tq n).allow) x)

/-- tqallow (R242). -/
def execTqallow (c : Ctl) (d : Dst) (q : BitVec 5) (s : State) : Host.Outcome State Fault Refusal :=
  issueWord (.tqallow c d q) s noEmpty noPre (tqallowEffect d q)

/-! ### Dependence counters -/

/-- The counter that an index names for a world; none outside the world's range (R231, R236). -/
def State.counterOf (s : State) (world i : Nat) : Option Nat :=
  match s.ctxs.find world with
  | none => none
  | some c => if i < c.ccount then some (c.cbase + i) else none

/-- The value of a counter. -/
def State.counter (s : State) (k : Nat) : Nat := s.counters.getD k 0

/-- A signal sets counter k: every wait that was placed before, on this counter and for no more than the new value, is
satisfied (R237). -/
def State.setCounter (s : State) (k v : Nat) : State :=
  { s with
    counters := s.counters.setD k v 0
    waits := s.waits.mapV fun _ y =>
      if y.kind == .counter && y.stat.find 0 == some k && decide (y.stat.getD 1 0 ≤ v) then { y with sat := true } else y
    entries := s.entries.mapV fun _ e =>
      if e.kind == 4 && e.st == .started && s.counterOf e.world e.a == some k && decide (e.b ≤ v) then
        { e with sat := true } else e }

/-- A signal: an addition modulo 2^64, or a new value (R237). -/
def State.signal (s : State) (k : Nat) (set : Bool) (v : Nat) : State :=
  s.setCounter k (if set then v else (s.counter k + v) % 2 ^ 64)

/-- The effect of cntsig: a release point (R238). -/
def cntsigEffect (i : Instr) (set : Bool) (a b : Dst) (x : Iss) (s : State) : State :=
  let l := lowLane x.m
  let n := (x.reg s l a 0).toNat
  match s.counterOf x.g.world n with
  | none => s.raise x (x.flt 12 x.m n 0) 0
  | some k => x.released s i fun s => (s.signal k set (x.reg64 s l b 0).toNat).retire x

/-- cntsig (R238). -/
def execCntsig (c : Ctl) (set : Bool) (a b : Dst) (s : State) : Host.Outcome State Fault Refusal :=
  issueWord (.cntsig c set a b) s noEmpty noPre (cntsigEffect (.cntsig c set a b) set a b)

/-- The waiting instruction has been satisfied by a signal (R237). -/
def State.isSat (s : State) (q : Option Nat) : Bool :=
  match q with
  | none => false
  | some q => match s.waits.find q with
    | some y => y.sat
    | none => false

/-- The effect of cntwait: its return is an acquire point (R237, R238). -/
def cntwaitEffect (i : Instr) (a b : Dst) (x : Iss) (s : State) : State :=
  let l := lowLane x.m
  let n := (x.reg s l a 0).toNat
  let v := (x.reg64 s l b 0).toNat
  match s.counterOf x.g.world n with
  | none => s.raise x (x.flt 12 x.m n 0) 0
  | some k =>
    if decide (v ≤ s.counter k) || s.isSat x.q then (s.acquire x.wp.core x.g.world).retire x
    else s.block x i .counter [(0, k), (1, v)]

/-- cntwait (R238). -/
def execCntwait (c : Ctl) (a b : Dst) (s : State) : Host.Outcome State Fault Refusal :=
  issueWord (.cntwait c a b) s noEmpty noPre (cntwaitEffect (.cntwait c a b) a b)

end Sys2Proof.Machine
end

