-- ==== Sys2Proof/Machine/Tile.lean ====
section
/-!
DEFINITION. The matrix engine (R322 to R344): tiles, format slots and B descriptors, the multiply with its free grouping,
moving tile contents, pinning, counters, and the completion of the instruction at the head of the engine's queue (R323).
-/

namespace Sys2Proof.Machine

/-! ### Tiles (R322) -/

/-- Place of element (r, n) of a tile among the group's tile words. -/
def tileKey (tier : Nat) (at_ : BitVec 7) (r n : Nat) : Nat := (tier * 128 + at_.toNat) * 512 + r * 16 + n

/-- Row r of a tile. -/
def Group.tileRow (g : Group) (tier : Nat) (at_ : BitVec 7) (r : Nat) : List Word :=
  (upTo 0 16).map fun n => g.tiles.getD (tileKey tier at_ r n) 0

/-- Writes row r of a tile. -/
def setRow (t : Tbl Word) (tier : Nat) (at_ : BitVec 7) (r : Nat) (ws : List Word) : Tbl Word :=
  ((upTo 0 16).zip ws).foldl (fun t e => t.setD (tileKey tier at_ r e.1) e.2 0) t

/-- Writes rows of a tile of the issuing warp's tier. -/
def Iss.setRows (x : Iss) (s : State) (at_ : BitVec 7) (rows : List (Nat × List Word)) : State :=
  s.onGroup x.wp.gid fun g => { g with tiles := rows.foldl (fun t e => setRow t x.wp.tier at_ e.1 e.2) g.tiles }

/-- A tile index that the group's accumulator share does not hold raises ALIGN (R322). -/
def Iss.tileIn (x : Iss) (s : State) (at_ : BitVec 7) (go : State → State) : State :=
  if 8 * x.ln.rc.acc ≤ at_.toNat then s.raise x (x.flt 6 x.m at_.toNat 0) 0 else go s

/-! ### The queue of the engine (R323, R324) -/

/-- The instruction enters the engine's queue with what it read; its lanes wait for its completion (R323; log 78). -/
def State.enqueueMat (s : State) (x : Iss) (i : Instr) (vals : List (List Word)) (addrs : List Nat) : State :=
  let q := s.nextId
  let s := s.onWarp x.w fun wp => { wp with matOut := wp.matOut + 1 }
  (s.block x i .matrix []).onCore x.wp.core fun c => { c with matq := c.matq ++ [⟨q, x.w, vals, addrs, []⟩] }

/-- The instruction has left the engine: what waits for the warp's matrix-port instructions may go on (R324). -/
def State.matLeft (s : State) (x : Iss) : State := s.onWarp x.w fun wp => { wp with matOut := wp.matOut - 1 }

/-- Cycles in which the engine worked for the group (R342, R391). -/
def State.engineBusy (s : State) (x : Iss) (n : Nat) : State :=
  let s := s.onGroup x.wp.gid fun g =>
    let k := g.mmc.getD x.wp.tier ⟨0, 0, 0⟩
    { g with mmc := g.mmc.put x.wp.tier { k with busy := (k.busy + n) % 2 ^ 32 } }
  s.onCore x.wp.core fun c => { c with busy := c.busy + n }

/-- The instruction has left the engine, and retires in the lanes that still wait in it: one whose iteration has ended meanwhile
does not (R277, R323). -/
def State.matRetire (s : State) (x : Iss) : State :=
  match x.q with
  | some q => (s.matLeft x).waitDone q
  | none => (s.matLeft x).retire x

/-- The instruction completes: its lanes advance. The engine worked for it a number of cycles that no rule gives. -/
def State.matDone (s : State) (x : Iss) : State :=
  let n := s.free 5 % 2 ^ 32
  (s.used.engineBusy x n).matRetire x

/-- The instruction at the head of the engine faults (R332). -/
def State.matFault (s : State) (x : Iss) (f : FRec) : State := (s.matLeft x).raise x f 0

/-! ### Format slots (R249, R325) -/

/-- A held slot as the engine reads it: formats, scale code and the two tensor scales. -/
structure MFmt where
  a : Ty
  b : Ty
  scale : Nat
  sa : Nat
  sb : Nat
deriving DecidableEq, Repr

/-- The bytes of held slot n. -/
def Iss.slotBytes (x : Iss) (n : BitVec 3) : List Byte := x.ln.rc.slots.getD n.toNat []

/-- The type that a code byte names. -/
def tyOfByte (b : Byte) : Option Ty := if b.toNat < 32 then Ty.ofCode (b.setWidth 5) else none

/-- Reads a slot that is not empty. -/
def mfmt (bs : List Byte) : MFmt where
  a := (tyOfByte (bs.getD 0 0)).getD .f16
  b := (tyOfByte (bs.getD 1 0)).getD .f16
  scale := (bs.getD 2 0).toNat
  sa := leNat ((bs.drop 8).take 4)
  sb := leNat ((bs.drop 12).take 4)

/-- A slot is empty (R249). -/
def slotEmpty (bs : List Byte) : Bool := bs.all fun b => b == 0

/-- B is NQ4. -/
def MFmt.nq (f : MFmt) : Bool := f.b == .nq4

/-- K of R325: 128 for FP8 elements of A, 64 otherwise. -/
def MFmt.k (f : MFmt) : Nat := if f.a.is8 then 128 else 64

/-! ### Quarters and descriptors (R327 to R329) -/

/-- Some quarter has lanes in M but not all. -/
def partialQuarter (m : Mask) : Bool := (activeQuarters m).any fun q => quarterOf m q != 0xff

/-- The descriptor of quarter q. -/
def Iss.desc (x : Iss) (s : State) (m : Qdm) (b : BitVec 6) (q : Nat) : Nat :=
  let r := descReg m b q
  let l := lowLane x.m
  (x.rk s l (r + 1) ++ x.rk s l r).toNat

/-- SP of a descriptor. -/
def descSp (d : Nat) : Bool := bitAt d 63

/-- A reserved bit is set, or Q disagrees with the slot (R327). -/
def descBad (nq : Bool) (d : Nat) : Bool :=
  bitAt d 62 != nq ||
    (if nq then fieldOf d 59 3 != 0 || descSp d && fieldOf d 20 23 != 0
     else descSp d && fieldOf d 20 30 != 0)

/-- The first block of an NQ4 tile (R327). -/
def descBlk (d : Nat) : Nat := fieldOf d 51 8

/-- Blocks of an NQ4 superblock (R327). -/
def descNb (d : Nat) : Nat := if descSp d then fieldOf d 43 8 + 1 else 256

/-- The address or offset where a descriptor's operand begins: row 0, or the superblock header. -/
def descBase (nq : Bool) (d : Nat) : Nat :=
  if descSp d then fieldOf d 0 20 else if nq then fieldOf d 0 51 * 64 else fieldOf d 0 50 * 128

/-- The byte ranges that an mma with this descriptor reads (R104, R328). -/
def descRanges (nq : Bool) (k d : Nat) : List (Nat × Nat) :=
  let a := descBase nq d
  if nq then
    let n := 16 * k / 64
    [(a, 4), (a + 64 + descBlk d, n), (a + 64 + descNb d + 32 * descBlk d, 32 * n)]
  else
    let p := fieldOf d 50 12
    (upTo 0 16).map fun r => (a + r * ((if p = 0 then 1 else p) * 128), 128)

/-- The ALIGN checks of a descriptor: the offset's alignment, the last block, and scratchpad bounds; the value for ADDR
(R328). -/
def Iss.descAlign (x : Iss) (nq : Bool) (k d : Nat) : Option Nat :=
  let a := descBase nq d
  if descSp d && a % (if nq then 64 else 16) != 0 then some a
  else if nq && decide (descNb d < descBlk d + 16 * k / 64) then some 0
  else if descSp d then
    ((descRanges nq k d).find? fun r => (upTo r.1 r.2).any fun o => x.spBad o 1 1).map fun r => r.1
  else none

/-- The first address of each page that a global descriptor reads. -/
def descPages (nq : Bool) (k d : Nat) : List Nat :=
  if descSp d then [] else (descRanges nq k d).flatMap fun r => pagesOf r.1 r.2

/-- The first address of each L2 line that a range touches. -/
def linesOf (a n : Nat) : List Nat := (upTo (a / 128) ((a + n - 1) / 128 + 1 - a / 128)).map fun k => k * 128

/-- The L2 lines that a global descriptor reads. -/
def descLines (nq : Bool) (k d : Nat) : List Nat := (descRanges nq k d).flatMap fun r => linesOf r.1 r.2

/-! ### Reading B (R328, R332, R341) -/

/-- The physical address of a checked global byte. -/
def paOf (rs : List LReq) (va : Nat) : Nat :=
  match rs.find? fun r => r.va / 4096 == va / 4096 with
  | some ⟨_, _, .loc h⟩ => h.pa / 4096 * 4096 + va % 4096
  | _ => 0

/-- A descriptor is pinned by a group. -/
def Pin.names (p : Pin) (world gid d : Nat) : Bool := p.world == world && p.gid == gid && p.desc == d

/-- The values that aligned virtual word k of a pinned descriptor had since its tfetch, on either core of the group (R341). -/
def State.pinned (s : State) (world gid d k : Nat) : List (List Byte) :=
  s.cores.flatMap fun e => (e.2.pins.filter fun p => p.names world gid d).flatMap fun p =>
    (p.old.filter fun o => o.1 == k).map fun o => o.2

/-- A byte of B under descriptor d: plain scratchpad, or global at the home slice. An aligned word of a pinned descriptor may
be any that it was since its tfetch, the same for each of its bytes (R161, R341). -/
def Iss.bByte (x : Iss) (s : State) (rs : List LReq) (d a : Nat) : Byte :=
  if descSp d then x.g.spad.getD (x.spPlace a) 0
  else
    let pa := paOf rs a
    let now := s.hbmBytes (s.key x.g.world).key (pa / 4 * 4) 4
    let word := match s.pinned x.g.world x.wp.gid d (a / 4) with
      | [] => now
      | old => (now :: old).getD (s.free (2 ^ 31 + pa / 4 % 2 ^ 31) % (old.length + 1)) now
    word.getD (pa % 4) 0

/-- The little-endian value of n bytes of B. -/
def Iss.bNat (x : Iss) (s : State) (rs : List LReq) (d a n : Nat) : Nat := leNat ((upTo a n).map (x.bByte s rs d))

/-- An element of B: its value, and the cause of a NaN (R330). -/
structure BEl where
  v : FV
  cause : Nat
  fl : BitVec 3
deriving DecidableEq, Repr

/-- An element of a dense B row (R328). -/
def denseEl (t : Ty) (p : Nat) : BEl := ⟨unpackF t p, if isNan t p then 1 else 0, 0⟩

/-- An element of a superblock (R105, R330). -/
def nqEl (q c sp : Nat) : BEl :=
  let r := nqValue q c sp
  let f := unpackF .f32 r.val
  ⟨f, if f = .nan then (if isNan .f32 sp then 2 else 4) else 0, if f = .nan then 0 else r.fl⟩

/-- Column n of the B tile, k elements (R328). -/
def Iss.bCol (x : Iss) (s : State) (rs : List LReq) (f : MFmt) (d n : Nat) : List BEl :=
  let a := descBase f.nq d
  if f.nq then
    let sp := x.bNat s rs d a 4
    (upTo 0 f.k).map fun k =>
      let b := descBlk d + n * f.k / 64 + k / 64
      let c := (x.bByte s rs d (a + 64 + b)).toNat
      let y := (x.bByte s rs d (a + 64 + descNb d + 32 * b + k % 64 / 2)).toNat
      nqEl (if k % 2 = 0 then y % 16 else y / 16) c sp
  else
    let w := fmtBits f.b / 8
    let r := ((descRanges false f.k d).getD n (0, 0)).1
    (upTo 0 f.k).map fun k => denseEl f.b (x.bNat s rs d (r + w * k) w)

/-! ### One element (R330, R331) -/

/-- sigma, with the NaN cause that it gives (R330). -/
def MFmt.sigma (f : MFmt) : FV × Nat :=
  if f.scale = 1 then
    if isNan .f32 f.sa || isNan .f32 f.sb then (.nan, 2)
    else match mulV (unpackF .f32 f.sa) (unpackF .f32 f.sb) with
      | none => (.nan, 4)
      | some v => (v, 0)
  else (.fin false 1 0, 0)

/-- The products of pairs that hold no NaN; none stands for zero times infinity. -/
def products : List FV → List BEl → List (Option FV)
  | a :: as, b :: bs => if a = .nan ∨ b.v = .nan then products as bs else mulV a b.v :: products as bs
  | _, _ => []

/-- The terms of an element beside c, with the causes that forming them gives (R330). -/
def mmaTerms (sig : FV) (xs : List FV) : List FV × List Nat :=
  match sig with
  | .inf sg =>
    if hasInf false xs && hasInf true xs then ([], [3])
    else if hasInf false xs then ([.inf sg], [])
    else if hasInf true xs then ([.inf (!sg)], [])
    else
      let r := sumTerms (finTerms xs)
      if r.1 = 0 then ([], [4]) else ([.inf (sg != decide (r.1 < 0))], [])
  | .fin n m e =>
    let ts := xs.map (mulV (.fin n m e))
    (ts.filterMap id, if ts.any Option.isNone then [4] else [])
  | .nan => ([], [])

/-- The highest-ranked cause among those present (R99). -/
def worstCause (cs : List Nat) : Option Nat := [2, 1, 4, 3].find? fun c => cs.contains c

/-- The sum of one group, scaled and rounded once (R330). -/
def groupSum (sig : FV) (xs : List FV) : Res :=
  let r := sumTerms (finTerms xs)
  let neg := if r.1 = 0 then allZero true xs else decide (r.1 < 0)
  match sig with
  | .fin n m e => packF .f32 .rn (n != neg) (r.1.natAbs * m) (r.2 + e)
  | _ => Res.of 0

/-- Adds the groups to the running value in their order (R330). -/
def addGroups (sig : FV) : List (List FV) → Res → Res
  | [], c => c
  | g :: gs, c =>
    let t := groupSum sig g
    let r := addF .f32 .rn c.val t.val
    addGroups sig gs ⟨r.val, r.fl ||| t.fl ||| c.fl⟩

/-- Inserts an element by its key. -/
def insertKey (a : Nat × FV) : List (Nat × FV) → List (Nat × FV)
  | [] => [a]
  | b :: bs => if a.1 ≤ b.1 then a :: b :: bs else b :: insertKey a bs

/-- Cuts a sequence into groups of at most 16; cut says where a group may end (R330). -/
def cutGroups (cut : Nat → Bool) : Nat → List FV → List FV → List (List FV)
  | _, [], [] => []
  | _, cur, [] => [cur]
  | i, cur, v :: vs =>
    if cur.length = 16 ∨ cur ≠ [] ∧ cut i then cur :: cutGroups cut (i + 1) [v] vs
    else cutGroups cut (i + 1) (cur ++ [v]) vs

/-- The partition that the engine chooses: elements in the order of their keys, cut where it likes (R330; log 15). -/
def engineGroups (key : Nat → Nat) (cut : Nat → Bool) (ks : List (Nat × FV)) : List (List FV) :=
  cutGroups cut 0 [] ((ks.foldr (fun e l => insertKey (key e.1, e.2) l) []).map fun e => e.2)

/-- An element of the tile after an mma: c is the old value, or +0 without .acc; skip says which k the engine skips
(R330, R331). -/
def mmaElem (f : MFmt) (acc : Bool) (c : Nat) (as : List FV) (bs : List BEl) (skip : Nat → Bool) (key : Nat → Nat)
    (cut : Nat → Bool) : Res :=
  let sg := f.sigma
  let c0 := if acc then c else 0
  let ps := products as bs
  let xs := ps.filterMap id
  let ts := mmaTerms sg.1 xs
  let terms := unpackF .f32 c0 :: ts.1
  let causes :=
    sg.2 :: (bs.map fun b => b.cause) ++ (if as.contains .nan then [1] else []) ++
      (if isNan .f32 c0 then [1] else []) ++ (if ps.any Option.isNone then [4] else []) ++ ts.2 ++
      (if hasInf false terms && hasInf true terms then [3] else [])
  match worstCause causes with
  | some k => ⟨genNan .f32 k, if k = 3 ∨ k = 4 then fInv else 0⟩
  | none =>
    if hasInf false terms then Res.of (infPat .f32)
    else if hasInf true terms then Res.of (infPat .f32 + signPat .f32 true)
    else
      let ks := ((upTo 0 f.k).zip xs).filter fun e => !skip e.1
      addGroups sg.1 (engineGroups key cut ks) (Res.of c0)

/-- The A elements of a row from its 32 registers (R326). -/
def rowA (t : Ty) (ws : List Word) : List FV :=
  let bs := ws.flatMap fun w => leBytes 4 w.toNat
  let n := fmtBits t / 8
  (wordsOf n (128 / n) bs).map (unpackF t)

/-- A free choice of the engine for element (r, n) at index k; j tells the choices apart. -/
def matFree (s : State) (r n k j : Nat) : Nat := s.free (2 ^ 20 + ((r * 16 + n) * 128 + k) * 4 + j)

/-- The k of a row that the engine skips with .zsk: an A element of ±0 whose column holds finite values only (R331). -/
def skipped (s : State) (zsk : Bool) (r : Nat) (as : List FV) (cols : List (List BEl)) (k : Nat) : Bool :=
  let zero := match as[k]? with
    | some (.fin _ m _) => m == 0
    | _ => false
  let fin := cols.all fun y => match y[k]? with
    | some ⟨.fin _ _ _, _, _⟩ => true
    | _ => false
  zsk && zero && fin && matFree s r 0 k 2 % 2 == 1

/-- A row of the tile after an mma, its flags, and how many elements were skipped. -/
def mmaRow (s : State) (f : MFmt) (acc zsk : Bool) (old : List Word) (r : Nat) (as : List FV) (cols : List (List BEl)) :
    List Word × BitVec 3 × Nat :=
  let sk := skipped s zsk r as cols
  let rs := ((upTo 0 16).zip cols).map fun e =>
    mmaElem f acc (old.getD e.1 0).toNat as e.2 sk (fun k => matFree s r e.1 k 0) fun k => matFree s r e.1 k 1 % 2 == 1
  (rs.map fun r => BitVec.ofNat 32 r.val, rs.foldl (fun a r => a ||| r.fl) 0, ((upTo 0 f.k).filter sk).length)

/-! ### mma (R329 to R334) -/

/-- The ILLEGAL checks of mma: an empty slot, a bad descriptor of an active quarter (R325, R327, R344). -/
def mmaPre (fs : BitVec 3) (qdm : Qdm) (b : BitVec 6) (x : Iss) (s : State) : Option FRec :=
  let bs := x.slotBytes fs
  if slotEmpty bs then some (x.flt 1 x.m 0 13)
  else if (activeQuarters x.m).any fun q => descBad (mfmt bs).nq (x.desc s qdm b q) then some (x.flt 1 x.m 0 14)
  else none

/-- The A fragment of a lane (R326). -/
def Iss.fragA (x : Iss) (s : State) (st : BitVec 2) (a : BitVec 8) (l : Nat) : List Word :=
  (upTo 0 8).flatMap fun i => (upTo 0 4).map fun j => x.rv s l (a.toNat + astr st * i + j)

/-- The effect of mma at issue: the quarter rule, the tile index, then the engine, at whose head it waits for the store count
(R332). -/
def mmaEffect (i : Instr) (qdm : Qdm) (st : BitVec 2) (d : BitVec 7) (a : BitVec 8) (b : BitVec 6) (x : Iss) (s : State) :
    State :=
  if partialQuarter x.m then s.raise x (x.flt 5 x.m 0 0) 0
  else x.tileIn s d fun s =>
    s.enqueueMat x i (laneNums.map fun l => if inMask x.m l then x.fragA s st a l else [])
      ((upTo 0 4).map fun q => x.desc s qdm b q)

/-- mma (R334). -/
def execMma (c : Ctl) (fs : BitVec 3) (qdm : Qdm) (acc zsk : Bool) (st : BitVec 2) (d : BitVec 7) (a : BitVec 8)
    (b : BitVec 6) (s : State) : Host.Outcome State Fault Refusal :=
  issueWord (.mma c fs qdm acc zsk st d a b) s noEmpty (mmaPre fs qdm b)
    (mmaEffect (.mma c fs qdm acc zsk st d a b) qdm st d a b)

/-- Cycles of an mma: per active quarter by R325, and 2 for each pass after the first; skipping can shorten them. -/
def mmaCycles (s : State) (f : MFmt) (zsk : Bool) (quarters passes : Nat) : Nat :=
  let n := (if f.nq then 2 else 4) * quarters + 2 * (passes - 1)
  if zsk then s.free 6 % (n + 1) else n

/-- The engine computes an mma whose operands have all been read (R330 to R332). -/
def mmaCompute (f : MFmt) (acc zsk : Bool) (d : BitVec 7) (op : MatOp) (rs : List LReq) (x : Iss) (s : State) : State :=
  let qs := activeQuarters x.m
  let rows := qs.flatMap fun q =>
    let dq := op.addrs.getD q 0
    let cols := (upTo 0 16).map fun n => x.bCol s rs f dq n
    (upTo (8 * q) 8).map fun r =>
      (r, mmaRow s f acc zsk (x.g.tileRow x.wp.tier d r) r (rowA f.a (op.vals.getD r [])) cols,
        cols.foldl (fun a c => c.foldl (fun a b => a ||| b.fl) a) 0)
  let fl : BitVec 3 := rows.foldl (fun a e => a ||| e.2.1.2.1 ||| e.2.2) 0
  let sk := rows.foldl (fun a e => a + e.2.1.2.2) 0
  let n := mmaCycles s f zsk qs.length (qs.map fun q => op.addrs.getD q 0).eraseDups.length
  let s := (x.setRows s.used d (rows.map fun e => (e.1, e.2.1.1))).orFlags x.wp.gid fl
  let s := s.onGroup x.wp.gid fun g =>
    let k := g.mmc.getD x.wp.tier ⟨0, 0, 0⟩
    { g with mmc := g.mmc.put x.wp.tier { k with skip := (k.skip + sk) % 2 ^ 32, mma := (k.mma + 1) % 2 ^ 32 } }
  (s.engineBusy x n).matRetire x

/-- Puts what stands in the way into the wait; the instruction stays at the head of the engine. -/
def State.matStay (s : State) (x : Iss) (st : Tbl Nat) : State :=
  match x.q with
  | none => s
  | some q => { s with waits := s.waits.upd q fun y => { y with stat := st } }

/-- Checks the accesses of the instruction at the head of the engine, and goes on where they all pass; it stays there where a
quiescing die holds back a walk (R174, R332, R378). -/
def Iss.matChecked (x : Iss) (s : State) (align : Nat) (need : Perm) (shd wr : Bool) (las : List (Nat × Nat))
    (takers : List LReq → Mask) (go : List LReq → State → State) : State :=
  let (rs, s1) := x.trAll align need false shd las s
  match heldOf rs with
  | some pa => s1.matStay x [(1, pa)]
  | none =>
    match worstOf rs with
    | some (b, va) => s1.matFault x (x.memFault b (takers (rs.filter fun r => match r.tr with
        | .bad k => k.cls == b.cls
        | _ => false)) va)
    | none => go rs (x.noteHits wr rs s1)

/-- The lanes of accesses that fail (R174; log 26). -/
def Iss.lanesOf (x : Iss) (rs : List LReq) : Mask := x.failing fun l => rs.any fun r => r.lane == l

/-- The lines that pin entries, and mmas in an engine, hold in the set of a line. -/
def State.heldIn (s : State) (k : Nat) : List (Nat × Nat) :=
  let here (l : Nat × Nat) : Bool := s.setOf (l.2 * 128) == s.setOf (k * 128)
  (s.cores.flatMap fun e =>
    (e.2.pins.flatMap fun p => if p.held then (p.holds.map fun l => (p.world, l)).filter here else []) ++
      e.2.matq.flatMap fun o => o.holds.filter here).eraseDups

/-- One more line may be held: it is already, or fewer than 12 ways of its set are (R339). -/
def State.mayHold (s : State) (world k : Nat) : Bool :=
  (s.heldIn k).contains (world, k) || decide ((s.heldIn k).length < 12)

/-- The instruction q in a core's engine holds these lines from here until it leaves, each unless 12 ways of its set are held
(R339). -/
def State.holdMat (s : State) (core q world : Nat) (ks : List Nat) : State :=
  let put (s : State) (f : List (Nat × Nat) → List (Nat × Nat)) : State :=
    s.onCore core fun c => { c with matq := c.matq.map fun o => if o.q = q then { o with holds := f o.holds } else o }
  ks.foldl (fun s k => if s.mayHold world k then put s fun hs => hs ++ [(world, k)] else s) (put s fun _ => [])

/-- The lines that an mma holds: those of its global descriptors, once their translations have passed (R332, R339). -/
def mmaLines (f : MFmt) (ds : List Nat) (rs : List LReq) : List Nat :=
  (ds.filter fun e => !descSp e).flatMap fun e => (descLines f.nq f.k e).map fun va => paOf rs va / 128

/-- Steps 4 and 5 of R332, and the computation, as one step; the lines of the passes are held from step 4 until the instruction leaves
the engine (R339; log 79). -/
def mmaComplete (fs : BitVec 3) (acc zsk : Bool) (d : BitVec 7) (op : MatOp) (x : Iss) (s : State) : State :=
  let f := mfmt (x.slotBytes fs)
  let ds := ((activeQuarters x.m).map fun q => op.addrs.getD q 0).eraseDups
  let l := lowLane x.m
  match ds.findSome? fun e => x.descAlign f.nq f.k e with
  | some a => (s.matFault x (x.flt 6 x.m a 0))
  | none =>
    x.matChecked s 1 .r false false ((ds.flatMap fun e => descPages f.nq f.k e).map fun p => (l, p)) (fun _ => x.m)
      fun rs s1 =>
      let s2 := s1.holdMat x.wp.core op.q x.g.world (mmaLines f ds rs)
      match s2.replyOf x.g.world rs with
      | some (k, va) => (s2.matFault x (x.flt k x.m va 0))
      | none =>
        match s2.inTheWay (coreDie x.wp.core) x.g.world rs with
        | some (s3, st) => (s3.matStay x st)
        | none =>
          let s3 := rs.foldl (fun s r => match r.tr with
            | .loc h => s.scrubFirst x.g.world h.pa
            | _ => s) s2
          let s4 := (mmaLines f ds rs).foldl (fun s k => s.touchL2 x.g.world (128 * k) 0 .no .no) s3
          mmaCompute f acc zsk d op rs x s4

/-! ### mmz and accmov (R335) -/

/-- The effect of mmz at issue. -/
def mmzEffect (i : Instr) (d : BitVec 7) (x : Iss) (s : State) : State := x.tileIn s d fun s => s.enqueueMat x i [] []

/-- mmz (R335). -/
def execMmz (c : Ctl) (d : BitVec 7) (s : State) : Host.Outcome State Fault Refusal :=
  issueWord (.mmz c d) s noEmpty noPre (mmzEffect (.mmz c d) d)

/-- The effect of accmov at issue. -/
def accmovEffect (i : Instr) (d a : BitVec 7) (x : Iss) (s : State) : State :=
  x.tileIn s d fun s => x.tileIn s a fun s => s.enqueueMat x i [] []

/-- accmov (R335). -/
def execAccmov (c : Ctl) (d a : BitVec 7) (s : State) : Host.Outcome State Fault Refusal :=
  issueWord (.accmov c d a) s noEmpty noPre (accmovEffect (.accmov c d a) d a)

/-- mmz completes: +0 in every element. -/
def mmzComplete (d : BitVec 7) (x : Iss) (s : State) : State :=
  (x.setRows s d (laneNums.map fun r => (r, List.replicate 16 0))).matDone x

/-- accmov completes: every element is copied. -/
def accmovComplete (d a : BitVec 7) (x : Iss) (s : State) : State :=
  (x.setRows s d (laneNums.map fun r => (r, x.g.tileRow x.wp.tier a r))).matDone x

/-! ### accld and accst (R336 to R338) -/

/-- Bytes of a row in memory (R336). -/
def rowBytes (t : Ty) : Nat := 4 * rowRegs t

/-- The row address of each lane: its own, or the tile address and 32 rows of it (R336). -/
def Iss.rowAddr (x : Iss) (s : State) (t : Ty) (a : Dst) (l : Nat) : Nat :=
  match a with
  | .v _ => (x.reg64 s l a 0).toNat
  | .k _ => (x.reg64 s l a 0 + BitVec.ofNat 64 (l * rowBytes t)).toNat

/-- The row addresses of the lanes of M. -/
def Iss.rowAddrs (x : Iss) (s : State) (t : Ty) (glb : Bool) (a : Dst) : List Nat :=
  if glb then laneNums.map fun l => if inMask x.m l then x.rowAddr s t a l else 0 else []

/-- The row registers of the lanes of M. -/
def Iss.rowVals (x : Iss) (s : State) (t : Ty) (glb : Bool) (a : Dst) : List (List Word) :=
  if glb then [] else laneNums.map fun l =>
    if inMask x.m l then (upTo 0 (rowRegs t)).map fun j => x.reg s l a j else []

/-- An element widened to FP32 (R337). -/
def widenEl (t : Ty) (p : Nat) : Word := BitVec.ofNat 32 (if t = .f32 then p else (cvtFF .f32 (elemTy t) .rn p).val)

/-- A row of FP32 elements from the row's bytes. -/
def rowOf (t : Ty) (bs : List Byte) : List Word := (wordsOf (fmtBits (elemTy t) / 8) 16 bs).map (widenEl t)

/-- An element of a row converted from FP32 (R337). -/
def narrowEl (t : Ty) (rm : Rm) (w : Word) : Res := if t = .f32 then Res.of w.toNat else cvtFF (elemTy t) .f32 rm w.toNat

/-- The bytes of a row, and the flags its conversion sets. -/
def rowOut (t : Ty) (rm : Rm) (ws : List Word) : List Byte × BitVec 3 :=
  let rs := ws.map (narrowEl t rm)
  (rs.flatMap fun r => leBytes (fmtBits (elemTy t) / 8) r.val, rs.foldl (fun a r => a ||| r.fl) 0)

/-- The effect of accld at issue. -/
def accldEffect (i : Instr) (t : Ty) (glb : Bool) (d : BitVec 7) (a : Dst) (x : Iss) (s : State) : State :=
  x.tileIn s d fun s => s.enqueueMat x i (x.rowVals s t glb a) (x.rowAddrs s t glb a)

/-- accld (R336, R337). -/
def execAccld (c : Ctl) (t : Ty) (glb : Bool) (d : BitVec 7) (a : Dst) (s : State) : Host.Outcome State Fault Refusal :=
  issueWord (.accld c t glb d a) s noEmpty noPre (accldEffect (.accld c t glb d a) t glb d a)

/-- The effect of accst at issue; with .g it waits for the store count at the head of the engine (R162, R337). -/
def accstEffect (i : Instr) (t : Ty) (glb : Bool) (d : BitVec 7) (a : Dst) (x : Iss) (s : State) : State :=
  x.tileIn s d fun s => s.enqueueMat x i [] (x.rowAddrs s t glb a)

/-- accst (R336, R337). -/
def execAccst (c : Ctl) (t : Ty) (glb shd : Bool) (rm : Rm) (d : BitVec 7) (a : Dst) (s : State) :
    Host.Outcome State Fault Refusal :=
  issueWord (.accst c t glb shd rm d a) s noEmpty noPre (accstEffect (.accst c t glb shd rm d a) t glb d a)

/-- accld with .g, once its checks have passed: its reads go out as those of ld do, through L1, and it stays at the head of
the engine until they are answered (R175, R337). -/
def accldGo (i : Instr) (t : Ty) (x : Iss) (rs : List LReq) (s : State) : State :=
  let us := rs.flatMap fun r => r.units (rowBytes t) 4 []
  let (_, s) := s.launchTxn x i .load us 0 x.q
  (s.forceTiles x.g.world us).matStay x [(3, 0)]

/-- accld does its work at the head of the engine: it writes the rows whose registers or memory it has read, or starts to
read memory (R336, R337). -/
def accldComplete (i : Instr) (t : Ty) (glb : Bool) (d : BitVec 7) (op : MatOp) (x : Iss) (s : State) : State :=
  if glb && op.vals.isEmpty then
    x.matChecked s (rowBytes t) .r false false ((maskLanes x.m).map fun l => (l, op.addrs.getD l 0)) x.lanesOf
      (accldGo i t x)
  else
    (x.setRows s d ((maskLanes x.m).map fun l =>
      (l, rowOf t ((op.vals.getD l []).flatMap fun w => leBytes 4 w.toNat)))).matDone x

/-- The writes of accst with .g enter the memory system: each word counts in the store count (R168, R337). -/
def accstGo (i : Instr) (t : Ty) (rm : Rm) (d : BitVec 7) (x : Iss) (rs : List LReq) (s : State) : State :=
  let outs := rs.map fun r => (r, rowOut t rm (x.g.tileRow x.wp.tier d r.lane))
  let us := outs.flatMap fun e => e.1.units (rowBytes t) 4 e.2.1
  let (_, s) := s.launchTxn x i .store us us.length none
  ((s.forceTiles x.g.world us).orFlags x.wp.gid (outs.foldl (fun f e => f ||| e.2.2) 0)).matDone x

/-- accst completes: registers, or writes under way (R336, R337). -/
def accstComplete (i : Instr) (t : Ty) (glb shd : Bool) (rm : Rm) (d : BitVec 7) (a : Dst) (op : MatOp) (x : Iss)
    (s : State) : State :=
  if glb then
    x.matChecked s (rowBytes t) .w shd true ((maskLanes x.m).map fun l => (l, op.addrs.getD l 0)) x.lanesOf
      (accstGo i t rm d x)
  else
    let out (l : Nat) := rowOut t rm (x.g.tileRow x.wp.tier d l)
    let fl : BitVec 3 := (maskLanes x.m).foldl (fun f l => f ||| (out l).2) 0
    let s := match a with
      | .v i => s.onLanes x.w x.m fun l ln => ln.setVs i.toNat (rowRegs t) (leNat (out l).1)
      | .k _ => s
    (s.orFlags x.wp.gid fl).matDone x

/-! ### Pinning (R339 to R341) -/

/-- The descriptor in a uniform pair. -/
def Iss.pinDesc (x : Iss) (s : State) (a : BitVec 6) : Nat :=
  let l := lowLane x.m
  (x.rk s l (a.toNat + 1) ++ x.rk s l a.toNat).toNat

/-- The byte ranges that an entry covers (R339). -/
def pinRanges (d : Nat) : List (Nat × Nat) :=
  let a := descBase (bitAt d 62) d
  if bitAt d 62 then
    let n := min (descBlk d + 31) 255 + 1 - descBlk d
    [(a, 64), (a + 64 + descBlk d, n), (a + 64 + 256 + 32 * descBlk d, 32 * n)]
  else descRanges false 128 d

/-- The addresses of the lines that an entry covers (R339). -/
def pinVas (d : Nat) : List Nat := (pinRanges d).flatMap fun r => linesOf r.1 r.2

/-- A covered line whose request, or the walk for it, is held at its sender now: the tfetch waits for it (R373, R374, R378). -/
def Iss.pinWay (x : Iss) (s : State) (d : Nat) : Option Nat :=
  (pinVas d).findSome? fun va => x.heldBack s [⟨lowLane x.m, va, (x.trLane s va 1 .r false false).1⟩]

/-- A line of tfetch: its number where it translates, and whether it is filled; one whose read fails or that lies in an ABSENT tile
or an unscrubbed granule is dropped, and the tile's fetch is forced (R340, R359). -/
def pinLine (x : Iss) (va : Nat) (s : State) : Option (Nat × Bool) × State :=
  match x.trLane s va 1 .r false false with
  | (.loc h, s) =>
    let s := s.seeEpoch x.wp.core x.g.world h.epoch
    if (s.replyErr x.g.world h.pa).isSome then (none, s)
    else if h.sint.isSome && !s.freeAt (coreDie x.wp.core) x.g.world [(0, va)] then
      (some (h.pa / 128, false), s.forceTile x.g.world va)
    else if s.unscr h.pa then (some (h.pa / 128, false), s)
    else
      (some (h.pa / 128, true), (s.setAD (coreDie x.wp.core) x.g.world va h.leaf false).touchL2 x.g.world h.pa 0 .no .no)
  | (_, s) => (none, s)

/-- Entries of a core's pin table that are held. -/
def Core.pinsHeld (c : Core) : Nat := (c.pins.filter fun p => p.held).length

/-- A pin takes up a line that its tfetch found; a held entry holds a filled one, unless 12 ways of its set are held already
(R339). -/
def State.pinFound (s : State) (x : Iss) (d k : Nat) (filled : Bool) : State :=
  let hold := filled && s.mayHold x.g.world k
  let put (p : Pin) : Pin :=
    if p.names x.g.world x.wp.gid d then
      { p with
        lines := if p.lines.contains k then p.lines else p.lines ++ [k]
        holds := if hold && p.held && !p.holds.contains k then p.holds ++ [k] else p.holds }
    else p
  s.onCore x.wp.core fun c => { c with pins := c.pins.map put }

/-- Fills the lines of an entry, each of them held as soon as it is filled (R339, R340). -/
def pinFill (x : Iss) (d : Nat) : List Nat → State → State
  | [], s => s
  | va :: vs, s =>
    match pinLine x va s with
    | (some (k, filled), s) => pinFill x d vs (s.pinFound x d k filled)
    | (none, s) => pinFill x d vs s

/-- The aligned words of a pinned descriptor, by virtual word, as an mma on a core of the die would read them now; a word of an
unscrubbed granule reads 0 (R341, R364). -/
def State.pinWords (s : State) (die : Nat) (p : Pin) : List (Nat × List Byte) :=
  (pinVas p.desc).flatMap fun va =>
    match s.windowOf p.world va, (s.xlate die p.world va .r false).1 with
    | none, .ok h =>
      if (s.replyErr p.world h.pa).isSome || (h.sint.isSome && !s.freeAt die p.world [(0, va)]) then []
      else (upTo (va / 4) 32).map fun k =>
        (k, if s.unscr h.pa then [0, 0, 0, 0] else s.hbmBytes (s.key p.world).key (h.pa / 128 * 128 + 4 * (k % 32)) 4)
    | _, _ => []

/-- The values of a pin's words that it has not kept yet join those that an mma may read (R341). -/
def State.seePins (s : State) : State :=
  { s with cores := s.cores.mapV fun n c =>
      if c.pins.isEmpty then c
      else { c with pins := c.pins.map fun p =>
              { p with old := p.old ++ (s.pinWords (coreDie n) p).filter fun e => !p.old.contains e } } }

/-- The scrub bits of granules are set: until they are scrubbed no instruction cache, L1 or pin answers with what they held
(R364). -/
def State.setScrub (s : State) (gs : List Nat) : State :=
  let hit (pa : Nat) : Bool := gs.contains (granOf pa)
  let gone (n : Nat) (p : Pin) : List Nat := (pinVas p.desc).filter fun va =>
    match (s.xlate (coreDie n) p.world va .r false).1 with
    | .ok h => hit h.pa
    | _ => false
  { s with
    unscrubbed := gs.foldl (fun t g => t.put g true) s.unscrubbed
    cores := s.cores.mapV fun n c =>
      { c with
        l1 := c.l1.keep fun k _ => !hit (k / 2048 * 32)
        ic := c.ic.filter fun l => !hit (32 * l.line)
        pins := c.pins.map fun p =>
          let vas := gone n p
          { p with old := p.old.filter fun o => !vas.contains (o.1 / 32 * 128) } } }

/-- The pin of a descriptor, in the table where held: its lines are filled and held, and the values that an mma may read from
now on are kept (R340, R341). -/
def State.pinNow (s : State) (x : Iss) (d : Nat) (held : Bool) : State :=
  let mine (p : Pin) : Bool := p.names x.g.world x.wp.gid d
  let p := ((s.core x.wp.core).pins.find? mine).getD ⟨x.g.world, x.wp.gid, d, false, [], [], []⟩
  let s := s.onCore x.wp.core fun c =>
    if p.held then c else { c with pins := (c.pins.filter fun k => !mine k) ++ [{ p with held := held }] }
  (pinFill x d (pinVas d) s).seePins

/-- Takes the entry of the group's oldest held descriptor from it. -/
def dropOldest (gid : Nat) : List Pin → List Pin
  | [] => []
  | p :: ps => if p.gid = gid ∧ p.held then { p with held := false, holds := [] } :: ps else p :: dropOldest gid ps

/-- The effect of tfetch at issue: it reads its descriptor and enters the engine (R323, R340). -/
def tfetchEffect (i : Instr) (a : BitVec 6) (x : Iss) (s : State) : State := s.enqueueMat x i [] [x.pinDesc s a]

/-- tfetch (R340). -/
def execTfetch (c : Ctl) (a : BitVec 6) (s : State) : Host.Outcome State Fault Refusal :=
  softWord (.tfetch c a) s (tfetchEffect (.tfetch c a) a)

/-- tfetch completes, with its descriptor pinned. -/
def tfetchDone (d : Nat) (held : Bool) (x : Iss) (s : State) : State := (s.pinNow x d held).matRetire x

/-- tfetch waits for an entry apart from the engine's queue, which goes on (R340). -/
def State.awaitEntry (s : State) (x : Iss) (d : Nat) : State :=
  match x.q with
  | none => s
  | some q => { s with waits := s.waits.upd q fun y => { y with kind := .tfetch, since := x.clk, stat := [(5, d)] } }

/-- tfetch at the head of the engine takes its entry: none, its own again, a free one, or its group's oldest; without one it
waits, and it stays where a covered line cannot be reached now (R340, R373). -/
def tfetchComplete (op : MatOp) (x : Iss) (s : State) : State :=
  let d := op.addrs.getD 0 0
  let c := s.core x.wp.core
  if descSp d then s.matRetire x
  else
  match x.pinWay s d with
  | some pa => s.matStay x [(1, pa)]
  | none =>
  if (c.pins.any fun p => p.names x.g.world x.wp.gid d && p.held) || decide (c.pinsHeld < 16) then tfetchDone d true x s
  else if c.pins.any fun p => p.gid == x.wp.gid && p.held then
    tfetchDone d true x (s.onCore x.wp.core fun c => { c with pins := dropOldest x.wp.gid c.pins })
  else s.awaitEntry x d

/-- The effect of tunpin at issue (R323, R340). -/
def tunpinEffect (i : Instr) (a : BitVec 6) (x : Iss) (s : State) : State := s.enqueueMat x i [] [x.pinDesc s a]

/-- tunpin (R340). -/
def execTunpin (c : Ctl) (a : BitVec 6) (s : State) : Host.Outcome State Fault Refusal :=
  issueWord (.tunpin c a) s noEmpty noPre (tunpinEffect (.tunpin c a) a)

/-- tunpin completes: the entry of its descriptor is released (R340, R341). -/
def tunpinComplete (op : MatOp) (x : Iss) (s : State) : State :=
  let d := op.addrs.getD 0 0
  (s.onCore x.wp.core fun c => { c with pins := c.pins.filter fun p => !p.names x.g.world x.wp.gid d }).matRetire x

/-! ### Counters (R342) -/

/-- The counter that mmstat reads (R342). -/
def mmCounter (r : MmCtr) (x : Iss) (s : State) : Nat :=
  let k := x.g.mmc.getD x.wp.tier ⟨0, 0, 0⟩
  match r with
  | .skip => k.skip
  | .mma => k.mma
  | .busy => k.busy
  | .pin => ((s.core x.wp.core).pins.filter fun p => p.held && p.gid == x.wp.gid).length

/-- The effect of mmstat at issue. -/
def mmstatEffect (i : Instr) (x : Iss) (s : State) : State := s.enqueueMat x i [] []

/-- mmstat (R342). -/
def execMmstat (c : Ctl) (r : MmCtr) (d : Dst) (s : State) : Host.Outcome State Fault Refusal :=
  issueWord (.mmstat c r d) s noEmpty noPre (mmstatEffect (.mmstat c r d))

/-- mmstat completes. -/
def mmstatComplete (r : MmCtr) (d : Dst) (x : Iss) (s : State) : State :=
  (s.putD x.w x.m d 1 (mmCounter r x s)).matRetire x

/-! ### Completion (R323) -/

/-- What an instruction waits for at the head of the engine before its first access: its warp's accesses, for one whose engine
reads or writes global memory (R158, R162, R332). -/
def needsStores (i : Instr) (op : MatOp) : Bool :=
  match i with
  | .mma .. => true
  | .accld _ _ glb _ _ | .accst _ _ glb _ _ _ _ => glb
  | .tfetch .. => !descSp (op.addrs.getD 0 0)
  | _ => false

/-- mmstat reads its counter after the earlier instructions of its warp, a tfetch that waits for an entry among them (R342). -/
def State.statReady (s : State) (i : Instr) (w : Nat) : Bool :=
  match i with
  | .mmstat .. => s.waits.all fun e => e.2.w != w || e.2.kind != .tfetch
  | _ => true

/-- The instruction at the head of the engine can do its work: nothing stands in its way, and the reads that it has started
are answered. -/
def State.matReady (s : State) (y : Wait) (op : MatOp) (x : Iss) : Bool :=
  if (y.stat.find 3).isSome then !op.vals.isEmpty
  else s.statReady y.ins x.w && s.freeAt (coreDie x.wp.core) x.g.world y.stat &&
    (!needsStores y.ins op || x.wp.stores == 0 && x.wp.loads == 0)

/-- The instruction at the head of a core's engine does its work. -/
def matRun (i : Instr) (op : MatOp) (x : Iss) (s : State) : State :=
  match i with
  | .mma _ fs _ acc zsk _ d _ _ => mmaComplete fs acc zsk d op x s
  | .mmz _ d => mmzComplete d x s
  | .accmov _ d a => accmovComplete d a x s
  | .accld _ t glb d _ => accldComplete i t glb d op x s
  | .accst _ t glb shd rm d a => accstComplete i t glb shd rm d a op x s
  | .mmstat _ r d => mmstatComplete r d x s
  | .tfetch .. => tfetchComplete op x s
  | .tunpin .. => tunpinComplete op x s
  | _ => s

end Sys2Proof.Machine
end

