-- ==== Sys2Proof/Machine/Unit.lean ====
section
/-!
DEFINITION. The unit instructions (R410 to R416): rflv, boost, bstat, pgate and wrec.
-/

namespace Sys2Proof.Machine

/-- The partition of a world (R218). -/
def State.worldPart (s : State) (world : Nat) : Option Nat := (s.ctxs.find world).map fun c => c.part

/-- The partition record of a world. -/
def State.partOf (s : State) (world : Nat) : Option Part := (s.worldPart world).bind s.parts.find

/-- rflv (R411). -/
def execRflv (c : Ctl) (d : Dst) (s : State) : Host.Outcome State Fault Refusal :=
  issueWord (.rflv c d) s noEmpty noPre
    (oneEffect .variable d 1 fun x s => Res.of (((s.partOf x.g.world).map fun p => p.reef).getD 0))

/-- The effect of boost: the request waits for its decision (R412). -/
def boostEffect (i : Instr) (a : Dst) (x : Iss) (s : State) : State :=
  let v := (x.reg s (lowLane x.m) a 0).toNat
  if v = 0 ∨ 4095 < v then s.raise x (x.flt 6 x.m v 0) 0 else s.block x i .boost [(0, v)]

/-- boost (R412). -/
def execBoost (c : Ctl) (lvl : BitVec 2) (d a : Dst) (s : State) : Host.Outcome State Fault Refusal :=
  issueWord (.boost c lvl d a) s noEmpty noPre (boostEffect (.boost c lvl d a) a)

/-- The bstat word (R413). -/
def bstatWord (x : Iss) (s : State) : Nat :=
  let lbr := ((s.partOf x.g.world).map fun p => p.lbr).getD 0
  min (lbr / 256) (2 ^ 40 - 1) * 2 ^ 24 + ((x.g.grant.map fun k => k.left).getD 0) % 4096 * 2 ^ 5 +
    ((x.g.grant.map fun k => if k.left = 0 then 0 else k.lvl).getD 0) % 4 * 2 ^ 3 + x.g.lastBoost % 8

/-- bstat (R413). -/
def execBstat (c : Ctl) (d : Dst) (s : State) : Host.Outcome State Fault Refusal :=
  issueWord (.bstat c d) s noEmpty noPre (oneEffect .variable d 2 fun x s => Res.of (bstatWord x s))

/-! ### Gating (R414) -/

/-- The upper core of a core's column. -/
def upperCore (n : Nat) : Nat := 2 * coreCol n + 1

/-- A lane that cannot be a candidate: exited, parked or blocked (R287, R414). -/
def Lane.still (ln : Lane) : Bool := ln.exited || ln.parked || ln.wait.isSome

/-- A lane stands still for a gate: it has exited, is parked, or is blocked in a waiting instruction. A wait for the accesses of its
warp alone, as that of exit for its stores, is none (R414, R426). -/
def State.gateStill (s : State) (ln : Lane) : Bool :=
  ln.exited || ln.parked || match ln.wait with
    | none => false
    | some q => match s.waits.find q with
      | none => true
      | some y => match y.kind with
        | .drain | .access => false
        | .ending => ln.own.any fun f => f.count != 0
        | _ => true

/-- A core is quiet: its lanes are parked or blocked, FIFOs 0 and 1 of its column are empty, and its engines hold no
instruction; a tcopy has retired when its copy begins (R190, R414). -/
def State.quiet (s : State) (n : Nat) : Bool :=
  (s.warps.all fun e => e.2.core != n || e.2.lanes.all s.gateStill) &&
  (s.groups.all fun e => !(e.2.pair && e.2.onCores && e.2.coreList.contains n) ||
    (e.2.vfifo.getD 0 []).isEmpty && (e.2.vfifo.getD 1 []).isEmpty) &&
  (s.core n).matq.isEmpty

/-- A group of another world is on the core (R414). -/
def State.otherWorld (s : State) (world n : Nat) : Bool :=
  s.groups.any fun e => e.2.world != world && (e.2.onCores || e.2.inPlace) && e.2.coreList.contains n

/-- The gate request of a group on core n: its answer, and what it does (R414). -/
def State.gateOn (s : State) (gid world n : Nat) : Nat × State :=
  let c := s.core n
  let resting := match c.rest with
    | .resting _ _ => true
    | _ => false
  if resting || c.drain || s.otherWorld world n then (3, s)
  else
    match c.gate with
    | .gated _ _ => (1, s)
    | .waking t k => (0, s.onCore n fun c => { c with gate := .waking t (some (k.getD gid)) })
    | .pending k => if s.quiet n then (1, s.onCore n fun c => { c with gate := .gated k 0 }) else (0, s)
    | .open =>
      if s.quiet n then (1, s.onCore n fun c => { c with gate := .gated gid 0 })
      else (0, s.onCore n fun c => { c with gate := .pending gid })

/-- The effect of pgate.on (R414). -/
def pgateOnEffect (d : Dst) (x : Iss) (s : State) : State :=
  let (v, s) := s.gateOn x.wp.gid x.g.world (upperCore x.wp.core)
  oneEffect .variable d 1 (fun _ _ => Res.of v) x s

/-- pgate.on (R414). -/
def execPgateOn (c : Ctl) (d : Dst) (s : State) : Host.Outcome State Fault Refusal :=
  issueWord (.pgateOn c d) s noEmpty noPre (pgateOnEffect d)

/-- The effect of pgate.off (R414). -/
def pgateOffEffect (d : Dst) (x : Iss) (s : State) : State :=
  oneEffect .variable d 1 (fun _ _ => Res.of 2) x (s.openGate (upperCore x.wp.core))

/-- pgate.off (R414). -/
def execPgateOff (c : Ctl) (d : Dst) (s : State) : Host.Outcome State Fault Refusal :=
  issueWord (.pgateOff c d) s noEmpty noPre (pgateOffEffect d)

/-! ### wrec (R415) -/

/-- The field of a record. -/
def Wear.field (w : Wear) (k : WKind) : Nat :=
  match k with
  | .bsu => w.bsu
  | .hsu => w.hsu
  | .esu => w.esu

/-- The value of wrec for unit u, as of the last completed tick (R415). -/
def State.wrecVal (s : State) (world u : Nat) (k : WKind) : Nat :=
  let outside := decide (u < 640) && world != 1024 && s.corePart (u % 320) != s.worldPart world
  if 816 < u ∨ outside then 2 ^ 64 - 1 else (s.lastWear u).field k

/-- wrec (R415). -/
def execWrec (c : Ctl) (k : WKind) (d a : Dst) (s : State) : Host.Outcome State Fault Refusal :=
  softWord (.wrec c k d a) s
    (oneEffect .variable d 2 fun x s => Res.of (s.wrecVal x.g.world (x.reg s (lowLane x.m) a 0).toNat k))

end Sys2Proof.Machine
end

