-- ==== Sys2Proof/Machine/Reissue.lean ====
section
/-!
DEFINITION. What the events of the machine share: an event that is not enabled changes nothing (log 5); which warps are
stopped (R208, R296); gates that an event opens (R414); and a waiting instruction that issues again (R241, R317).
-/

namespace Sys2Proof.Machine

/-- An event: without supply nothing happens (R408). -/
def event (s : State) (f : State → State) : Host.Outcome State Fault Refusal :=
  .next (if s.power = .off then s else f s)

/-! ### Stopped warps -/

/-- An instruction whose wait is a stop point (R296). -/
def standing : Instr → Bool
  | .await .. | .tqpush .. | .tqpop .. | .cntwait .. | .bar .. | .barWait .. | .ralloc .. | .vput .. | .vget .. | .tcwait .. => true
  | .ldsp _ _ _ fe _ _ _ _ => fe
  | _ => false

/-- Lane ln waits in y, and y is a stop point for it; one that ends waits as await does while a frame of its iteration is not done,
and not while the accesses of its warp alone hold it (R276, R296; log 102). -/
def Wait.stopPoint (y : Wait) (ln : Lane) : Bool :=
  if y.kind = .ending then ln.own.any fun f => f.count != 0 else standing y.ins

/-- Every lane of the warp has exited, is parked, or stands in a wait that is a stop point (R296). -/
def State.stands (s : State) (wp : Warp) : Bool :=
  wp.lanes.all fun ln => ln.exited || match ln.wait with
    | some q => ((s.waits.find q).map fun y => y.stopPoint ln).getD false
    | none => ln.parked

/-- Slots that a world holds (R203). -/
def State.slotsOf (s : State) (world : Nat) : Nat := (s.slots.filter fun e => e.2.world == world && e.2.st != .free).length

/-- Slot n is FREE (R222). -/
def State.slotFree (s : State) (n : Nat) : Bool := ((s.slots.find n).map fun k => k.st == .free).getD true

/-- The slot that a save of a world takes, where it can take one (R203, R224); no allotment bounds the hypervisor's world
(log 82). -/
def State.takeSlot (s : State) (world : Nat) : Option Nat :=
  let ok := match s.ctxs.find world with
    | some c => decide (s.slotsOf world < c.allot)
    | none => world == 1024
  if ok then (upTo 0 s.nslots).find? s.slotFree else none

/-- A warp of the group stays stopped where it stands: a slot can be taken for the group, or its context is in ERROR or the supply
fails, so that it does not run on (R198, R224, R408; log 130). -/
def State.staysStopped (s : State) (world : Nat) : Bool :=
  (s.takeSlot world).isSome || s.cstate world == .error || s.power == .failing

/-- The warps of a group with a pending pre-emption request stop where they stand (R296); while no slot can be taken the group runs
on, and its waits are not frozen (R224; log 130). -/
def State.markStops (s : State) (gid : Nat) : State :=
  match s.groups.find gid with
  | none => s
  | some g =>
    if g.preempt && s.staysStopped g.world then
      { s with warps := s.warps.mapV fun _ w => if w.gid == gid && s.stands w then { w with stopped := true } else w }
    else s

/-! ### Gates -/

/-- Some lane of a core could be a candidate (R414). -/
def State.moves (s : State) (core : Nat) : Bool :=
  s.warps.any fun e => e.2.core == core && !(e.2.lanes.all Lane.still)

/-- Waits that end at the events of R414: a FIFO put, a barrier release, a tile-queue step, a counter, await completion, or a copy's
completion. -/
def rouses : WKindW → Bool
  | .vget | .bar | .tqpush | .tqpop | .counter | .await | .tcwait | .fe => true
  | _ => false

/-- One of those events has made a lane of a core a candidate (R414). -/
def State.roused (s : State) (core : Nat) (s' : State) : Bool :=
  s.warps.any fun e => e.2.core == core &&
    (e.2.lanes.zip (((s'.warps.find e.1).map fun w => w.lanes).getD [])).any fun l =>
      ((l.1.wait.bind s.waits.find).map fun y => rouses y.kind).getD false && !l.2.still

/-- What an event makes of a core: one that would make a lane a candidate opens its gate, and is held until the wake ends; a pending
request lapses at such an event (R414, R426). -/
def State.gated (s : State) (core : Nat) (s' : State) : State :=
  match (s.core core).gate with
  | .gated _ _ => if s'.moves core then s.openGate core else s'
  | .waking _ _ => if s'.moves core then s else s'
  | .pending _ => if s.roused core s' then s'.openGate core else s'
  | .open => s'

/-- The core of a warp. -/
def State.warpCore (s : State) (w : Nat) : Nat := ((s.warps.find w).map fun wp => wp.core).getD 0

/-! ### Waiting instructions -/

/-- Executes a waiting instruction again, with the registers as they are (R241, R317; log 6). -/
def reissueBody (i : Instr) (x : Iss) (s : State) : State :=
  match i with
  | .ld _ t _ n d a off => ldEffect i t n d a off x s
  | .st _ t _ n d a off => stEffect i t n d a off x s
  | .ldk _ t _ n d a off => ldkEffect i t n d a off x s
  | .waita _ _ d a off => waitaEffect i d a off x s
  | .wake _ a off => wakeEffect i a off x s
  | .pfetch _ ch a off => pfetchEffect i ch a off x s
  | .evict _ ch a off => evictEffect i ch a off x s
  | .atom _ t op o d a off => atomEffect i false op t o d a off x s
  | .red _ t op o d a off => redEffect i false op t o d a off x s
  | .vatom _ t op o d a off => atomEffect i true op t o d a off x s
  | .vred _ t op o d a off => redEffect i true op t o d a off x s
  | .bar _ b => barEffect i b x s
  | .barArrive _ b => barArriveEffect i b x s
  | .barWait _ b => barWaitEffect i b x s
  | .flagrd _ d => flagrdEffect i d x s
  | .tcopy _ out shd tag cnv d a b => tcopyEffect i out shd tag cnv d a b x s
  | .tcwait _ tag => tcwaitEffect i tag x s
  | .ralloc _ n => rallocEffect i n x s
  | .vput _ f a => vputEffect i f a x s
  | .vget _ f d => vgetEffect i f d x s
  | .klaunch _ d a => klaunchEffect i d a x s
  | .publish _ a b => publishEffect i a b x s
  | .sfetch _ a => sfetchEffect i a x s
  | .sevict _ a => sevictEffect i a x s
  | .sstat _ d a => sstatEffect i d a x s
  | .tqpush _ q b => tqpushEffect i q b x s
  | .tqpop _ d q => tqpopEffect i d q x s
  | .tqtry _ gs d q => tqtryEffect i gs d q x s
  | .cntsig _ set a b => cntsigEffect i set a b x s
  | .cntwait _ a b => cntwaitEffect i a b x s
  | .ldsp _ t n fe clr d a off => ldspEffect i t n fe clr d a off x s
  | .stsp _ t n fe d a off => stspEffect i t n fe d a off x s
  | .feset _ a off => fesetEffect i a off x s
  | .spawn _ d a b => spawnEffect i d a b x s
  | _ => s

/-- A waiting instruction issues again, where its warp runs and what it waits for may have come. -/
def State.reissue (s : State) (q : Nat) (ok : Wait → Iss → Bool) : State :=
  match s.waits.find q, s.issWait q with
  | some y, some x =>
    if s.runs y.w && ok y x then s.gated x.wp.core (reissueBody y.ins x s) else s
  | _, _ => s

end Sys2Proof.Machine
end

