-- ==== Sys2Proof/Machine/Place.lean ====
section
/-!
DEFINITION. The group dispatcher: room on cores and eligibility (R257), wear scores (R258), priority and shares (R259 to
R261), placement of new groups (R256, R284 to R286, R301), pre-emption requests (R259), and the placement of a saved group
for its resume (R283).
-/

namespace Sys2Proof.Machine

/-! ### Room on cores (R257) -/

/-- Groups that hold room on core n. -/
def State.grpOn (s : State) (n : Nat) : Tbl Group :=
  s.groups.filter fun e => (e.2.onCores || e.2.inPlace) && e.2.coreList.contains n

/-- The record of a group's launch. -/
def State.recOf (s : State) (g : Group) : LRec := ((s.launches.find g.lid).map fun x => x.rc).getD LRec.blank

/-- Pool units of a group on each of its cores (R248). -/
def LRec.pool (r : LRec) : Nat := r.rf + r.sp + r.acc

/-- Tile-queue slots of a group (R239). -/
def LRec.slotSum (r : LRec) : Nat := r.tqs.foldl (fun a b => a + b) 0

/-- Groups of the launch span a pair (R257). -/
def LRec.pair (r : LRec) : Bool := decide (64 < r.groupw)

/-- Room of a core: pool units, warp places and tile-queue slots. -/
structure Room where
  pool : Nat
  places : Nat
  tqs : Nat
deriving DecidableEq, Repr

/-- Warps that occupy places of core n. -/
def State.warpsOn (s : State) (n : Nat) : Tbl Warp := s.warps.filter fun e => e.2.core == n

/-- What groups use of core n. -/
def State.usedBy (s : State) (n : Nat) (gs : Tbl Group) : Room :=
  ⟨gs.foldl (fun a e => a + (s.recOf e.2).pool) 0,
    (s.warps.filter fun e => e.2.core == n && gs.any fun g => g.1 == e.2.gid).length,
    gs.foldl (fun a e => if e.2.core = n then a + (s.recOf e.2).slotSum else a) 0⟩

/-- Core n has room for a need beside the groups gs. -/
def State.roomFor (s : State) (n : Nat) (need : Room) (gs : Tbl Group) : Bool :=
  let u := s.usedBy n gs
  decide (u.pool + need.pool ≤ 96) && decide (u.places + need.places ≤ 64) && decide (u.tqs + need.tqs ≤ 2048)

/-- What a launch places next: a new group, or a saved one. -/
inductive NextG
  | fresh
  | saved (gid : Nat)
deriving DecidableEq, Repr

/-- Warps of a group on a tier; all of them for a group on one core. -/
def State.tierWarps (s : State) (gid : Nat) (pair : Bool) (tier : Nat) : Tbl Warp :=
  s.warps.filter fun e => e.2.gid == gid && (!pair || e.2.tier == tier)

/-- What the next group needs of its own or lower core (tier 0) and of the upper core of its pair (R257, R301). -/
def State.need (s : State) (rc : LRec) (ng : NextG) (tier : Nat) : Room :=
  let w := match ng with
    | .fresh => if !rc.pair then rc.groupw else if tier = 0 then (rc.groupw + 1) / 2 else rc.groupw / 2
    | .saved gid => (s.tierWarps gid rc.pair tier).length
  ⟨rc.pool, w, if tier = 0 then rc.slotSum else 0⟩

/-- The first element with the least f. -/
def pickMin (f : Nat → Nat) : List Nat → Option Nat
  | [] => none
  | a :: as =>
    match pickMin f as with
    | none => some a
    | some b => if f a ≤ f b then some a else some b

/-! ### What a launch places next (R256) -/

/-- Groups of a launch's grid (R247). -/
def LRec.total (r : LRec) : Nat := r.ng.1 * r.ng.2.1 * r.ng.2.2

/-- Slot n lies on this die (R441). -/
def State.slotDie (s : State) (n : Nat) : Nat := 4 * n / s.nslots

/-- The die of a slot is neither reset nor isolated (R379). -/
def State.slotUp (s : State) (n : Nat) : Bool := !s.dieErr (s.slotDie n) && !s.dieHeld (s.slotDie n)

/-- A saved group is ready to resume: pre-empted, or released by RESUME_SLOT, its slot reachable (R222, R283, R379). -/
def State.readyGroup (s : State) (g : Group) : Bool :=
  (g.st == .saved || g.st == .stopped && g.ready && !g.inPlace) && (g.slot.map s.slotUp).getD false

/-- The ready groups of a launch. -/
def State.readyOf (s : State) (lid : Nat) : Tbl Group := s.groups.filter fun e => e.2.lid == lid && s.readyGroup e.2

/-- What the launch places next: the ready group of the lowest number, else its next new group (R256). -/
def State.nextGroup (s : State) (lid : Nat) (x : Launch) : Option NextG :=
  match pickMin (fun gid => ((s.groups.find gid).map fun g => g.num).getD 0) ((s.readyOf lid).map fun e => e.1) with
  | some gid => some (.saved gid)
  | none => if x.st = .dispatching ∧ x.next < x.rc.total then some .fresh else none

/-- The launch may place groups: dispatch runs, and its context is RUNNING (R196, R283, R408). -/
def State.launchLive (s : State) (x : Launch) : Bool :=
  s.power == .on && s.cstate x.world == .running && (x.st == .dispatching || x.st == .draining)

/-! ### Claims (R259, R261) -/

/-- Rooms together. -/
def Room.add (a b : Room) : Room := ⟨a.pool + b.pool, a.places + b.places, a.tqs + b.tqs⟩

/-- Launch o has the place of core n in its claim. -/
def Launch.claims (o : Launch) (n : Nat) : Bool :=
  match o.claim with
  | some c => c == n || o.rc.pair && c + 1 == n
  | none => false

/-- The room of core n that goes to other launches, of no lower priority, which have had groups pre-empted there (R259,
R261). -/
def State.claimed (s : State) (x : Launch) (n : Nat) : Room :=
  s.launches.foldl (fun r e =>
    if e.2.order != x.order && decide (x.prio ≤ e.2.prio) && e.2.claims n && s.launchLive e.2 then
      match s.nextGroup e.1 e.2 with
      | some ng => r.add (s.need e.2.rc ng (if e.2.rc.pair then n % 2 else 0))
      | none => r
    else r) ⟨0, 0, 0⟩

/-- A group that is on its way off its cores. -/
def Group.leaving (g : Group) : Bool := g.preempt || g.st == .stopping

/-! ### Eligibility (R257, R220, R299, R378) -/

/-- The cores of a launch's rectangle, lower tier first, in ascending column (R247). -/
def rectCores (r : Nat × Nat × Nat × Nat) : List Nat :=
  (upTo r.2.1 r.2.2.2).flatMap fun y => (upTo r.1 r.2.2.1).flatMap fun x => [2 * (16 * y + x), 2 * (16 * y + x) + 1]

/-- The column works, and its cluster has its place in CLUSTER_OK: no group is ever placed elsewhere (R16). -/
def State.usable (s : State) (col : Nat) : Bool := !s.colBad.contains col && s.clusterOk.getLsbD (colCluster col)

/-- The core is not resting or marked, not gated, not drained, on a die that is up, in a usable column, and its column is
not barred for the launch (R16, R257, R374, R378, R393, R395). -/
def State.coreUp (s : State) (x : Launch) (n : Nat) : Bool :=
  let c := s.core n
  c.rest == .no && (match c.gate with
    | .open => true
    | .pending _ => true
    | _ => false) && !c.drain && !s.dead.contains (coreDie n) && (s.warm.find (coreDie n)).isNone &&
    s.usable (coreCol n) && !x.barred.contains (coreCol n)

/-- The core holds no unposted fault record of the world (R220). -/
def State.noRecord (s : State) (world n : Nat) : Bool := s.evq.all fun e => e.src != n || e.kind != 1 || e.ring != ringOf world

/-- The core's store takes the records of a resuming group (R264), and its token is free where the group holds it (R299). -/
def State.takesBack (s : State) (ng : NextG) (pair : Bool) (n tier : Nat) : Bool :=
  match ng with
  | .fresh => true
  | .saved gid =>
    let recs := match (s.groups.find gid).bind fun g => g.slot.bind s.slots.find with
      | some sl => sl.recs.length
      | none => 0
    (tier != 0 || decide (s.recsTaken n + recs ≤ storeSize)) &&
      ((s.tierWarps gid pair tier).all fun e => e.2.emer.isNone || (s.core n).emer.isNone)

/-- Core n, as tier `tier` of its place, is eligible for the next group of a launch (R257); the room that is freed for
another launch stays for it (R259). -/
def State.eligible (s : State) (x : Launch) (ng : NextG) (n tier : Nat) : Bool :=
  let need := s.need x.rc ng tier
  s.coreUp x n && s.noRecord x.world n && s.takesBack ng x.rc.pair n tier && s.roomFor n need (s.grpOn n) &&
    s.roomFor n (need.add (s.claimed x n)) ((s.grpOn n).filter fun e => !e.2.leaving)

/-- The core, or the pair by its lower core, is eligible (R257). -/
def State.placeOk (s : State) (x : Launch) (ng : NextG) (n : Nat) : Bool :=
  if x.rc.pair then n % 2 == 0 && s.eligible x ng n 0 && s.eligible x ng (n + 1) 1 else s.eligible x ng n 0

/-! ### Wear scores (R258) -/

/-- The wear score of a core, as a ratio to 2.2 * 10^9 BSU, from its record as of the last completed tick (R258). -/
def State.wearScore (s : State) (n : Nat) : Nat :=
  let w := s.lastWear n
  max w.bsu (max (2 * w.hsu) (4 * w.esu))

/-- The score of the core, or of the pair by its lower core. -/
def State.score (s : State) (pair : Bool) (n : Nat) : Nat :=
  if pair then max (s.wearScore n) (s.wearScore (n + 1)) else s.wearScore n

/-- The eligible core or pair with the lowest score, and the lowest column and tier among equals (R258). -/
def State.bestPlace (s : State) (x : Launch) (ng : NextG) : Option Nat :=
  pickMin (s.score x.rc.pair) ((rectCores x.rc.rect).filter (s.placeOk x ng))

/-- A launch with something to place and where it would go. -/
structure Cand where
  lid : Nat
  x : Launch
  ng : NextG
  core : Nat
deriving Repr

/-- The launches that have an eligible place for their next group. -/
def State.cands (s : State) : List Cand :=
  s.launches.filterMap fun e =>
    if s.launchLive e.2 then
      match s.nextGroup e.1 e.2 with
      | none => none
      | some ng => (s.bestPlace e.2 ng).map fun n => ⟨e.1, e.2, ng, n⟩
    else none

/-! ### Priority and shares (R259 to R261) -/

/-- The cores of a place. -/
def Cand.cores (c : Cand) : List Nat := if c.x.rc.pair then [c.core, c.core + 1] else [c.core]

/-- The cores on which a launch could place its next group. -/
def State.couldUse (s : State) (c : Cand) (n : Nat) : Bool :=
  if c.x.rc.pair then s.placeOk c.x c.ng (n / 2 * 2) && (rectCores c.x.rc.rect).contains (n / 2 * 2)
  else s.placeOk c.x c.ng n && (rectCores c.x.rc.rect).contains n

/-- No launch of higher priority could use the place (R259, R261). -/
def State.offered (s : State) (cs : List Cand) (c : Cand) : Bool :=
  cs.all fun o => decide (o.x.prio ≤ c.x.prio) || c.cores.all fun n => !s.couldUse o n

/-- The weight of a partition (R217). -/
def State.weight (s : State) (p : Nat) : Nat := max 1 (((s.parts.find p).map fun k => k.weight).getD 1)

/-- The round robin of die d at a priority, begun again where the set of pending partitions has changed (R260). -/
def State.turnOf (s : State) (d prio : Nat) (ps : List Nat) : Turn :=
  let t := s.rr.getD (d * 8 + prio) ⟨[], 0, [], []⟩
  if t.parts = ps then t else ⟨ps, 0, [], t.last⟩

/-- The partition may be served next: not ahead of its share, and the first to fall due of those (R260; log 19). -/
def State.partTurn (s : State) (t : Turn) (p : Nat) : Bool :=
  let tot := t.parts.foldl (fun a q => a + s.weight q) 0
  let due (q : Nat) : Bool := decide (t.counts.getD q 0 * tot ≤ t.n * s.weight q)
  due p && t.parts.all fun q =>
    !due q || decide ((t.counts.getD p 0 + 1) * s.weight q ≤ (t.counts.getD q 0 + 1) * s.weight p)

/-- How far function w is after the one served last (R260). -/
def Turn.after (t : Turn) (p w : Nat) : Nat := (w + 1024 + 1024 - t.last.getD p 1023 - 1) % 1024

/-- The candidates of one die at one priority. -/
def State.peers (s : State) (cs : List Cand) (c : Cand) : List Cand :=
  cs.filter fun o => o.x.prio == c.x.prio && coreDie o.core == coreDie c.core && s.offered cs o

/-- The partition of a launch's context. -/
def State.candPart (s : State) (c : Cand) : Nat := (s.worldPart c.x.world).getD 0

/-- The partitions with pending groups on the die of a candidate, in ascending order. -/
def State.pendingParts (s : State) (cs : List Cand) (c : Cand) : List Nat :=
  (upTo 0 20).filter fun p => (s.peers cs c).any fun o => s.candPart o == p

/-- The dispatcher may place this candidate next (R259, R260). -/
def State.mayPlace (s : State) (cs : List Cand) (c : Cand) : Bool :=
  let p := s.candPart c
  let t := s.turnOf (coreDie c.core) c.x.prio (s.pendingParts cs c)
  let mine := (s.peers cs c).filter fun o => s.candPart o == p
  s.offered cs c && s.partTurn t p && (mine.all fun o => decide (t.after p c.x.world ≤ t.after p o.x.world)) &&
    mine.all fun o => o.x.world != c.x.world || decide (c.x.order ≤ o.x.order)

/-- The placement of a candidate is counted (R260). -/
def State.countTurn (s : State) (cs : List Cand) (c : Cand) : State :=
  let p := s.candPart c
  let k := coreDie c.core * 8 + c.x.prio
  let t := s.turnOf (coreDie c.core) c.x.prio (s.pendingParts cs c)
  let t' : Turn := ⟨t.parts, t.n + 1, t.counts.put p (t.counts.getD p 0 + 1), t.last.put p c.x.world⟩
  { s with rr := s.rr.put k t' }

/-! ### Placing warps (R284, R286) -/

/-- The lowest warp place of core n that no warp holds. -/
def State.freePlace (s : State) (n : Nat) : Nat :=
  ((upTo 0 64).find? fun p => (s.warpsOn n).all fun e => e.2.place != p).getD 64

/-- The quadrant of core n with the fewest warps, the lower number first (R286). -/
def State.freeQuad (s : State) (n : Nat) : Nat :=
  (pickMin (fun q => ((s.warpsOn n).filter fun e => e.2.quad == q).length) [0, 1, 2, 3]).getD 0

/-- A warp at its start (R284): its lanes as given. -/
def Warp.start (gid : Nat) (isTask : Bool) (ident : Ident) (lanes : List Lane) (yield : Nat) : Warp where
  gid := gid
  isTask := isTask
  core := 320
  tier := 0
  place := 64
  quad := 0
  ident := ident
  k := []
  uhaz := []
  ka := [0, 0, 0, 0]
  lanes := lanes
  yield := yield
  stores := 0
  loads := 0
  shd := 0
  matOut := 0
  held := 0
  emer := none
  saved := 0
  bars := []
  tags := []
  trapcause := 0
  trapaddr := 0
  score := []
  redo := []
  lastIssue := 0
  gapUntil := 0
  give := 0
  deferred := none
  stopped := false
  idleSince := 0

/-- A warp takes a place and a quadrant of core n (R286). -/
def State.seat (s : State) (w : Nat) (n : Nat) : State :=
  let p := s.freePlace n
  let q := s.freeQuad n
  let c := (s.core n).clk
  s.onWarp w fun wp =>
    { wp with
      core := n, tier := n % 2, place := p, quad := q, lastIssue := c, gapUntil := c, idleSince := c, give := 0
      deferred := none }

/-- The core of warp i of a group of W warps whose own or lower core is n (R301). -/
def warpHome (rc : LRec) (n i : Nat) : Nat := if rc.pair && decide ((rc.groupw + 1) / 2 ≤ i) then n + 1 else n

/-- Adds warps i, i + 1, … of a new group, each seated (R284, R286, R301). -/
def State.addWarps (s : State) (gid num n : Nat) (rc : LRec) : Nat → Nat → State
  | _, 0 => s
  | i, k + 1 =>
    let (w, s) := s.newId
    let wp := Warp.start gid false ⟨i, rc.groupw * num + i, num⟩
      (List.replicate 32 (Lane.start (BitVec.ofNat 64 rc.entry))) (8 * rc.yield)
    let s := ({ s with warps := s.warps.put w wp }).seat w (warpHome rc n i)
    let s := s.onGroup gid fun g => { g with warps := g.warps ++ [w] }
    State.addWarps s gid num n rc (i + 1) k

/-- The tile queues at dispatch (R240). -/
def startQueues (tqs : List Nat) : Tbl TileQ :=
  (((upTo 0 tqs.length).zip tqs).filter fun e => e.2 != 0).map fun e => (e.1, ⟨e.2, [], e.2⟩)

/-- A group at dispatch (R284, R313, R322). -/
def Group.start (lid : Nat) (x : Launch) (n : Nat) : Group where
  lid := lid
  num := x.next
  world := x.world
  core := n
  pair := x.rc.pair
  st := .resident
  warps := []
  gflags := 0
  traparm := x.rc.arm
  spad := []
  fe := []
  tiles := []
  tqs := startQueues x.rc.tqs
  bars := []
  xw := 0
  vfifo := []
  preempt := false
  pend := none
  frec := none
  inPlace := false
  mmc := []
  grant := none
  lastBoost := 0
  slot := none
  ready := false

/-- The cores on which a group of a context ran (R209). -/
def State.ranOn (s : State) (world : Nat) (ns : List Nat) : State :=
  s.onCtx world fun c => { c with cores := c.cores ++ ns.filter fun n => !c.cores.contains n }

/-- Dispatch and resume are acquire points on each core of the group (R168). -/
def State.acquireAll (s : State) (world : Nat) (ns : List Nat) : State := ns.foldl (fun s n => s.acquire n world) s

/-- Makes the next new group of a launch resident (R256, R283, R284). -/
def State.placeNew (s : State) (c : Cand) : State :=
  let (gid, s) := s.newId
  let s := { s with groups := s.groups.put gid (Group.start c.lid c.x c.core) }
  let s := s.addWarps gid c.x.next c.core c.x.rc 0 c.x.rc.groupw
  let s := s.onLaunch c.lid fun x =>
    { x with next := x.next + 1, claim := none, st := if x.next + 1 = x.rc.total then .draining else x.st }
  (s.ranOn c.x.world c.cores).acquireAll c.x.world c.cores

/-- The candidate of a launch, where it has a place for its next group. -/
def State.candOf (cs : List Cand) (lid : Nat) : Option Cand := cs.find? fun c => c.lid == lid

/-- GROUP_PLACEMENT (R256 to R261). -/
def execGroupPlacement (lid : Nat) (s : State) : Host.Outcome State Fault Refusal :=
  event s fun s =>
    let cs := s.cands
    match State.candOf cs lid with
    | none => s
    | some c => if c.ng = .fresh ∧ s.mayPlace cs c then (s.countTurn cs c).placeNew c else s

/-! ### Pre-emption (R259, R283) -/

/-- A group is asked to stop: it is STOPPING, and its warps stop where they stand (R283, R296). A request for a group of a
DEPARTING context, or one that is no longer on its cores, is dropped (R210, R261). -/
def State.askStop (s : State) (gid : Nat) : State :=
  match s.groups.find gid with
  | none => s
  | some g =>
    if s.cstate g.world = .departing then s
    else if g.st = .resident then
      (s.onGroup gid fun g => { g with st := .stopping, preempt := true }).markStops gid
    else if g.st = .resuming ∨ g.st = .stopping then s.onGroup gid fun g => { g with preempt := true }
    else s

/-- Every group of which p holds is asked to stop. -/
def State.askAll (s : State) (p : Group → Bool) : State :=
  s.groups.foldl (fun s e => if p e.2 then s.askStop e.1 else s) s

/-- Groups of the cores of a place with lower priority than p, and the others. -/
def State.lowerOn (s : State) (p : Nat) (e : Nat × Group) : Bool :=
  decide (((s.launches.find e.2.lid).map fun x => x.prio).getD 8 < p) && (e.2.st == .resident || e.2.st == .stopping)

/-- The core could take the next group once the groups of which gone holds have left it. -/
def State.wouldFit (s : State) (x : Launch) (ng : NextG) (n tier : Nat) (gone : Nat × Group → Bool) : Bool :=
  s.coreUp x n && s.noRecord x.world n && s.takesBack ng x.rc.pair n tier &&
    s.roomFor n ((s.need x.rc ng tier).add (s.claimed x n)) ((s.grpOn n).filter fun e => !gone e)

/-- The core or pair could take the next group once some groups have left. -/
def State.placeFits (s : State) (x : Launch) (ng : NextG) (n : Nat) (gone : Nat × Group → Bool) : Bool :=
  if x.rc.pair then n % 2 == 0 && s.wouldFit x ng n 0 gone && s.wouldFit x ng (n + 1) 1 gone else s.wouldFit x ng n 0 gone

/-- Groups on a place. -/
def State.grpsAt (s : State) (x : Launch) (n : Nat) : Tbl Group :=
  if x.rc.pair then
    let a := s.grpOn n
    a ++ (s.grpOn (n + 1)).filter fun e => a.all fun k => k.1 != e.1
  else s.grpOn n

/-- The priority of a group's launch. -/
def State.prioOf (s : State) (g : Group) : Nat := ((s.launches.find g.lid).map fun x => x.prio).getD 8

/-- The lowest priority among the groups of a place. -/
def State.lowestAt (s : State) (x : Launch) (n : Nat) : Nat :=
  (s.grpsAt x n).foldl (fun a e => min a (s.prioOf e.2)) 8

/-- The place that R259 chooses for a launch whose next group nothing can hold. -/
def State.victimPlace (s : State) (x : Launch) (ng : NextG) : Option Nat :=
  let ps := (rectCores x.rc.rect).filter fun n =>
    s.placeFits x ng n (s.lowerOn x.prio) && (s.grpsAt x n).any (s.lowerOn x.prio)
  pickMin (fun n => s.lowestAt x n * 2 ^ 80 + s.score x.rc.pair n) ps

/-- The place on which a launch has groups pre-empted: the one that it claims, while it would do, or the one that R259
chooses. -/
def State.wanted (s : State) (x : Launch) (ng : NextG) : Option Nat :=
  match x.claim with
  | some n => if s.placeFits x ng n (s.lowerOn x.prio) then some n else s.victimPlace x ng
  | none => s.victimPlace x ng

/-- Group gid is the next that a launch has pre-empted, at this place: of the lowest priority there among those not yet
asked, while the room freed by those asked is not enough (R259). -/
def State.victimAt (s : State) (lid gid : Nat) (x : Launch) : Option Nat :=
  match s.nextGroup lid x with
  | none => none
  | some ng =>
    if !s.launchLive x || (s.bestPlace x ng).isSome then none
    else
      (s.wanted x ng).filter fun n =>
        let asked (e : Nat × Group) : Bool := e.2.leaving
        let left := (s.grpsAt x n).filter fun e => s.lowerOn x.prio e && !asked e
        !s.placeFits x ng n asked && match left.find? fun e => e.1 == gid with
          | none => false
          | some g => left.all fun e => decide (s.prioOf g.2 ≤ s.prioOf e.2)

/-- The launch of the highest priority that has group gid pre-empted, and the place that it is to have (R259). -/
def State.victimOf (s : State) (gid : Nat) : Option (Nat × Nat) :=
  let ls := s.launches.filterMap fun e => (s.victimAt e.1 gid e.2).map fun n => (e.2.prio, e.1, n)
  ls.foldl (fun best c => match best with
    | none => some c
    | some b => if b.1 < c.1 then some c else some b) none |>.map fun c => c.2

/-- PRE_EMPTION_REQUEST (R259): the launch claims the place. -/
def execPreEmptionRequest (g : Nat) (s : State) : Host.Outcome State Fault Refusal :=
  event s fun s =>
    match s.victimOf g with
    | none => s
    | some (lid, n) => (s.onLaunch lid fun x => { x with claim := some n }).askStop g

/-! ### Resume (R261, R283) -/

/-- The tile words of a group on one core that resumes on the other tier. -/
def moveTiles (t : Tbl Word) (old new : Nat) : Tbl Word := t.map fun e => (e.1 + new * 65536 - old * 65536, e.2)

/-- A warp that holds the kept-back block takes the token of its core again (R299). -/
def State.retoken (s : State) (gid : Nat) : State :=
  (s.warps.filter fun e => e.2.gid == gid && e.2.emer.isSome).foldl
    (fun s e => s.onCore e.2.core fun c => { c with emer := some gid }) s

/-- A saved group takes its place: its warps keep their tiers in a pair, its slot is RESUMING (R222, R301). -/
def State.placeSaved (s : State) (c : Cand) (gid : Nat) : State :=
  let ws := s.warps.filter fun e => e.2.gid == gid
  let old := ((ws.head?).map fun e => e.2.tier).getD 0
  let s := ws.foldl (fun s e => s.seat e.1 (if c.x.rc.pair then c.core + e.2.tier else c.core)) s
  let s := s.onGroup gid fun g =>
    { g with
      st := .resuming, core := c.core, ready := false
      tiles := if c.x.rc.pair then g.tiles else moveTiles g.tiles old (c.core % 2) }
  let s := s.onLaunch c.lid fun x => { x with claim := none }
  let s := match (s.groups.find gid).bind fun g => g.slot with
    | some n => { s with slots := s.slots.upd n fun k => { k with st := .resuming } }
    | none => s
  (s.retoken gid).ranOn c.x.world c.cores

/-- GROUP_RESUME (R256, R259, R261, R283). -/
def execGroupResume (g : Nat) (s : State) : Host.Outcome State Fault Refusal :=
  event s fun s =>
    let cs := s.cands
    match cs.find? fun c => c.ng == .saved g with
    | none => s
    | some c => if s.mayPlace cs c then (s.countTurn cs c).placeSaved c g else s

end Sys2Proof.Machine
end

