-- ==== Sys2Proof/Machine/Save.lean ====
section
/-!
DEFINITION. Caldera slots (R222 to R224, R441): the save of a group, its stop by a fault (R208), the deferred save, the end
of a group, and the end of a resume (R223, R283); the task dispatcher Halyard (R267 to R271).
-/

namespace Sys2Proof.Machine

/-! ### Quiescence (R194, R208) -/

/-- The warp belongs to the group. -/
def State.isOf (s : State) (gid w : Nat) : Bool := ((s.warps.find w).map fun wp => wp.gid == gid).getD false

/-- The group's accesses, copies and matrix-port instructions, a waiting tfetch among them, are done; an access kept for the
resume does not count (R176, R194, R208, R343). -/
def State.groupQuiet (s : State) (gid : Nat) : Bool :=
  (s.txns.all fun e => !s.isOf gid e.2.w || s.isKept e.1 e.2) &&
    (s.waits.all fun e => !s.isOf gid e.2.w || e.2.kind != .tfetch) &&
    s.cores.all fun e => (e.2.copies.all fun c => c.gid != gid) && e.2.matq.all fun o => !s.isOf gid o.w

/-- Every warp of the group has stopped or ended (R296). -/
def State.allStopped (s : State) (gid : Nat) : Bool := s.warps.all fun e => e.2.gid != gid || e.2.stopped || e.2.over

/-- Every warp of the group is at a stop point or has ended (R296). -/
def State.allAtStops (s : State) (gid : Nat) : Bool :=
  s.warps.all fun e => e.2.gid != gid || e.2.stopped || e.2.over || s.stands e.2

/-! ### What a save keeps (R223) -/

/-- The waits of a group end: a sleeping waita returns SPURIOUS, and every other instruction stands before its issue
(R185, R245, R296). -/
def State.dropWaits (s : State) (gid : Nat) : State :=
  s.waits.foldl (fun s e =>
    if s.isOf gid e.2.w then (if e.2.kind = .sleep then s.waitaEnd e.1 else s.unblock e.1) else s) s

/-- What a slot keeps of a lane (R223). -/
def Lane.kept (ln : Lane) : Lane :=
  { ln with
    haz := [], barUntil := 0, starve := 0, wait := none, since := 0, helped := false, ra := [], rb := []
    ending := if ln.ending = some true then some true else none }

/-- What a slot keeps of a warp (R223): no core, and no result on its way. -/
def Warp.kept (w : Warp) : Warp :=
  { w with
    core := 320, place := 64, uhaz := [], lanes := w.lanes.map Lane.kept, stopped := false, deferred := none
    score := w.score.filter fun h => h.tx.isSome }

/-- The records that a group owns, in every store (R264). -/
def State.recsOf (s : State) (gid : Nat) : List TRec := s.cores.flatMap fun e => e.2.recs.filter fun r => r.owner == gid

/-- The group's records leave the stores (R264). -/
def State.takeRecs (s : State) (gid : Nat) : State :=
  { s with cores := s.cores.mapV fun _ c => { c with recs := c.recs.filter fun r => r.owner != gid } }

/-- The warps of a group, by their numbers. -/
def State.warpsOf (s : State) (gid : Nat) : List Nat := (s.warps.filter fun e => e.2.gid == gid).map fun e => e.1

/-- Saves a group to slot n (R223); the registers of blocks that R275 released are read back from the core's area. -/
def State.saveTo (s : State) (gid n : Nat) (st : GState) (ss : SlState) : State :=
  let s := (s.warpsOf gid).foldl (fun s w => s.fromArea w) (s.dropWaits gid)
  let world := ((s.groups.find gid).map fun g => g.world).getD 0
  let recs := s.recsOf gid
  let s := (s.takeRecs gid).leaveCores gid
  { s with
    warps := s.warps.mapV fun _ w => if w.gid = gid then w.kept else w
    groups := s.groups.upd gid fun g =>
      { g with st := st, slot := some n, inPlace := false, preempt := false, pend := none, ready := false, mmc := [] }
    slots := s.slots.put n ⟨ss, world, some gid, recs⟩ }

/-- Every warp of a group stops at its instruction boundary (R198). -/
def State.stopWarps (s : State) (gid : Nat) : State :=
  { s with warps := s.warps.mapV fun _ w => if w.gid = gid then { w with stopped := true } else w }

/-- GROUP_SAVE (R223, R224, R296): with every warp stopped and the group quiet it is saved; where no slot can be taken it
runs on, but in a context in ERROR (R198) and after a power-fail warning (R408) it stays stopped in place. -/
def execGroupSave (g : Nat) (s : State) : Host.Outcome State Fault Refusal :=
  event s fun s =>
    match s.groups.find g with
    | none => s
    | some gr =>
      if gr.st = .stopping ∧ gr.preempt ∧ gr.pend.isNone ∧ s.allAtStops g then
        match s.takeSlot gr.world with
        | none =>
          if s.staysStopped gr.world then s
          else { s with warps := s.warps.mapV fun _ w => if w.gid = g then { w with stopped := false } else w }
        | some n => if s.allStopped g && s.groupQuiet g && s.slotUp n then s.saveTo g n .saved .held else s
      else s

/-! ### Groups that end (R208) -/

/-- The group counts as retired and as ENDED (R208). -/
def State.countEnded (s : State) (lid : Nat) : State :=
  s.onLaunch lid fun x => { x with retired := x.retired + 1, ended := x.ended + 1 }

/-- Nothing of a group is left: its waits, accesses, copies, engine instructions, monitors, records, warps and room (R198,
R208, R209, R279). -/
def State.wipeGroup (s : State) (gid : Nat) : State :=
  let mine (w : Nat) : Bool := s.isOf gid w
  let qs := (s.waits.filter fun e => mine e.2.w).map fun e => e.1
  let s1 := (s.takeRecs gid).leaveCores gid
  { s1 with
    waits := s1.waits.filter fun e => !mine e.2.w
    txns := s1.txns.filter fun e => !mine e.2.w
    monitors := s1.monitors.filter fun m => !qs.contains m.q
    cores := s1.cores.mapV fun _ c =>
      { c with copies := c.copies.filter fun y => y.gid != gid, matq := c.matq.filter fun o => !mine o.w }
    warps := s1.warps.filter fun e => e.2.gid != gid }

/-- A group is ended (R208): it is wiped and counted. -/
def State.endGroup (s : State) (gid : Nat) : State :=
  match s.groups.find gid with
  | none => s
  | some g =>
    ((s.wipeGroup gid).onGroup gid fun g =>
      { g with st := .ended, inPlace := false, pend := none, slot := none }).countEnded g.lid

/-- Posts the fault record of a group, with a slot (0xffff for none) and further LVL bits; the source is the group's own
or lower core (R205, R220, R221). -/
def State.postRecord (s : State) (g : Group) (slot extra : Nat) (f : FRec) : State :=
  match s.launches.find g.lid with
  | none => s
  | some x => s.raiseEvent (faultEvent g.core g x slot extra f)

/-- A group is ended by WATCHDOG without a save: it is wiped, and counts once its record is posted (R208, R224). -/
def State.endNoSlot (s : State) (gid : Nat) : State :=
  (s.wipeGroup gid).onGroup gid fun g => { g with st := .ended, inPlace := false, pend := none, slot := none }

/-- A group stops on its cores, because no slot can be taken (R224). -/
def State.stopInPlace (s : State) (gid : Nat) (f : FRec) : State :=
  let s := (s.dropWaits gid).onGroup gid fun k =>
    { k with st := .stopped, inPlace := true, preempt := false, pend := none, frec := some f }
  { s with cores := s.cores.mapV fun _ c => { c with pins := c.pins.filter fun p => p.gid != gid } }

/-- The group of a fault is saved and its record posted; without a slot it stops in place, or, by WATCHDOG, ends at once
(R208, R224). DESIGN CHOICE (log 133): a group that WATCHDOG ends posts its fault record alone, with LVL bit 6, and no KIND 2 event
beside it. -/
def State.stopNow (s : State) (gid : Nat) (gr : Group) (f : FRec) : State :=
  match s.takeSlot gr.world with
  | some n =>
    if f.cls = 14 then (s.saveTo gid n .ended .ended).postRecord gr n 64 f
    else ((s.saveTo gid n .stopped .held).onGroup gid fun k => { k with frec := some f }).postRecord gr n 0 f
  | none =>
    if f.cls = 14 then (s.endNoSlot gid).postRecord gr 0xffff 64 f else (s.stopInPlace gid f).postRecord gr 0xffff 0 f

/-- The slot that the group would be saved to can be reached (R379). -/
def State.slotReady (s : State) (world : Nat) : Bool := ((s.takeSlot world).map s.slotUp).getD true

/-- GROUP_STOP (R208, R224): the fault that is pending is taken, and the group stops. -/
def execGroupStop (g : Nat) (s : State) : Host.Outcome State Fault Refusal :=
  event s fun s =>
    match s.groups.find g with
    | none => s
    | some gr =>
      match gr.pend with
      | none => s
      | some p =>
        if gr.inPlace || !s.groupQuiet g || !s.slotReady gr.world then s else (s.takePend p).stopNow g gr p.f

/-- DEFERRED_SAVE (R224): a group stopped in place is saved, and a second record with SAVED names the slot. -/
def execDeferredSave (g : Nat) (s : State) : Host.Outcome State Fault Refusal :=
  event s fun s =>
    match s.groups.find g with
    | none => s
    | some gr =>
      match s.takeSlot gr.world, gr.frec with
      | some n, some f =>
        if gr.inPlace && s.groupQuiet g && s.slotUp n then (s.saveTo g n .stopped .held).postRecord gr n 32 f else s
      | _, _ => s

/-! ### The end of a resume (R176, R223, R283, R293) -/

/-- The permission that the units of an access need (R349). -/
def TxKind.need : TxKind → Perm
  | .load => .r
  | .store => .w
  | .atomic => .a

/-- The access writes the frame of a shadow pair that is not selected (R163, R355). -/
def toShadow : Instr → Bool
  | .accst _ _ _ shd _ _ _ => shd
  | _ => false

/-- Accesses that go to the log of an ABSENT tile, and may go to a peer window (R359, R386). -/
def logged : Instr → Bool
  | .st .. | .red .. | .vred .. => true
  | _ => false

/-- A unit of an access kept over a save is checked and translated again; one that fails now keeps its class, and its level
above it (R176, R386). -/
def State.again (s : State) (core : Nat) (t : Txn) (a : Acc) : Acc × State :=
  let wr := t.kind != .load
  match s.windowOf t.world a.va with
  | some w =>
    let ok := t.kind == .load || t.kind == .store || logged t.ins
    ({ a with
      port := some w.port, pa := w.rbase + (a.va - w.vbase), mt := 0, sm := false
      err := if ok then none else some (9 + 32 * 4) }, s)
  | none =>
    match s.xlate (coreDie core) t.world a.va t.kind.need (toShadow t.ins) with
    | (.ok h, s) =>
      let s := s.setAD (coreDie core) t.world a.va h.leaf wr
      ({ a with pa := h.pa, mt := h.mt, sm := h.sint.isSome, port := none, err := none },
        s.seeEpoch core t.world h.epoch)
    | (.bad b, s) => ({ a with port := none, err := some (b.cls + 32 * b.lvl) }, s)
    | (.held _, s) => (a, s)

/-- The units of an access kept over a save, translated again (R176). -/
def retranslate (core : Nat) (t : Txn) : List Acc → State → List Acc × State
  | [], s => ([], s)
  | a :: as, s =>
    let (a', s) := s.again core t a
    let (as', s) := retranslate core t as s
    (a' :: as', s)

/-- What an access asks of a peer device (R386). -/
def Txn.remOp (t : Txn) : RemOp :=
  match t.kind with
  | .load => .rd
  | .store => .wr
  | .atomic => .red (aopOf t.ins).1 (aopOf t.ins).2

/-- An access kept over a save goes on: an acquiring atomic keeps its lanes again (R168, R176). -/
def State.rerun (s : State) (w x : Nat) : State :=
  match s.txns.find x, s.warps.find w with
  | some t, some wp =>
    let (us, s) := retranslate wp.core t t.units s
    let (q, s) := s.newId
    let t' : Txn := { t with core := wp.core, units := us, q := if acquires t.ins then some q else none }
    let s := { s with txns := s.txns.put x t' }
    let s := s.onWarp w fun wp =>
      { wp with
        stores := wp.stores + t.owed
        loads := if t.owed = 0 then wp.loads + 1 else wp.loads }
    let s := (if logged t.ins then s else s.forceTiles t.world us).sendPeers t.world t.remOp us
    if acquires t.ins then
      let c := (s.core wp.core).clk
      let s := s.onLanes w t.m fun _ ln => { ln with wait := some q, since := c }
      { s with waits := s.waits.put q ⟨w, t.ins, t.m, t.pc, c, .access, [], false⟩ }
    else s
  | _, _ => s

/-- A quiescing die holds back a walk for an access that a group keeps (R378). -/
def State.walkHeld (s : State) (gid : Nat) : Bool :=
  s.txns.any fun e => s.isOf gid e.2.w && e.2.units.any fun a =>
    match s.warps.find e.2.w with
    | none => false
    | some wp =>
      (s.windowOf e.2.world a.va).isNone && match (s.xlate (coreDie wp.core) e.2.world a.va e.2.kind.need (toShadow e.2.ins)).1 with
        | .held _ => true
        | _ => false

/-- A warp runs on after a resume: its kept accesses, its lanes that were ending FAILED, the area of its released blocks, and
its meeting values (R176, R275, R277, R293). -/
def State.rewarp (s : State) (w : Nat) : State :=
  match s.warps.find w with
  | none => s
  | some wp =>
    let clk := (s.core wp.core).clk
    let s := ((s.txns.filter fun e => wp.redo.contains e.1).map fun e => e.1).foldl (fun s x => s.rerun w x) s
    let s := s.onWarp w fun wp => { wp with redo := [] }
    let s := laneNums.foldl (fun s l =>
      if (wp.lane l).ending = some true then s.endWait w l true endWord clk else s) s
    (s.toArea w wp.saved).settle w

/-- RESTORE_COMPLETE (R223, R264, R283): the slot is FREE and the group RESIDENT; a request that came meanwhile stops it. -/
def execRestoreComplete (g : Nat) (s : State) : Host.Outcome State Fault Refusal :=
  event s fun s =>
    match s.groups.find g with
    | none => s
    | some gr =>
      if gr.st = .resuming && !s.walkHeld g then
        let recs := ((gr.slot.bind s.slots.find).map fun k => k.recs).getD []
        let s := match gr.slot with
          | some n => { s with slots := s.slots.del n }
          | none => s
        let s := s.onCore gr.core fun c => { c with recs := c.recs ++ recs }
        let s := s.onGroup g fun k =>
          { k with st := if k.preempt then .stopping else .resident, slot := none, frec := none, mmc := [] }
        let s := (s.warps.filter fun e => e.2.gid == g).foldl (fun s e => s.rewarp e.1) s
        let s : State := (s.acquireAll gr.world gr.coreList).markStops g
        if s.cstate gr.world = .error then s.stopWarps g else s
      else s

/-! ### Halyard (R267 to R271) -/

/-- Group g can host a task warp on core n: it is resident, and its share has the blocks free (R271). -/
def State.canHost (s : State) (n : Nat) (lid : Nat) (e : Nat × Group) : Bool :=
  let rc := s.recOf e.2
  e.2.lid == lid && e.2.st == .resident && e.2.coreList.contains n &&
    decide (rc.regs / 16 ≤ s.freeBlocks e.1 n rc)

/-- The core can ask for work of a launch (R267). -/
def State.canAsk (s : State) (n lid : Nat) : Bool :=
  (s.groups.any fun e => s.canHost n lid e) && decide ((s.warpsOn n).length < 64) &&
    decide (s.recsTaken n + 40 ≤ storeSize) && s.power != .off

/-- Launch a comes before launch b: higher priority, then earlier admission (R267). -/
def State.asksFirst (s : State) (a b : Nat) : Bool :=
  match s.launches.find a, s.launches.find b with
  | some x, some y => decide (y.prio < x.prio) || x.prio == y.prio && decide (x.order ≤ y.order)
  | _, _ => true

/-- ASK_FOR_WORK (R267): the core asks for a launch, of those it can ask for and has not asked for the first. -/
def execAskForWork (core lid : Nat) (s : State) : Host.Outcome State Fault Refusal :=
  event s fun s =>
    if s.canAsk core lid && !s.asks.contains (core, lid) &&
        s.launches.all fun e => !s.canAsk core e.1 || s.asks.contains (core, e.1) || s.asksFirst lid e.1 then
      { s with asks := s.asks ++ [(core, lid)] }
    else s

/-- Record a is taken before record b: longer, then of the lower SEQ, then of the lower LO (R268). -/
def TRec.first (a b : TRec) : Bool :=
  decide (b.hi - b.lo < a.hi - a.lo) || a.hi - a.lo == b.hi - b.lo &&
    (decide (a.seq < b.seq) || a.seq == b.seq && decide (a.lo ≤ b.lo))

/-- The record that the Halyard of die d would take for a launch, with its core (R268). -/
def State.recordOn (s : State) (d lid : Nat) : Option (Nat × TRec) :=
  (s.cores.filter fun e => e.1 < 320 && coreDie e.1 == d).foldl (fun best e =>
    (e.2.recs.filter fun r => r.lid == lid).foldl (fun best r =>
      match best with
      | none => some (e.1, r)
      | some (_, b) => if r.first b && !b.first r then some (e.1, r) else best) best) none

/-- The record that serves a request: of its own die, then across x, across y, and the diagonal die (R268). -/
def State.serveRec (s : State) (d lid : Nat) : Option (Nat × TRec) :=
  [d, d ^^^ 1, d ^^^ 2, d ^^^ 3].findSome? fun k => s.recordOn k lid

/-- Splits the range [lo, hi) of a record until at most 32 iterations are left: the upper halves' bounds, the leaf first;
n splits at most (R269). -/
def splitRange (lo hi : Nat) : Nat → List (Nat × Nat)
  | 0 => [(lo, hi)]
  | n + 1 => if hi - lo ≤ 32 then [(lo, hi)] else splitRange ((lo + hi) / 2) hi n ++ [(lo, (lo + hi) / 2)]

/-- The lanes of a task warp (R270): lane l runs iteration lo + l, and the others have exited. -/
def taskLanes (r : TRec) : List Lane :=
  laneNums.map fun l =>
    if l < r.hi - r.lo then
      { Lane.start (BitVec.ofNat 64 r.entry) with
        task := some ⟨r.lo + l, r.hi, r.slo, r.shi, r.arg, r.entry, r.parent, false⟩ }
    else { Lane.start 0 with exited := true }

/-- A leaf starts as a task warp of host group gid on core n (R270, R271). -/
def State.startLeaf (s : State) (n gid : Nat) (g : Group) (r : TRec) : State :=
  let (w, s) := s.newId
  let wp := Warp.start gid true r.ident (taskLanes r) (8 * (s.recOf g).yield)
  (({ s with warps := s.warps.put w wp }).seat w n).acquire n g.world

/-- Serves a request with record r of core n0: the lower half stays, the pieces between go to the asking core's store for
the host group, and the leaf starts there (R269). -/
def State.serve (s : State) (n gid : Nat) (g : Group) (n0 : Nat) (r : TRec) : State :=
  let parts := splitRange r.lo r.hi 40
  let leaf := parts.headD (r.lo, r.hi)
  let low := parts.getLastD (r.lo, r.hi)
  let whole := decide (parts.length ≤ 1)
  let s := s.onCore n0 fun c =>
    { c with recs := if whole then c.recs.erase r else c.recs.map fun k => if k = r then { k with hi := low.2 } else k }
  let mid := if whole then [] else (parts.drop 1).dropLast
  let s := s.onCore n fun c =>
    { c with recs := c.recs ++ mid.map fun p => { r with lo := p.1, hi := p.2, owner := gid } }
  let s := s.startLeaf n gid g { r with lo := leaf.1, hi := leaf.2 }
  s.retireCheck r.owner

/-- The host that a core's request is served with: any that can host, which one is not stated (R271). -/
def State.hostFor (s : State) (n lid : Nat) : Option (Nat × Group) :=
  let hs := s.groups.filter fun e => s.canHost n lid e
  hs[s.free 7 % max 1 hs.length]?

/-- A request that can be served now: its core can ask, and there is a record. -/
def State.served (s : State) (d : Nat) (a : Nat × Nat) : Bool :=
  coreDie a.1 == d && s.canAsk a.1 a.2 && (s.serveRec d a.2).isSome

/-- HALYARD_SERVE (R268 to R271): the die's first request that can be served. -/
def execHalyardServe (die : Nat) (s : State) : Host.Outcome State Fault Refusal :=
  event s fun s =>
    match s.asks.find? (s.served die) with
    | none => s
    | some a =>
      match s.serveRec die a.2, s.hostFor a.1 a.2 with
      | some (n0, r), some (gid, g) => (({ s with asks := s.asks.erase a }).serve a.1 gid g n0 r).used
      | _, _ => s

end Sys2Proof.Machine
end

