-- ==== Sys2Proof/Machine/Engine.lean ====
section
/-!
DEFINITION. The queue engine and the event sources: accesses of a world that no lane makes, status words (R233), writes
that wait for a die or a tile (R359, R379), and EVENT_POST (R213, R219 to R221).
-/

namespace Sys2Proof.Machine

/-! ### Accesses of a world (R229, R234, R382) -/

/-- What an access of the queue engine or the mailbox finds: a physical address, a failed translation, an error reply, a
request that is held at its sender (R374; R378, step 2), or an ABSENT tile. -/
inductive EAcc
  | ok (pa : Nat)
  | bad (cls : Nat)
  | err (cls : Nat)
  | held
  | tile
deriving DecidableEq, Repr

/-- The hub as a place that requests come from, and the number under which its translations are cached. -/
def hubDie : Nat := 4

/-- Translates and checks an address for the queue engine or the mailbox (R229, R382); an ABSENT tile is fetched (R359). -/
def State.engineAt (s : State) (world va : Nat) (need : Perm) : EAcc × State :=
  match s.windowOf world va with
  | some _ => (.bad 9, s)
  | none =>
    match s.xlate hubDie world va need false with
    | (.bad b, s) => (if b.cls = 10 ∨ b.cls = 11 then .err b.cls else .bad b.cls, s)
    | (.held _, s) => (.held, s)
    | (.ok h, s) =>
      match s.replyErr world h.pa with
      | some k => (.err k, s)
      | none =>
        if s.away hubDie h.pa then (.held, s)
        else if h.sint.isSome && !s.freeAt hubDie world [(0, va)] then (.tile, s.forceTile world va)
        else (.ok h.pa, s.setAD hubDie world va h.leaf (need == .w || need == .a))

/-- An engine's read of n bytes fills the lines that they lie in (R152, R169). -/
def State.fillLines (s : State) (world pa n : Nat) : State :=
  (upTo (pa / 128) ((pa + n - 1) / 128 + 1 - pa / 128)).foldl (fun s k => s.touchL2 world (128 * k) 0 .no .no) s

/-- Reads bytes of one page at a physical address (R364). -/
def State.engineRead (s : State) (world pa n : Nat) : List Byte × State :=
  let s := (s.scrubFirst world pa).fillLines world pa n
  (s.hbmBytes (s.key world).key pa n, s)

/-- Writes bytes of one sector at its home slice (R152, R185). -/
def State.engineSector (s : State) (world pa : Nat) (bs : List Byte) : State :=
  let s := s.scrubFirst world pa
  let s := s.hbmMerge (s.key world).key pa bs
  (s.touchL2 world pa bs.length .no .no).notifyWrite pa

/-- Writes bytes from an aligned address on, 16 bytes at a time; n chunks at most. -/
def State.engineChunks (s : State) (world pa : Nat) : Nat → List Byte → State
  | _, [] => s
  | 0, _ => s
  | n + 1, bs => State.engineChunks (s.engineSector world pa (bs.take 16)) world (pa + 16) n (bs.drop 16)

/-- Writes an aligned block of at most 64 bytes. -/
def State.engineBlock (s : State) (world pa : Nat) (bs : List Byte) : State := s.engineChunks world pa 4 bs

/-! ### Writes that may wait (R379) -/

/-- Tries to write bytes of one sector; none where the write must wait. One whose translation or key fails is lost (log 36). -/
def State.tryPart (s : State) (world va : Nat) (bs : List Byte) : Option State :=
  match s.engineAt world va .w with
  | (.ok pa, s) => some (s.engineSector world pa bs)
  | (.err 11, _) => none
  | (.held, _) => none
  | (.tile, _) => none
  | (_, s) => some s

/-- Tries a write of the queue engine of at most 16 bytes, sector by sector: a DSTATUS word may straddle two sectors, and two pages
(R254); none where a part must wait. -/
def State.tryWrite (s : State) (l : Late) : Option State :=
  let k := 32 - l.va % 32
  if l.bytes.length ≤ k then s.tryPart l.world l.va l.bytes
  else (s.tryPart l.world l.va (l.bytes.take k)).bind fun s => s.tryPart l.world (l.va + k) (l.bytes.drop k)

/-- An entry whose status word is written is no longer outstanding (R230). -/
def State.entryGone (s : State) (ends : Option Nat) : State :=
  match ends with
  | none => s
  | some id => { s with entries := s.entries.del id }

/-- Makes a write of the queue engine; one that must wait is put behind those that wait already. -/
def State.tryLate (s : State) (l : Late) : State :=
  if s.late.any fun k => k.world == l.world then { s with late := s.late ++ [l] }
  else
    match s.tryWrite l with
    | some s' => s'.entryGone l.ends
    | none => { (s.forceTile l.world l.va) with late := s.late ++ [l] }

/-- A write of the queue engine. -/
def State.engineWrite (s : State) (world va : Nat) (bs : List Byte) : State :=
  s.tryLate ⟨world, va, bs, none, false⟩

/-- The writes that waited are made where they can be, in their order (R359, R379). -/
def State.flushLate (s : State) : State := s.late.foldl (fun s l => s.tryLate l) { s with late := [] }

/-! ### Entries and status words (R229, R233) -/

/-- The status word of an entry or a launch (R233). -/
def statusWord (code tag detail : Nat) : List Byte := leBytes 4 code ++ leBytes 4 tag ++ leBytes 8 detail

/-- An entry completes: it is outstanding until its status word is written (R230, R233). -/
def State.completeEntry (s : State) (id code detail : Nat) : State :=
  match s.entries.find id with
  | none => s
  | some e =>
    let s := { s with entries := s.entries.put id { e with st := .ended } }
    s.tryLate ⟨e.world, e.status, statusWord code e.tag detail, some id, false⟩

/-- Entries of the same queue that were admitted earlier (R232). -/
def State.earlier (s : State) (id : Nat) (e : Entry) : Tbl Entry :=
  s.entries.filter fun k => k.1 < id && k.2.world == e.world && k.2.q == e.q

/-- The start rules of R232: entries start in order, none passes a counter wait, and AFTER waits for completion; queues are
served while the context is RUNNING (R196). -/
def State.canStart (s : State) (id : Nat) (e : Entry) : Bool :=
  let es := s.earlier id e
  e.st == .waiting && s.cstate e.world == .running && s.power == .on &&
    (es.all fun k => k.2.st == .ended || k.2.st == .started && k.2.kind != 4) && (!e.after || es.isEmpty)

/-! ### EVENT_POST (R213, R219 to R221) -/

/-- The 64 bytes of an event entry (R221). -/
def Event.bytes (e : Event) : List Byte :=
  leBytes 4 e.seq ++ leBytes 2 e.src ++ leBytes 1 e.kind ++ leBytes 1 e.cls ++ leBytes 8 e.pc ++ leBytes 8 e.addr ++
    leBytes 4 e.lanes ++ leBytes 4 e.perf ++ leBytes 8 e.group ++ leBytes 8 e.launch ++ leBytes 2 e.slot ++
    leBytes 1 e.warp ++ leBytes 1 e.lvl ++ leBytes 4 e.info ++ leBytes 8 e.time

/-- The held leaf of a ring's page has its accessed bit, and for a write its dirty bit, before the page is used (R350). -/
def HPage.marked (p : HPage) (wr : Bool) : HPage := { p with ent := adBits p.ent wr }

/-- The page of a ring at byte offset off, and where the byte lies (R219, R228). -/
def ringPlace (ps : List HPage) (off : Nat) : HPage × Nat :=
  let p := ps.getD (off / 4096) ⟨0, 0, 0, 0⟩
  (p, p.pa + off % 4096)

/-- Sets the accessed and dirty bits of the leaf behind a held page (R350). -/
def State.markPage (s : State) (fn va : Nat) (p : HPage) (wr : Bool) : State :=
  s.setAD hubDie fn va ⟨p.lvl, p.ent, p.addr⟩ wr

/-- A world's event queue takes an entry: the context is assigned, the queue is not full, the page can be written, and no
retrain holds the MSI-X message back (R219, R220, R373). -/
def State.postCtx (s : State) (fn : Nat) (c : Ctx) (e : Event) : Option State :=
  let off := 64 * (c.eqtail % 2 ^ c.eqlog2)
  let (p, pa) := ringPlace c.eqpages off
  let full := (c.eqtail + 2 ^ 32 - c.eqhead) % 2 ^ 32 == 2 ^ c.eqlog2
  if full || c.st == .departing || (s.replyErr fn pa).isSome || s.away hubDie pa || s.hostWaits then none
  else
    let s := (s.markPage fn (c.eqbase + off) p true).engineBlock fn pa e.bytes
    some (({ s with outs := if s.hostUp then s.outs ++ [Out.msix fn c.eqvec] else s.outs } : State).onCtx fn fun c =>
      { c with
        eqtail := (c.eqtail + 1) % 2 ^ 32
        eqpages := updNth (fun p => p.marked true) (off / 4096) c.eqpages })

/-- The hypervisor event ring takes an entry (R213). -/
def State.postHyp (s : State) (e : Event) : Option State :=
  let r := s.heq
  let full := (r.tail + 2 ^ 32 - r.head) % 2 ^ 32 == 2 ^ r.log2n
  if full || !r.en || !s.hostUp then none
  else
    some { s with
      hostMem := memSets s.hostMem (r.base + 64 * (r.tail % 2 ^ r.log2n)) e.bytes
      heq := { r with tail := (r.tail + 1) % 2 ^ 32 }
      outs := s.outs ++ [Out.msix 1024 r.vec] }

/-- A ring takes an event, if it can. -/
def State.postTo (s : State) (e : Event) : Option State :=
  if e.ring = 1024 then s.postHyp e
  else
    match s.ctxs.find e.ring with
    | none => none
    | some c => s.postCtx e.ring c e

/-- An ENDED group counts for its launch once its record is posted (R208). -/
def State.posted (s : State) (e : Event) : State :=
  match e.ends with
  | none => s
  | some lid => s.countEnded lid

/-- EVENT_POST (R208, R219, R220): a source posts its next event for a ring. -/
def execEventPost (src ctx : Nat) (s : State) : Host.Outcome State Fault Refusal :=
  event s fun s =>
    match s.evq.find? fun e => e.src == src && e.ring == ctx with
    | none => s
    | some e =>
      match s.postTo e with
      | none => s
      | some s => ({ s with evq := s.evq.erase e } : State).posted e

end Sys2Proof.Machine
end

