-- ==== Sys2Proof/Machine/Launch.lean ====
section
/-!
DEFINITION. The life of a launch (R247 to R255, R167): LAUNCH_START with its checks, claim and routing, and
LAUNCH_COMPLETION.
-/

namespace Sys2Proof.Machine

/-! ### The record (R247 to R249) -/

/-- The field of n bytes at offset o of a record. -/
def recField (bs : List Byte) (o n : Nat) : Nat := leNat ((bs.drop o).take n)

/-- Format slot n of a record. -/
def recSlot (bs : List Byte) (n : Nat) : List Byte := (bs.drop (128 + 16 * n)).take 16

/-- The fields of a record; the tile-queue slot counts and the held slots are filled in by check 3 (R247, R248). -/
def LRec.ofBytes (bs : List Byte) : LRec where
  kbase := recField bs 0 8
  entry := recField bs 8 8
  trapoff := recField bs 16 4
  groupw := recField bs 20 2
  regs := recField bs 22 1
  prio := recField bs 23 1
  rf := recField bs 24 1
  sp := recField bs 25 1
  acc := recField bs 26 1
  arm := BitVec.ofNat 2 (recField bs 28 4 / 2)
  strict := recField bs 28 4 % 2 == 1
  ng := (recField bs 32 4, recField bs 36 4, recField bs 40 4)
  yield := recField bs 44 2
  rect := (recField bs 46 1, recField bs 47 1, recField bs 48 1, recField bs 49 1)
  tqs := []
  sigaddr := recField bs 64 8
  sigval := recField bs 72 8
  dstatus := recField bs 80 8
  slots := (upTo 0 8).map (recSlot bs)

/-- Warps of a group on its own or lower core (R65). -/
def LRec.w1 (r : LRec) : Nat := if r.groupw ≤ 64 then r.groupw else (r.groupw + 1) / 2

/-- The type code of an FP8 format: .e4m3 or .e5m2 (R68). -/
def fp8Code (n : Nat) : Bool := n == 0x10 || n == 0x11

/-- The type code of .f16 or .bf16 (R68). -/
def f16Code (n : Nat) : Bool := n == 0x0c || n == 0x0d

/-- The limits of a format slot at offset o, each at the lowest field that it joins (R249, R253). -/
def slotLimits (o : Nat) (b : List Byte) : List (Nat × Bool) :=
  if b.all (fun x => x == 0) then []
  else
    let a := recField b 0 1
    let bf := recField b 1 1
    let sc := recField b 2 1
    let sp := recField b 8 8
    [(o, fp8Code a || f16Code a), (o, bf == 0x14 || fp8Code a && fp8Code bf || f16Code a && bf == a),
      (o + 1, (bf == 0x14) == (sc == 2)), (o + 2, decide (sc ≤ 2)), (o + 2, if sc = 1 then sp % 8 == 0 else sp == 0),
      (o + 3, recField b 3 5 == 0)]

/-- The limits of R247 to R249 in ascending offset: each field's offset and whether it holds; sig tells whether the signal
word's page is mapped with P_W. The limit of ENTRY joins KBASE, which lies lower (R253; log 92). -/
def recLimits (bs : List Byte) (sig : Bool) : List (Nat × Bool) :=
  let r := LRec.ofBytes bs
  [(0, r.kbase != 0 && r.kbase % 64 == 0), (0, decide (r.kbase ≤ r.entry) && (r.entry - r.kbase) % 12 == 0),
    (16, r.trapoff % 12 == 0), (20, r.groupw != 0 && decide (r.groupw ≤ 128)),
    (20, decide (r.w1 * (r.regs / 16) + 1 ≤ r.rf * 8)),
    (22, r.regs % 16 == 0 && r.regs != 0 && decide (r.regs ≤ 128)), (23, decide (r.prio < 8)),
    (24, recField bs 27 1 == 0 && r.rf != 0 && decide (r.sp ≤ 32) && decide (r.acc ≤ 16) && decide (r.pool ≤ 96)),
    (28, decide (recField bs 28 4 < 8)), (32, r.ng.1 != 0 && (r.ng.2.1 == 0 || r.ng.2.2 == 0 || decide (r.total ≤ 2 ^ 40))),
    (36, r.ng.2.1 != 0), (40, r.ng.2.2 != 0), (44, r.yield != 0 && decide (r.yield ≤ 4095)),
    (46, decide (r.rect.1 + r.rect.2.2.1 ≤ 16) && decide (r.rect.2.1 + r.rect.2.2.2 ≤ 10)),
    (48, r.rect.2.2.1 != 0), (49, r.rect.2.2.2 != 0), (50, recField bs 50 6 == 0), (56, recField bs 56 8 % 32 == 0),
    (64, r.sigaddr % 8 == 0 && sig), (88, recField bs 88 40 == 0)] ++
    (upTo 0 8).flatMap fun n => slotLimits (128 + 16 * n) (recSlot bs n)

/-! ### Reads of the queue engine -/

/-- What a read of the queue engine gives: bytes, nothing readable, or a place that must be waited for (R359, R379). -/
inductive ERead
  | bytes (bs : List Byte)
  | bad
  | later
deriving DecidableEq, Repr

/-- Reads n bytes at a virtual address of a world; they lie in one page. -/
def State.engineGet (s : State) (world va n : Nat) : ERead × State :=
  match s.engineAt world va .r with
  | (.ok pa, s) =>
    let (bs, s) := s.engineRead world pa n
    (.bytes bs, s)
  | (.err 11, s) => (.later, s)
  | (.held, s) => (.later, s)
  | (.tile, s) => (.later, s)
  | (_, s) => (.bad, s)

/-- The page of an address is mapped with a permission; an address in a peer window is not, and the answer is none where the walk
has to wait for a die, as while it meets error replies (R379, R385). -/
def State.mapped (s : State) (world va : Nat) (need : Perm) : Option Bool :=
  if (s.windowOf world va).isSome then some false
  else
    match (s.xlate hubDie world va need false).1 with
    | .ok _ => some true
    | .bad b => if b.cls = 11 then none else some false
    | .held _ => none

/-! ### Start checks (R253) -/

/-- The outcome of the checks: the record, a status with its DETAIL, or a wait. -/
inductive Chk
  | pass (r : LRec)
  | fail (code detail : Nat)
  | later
deriving Repr

/-- Check 3, scales: the slots from n on in held form (R250). -/
def State.heldSlots (s : State) (world : Nat) : Nat → List (List Byte) → List (List Byte) × Option Chk × State
  | _, [] => ([], none, s)
  | n, b :: bs =>
    let (b', e, s) : List Byte × Option Chk × State :=
      if recField b 2 1 = 1 then
        match s.engineGet world (recField b 8 8) 8 with
        | (.bytes v, s) => (b.take 8 ++ v, none, s)
        | (.bad, s) => (b, some (.fail 4 (128 + 16 * n + 8)), s)
        | (.later, s) => (b, some .later, s)
      else (b, none, s)
    match e with
    | some k => ([], some k, s)
    | none =>
      let (bs', e, s) := State.heldSlots s world (n + 1) bs
      (b' :: bs', e, s)

/-- The slot counts of the tile-queue table (R239). -/
def State.queueTable (s : State) (world ptr : Nat) : List Nat × Option Chk × State :=
  if ptr = 0 then (List.replicate 32 0, none, s)
  else
    match s.engineGet world ptr 32 with
    | (.bytes bs, s) =>
      let ns := bs.map fun b => b.toNat
      if ns.any fun n => decide (64 < n) then ([], some (.fail 4 56), s) else (ns, none, s)
    | (.bad, s) => ([], some (.fail 4 56), s)
    | (.later, s) => ([], some .later, s)

/-- The columns of a rectangle, ascending. -/
def rectCols (r : Nat × Nat × Nat × Nat) : List Nat :=
  (upTo r.2.1 r.2.2.2).flatMap fun y => (upTo r.1 r.2.2.1).map fun x => 16 * y + x

/-- The link between two adjacent dies is ACTIVE. -/
def State.ddUp (s : State) (a b : Nat) : Bool := s.link (ddLink a b) == .active

/-- Dies a and b are joined: their direct link, or one of the two routes of a diagonal pair, is ACTIVE (R255). -/
def State.joined (s : State) (a b : Nat) : Bool :=
  if a ^^^ b = 3 then (s.ddUp a (a ^^^ 1) && s.ddUp (a ^^^ 1) b) || (s.ddUp a (a ^^^ 2) && s.ddUp (a ^^^ 2) b)
  else s.ddUp a b

/-- The links that the routing tables of a set of columns name are ACTIVE (R255). -/
def State.linksOk (s : State) (cols : List Nat) : Bool :=
  let dies := [0, 1, 2, 3].filter fun d => cols.any fun c => colDie c == d
  (dies.all fun d => s.link d == .active) && dies.all fun a => dies.all fun b => decide (b ≤ a) || s.joined a b

/-- The column's cluster is marked usable in CLUSTER_OK (R16, R255). -/
def State.colOk (s : State) (col : Nat) : Bool := s.clusterOk.getLsbD (colCluster col)

/-- The routing check of R255 for a set of columns: what the routing tables name reads back as written. -/
def State.routeOk (s : State) (cols : List Nat) : Bool := cols.all s.colOk && s.linksOk cols

/-- Check 2 of a record: the offset of the first limit that does not hold; a wait, where the page of the signal word cannot be
looked up yet (R247 to R249, R253). -/
def State.checkLimits (s : State) (world : Nat) (bs : List Byte) : Option Chk :=
  let r := LRec.ofBytes bs
  let first (l : List (Nat × Bool)) : Option Chk := (l.find? fun e => !e.2).map fun e => .fail 4 e.1
  match if r.sigaddr = 0 then some true else s.mapped world r.sigaddr .w with
  | none => some ((first ((recLimits bs true).takeWhile fun e => decide (e.1 < 64))).getD .later)
  | some sig => first (recLimits bs sig)

/-- Checks 2 to 5 of a record (R253). -/
def State.checkRec (s : State) (world : Nat) (bs : List Byte) : Chk × State :=
  let r := LRec.ofBytes bs
  match s.checkLimits world bs with
  | some k => (k, s)
  | none =>
    match s.queueTable world (recField bs 56 8) with
    | (_, some k, s) => (k, s)
    | (tqs, none, s) =>
      match s.heldSlots world 0 r.slots with
      | (_, some k, s) => (k, s)
      | (slots, none, s) =>
        let cols := rectCols r.rect
        let mask : BitVec 40 := ((s.partOf world).map fun p => p.mask).getD 0
        if cols.any fun c => !mask.getLsbD (colCluster c) then (.fail 4 46, s)
        else if !s.routeOk cols then (.fail 5 0, s)
        else (.pass { r with tqs := tqs, slots := slots }, s)

/-- Check 1 of a launch, which reads the record where no copy of it is held yet: klaunch has made one (R262), and a read at
the start of a launch is kept (R247, R253). -/
def State.readRecord (s : State) (lid : Nat) (x : Launch) : ERead × State :=
  if x.copy ≠ [] then (.bytes x.copy, s)
  else if x.recAddr % 256 ≠ 0 then (.bad, s)
  else
    match s.engineGet x.world x.recAddr 256 with
    | (.bytes bs, s) => (.bytes bs, s.onLaunch lid fun x => { x with copy := bs })
    | r => r

/-- The checks of a launch (R253). -/
def State.checkLaunch (s : State) (lid : Nat) (x : Launch) : Chk × State :=
  match s.readRecord lid x with
  | (.bytes bs, s) => s.checkRec x.world bs
  | (.bad, s) => (.fail 4 0, s)
  | (.later, s) => (.later, s)

/-! ### Completion (R167, R252, R254) -/

/-- The status word's address and TAG of a launch; none for no status word, of a record whose DSTATUS is 0 (R254). -/
def State.statusAt (s : State) (x : Launch) : Option (Nat × Nat) :=
  match x.entry with
  | some e => (s.entries.find e).map fun k => (k.status, k.tag)
  | none =>
    let a := if x.st == .waiting || x.st == .checking then recField x.copy 80 8 else x.rc.dstatus
    if a = 0 then none else some (a, 0)

/-- The launch reaches DONE: its status word is written, until when it is outstanding (R230, R262), its claim and routing
tables are released, and nothing of it is left but groups that an ENDED slot keeps (R222, R252, R255). -/
def State.launchDone (s : State) (lid code detail : Nat) : State :=
  match s.launches.find lid with
  | none => s
  | some x =>
    let s := match x.entry with
      | some e => s.completeEntry e code detail
      | none => match s.statusAt x with
        | some (a, tag) => s.tryLate ⟨x.world, a, statusWord code tag detail, none, true⟩
        | none => s
    { s with
      launches := s.launches.del lid
      asks := s.asks.filter fun a => a.2 != lid
      groups := s.groups.keep fun _ g => g.lid != lid || g.slot.isSome }

/-- The rules by which a launch may start: those of its queue entry, or of the device launch queue (R232, R262). -/
def State.mayStart (s : State) (lid : Nat) (x : Launch) : Bool :=
  match x.entry with
  | some id => match s.entries.find id with
    | some e => s.canStart id e
    | none => false
  | none =>
    s.cstate x.world == .running && s.power == .on &&
      s.launches.all fun e => decide (lid ≤ e.1) || e.2.world != x.world || e.2.entry.isSome || e.2.st != .waiting

/-- The launch has started (R252): it is CHECKING. -/
def State.startChecking (s : State) (lid : Nat) (x : Launch) : State :=
  let s := s.onLaunch lid fun x => { x with st := .checking }
  match x.entry with
  | some id => { s with entries := s.entries.upd id fun e => { e with st := .started } }
  | none => s

/-- LAUNCH_START (R252, R253, R255, R262): a launch that may start is checked, and claims its rectangle or completes. -/
def execLaunchStart (lid : Nat) (s : State) : Host.Outcome State Fault Refusal :=
  event s fun s =>
    match s.launches.find lid with
    | none => s
    | some x =>
      if x.st == .waiting && s.mayStart lid x || x.st == .checking && s.cstate x.world == .running then
        let s := s.startChecking lid x
        match s.checkLaunch lid x with
        | (.later, s) => s
        | (.fail code detail, s) => s.launchDone lid code detail
        | (.pass r, s) =>
          s.onLaunch lid fun x =>
            { x with
              rc := r, st := .dispatching, claimed := rectCols r.rect
              prio := if x.entry.isSome then r.prio else x.prio }
      else s

/-- A write of the queue engine that could be made now, or would be lost; where it meets an ABSENT tile, the tile is
fetched (R359, R379). -/
def State.writeReady (s : State) (world va : Nat) : Bool × State :=
  match s.engineAt world va .w with
  | (.err 11, s) => (false, s)
  | (.held, s) => (false, s)
  | (.tile, s) => (false, s)
  | (_, s) => (true, s)

/-- The signal word and the status word of a launch can be written. -/
def State.wordsReady (s : State) (x : Launch) : Bool × State :=
  let (a, s) := if x.rc.sigaddr = 0 then (true, s) else s.writeReady x.world x.rc.sigaddr
  let (b, s) := match s.statusAt x with
    | some (va, _) => s.writeReady x.world va
    | none => (true, s)
  (a && b, s)

/-- Step 3 of R167: the dirty L2 lines of a world are written back. -/
def State.writeBack (s : State) (world : Nat) : State :=
  s.l2Map fun y => if y.world = world then { y with dirty := [] } else y

/-- LAUNCH_COMPLETION (R167, R252, R254): with every group retired, write-back, the signal word, the status word. -/
def execLaunchCompletion (lid : Nat) (s : State) : Host.Outcome State Fault Refusal :=
  event s fun s =>
    match s.launches.find lid with
    | none => s
    | some x =>
      if (x.st == .draining && x.retired == x.rc.total || x.st == .completing) && s.power == .on then
        let s := (s.writeBack x.world).onLaunch lid fun x => { x with st := .completing }
        match s.wordsReady x with
        | (false, s) => s
        | (true, s) =>
          let s := if x.rc.sigaddr = 0 then s else s.engineWrite x.world x.rc.sigaddr (leBytes 8 x.rc.sigval)
          if x.ended = 0 then s.launchDone lid 1 0 else s.launchDone lid 6 x.ended
      else s

end Sys2Proof.Machine
end

