-- ==== Sys2Proof/Machine/HostEvents.lean ====
section
/-!
DEFINITION. What the host writes through the mailbox engine to BAR 0 (R213, R219, R230), and the entries of submission
queues: admission (R230 to R233), copies (R234), and signals and waits on dependence counters (R234, R237).
-/

namespace Sys2Proof.Machine

/-- The mailbox engine serves the host: the link carries requests, and there is no power-fail warning (R166, R408). -/
def State.hostOk (s : State) : Bool := s.power == .on && s.hostUp

/-- A host access through the mailbox engine. -/
def hostAccess (s : State) (f : State → State) : Host.Outcome State Fault Refusal :=
  .next (if s.hostOk then f s else s)

/-! ### Admission of submission entries (R230 to R233) -/

/-- The offsets of the fields of an entry that are not valid (R229, R233). -/
def badFields (bs : List Byte) : List Nat :=
  let kind := recField bs 0 1
  let copy := kind == 2
  (if kind = 0 ∨ 4 < kind then [0] else []) ++ (if 4 ≤ recField bs 1 1 then [1] else []) ++
    (if recField bs 2 2 ≠ 0 then [2] else []) ++ (if copy && recField bs 16 8 % 16 != 0 then [16] else []) ++
    (if copy && recField bs 24 8 % 16 != 0 then [24] else []) ++
    (if copy && (recField bs 32 8 % 16 != 0 || recField bs 32 8 == 0 || decide (2 ^ 32 < recField bs 32 8)) then [32]
      else []) ++
    (if recField bs 40 8 ≠ 0 ∨ recField bs 48 8 ≠ 0 ∨ recField bs 56 8 ≠ 0 then [40] else [])

/-- An entry that completes at its admission: only its status word is written (R233). -/
def State.refuseEntry (s : State) (world : Nat) (bs : List Byte) (code detail : Nat) : State :=
  s.engineWrite world (recField bs 8 8) (statusWord code (recField bs 4 4) detail)

/-- The event of an entry whose STATUS fails its check (R233). -/
def statusEvent (world addr : Nat) : Event :=
  { Event.blank with ring := ringOf world, src := 0xf00, kind := 1, cls := 9, addr := addr, slot := 0xffff }

/-- The fields of an entry that has been admitted (R229). -/
def entryOf (world q idx : Nat) (bs : List Byte) (lid : Option Nat) : Entry where
  world := world
  q := q
  idx := idx
  kind := recField bs 0 1
  after := recField bs 1 1 % 2 == 1
  set := recField bs 1 1 / 2 % 2 == 1
  tag := recField bs 4 4
  status := recField bs 8 8
  a := recField bs 16 8
  b := recField bs 24 8
  c := recField bs 32 8
  st := .waiting
  moved := 0
  lid := lid
  sat := false

/-- An entry that is admitted in ERROR completes with a status at once (R198). -/
def State.endedEntry (s : State) (world q idx : Nat) (bs : List Byte) (code : Nat) : State :=
  let (id, s) := s.newId
  ({ s with entries := s.entries.put id (entryOf world q idx bs none) } : State).completeEntry id code 0

/-- An admitted entry is outstanding; a launch entry makes its launch WAITING (R230, R252). -/
def State.addEntry (s : State) (world q idx : Nat) (bs : List Byte) : State :=
  let (id, s) := s.newId
  let kind := recField bs 0 1
  let (lid, s) : Option Nat × State :=
    if kind = 1 then
      let (l, s) := s.newId
      (some l, { s with launches := s.launches.put l (Launch.start world (some id) [] (recField bs 16 8) 0 l) })
    else (none, s)
  { s with entries := s.entries.put id (entryOf world q idx bs lid) }

/-- An entry read at its admission: its checks in the order of R233. In ERROR it completes with CTXERR (R198). -/
def State.admitEntry (s : State) (world q idx : Nat) (bs : List Byte) : State :=
  let st := recField bs 8 8
  let kind := recField bs 0 1
  if st % 16 ≠ 0 ∨ s.mapped world st .w ≠ some true then s.raiseEvent (statusEvent world st)
  else if s.outstanding world = s.quota world ∨
      ((kind = 3 ∨ kind = 4) ∧ s.counterOf world (recField bs 16 8) = none) then
    s.refuseEntry world bs 2 0
  else
    match badFields bs with
    | o :: _ => s.refuseEntry world bs 3 o
    | [] => if s.cstate world = .error then s.endedEntry world q idx bs 8 else s.addEntry world q idx bs

/-- The byte offset of entry idx in the ring of a queue (R228). -/
def SubQ.offset (k : SubQ) (idx : Nat) : Nat := 64 * (idx % 2 ^ k.log2n)

/-- The page and the physical address of entry idx of a queue (R228). -/
def SubQ.entryAt (k : SubQ) (idx : Nat) : HPage × Nat := ringPlace k.pages (k.offset idx)

/-- The accessed bit of the page of entry idx is set, in memory and in the held leaf (R228, R350). -/
def State.markEntry (s : State) (world q idx : Nat) (k : SubQ) : State :=
  (s.markPage world (k.base + k.offset idx) (k.entryAt idx).1 false).onCtx world fun c =>
    { c with sqs := c.sqs.upd q fun k => { k with pages := updNth (fun p => p.marked false) (k.offset idx / 4096) k.pages } }

/-- Reads and admits the entries from idx on, n of them; an entry that the key slot cannot decrypt has no effect
(log 37). -/
def State.admitAll (s : State) (world q : Nat) (k : SubQ) : Nat → Nat → State
  | _, 0 => s
  | idx, n + 1 =>
    let pa := (k.entryAt idx).2
    let s :=
      if (s.replyErr world pa).isSome then s
      else
        let (bs, s) := (s.markEntry world q idx k).engineRead world pa 64
        s.admitEntry world q (idx % 2 ^ 32) bs
    State.admitAll s world q k (idx + 1) n

/-- Outstanding entries of a queue (R230). -/
def State.queueOut (s : State) (world q : Nat) : Nat :=
  (s.entries.filter fun e => e.2.world == world && e.2.q == q).length

/-- Some entry to be read lies on a die that is held back or answers with errors, or the page of its status word cannot be
looked up yet: the write waits (R379). -/
def State.ringAway (s : State) (world : Nat) (k : SubQ) (idx n : Nat) : Bool :=
  (upTo idx n).any fun i =>
    let pa := (k.entryAt i).2
    s.dieErr (paDie pa) || s.away hubDie pa ||
      (s.mapped world (leNat (s.hbmBytes (s.key world).key (pa + 8) 8)) .w).isNone

/-- A write of a notify register; none where an entry to be read must be waited for (R230, R379). DESIGN CHOICE (log 134): a 1 in bit
32 clears NERR by its access code (R7) in every write, one with d = 0 among them, which has no other effect. -/
def State.notify (s : State) (world q v : Nat) (k : SubQ) : Option State :=
  let k := { k with nerr := k.nerr && !bitAt v 32 }
  let d := (v % 2 ^ 32 + 2 ^ 32 - k.tail) % 2 ^ 32
  let setQ (s : State) (k : SubQ) : State := s.onCtx world fun c => { c with sqs := c.sqs.put q k }
  if d = 0 then some (setQ s k)
  else if 2 ^ k.log2n - s.queueOut world q < d then some (setQ s { k with nerr := true })
  else if s.ringAway world k k.tail d then none
  else some ((setQ s { k with tail := v % 2 ^ 32 }).admitAll world q k k.tail d)

/-! ### Copies (R229, R234) -/

/-- COPY_ENTRY (R232, R234): a copy entry starts. -/
def execCopyEntry (e : Nat) (s : State) : Host.Outcome State Fault Refusal :=
  event s fun s =>
    match s.entries.find e with
    | none => s
    | some k =>
      if k.kind == 2 && s.canStart e k then { s with entries := s.entries.upd e fun k => { k with st := .started } } else s

/-- How a copy goes on: it has ended, met a failure, or must wait. -/
inductive CopyEnd | done | failed | later
deriving DecidableEq, Repr

/-- Moves the 16-byte units of a copy from offset pos on; n units at most (R229, R234). -/
def State.entryUnits (s : State) (world a b c : Nat) : Nat → Nat → CopyEnd × Nat × State
  | 0, pos => (.done, pos, s)
  | n + 1, pos =>
    if c ≤ pos then (.done, pos, s)
    else
      match s.engineAt world (a + pos) .r with
      | (.held, s) => (.later, pos, s)
      | (.tile, s) => (.later, pos, s)
      | (.ok pa, s) =>
        (match s.engineAt world (b + pos) .w with
          | (.held, s) => (.later, pos, s)
          | (.tile, s) => (.later, pos, s)
          | (.ok pb, s) =>
            let (bs, s) := s.engineRead world pa 16
            State.entryUnits (s.engineSector world pb bs) world a b c n (pos + 16)
          | (_, s) => (.failed, pos, s))
      | (_, s) => (.failed, pos, s)

/-- COPY_ENTRY_COMPLETE (R167, R233, R234): the units are moved, in one step and in ascending order (DESIGN CHOICE, log 135), the
world's dirty lines are written back as at the end of a launch, and the status word is written; a copy that must wait keeps what it
has moved. -/
def execCopyEntryComplete (e : Nat) (s : State) : Host.Outcome State Fault Refusal :=
  event s fun s =>
    match s.entries.find e with
    | none => s
    | some k =>
      if k.kind == 2 && k.st == .started && (s.cstate k.world == .running || s.cstate k.world == .suspended) then
        match s.writeReady k.world k.status with
        | (false, s) => s
        | (true, s) =>
          match s.entryUnits k.world k.a k.b k.c (k.c / 16) k.moved with
          | (.done, n, s) => (s.writeBack k.world).completeEntry e 1 n
          | (.failed, n, s) => (s.writeBack k.world).completeEntry e 6 n
          | (.later, n, s) => { s with entries := s.entries.upd e fun k => { k with moved := n } }
      else s

/-! ### Dependence counters (R232, R234, R237) -/

/-- An entry completes with OK once its status word can be written. -/
def State.entryOk (s : State) (id : Nat) (e : Entry) : State :=
  match s.writeReady e.world e.status with
  | (false, s) => s
  | (true, s) => s.completeEntry id 1 0

/-- COUNTER_SIGNAL_ENTRY (R232, R234). DESIGN CHOICE (log 89): the manual does not say when the entry counts as started; here it
starts when it takes effect, so that a later entry without AFTER waits behind it. -/
def execCounterSignalEntry (e : Nat) (s : State) : Host.Outcome State Fault Refusal :=
  event s fun s =>
    match s.entries.find e with
    | none => s
    | some k =>
      if k.kind ≠ 3 then s
      else if k.st = .started then s.entryOk e k
      else if s.canStart e k && (s.earlier e k).isEmpty then
        match s.counterOf k.world k.a with
        | none => s
        | some n =>
          let s := { s with entries := s.entries.upd e fun k => { k with st := .started } }
          (s.signal n k.set k.b).entryOk e k
      else s

/-- COUNTER_WAIT_ENTRY (R232, R234, R237). -/
def execCounterWaitEntry (e : Nat) (s : State) : Host.Outcome State Fault Refusal :=
  event s fun s =>
    match s.entries.find e with
    | none => s
    | some k =>
      if k.kind == 4 && (k.st == .started || s.canStart e k) then
        let s := { s with entries := s.entries.upd e fun k => { k with st := .started } }
        match s.counterOf k.world k.a with
        | none => s
        | some n => if k.sat || decide (k.b ≤ s.counter n) then s.entryOk e k else s
      else s

/-! ### Registers of BAR 0 (R213, R219) -/

/-- The code of a link state (R371). -/
def LkState.code : LkState → Nat
  | .down => 0
  | .active => 1
  | .retraining => 2
  | .quiescing => 3
  | .resetting => 4

/-- A free-running count h may stand in a head register: no more than the ring is between it and the tail. -/
def headOk (tail h log2n : Nat) : Bool := decide ((tail + 2 ^ 32 - h) % 2 ^ 32 ≤ 2 ^ log2n)

/-- EQHEAD_WRITE (R219). -/
def execEqheadWrite (fn v : Nat) (s : State) : Host.Outcome State Fault Refusal :=
  hostAccess s fun s =>
    match s.ctxs.find fn with
    | none => s
    | some c =>
      if c.st = .departing then { s with outs := s.outs ++ [Out.writeRefused fn] }
      else if headOk c.eqtail (v % 2 ^ 32) c.eqlog2 then s.onCtx fn fun c => { c with eqhead := v % 2 ^ 32 }
      else s

/-- GCQTAIL_WRITE (R213). -/
def execGcqtailWrite (v : Nat) (s : State) : Host.Outcome State Fault Refusal :=
  hostAccess s fun s =>
    let r := s.gcq
    let d := (v % 2 ^ 32 + 2 ^ 32 - r.tail) % 2 ^ 32
    if 2 ^ r.log2n - (r.tail + 2 ^ 32 - r.head) % 2 ^ 32 < d then s else { s with gcq := { r with tail := v % 2 ^ 32 } }

/-- A write of a ring's configuration register, with LOG2N from lo to hi (R213). -/
def Gcq.config (r : Gcq) (v lo hi : Nat) : Gcq :=
  let r := { r with vec := fieldOf v 16 12, log2n := if r.en then r.log2n else v % 32 }
  if !bitAt v 31 then { r with en := false }
  else if !r.en && decide (lo ≤ r.log2n) && decide (r.log2n ≤ hi) then { r with en := true, head := 0, tail := 0 }
  else r

/-- GCQCFG_WRITE (R213). -/
def execGcqcfgWrite (v : Nat) (s : State) : Host.Outcome State Fault Refusal :=
  hostAccess s fun s => { s with gcq := s.gcq.config v 4 12 }

/-- HEQCFG_WRITE (R213). -/
def execHeqcfgWrite (v : Nat) (s : State) : Host.Outcome State Fault Refusal :=
  hostAccess s fun s => { s with heq := s.heq.config v 6 16 }

/-- HEQHEAD_WRITE (R213, R219). -/
def execHeqheadWrite (v : Nat) (s : State) : Host.Outcome State Fault Refusal :=
  hostAccess s fun s =>
    if headOk s.heq.tail (v % 2 ^ 32) s.heq.log2n then { s with heq := { s.heq with head := v % 2 ^ 32 } } else s

/-- The base of a ring changes only while the ring is not in use (R213). DESIGN CHOICE (log 87): the manual does not say what a
value that is no multiple of 4,096 does; it is kept as written. -/
def Gcq.setBase (r : Gcq) (v : Nat) : Gcq := if r.en then r else { r with base := v % 2 ^ 64 }

/-- REGISTER_WRITE (R7, R213): GCQBASE and HEQBASE take the value; a read-only register ignores it. -/
def execRegisterWrite (off v : Nat) (s : State) : Host.Outcome State Fault Refusal :=
  hostAccess s fun s =>
    if off = 0x900 then { s with gcq := s.gcq.setBase v }
    else if off = 0x920 then { s with heq := s.heq.setBase v }
    else s

end Sys2Proof.Machine
end

