-- ==== Sys2Proof/Machine/Departure.lean ====
section
/-!
DEFINITION. The life of a context (R196 to R198), revocation of its key slot (R201), and departure (R209 to R212).
-/

namespace Sys2Proof.Machine

/-! ### Transitions (R196, R197) -/

/-- The code of a context state (R196). -/
def CState.code : CState → Nat
  | .free => 0
  | .configured => 1
  | .locked => 2
  | .running => 3
  | .suspended => 4
  | .error => 5
  | .departing => 6

/-- A context moves to a state, and the STATE event is posted (R197). -/
def State.moveCtx (s : State) (fn : Nat) (new : CState) : State :=
  let old := s.cstate fn
  (s.onCtx fn fun c => { c with st := new }).raiseEvent (stateEvent fn old.code new.code)

/-! ### Keys (R201) -/

/-- Revokes a key slot: its lines, sectors and code lines leave every cache, its pin entries are released, and the key is
zeroised (R201, R340; log 34). -/
def State.revoke (s : State) (w : Nat) : State :=
  if (s.key w).st = .revoked then s
  else
    { s.l2Keep fun y => y.world != w with
      keys := s.keys.put w ⟨.revoked, 0⟩
      cores := s.cores.mapV fun _ c =>
        { c with
          l1 := c.l1.keep fun k _ => k % 2048 != w
          ic := c.ic.filter fun l => l.world != w
          pins := c.pins.filter fun p => p.world != w } }

/-! ### Work items that end (R198, R209, R233) -/

/-- Entries of a world that are no launches. -/
def State.plainEntries (s : State) (world : Nat) (st : EState) : Tbl Entry :=
  s.entries.filter fun e => e.2.world == world && e.2.kind != 1 && e.2.st == st

/-- Launches of a world. -/
def State.launchesOf (s : State) (world : Nat) (waiting : Bool) : Tbl Launch :=
  s.launches.filter fun e => e.2.world == world && (e.2.st == .waiting) == waiting

/-- Every entry that has not started completes with a status (R198, R209). -/
def State.endWaiting (s : State) (world code : Nat) : State :=
  let s := (s.launchesOf world true).foldl (fun s e => s.launchDone e.1 code 0) s
  (s.plainEntries world .waiting).foldl (fun s e => s.completeEntry e.1 code 0) s

/-- Started copies complete with a status and the bytes copied, started counter waits with a status of their own. -/
def State.endEntries (s : State) (world code wcode : Nat) : State :=
  (s.plainEntries world .started).foldl (fun s e =>
    if e.2.kind = 2 then s.completeEntry e.1 code e.2.moved else s.completeEntry e.1 wcode 0) s

/-- Started launches complete with a status and their ENDED groups (R198, R209). -/
def State.endLaunches (s : State) (world code : Nat) : State :=
  (s.launchesOf world false).foldl (fun s e => s.launchDone e.1 code e.2.ended) s

/-! ### Groups that are discarded (R198, R209) -/

/-- A group still counts for its launch: it is neither retired nor ended. -/
def Group.live (g : Group) : Bool := g.st != .retired && g.st != .ended

/-- A running or saved group is discarded and counted as ENDED; its slot stays held, marked ENDED (R198, R208). -/
def State.discardEnded (s : State) (gid : Nat) : State :=
  match s.groups.find gid with
  | none => s
  | some g =>
    let s := s.endGroup gid
    match g.slot with
    | none => s
    | some n => { s with slots := s.slots.put n ⟨.ended, g.world, none, []⟩ }

/-- The groups of a world of which p holds are discarded and counted as ENDED. -/
def State.discardIf (s : State) (world : Nat) (p : Group → Bool) : State :=
  (s.groups.filter fun e => e.2.world == world && e.2.live && p e.2).foldl (fun s e => s.discardEnded e.1) s

/-- Every group of a world is discarded without a save; its slots stay held until they are cleared (R209). -/
def State.discardWorld (s : State) (world : Nat) : State :=
  let s := (s.groups.filter fun e => e.2.world == world).foldl (fun s e => s.wipeGroup e.1) s
  { s with
    groups := s.groups.keep fun _ g => g.world != world
    slots := s.slots.mapV fun _ k => if k.world = world then { k with gid := none, recs := [] } else k }

/-! ### ERROR (R198) -/

/-- A running group stops at its next instruction boundary, to be saved (R198). -/
def State.haltGroup (s : State) (gid : Nat) : State :=
  (s.onGroup gid fun g => { g with st := if g.st == .resident then .stopping else g.st, preempt := true }).stopWarps gid

/-- Groups of a launch that are on cores. -/
def State.runningOf (s : State) (lid : Nat) : Nat :=
  (s.groups.filter fun e => e.2.lid == lid && (e.2.onCores || e.2.inPlace)).length

/-- The groups and started work items of a context that enters ERROR with a usable key slot: groups are saved, copies and
counter waits end (R198; log 38). -/
def State.errorKey (s : State) (fn : Nat) : State :=
  let s := (s.groups.filter fun e => e.2.world == fn && e.2.onCores).foldl (fun s e => s.haltGroup e.1) s
  s.endEntries fn 8 8

/-- The same without a usable key slot: running groups are discarded, and their launches complete with CTXERR (R198). -/
def State.errorNoKey (s : State) (fn : Nat) : State :=
  let ls := (s.launchesOf fn false).filterMap fun e => if s.runningOf e.1 = 0 then none else some (e.1, s.runningOf e.1)
  let s := s.discardIf fn fun g => g.onCores || g.inPlace
  let s := ls.foldl (fun s e => s.launchDone e.1 8 e.2) s
  s.endEntries fn 8 8

/-- The same at a host link-down: every group is discarded, and started work items complete with LINKDOWN (R198, R384). -/
def State.errorLink (s : State) (fn : Nat) : State :=
  ((s.discardIf fn fun _ => true).endLaunches fn 9).endEntries fn 9 8

/-- A context that is LOCKED, RUNNING or SUSPENDED enters ERROR (R197, R198). -/
def State.toError (s : State) (fn : Nat) (linkDown : Bool) : State :=
  let st := s.cstate fn
  if st == .locked || st == .running || st == .suspended then
    let s := (s.moveCtx fn .error).endWaiting fn 8
    if linkDown then s.errorLink fn else if (s.key fn).st = .valid then s.errorKey fn else s.errorNoKey fn
  else s

/-! ### Departure (R209, R210) -/

/-- The granules of n bytes from pa on. -/
def granules (pa n : Nat) : List Nat := upTo (pa / 4096) ((n + 4095) / 4096)

/-- n bytes as the departure's walk reads them: zeros in an unscrubbed granule (R364). -/
def State.clearNat (s : State) (key pa n : Nat) : Nat := if s.unscr pa then 0 else s.hbmNat key pa n

/-- The granules that a valid leaf of level lvl reaches: its frame, or its pair's descriptor and both frames (R209). -/
def State.leafGrans (s : State) (key lvl e : Nat) : List Nat :=
  if bitAt e 9 then
    let da := frameOf e / 4096 * 16
    if s.badFrame da 16 then []
    else
      let fa := fieldOf (s.clearNat key da 8) 0 40 * 4096
      let fb := fieldOf (s.clearNat key (da + 8) 8) 0 40 * 4096
      da / 4096 :: [fa, fb].flatMap fun f => if s.badFrame f (leafSize lvl) then [] else granules f (leafSize lvl)
  else if s.badFrame (frameOf e) (leafSize lvl) then []
  else granules (frameOf e) (leafSize lvl)

/-- The granules that a table of n levels reaches (R209, step 2). -/
def State.tableGrans (s : State) (key : Nat) : Nat → Nat → List Nat
  | 0, _ => []
  | lvl + 1, t =>
    if s.badFrame t 4096 then []
    else
      t / 4096 :: (upTo 0 512).flatMap fun i =>
        let e := s.clearNat key (t + 8 * i) 8
        if !bitAt e 0 || entReserved e lvl then []
        else if bitAt e 1 then s.leafGrans key lvl e
        else State.tableGrans s key lvl (frameOf e)

/-- The end of step 2, and step 3: the granules are recorded while the key slot is VALID, and the slot is revoked (R209). -/
def State.departKey (s : State) (fn : Nat) : State :=
  let k := s.key fn
  let gs := if k.st = .valid then s.tableGrans k.key 5 ((s.root fn).getD 0) else []
  (s.onCtx fn fun c => { c with grans := gs, depart := 0 }).revoke fn

/-- Words that the queue engine still owes a world under a key slot that can be used (R235, R379). -/
def State.owesWords (s : State) (fn : Nat) : Bool := (s.key fn).st == .valid && s.late.any fun l => l.world == fn

/-- Steps 1 to 3 of the departure of a context: entries and started items complete with ABORTED, groups are discarded, and the
slot is revoked, once every status word has been written (R209, R235; log 132). -/
def State.depart (s : State) (fn : Nat) : State :=
  let s := (s.moveCtx fn .departing).endWaiting fn 7
  let s := ((s.discardWorld fn).endLaunches fn 7).endEntries fn 7 7
  if s.owesWords fn then s.onCtx fn fun c => { c with depart := 1 } else s.departKey fn

/-- Departures whose last status word has been written go on (R209, R235). -/
def State.departGo (s : State) : State :=
  (s.ctxs.filter fun e => e.2.depart == 1).foldl (fun s e => if s.owesWords e.1 then s else s.departKey e.1) s

/-- The content of a measurement block of the device: the images, the partition map with the remap table and CLUSTER_OK, the
records in MRAM, and the result of the last transport self-test (R204; log 22). -/
def State.content (s : State) (i : Nat) : List Nat :=
  let table (t : Tbl Nat) : List Nat := t.flatMap fun e => [e.1, e.2]
  if i = 1 ∨ i = 2 then [s.images.getD i 0]
  else if i = 3 then
    s.clusterOk.toNat :: (s.parts.flatMap fun e => [e.1, e.2.mask.toNat, e.2.weight]) ++ table s.colSpare
  else if i = 4 then
    (s.nvmUnits.flatMap fun e => [e.1, e.2.bsu, e.2.hsu, e.2.esu, e.2.base]) ++ table s.nvmLbr
  else if i = 6 then s.tested
  else []

/-- A measurement block changes: its digest is formed anew (R204; log 22). -/
def State.remeasure (s : State) (i : Nat) : State := { s with meas := s.meas.put i (Config.shake (s.content i)) }

/-- END_OF_CLEARING_SEQUENCE (R197, R200, R209): steps 4 to 6 have ended, and the context is FREE. Events that wait for the
function's ring stay with their sources: no event is ever discarded (R220; log 93). -/
def execEndOfClearingSequence (fn : Nat) (s : State) : Host.Outcome State Fault Refusal :=
  event s fun s =>
    match s.ctxs.find fn with
    | none => s
    | some c =>
      if c.st ≠ .departing ∨ c.depart ≠ 0 then s
      else
        let s := (s.moveCtx fn .free).setScrub c.grans
        { s with
          ctxs := s.ctxs.del fn
          entries := s.entries.keep fun _ e => e.world != fn
          keys := s.keys.del fn
          slots := s.slots.keep fun _ k => k.world != fn
          counters := s.counters.keep fun n _ => !(decide (c.cbase ≤ n) && decide (n < c.cbase + c.ccount))
          regions := s.regions.filter fun r => r.world != fn
          tcache := s.tcache.filter fun t => t.world != fn
          pubTab := s.pubTab.keep fun _ p => p.world != fn
          epochs := s.epochs.del fn
          cores := s.cores.mapV fun _ k => { k with epoch := k.epoch.del fn }
          late := s.late.filter fun l => l.world != fn
          measured := s.measured.del fn }

/-! ### Causes of ERROR (R198) -/

/-- KEY_REVOCATION (R198, R201): the slot is revoked, and its context enters ERROR. -/
def execKeyRevocation (w : Nat) (s : State) : Host.Outcome State Fault Refusal :=
  event s fun s => if decide (w ≤ 1024) && (s.key w).st != .revoked then (s.revoke w).toError w false else s

/-- IDE_INTEGRITY_FAILURE (R198, R202): the contexts of the functions that the stream carries enter ERROR. -/
def execIdeIntegrityFailure (stream : Nat) (s : State) : Host.Outcome State Fault Refusal :=
  event s fun s =>
    match s.ide.find stream with
    | none => s
    | some d => d.fns.foldl (fun s fn => s.toError fn false) s

/-- CONFIGURATION_VIOLATION (R197, R198): of a protected context. -/
def execConfigurationViolation (fn : Nat) (s : State) : Host.Outcome State Fault Refusal :=
  event s fun s => if ((s.ctxs.find fn).map fun c => c.prot).getD false then s.toError fn false else s

/-- UNCORRECTABLE_MEMORY_ERROR (R198): in the translation tables or a slot of a context. -/
def execUncorrectableMemoryError (fn : Nat) (s : State) : Host.Outcome State Fault Refusal :=
  event s fun s => s.toError fn false

end Sys2Proof.Machine
end

