-- ==== Sys2Proof/Machine/Commands.lean ====
section
/-!
DEFINITION. The commands of the hypervisor (R213 to R218): taking them from the ring, their start and checks, their
effects, and their completion records.
-/

namespace Sys2Proof.Machine

/-! ### The ring (R213 to R216) -/

/-- A command entry (R214). -/
def Cmd.ofBytes (seq : Nat) (bs : List Byte) : Cmd where
  seq := seq
  code := recField bs 0 2
  flags := recField bs 2 1
  rsv := recField bs 3 1
  tag := recField bs 4 4
  compl := recField bs 8 8
  args := (upTo 0 6).map fun n => recField bs (16 + 8 * n) 8
  st := .taken
  status := 0
  detail := 0
  value := 0
  track := []
  blk := none

/-- Operand n of a command. -/
def Cmd.arg (c : Cmd) (n : Nat) : Nat := c.args.getD n 0

/-- COMMAND_TAKE (R213): Gatchalar reads the next admitted command over the host link and advances GCQHEAD. -/
def execCommandTake (s : State) : Host.Outcome State Fault Refusal :=
  event s fun s =>
    let r := s.gcq
    if r.en && r.head != r.tail && s.hostUp && s.running then
      let bs := memBytes s.hostMem (r.base + 64 * (r.head % 2 ^ r.log2n)) 64
      let (k, s) := s.newId
      { s with cmds := s.cmds.put k (Cmd.ofBytes r.head bs), gcq := { r with head := (r.head + 1) % 2 ^ 32 } }
    else s

/-- The objects that a command names, by kind and number: 0 function or world, 1 slot, 2 partition, 3 die, 4 link, 5 port,
whose link is named by its event source (R215, R369). -/
def Cmd.objects (c : Cmd) : List (Nat × Nat) :=
  if 0x10 ≤ c.code ∧ c.code ≤ 0x16 then [(0, c.arg 0)]
  else if c.code = 0x20 ∨ c.code = 0x21 then [(0, c.arg 0), (1, c.arg 1)]
  else if c.code = 0x30 ∨ c.code = 0x31 ∨ c.code = 0x32 ∨ c.code = 0x34 then [(0, c.arg 0)]
  else if 1 ≤ c.code ∧ c.code ≤ 4 then [(2, c.arg 0)]
  else if c.code = 0x40 then [(3, c.arg 0)]
  else if c.code = 0x41 then
    if 0x420 ≤ c.arg 0 ∧ c.arg 0 ≤ 0x427 then [(4, c.arg 0), (5, c.arg 0 - 0x420)] else [(4, c.arg 0)]
  else if c.code = 0x42 then [(5, c.arg 0)]
  else []

/-- Bit 1 of FLAGS (R214). -/
def Cmd.after (c : Cmd) : Bool := bitAt c.flags 1

/-- Commands of these kinds do not wait for one another: the later one is refused while the first runs (R388; log 94). -/
def Cmd.refuses (c e : Cmd) : Bool := c.code == e.code && (c.code == 0x40 || c.code == 0x42)

/-- Command k may start: those before it have started; it waits for earlier ones where AFTER is set, and for those that
name an object of its own (R215). -/
def State.cmdReady (s : State) (k : Nat) (c : Cmd) : Bool :=
  c.st == .taken && s.cmds.all fun e =>
    decide (k ≤ e.1) || e.2.st != .taken && !c.after &&
      (c.refuses e.2 || e.2.objects.all fun o => !c.objects.contains o)

/-- The command has ended; its completion record is still to be written. -/
def State.endCmd (s : State) (k status detail value : Nat) : State :=
  { s with cmds := s.cmds.upd k fun c => { c with st := .ended, status := status, detail := detail, value := value } }

/-- The first of some fields that does not hold. -/
def firstBad (fs : List (Nat × Bool)) : Option Nat := (fs.find? fun e => !e.2).map fun e => e.1

/-- The checks of an entry: flags, reserved byte, COMPL, the operands' limits in order, and zeros elsewhere (R214, R215). -/
def Cmd.fields (c : Cmd) (limits : List (Nat × Bool)) (used : Nat) : List (Nat × Bool) :=
  [(2, decide (c.flags < 4)), (3, c.rsv == 0), (8, c.compl % 32 == 0)] ++ limits ++
    (upTo used (6 - used)).map fun n => (16 + 8 * n, c.arg n == 0)

/-- A command stands at a place. -/
def State.cmdAt (s : State) (k : Nat) (st : CmdSt) : State := { s with cmds := s.cmds.upd k fun c => { c with st := st } }

/-- A command starts: its checks, then its effect; a command that had to wait goes on with its effect (R215). -/
def runCmd (k code used : Nat) (limits : Cmd → List (Nat × Bool)) (body : Cmd → State → State) (s : State) :
    Host.Outcome State Fault Refusal :=
  event s fun s =>
    match s.cmds.find k with
    | none => s
    | some c =>
      if c.code != code || !s.running then s
      else if c.st == .paused then body c (s.cmdAt k .started)
      else if s.cmdReady k c then
        match firstBad (c.fields (limits c) used) with
        | some o => s.endCmd k 2 o 0
        | none => body c (s.cmdAt k .started)
      else s

/-- A command works on the n bytes of its block at ARG1, which it reads once (R214, R215, R218); it waits while the host link
is RETRAINING (R373), and a block that cannot be read refuses it as an operand (log 42). -/
def onBlock (k n : Nat) (c : Cmd) (s : State) (f : List Byte → State → State) : State :=
  match c.blk with
  | some bs => f bs s
  | none =>
    if s.hostWaits then s.cmdAt k .paused
    else if s.hostUp then
      let bs := memBytes s.hostMem (c.arg 1) n
      f bs { s with cmds := s.cmds.upd k fun c => { c with blk := some bs } }
    else s.endCmd k 2 24 0

/-- The configuration of the context is fixed: it is protected, and LOCKED, RUNNING or SUSPENDED (R197). -/
def State.fixedCtx (s : State) (fn : Nat) : Bool :=
  (s.cstate fn == .locked || s.cstate fn == .running || s.cstate fn == .suspended) &&
    ((s.ctxs.find fn).map fun c => c.prot).getD false

/-! ### Partitions (R26, R217, R402) -/

/-- The clusters of a mask, ascending. -/
def clusters (m : BitVec 40) : List Nat := (upTo 0 40).filter fun n => m.getLsbD n

/-- A group is resident on a cluster. -/
def State.busyCluster (s : State) (cl : Nat) : Bool :=
  s.groups.any fun e => (e.2.onCores || e.2.inPlace) && e.2.coreList.any fun n => colCluster (coreCol n) == cl

/-- 1, 2, … 40 divide this number: the unit of the currents below is 0.25 A divided by it. -/
def railUnit : Nat := 5342931457063200

/-- The current of one of n clusters with a share in watts, 4/3 share / n, in thirds of an ampere over railUnit (R402). -/
def clusterAmps (share n : Nat) : Nat := 4 * share * (railUnit / n)

/-- 900 A in the same unit. -/
def railLimit : Nat := 2700 * railUnit

/-- Assigns items, each a cluster with its current, to rails under the limit; rails are tried from a free one on (R402,
log 20). -/
def assignRails (free : Nat → Nat) : List (Nat × Nat) → List Nat → Option (List (Nat × Nat))
  | [], _ => some []
  | (cl, i) :: rest, loads =>
    [0, 1, 2, 3].findSome? fun r0 =>
      let r := (r0 + free cl) % 4
      if loads.getD r 0 + i ≤ railLimit then
        (assignRails free rest (updNth (fun x => x + i) r loads)).map fun t => (cl, r) :: t
      else none

/-- The clusters of all partitions with their currents. -/
def partAmps (parts : Tbl Part) : List (Nat × Nat) :=
  parts.flatMap fun e =>
    let cs := clusters e.2.mask
    cs.map fun cl => (cl, clusterAmps e.2.share cs.length)

/-- The rails of every cluster for some partitions: a cluster with a resident group, or of no partition, keeps its rail; none where
no assignment meets the limit (R26, R402; log 20). -/
def State.railsFor (s : State) (parts : Tbl Part) : Option (Tbl Nat) :=
  let items := partAmps parts
  let kept := items.filter fun e => s.busyCluster e.1
  let loads := kept.foldl (fun ls e => updNth (fun x => x + e.2) (s.rails.getD e.1 0) ls) [0, 0, 0, 0]
  if loads.any fun x => decide (railLimit < x) then none
  else
    (assignRails (fun cl => s.free (16 + cl)) (items.filter fun e => !s.busyCluster e.1) loads).map fun t =>
      t.foldl (fun m e => m.put e.1 e.2) s.rails

/-- What all lenders lend, in mW (R403). -/
def lent (ps : Tbl Part) : Nat := ps.foldl (fun a e => a + (1000 * e.2.share - e.2.est)) 0

/-- The shares of the partitions that borrow. -/
def borrowShares (ps : Tbl Part) : Nat := ps.foldl (fun a e => if 1000 * e.2.share < e.2.est then a + e.2.share else a) 0

/-- What a partition borrows: in proportion to the borrowers' shares; where none of them has a share the proportion is
not stated, and the loan is a free value (R403; log 72). -/
def State.borrowOf (s : State) (ps : Tbl Part) (pn : Nat) (p : Part) : Nat :=
  if 1000 * p.share < p.est then
    if borrowShares ps = 0 then s.free (100 + pn) % (lent ps + 1) else lent ps * p.share / borrowShares ps
  else 0

/-- The reef level (R404). -/
def reefLevel (est allowance : Nat) : Nat :=
  if 100 * est < 70 * allowance then 0 else if 100 * est < 90 * allowance then 1 else if est < allowance then 2 else 3

/-- A partition with a loan: its level, and how long it has been at level 3 or below, n microseconds later (R403, R404). -/
def Part.reckon (p : Part) (borrow n : Nat) : Part :=
  let r := reefLevel p.est (1000 * p.share + borrow)
  { p with
    borrow := borrow, reef := r
    at3 := if r = 3 then p.at3 + n else 0
    below3 := if r = 3 then 0 else p.below3 + n }

/-- The partitions with their loans and levels as their estimates and shares give them, n microseconds later (R403, R404). -/
def State.reckonAll (s : State) (ps : Tbl Part) (n : Nat) : Tbl Part := ps.mapV fun pn p => p.reckon (s.borrowOf ps pn p) n

/-- A partition as PARTITION makes it: its allowance is 0, so that its level is 3 (R217, R396, R403, R404). -/
def Part.start : Part where
  mask := 0
  weight := 1
  share := 0
  bw := []
  hours := 61111
  lbr := 0
  est := 0
  borrow := 0
  reef := 3
  at3 := 0
  below3 := 0
  skip := 0

/-- New partitions take effect with their rails, loans and levels, or the command is refused; map tells whether the partition
map changes (R204, R402 to R404). -/
def State.setParts (s : State) (k : Nat) (map : Bool) (parts : Tbl Part) : State :=
  match s.railsFor parts with
  | none => s.endCmd k 3 0 0
  | some rails =>
    let s := ({ s with parts := s.reckonAll parts 0, rails := rails }).used
    (if map then s.remeasure 3 else s).endCmd k 1 0 0

/-- The effect of PARTITION (R217). -/
def partitionBody (k : Nat) (c : Cmd) (s : State) : State :=
  let p := c.arg 0
  let mask := BitVec.ofNat 40 (c.arg 1)
  let old := (s.parts.find p).getD Part.start
  let taken := s.parts.any fun e => e.1 != p && e.2.mask &&& mask != 0
  let gone := clusters (old.mask &&& ~~~mask)
  let bound := s.ctxs.any fun e => e.2.st != .free && e.2.part == p
  if taken || (mask &&& ~~~s.clusterOk) != 0 || gone.any s.busyCluster || mask == 0 && bound then s.endCmd k 3 0 0
  else
    s.setParts k true (if mask = 0 then s.parts.del p else s.parts.put p { old with mask := mask, weight := c.arg 2 })

/-- PARTITION (R217, R402). -/
def execPartition (k : Nat) (s : State) : Host.Outcome State Fault Refusal :=
  runCmd k 0x0001 3 (fun c =>
    [(16, decide (c.arg 0 ≤ 19)), (24, decide (c.arg 1 < 2 ^ 40)),
      (32, if c.arg 1 = 0 then c.arg 2 == 0 else c.arg 2 != 0 && decide (c.arg 2 ≤ 255))]) (partitionBody k) s

/-- The effect of a command on a partition that exists; another is refused (log 39). -/
def onPart (k : Nat) (c : Cmd) (s : State) (f : Part → State) : State :=
  match s.parts.find (c.arg 0) with
  | none => s.endCmd k 3 0 0
  | some p => f p

/-- The effect of PSHARE (R402, R403). -/
def pshareBody (k : Nat) (c : Cmd) (s : State) : State :=
  onPart k c s fun p =>
    let parts := s.parts.put (c.arg 0) { p with share := c.arg 1 }
    if 2400 < parts.foldl (fun a e => a + e.2.share) 0 then s.endCmd k 3 0 0 else s.setParts k false parts

/-- PSHARE (R217, R403). -/
def execPshare (k : Nat) (s : State) : Host.Outcome State Fault Refusal :=
  runCmd k 0x0002 2 (fun c => [(16, decide (c.arg 0 ≤ 19)), (24, decide (c.arg 1 ≤ 2400))]) (pshareBody k) s

/-- The effect of BWSHARE (R405). -/
def bwshareBody (k : Nat) (c : Cmd) (s : State) : State :=
  onPart k c s fun p =>
    let parts := s.parts.put (c.arg 0) { p with bw := p.bw.put (c.arg 1) (c.arg 2) }
    if 3200 < parts.foldl (fun a e => a + e.2.bw.getD (c.arg 1) 0) 0 then s.endCmd k 3 0 0
    else ({ s with parts := parts }).endCmd k 1 0 0

/-- BWSHARE (R217, R405). -/
def execBwshare (k : Nat) (s : State) : Host.Outcome State Fault Refusal :=
  runCmd k 0x0003 3 (fun c =>
    [(16, decide (c.arg 0 ≤ 19)), (24, decide (c.arg 1 ≤ 7)), (32, decide (c.arg 2 ≤ 3200))]) (bwshareBody k) s

/-- The allowance A of a service-life target, in counts of 1/256 mLU (R396). -/
def lifeAllowance (h : Nat) : Nat := 256 * 2200000000000 / (h * 3600000)

/-- The effect of LIFESET (R396). -/
def lifesetBody (k : Nat) (c : Cmd) (s : State) : State :=
  onPart k c s fun p =>
    ({ s with parts := s.parts.put (c.arg 0) { p with hours := c.arg 1 } }).endCmd k 1 0 (lifeAllowance (c.arg 1))

/-- LIFESET (R217, R396). -/
def execLifeset (k : Nat) (s : State) : Host.Outcome State Fault Refusal :=
  runCmd k 0x0004 2 (fun c => [(16, decide (c.arg 0 ≤ 19)), (24, c.arg 1 != 0 && decide (c.arg 1 ≤ 2 ^ 20))])
    (lifesetBody k) s

/-- The effect of CALDSIZE: the granules that leave the store are unscrubbed (R217, R364, R441). -/
def caldsizeBody (k : Nat) (c : Cmd) (s : State) : State :=
  if (s.ctxs.any fun e => e.2.st != .free) || s.slotsHeld != 0 then s.endCmd k 3 0 0
  else
    let n := c.arg 0
    let gone := [0, 1, 2, 3].flatMap fun d =>
      granules ((d + 1) * 2 ^ 37 - s.nslots * 2 ^ 20) ((s.nslots - n) * 2 ^ 20)
    (({ s with nslots := n }).setScrub gone).endCmd k 1 0 0

/-- CALDSIZE (R217, R441). -/
def execCaldsize (k : Nat) (s : State) : Host.Outcome State Fault Refusal :=
  runCmd k 0x0005 1 (fun c => [(16, [1024, 2048, 3072, 4096].contains (c.arg 0))]) (caldsizeBody k) s

/-! ### CONFIGURE (R197, R218) -/

/-- A context with nothing assigned. -/
def Ctx.blank : Ctx where
  st := .free
  prot := false
  part := 0
  root := 0
  eqbase := 0
  eqlog2 := 0
  eqvec := 0
  eqhead := 0
  eqtail := 0
  eqpages := []
  qs := 0
  cbase := 0
  ccount := 0
  allot := 0
  abase := 0
  sqs := []
  devq := 0
  windows := []
  depart := 0
  grans := []
  cores := []

/-- The limits of a context configuration block, in ascending offset (R218). DESIGN CHOICE (log 131): a ring base that is no
multiple of 4,096 is outside its field's limits, so that it answers BADCMD and not the BADSTATE of R228. -/
def State.blockLimits (s : State) (bs : List Byte) : List (Nat × Bool) :=
  let eql := recField bs 1 1
  let qs := recField bs 4 4
  let cc := recField bs 28 4
  let al := recField bs 32 2
  [(64, (s.parts.find (recField bs 0 1)).isSome), (65, decide (6 ≤ eql) && decide (eql ≤ 16)),
    (68, qs != 0 && decide (qs ≤ 65536)), (72, recField bs 8 8 % 4096 == 0 && decide (recField bs 8 8 < hbmSize)),
    (80, recField bs 16 8 % 4096 == 0), (88, decide (recField bs 24 4 < 65536)),
    (92, cc != 0 && decide (recField bs 24 4 + cc ≤ 65536)), (96, al != 0 && decide (al ≤ 4096)),
    (98, recField bs 34 6 == 0), (104, recField bs 40 8 % 2 ^ 21 == 0), (112, recField bs 48 16 == 0)] ++
    (upTo 0 16).flatMap fun n =>
      let o := 64 + 12 * n
      let lg := recField bs (o + 8) 1
      [(64 + o, lg == 0 || recField bs o 8 % 4096 == 0), (64 + o + 8, lg == 0 || decide (4 ≤ lg) && decide (lg ≤ 16)),
        (64 + o + 9, recField bs (o + 9) 3 == 0)]

/-- What a look at the pages of a ring finds: the pages, one that is not mapped, or a walk that has to wait for a die. -/
inductive Pages (α : Type)
  | ok (x : α)
  | bad
  | later
deriving Repr

/-- The pages of n bytes from va on with their leaves, where each is mapped with a permission (R219, R228). DESIGN CHOICE (log
131): a page in a peer window counts as not mapped, and a walk that meets the error reply of a die in reset waits. -/
def State.pagesOf (s : State) (world va n : Nat) (need : Perm) : Pages (List HPage) :=
  (upTo 0 ((n + 4095) / 4096)).foldr (fun i ps =>
    let va := va + 4096 * i
    let page : Pages HPage :=
      match s.mapped world va need, (s.xlate hubDie world va need false).1 with
      | some true, .ok h => .ok ⟨h.pa, h.leaf.lvl, h.leaf.ent, h.leaf.addr⟩
      | none, _ => .later
      | _, _ => .bad
    match ps, page with
    | .bad, _ => .bad
    | _, .bad => .bad
    | .later, _ => .later
    | _, .later => .later
    | .ok ps, .ok p => .ok (p :: ps)) (.ok [])

/-- The machine as the walks of CONFIGURE see it: under the new root, with a key slot that can be used where none has been
loaded (log 40). -/
def State.underRoot (s : State) (fn root : Nat) : State :=
  { s with
    ctxs := s.ctxs.put fn { (s.ctxs.find fn).getD Ctx.blank with root := root }
    keys := if (s.key fn).st = .empty then s.keys.put fn ⟨.valid, 0⟩ else s.keys }

/-- NERR of a queue, which a CONFIGURE leaves as it is (R230). -/
def State.nerrOf (s : State) (fn q : Nat) : Bool :=
  (((s.ctxs.find fn).bind fun c => c.sqs.find q).map fun k => k.nerr).getD false

/-- The queues that a block names, with the pages of their rings (R218, R228). -/
def State.blockQueues (s : State) (fn : Nat) (bs : List Byte) : Pages (Tbl SubQ) :=
  (upTo 0 16).foldr (fun n qs =>
    let o := 64 + 12 * n
    let lg := recField bs (o + 8) 1
    if lg = 0 then qs
    else
      match qs, s.pagesOf fn (recField bs o 8) (64 * 2 ^ lg) .r with
      | .bad, _ => .bad
      | _, .bad => .bad
      | .later, _ => .later
      | _, .later => .later
      | .ok qs, .ok ps => .ok ((n, ⟨recField bs o 8, lg, 0, s.nerrOf fn n, ps⟩) :: qs)) (.ok [])

/-- Contexts other than fn that are not FREE. -/
def State.others (s : State) (fn : Nat) : Tbl Ctx := s.ctxs.filter fun e => e.1 != fn && e.2.st != .free

/-- R203 and R231: allotments fit the store, and counter ranges do not overlap. -/
def State.blockFits (s : State) (fn : Nat) (bs : List Byte) : Bool :=
  let os := s.others fn
  decide (os.foldl (fun a e => a + e.2.allot) (recField bs 32 2) ≤ s.nslots) &&
    os.all fun e => !meetRange (recField bs 24 4) (recField bs 28 4) e.2.cbase e.2.ccount

/-- Every status word that is still to be written for the entries of a world under its old assignment can be written, and none
waits already (R218, R235). -/
def State.abortReady (s : State) (fn : Nat) : Bool × State :=
  (s.entries.filter fun e => e.2.world == fn).foldl (fun r e =>
    let (b, s) := r.2.writeReady fn e.2.status
    (r.1 && b, s)) (!s.late.any fun l => l.world == fn, s)

/-- The new assignment takes effect (R197, R218, R236). -/
def State.assign (s : State) (fn : Nat) (bs : List Byte) (qs : Tbl SubQ) (eqps : List HPage) : State :=
  let old := (s.ctxs.find fn).getD Ctx.blank
  let cb := recField bs 24 4
  let cc := recField bs 28 4
  let c : Ctx :=
    { st := old.st, prot := false, part := recField bs 0 1, root := recField bs 8 8, eqbase := recField bs 16 8
      eqlog2 := recField bs 1 1, eqvec := recField bs 2 2, eqhead := 0, eqtail := 0, eqpages := eqps, qs := recField bs 4 4
      cbase := cb, ccount := cc, allot := recField bs 32 2, abase := recField bs 40 8, sqs := qs, devq := 0
      windows := old.windows, depart := 0, grans := [], cores := [] }
  let s := { s with
    ctxs := s.ctxs.put fn c
    counters := s.counters.keep fun n _ => !(decide (cb ≤ n) && decide (n < cb + cc)) }
  s.moveCtx fn .configured

/-- The effect of CONFIGURE (R197, R218). -/
def configureBody (k : Nat) (c : Cmd) (s : State) : State :=
  let fn := c.arg 0
  onBlock k 256 c s fun bs s =>
    match firstBad (s.blockLimits bs) with
    | some o => s.endCmd k 2 o 0
    | none =>
      if !(s.cstate fn == .free || s.cstate fn == .configured) || !s.blockFits fn bs then s.endCmd k 3 0 0
      else
        let t := s.underRoot fn (recField bs 8 8)
        match t.blockQueues fn bs, t.pagesOf fn (recField bs 16 8) (64 * 2 ^ recField bs 1 1) .w with
        | .bad, _ => s.endCmd k 3 0 0
        | _, .bad => s.endCmd k 3 0 0
        | .ok qs, .ok ps =>
          (match s.abortReady fn with
            | (false, s) => s.cmdAt k .paused
            | (true, s) => (((s.endWaiting fn 7).endEntries fn 7 7).assign fn bs qs ps).endCmd k 1 0 0)
        | _, _ => s.cmdAt k .paused

/-- CONFIGURE (R197, R218). -/
def execConfigure (k : Nat) (s : State) : Host.Outcome State Fault Refusal :=
  runCmd k 0x0010 2 (fun c => [(16, decide (c.arg 0 ≤ 1023)), (24, c.arg 1 % 64 == 0)]) (configureBody k) s

/-! ### The life of a context (R197) -/

/-- The limit of a command's function number. -/
def fnLimit (c : Cmd) : List (Nat × Bool) := [(16, decide (c.arg 0 ≤ 1023))]

/-- A command that moves a context from one state to another, and is refused in every other state (R197). -/
def moveBody (k : Nat) (old new : CState) (c : Cmd) (s : State) : State :=
  if s.cstate (c.arg 0) = old then (s.moveCtx (c.arg 0) new).endCmd k 1 0 0 else s.endCmd k 3 0 0

/-- LOCK (R197): of an unprotected context. -/
def execLock (k : Nat) (s : State) : Host.Outcome State Fault Refusal :=
  runCmd k 0x0011 1 fnLimit (moveBody k .configured .locked) s

/-- START (R197). -/
def execStart (k : Nat) (s : State) : Host.Outcome State Fault Refusal :=
  runCmd k 0x0012 1 fnLimit (moveBody k .locked .running) s

/-- The effect of SUSPEND: every running group receives a pre-emption request (R197). DESIGN CHOICE (log 86): the manual does
not say when the context moves; it is SUSPENDED, with its STATE event posted, from the start of the command. -/
def suspendBody (k : Nat) (c : Cmd) (s : State) : State :=
  let fn := c.arg 0
  if s.cstate fn = .running then
    let gs := (s.groups.filter fun e => e.2.world == fn && e.2.onCores).map fun e => e.1
    let s := gs.foldl (fun s g => s.askStop g) (s.moveCtx fn .suspended)
    { s with cmds := s.cmds.upd k fun c => { c with track := gs } }
  else s.endCmd k 3 0 0

/-- SUSPEND (R197). -/
def execSuspend (k : Nat) (s : State) : Host.Outcome State Fault Refusal := runCmd k 0x0013 1 fnLimit (suspendBody k) s

/-- RESUME (R197). -/
def execResume (k : Nat) (s : State) : Host.Outcome State Fault Refusal :=
  runCmd k 0x0014 1 fnLimit (moveBody k .suspended .running) s

/-- The effect of STOP: departure begins (R197, R209, R210). -/
def stopBody (k : Nat) (c : Cmd) (s : State) : State :=
  let st := s.cstate (c.arg 0)
  if st == .free || st == .departing then s.endCmd k 3 0 0 else s.depart (c.arg 0)

/-- STOP (R197, R209). -/
def execStop (k : Nat) (s : State) : Host.Outcome State Fault Refusal := runCmd k 0x0015 1 fnLimit (stopBody k) s

/-- A key slot can be loaded for function fn (R200). -/
def State.keyOpen (s : State) (fn : Nat) : Bool :=
  (s.cstate fn == .configured || s.cstate fn == .locked) && (s.key fn).st != .revoked

/-- The effect of KEY (R200). -/
def keyBody (k : Nat) (c : Cmd) (s : State) : State :=
  let fn := c.arg 0
  onBlock k 64 c s fun bs s =>
    if s.keyOpen fn && !(((s.ctxs.find fn).map fun c => c.prot).getD false) then
      ({ s with keys := s.keys.put fn ⟨.valid, leNat bs⟩ }).endCmd k 1 0 0
    else s.endCmd k 3 0 0

/-- KEY (R200, R217). -/
def execKey (k : Nat) (s : State) : Host.Outcome State Fault Refusal :=
  runCmd k 0x0016 2 (fun c => [(16, decide (c.arg 0 ≤ 1023)), (24, c.arg 1 % 64 == 0)]) (keyBody k) s

/-! ### Slots (R217, R222) -/

/-- The effect of RESUME_SLOT (R222, R283). -/
def resumeSlotBody (k : Nat) (c : Cmd) (s : State) : State :=
  match s.slots.find (c.arg 1) with
  | none => s.endCmd k 4 (c.arg 1) 0
  | some y =>
    if y.st = .held ∧ y.world = c.arg 0 then
      let s := match y.gid with
        | some g => s.onGroup g fun g => { g with ready := true }
        | none => s
      s.endCmd k 1 0 0
    else s.endCmd k 4 (c.arg 1) 0

/-- RESUME_SLOT (R217, R222). -/
def execResumeSlot (k : Nat) (s : State) : Host.Outcome State Fault Refusal :=
  runCmd k 0x0020 2 fnLimit (resumeSlotBody k) s

/-- The ENDED event of a group (R220, R221). DESIGN CHOICE (log 133): LVL is a field of fault records alone, and 0 in it. -/
def endedEvent (src slot : Nat) (g : Group) (x : Launch) : Event :=
  { Event.blank with
    ring := ringOf g.world, src := src, kind := 2, group := g.num, launch := x.recAddr, slot := slot }

/-- A group is ended, with an ENDED event from a source (R208, R220). -/
def State.endWithEvent (s : State) (src slot gid : Nat) : State :=
  match s.groups.find gid with
  | none => s
  | some g =>
    let s := match s.launches.find g.lid with
      | some x => s.raiseEvent (endedEvent src slot g x)
      | none => s
    s.endGroup gid

/-- The effect of DISCARD_SLOT (R208, R222). -/
def discardSlotBody (k : Nat) (c : Cmd) (s : State) : State :=
  let n := c.arg 1
  match s.slots.find n with
  | none => s.endCmd k 4 n 0
  | some y =>
    if y.world != c.arg 0 || !(y.st == .held || y.st == .ended) then s.endCmd k 4 n 0
    else
      let s := match y.gid with
        | none => s
        | some g =>
          if y.st == SlState.held then s.endWithEvent 0xf00 n g
          else
            let s := s.wipeGroup g
            match s.groups.find g with
            | none => s
            | some gr =>
              if (s.launches.find gr.lid).isSome then s.onGroup g fun g => { g with slot := none }
              else { s with groups := s.groups.del g }
      ({ s with slots := s.slots.del n }).endCmd k 1 0 0

/-- DISCARD_SLOT (R217, R222). -/
def execDiscardSlot (k : Nat) (s : State) : Host.Outcome State Fault Refusal :=
  runCmd k 0x0021 2 fnLimit (discardSlotBody k) s

/-! ### Translation and memory (R353, R355, R357, R364, R385) -/

/-- The limit of a command's world number. -/
def worldLimit (c : Cmd) : Nat × Bool := (16, decide (c.arg 0 ≤ 1024))

/-- The cached entry covers the range, or the whole world where n is 0 (R353). -/
def TEnt.covers (t : TEnt) (va n : Nat) : Bool :=
  n == 0 || decide (t.lvl ≤ 4) && meetRange (t.vpn * leafSize t.lvl) (leafSize t.lvl) va n

/-- The cached entries that TLBINV drops: those that cover the range, and the descriptors that its pair leaves name. -/
def State.dropCached (s : State) (world va n : Nat) : State :=
  let mine := s.tcache.filter fun t => t.world == world && t.covers va n
  let das := (mine.filter fun t => decide (t.lvl ≤ 2) && bitAt t.ent 1 && bitAt t.ent 9).map fun t => frameOf t.ent / 4096
  { s with tcache := s.tcache.filter fun t =>
      t.world != world || !(t.covers va n || decide (8 ≤ t.lvl) && das.contains t.vpn) }

/-- The accesses in flight of a world, copies and work of the matrix engine among them, that may have used a cached entry that
TLBINV drops: those that meet the range or what a dropped entry covers, all of them where n is 0 (R353). -/
def State.usersOf (s : State) (world va n : Nat) : List Nat :=
  let drops := s.tcache.filter fun t => t.world == world && decide (t.lvl ≤ 4) && t.covers va n
  let hit (a m : Nat) : Bool :=
    n == 0 || meetRange a m va n || drops.any fun t => meetRange a m (t.vpn * leafSize t.lvl) (leafSize t.lvl)
  let mine (o : MatOp) : Bool :=
    ((s.warps.find o.w).bind fun w => (s.groups.find w.gid).map fun g => g.world == world).getD false
  (s.txns.filterMap fun e =>
    if e.2.world == world && !s.isKept e.1 e.2 && e.2.units.any fun a => a.port.isNone && hit a.va a.n then some e.1 else none) ++
  s.cores.flatMap fun e =>
    (e.2.copies.filterMap fun c => if c.world == world && hit c.va (cnvGlobal c.cnv c.n) then some c.id else none) ++
    e.2.matq.filterMap fun o => if mine o then some o.q else none

/-- None of some accesses is still in flight (R353). -/
def State.landed (s : State) (ids : List Nat) : Bool :=
  ids.all fun i =>
    ((s.txns.find i).map fun t => s.isKept i t).getD true &&
      s.cores.all fun e => (e.2.copies.all fun c => c.id != i) && e.2.matq.all fun o => o.q != i

/-- The effect of TLBINV: the entries are dropped, and the accesses that may have used one are noted (R353). -/
def tlbinvBody (k : Nat) (c : Cmd) (s : State) : State :=
  let ids := s.usersOf (c.arg 0) (c.arg 1) (c.arg 2)
  let s := s.dropCached (c.arg 0) (c.arg 1) (c.arg 2)
  { s with cmds := s.cmds.upd k fun c => { c with track := ids } }

/-- TLBINV (R217, R353); it completes when nothing that used a dropped entry is left. -/
def execTlbinv (k : Nat) (s : State) : Host.Outcome State Fault Refusal :=
  runCmd k 0x0030 3 (fun c => [worldLimit c, (24, c.arg 1 % 4096 == 0), (32, c.arg 2 % 4096 == 0)]) (tlbinvBody k) s

/-- The effect of PAIRS (R355). -/
def pairsBody (k : Nat) (c : Cmd) (s : State) : State :=
  let ps := upTo (c.arg 1) (c.arg 2)
  if s.fixedCtx (c.arg 0) || ps.any fun p => (s.pubTab.find p).isSome then s.endCmd k 3 0 0
  else ({ s with pubTab := ps.foldl (fun t p => t.put p ⟨c.arg 0, false⟩) s.pubTab }).endCmd k 1 0 0

/-- PAIRS (R217, R355). -/
def execPairs (k : Nat) (s : State) : Host.Outcome State Fault Refusal :=
  runCmd k 0x0031 3 (fun c =>
    [worldLimit c, (24, decide (c.arg 1 < 4096)), (32, c.arg 2 != 0 && decide (c.arg 1 + c.arg 2 ≤ 4096))]) (pairsBody k) s

/-- The bytes of CAPS, read through the world's tables (R357). -/
def State.readCaps (s : State) (world : Nat) : Nat → Nat → ERead × State
  | _, 0 => (.bytes [], s)
  | va, n + 1 =>
    match s.engineGet world va 1 with
    | (.bytes b, s) =>
      (match State.readCaps s world (va + 1) n with
        | (.bytes bs, s) => (.bytes (b ++ bs), s)
        | (r, s) => (r, s))
    | (r, s) => (r, s)

/-- A tile at the creation of its region (R357). -/
def STile.fresh (cap : Byte) : STile where
  st := .absent
  cap := 4 * (cap.toNat + 1)
  log := []
  seq := 0
  sat := false
  inv := false
  refetch := false

/-- The limits of a region descriptor before CAPS and after it (R357). -/
def regionLimits (bs : List Byte) : List (Nat × Bool) :=
  let n := recField bs 8 4
  [(64, recField bs 0 8 % 65536 == 0), (72, n != 0 && decide (n ≤ 65536)), (76, recField bs 12 4 == 0),
    (80, recField bs 16 8 % 4096 == 0)]

/-- The conditions that refuse a region (R357). -/
def State.regionBusy (s : State) (world : Nat) (bs : List Byte) : Bool :=
  let n := recField bs 8 4
  let lb := recField bs 24 8
  let mine := s.regions.filter fun r => r.world == world
  decide (16 ≤ mine.length) ||
    (mine.any fun r => meetRange (recField bs 0 8) (65536 * n) r.vbase (65536 * r.tiles.length)) ||
    s.badFrame lb (4096 * n) || s.regions.any fun r => meetRange (recField bs 16 8) (65536 * n) r.backing (65536 * r.tiles.length)

/-- The effect of SREGION (R357). -/
def sregionBody (k : Nat) (c : Cmd) (s : State) : State :=
  let w := c.arg 0
  onBlock k 64 c s fun bs s =>
    match firstBad (regionLimits bs) with
    | some o => s.endCmd k 2 o 0
    | none =>
      match s.readCaps w (recField bs 32 8) (recField bs 8 4) with
      | (.later, s) => s.cmdAt k .paused
      | (.bad, s) => s.endCmd k 2 96 0
      | (.bytes caps, s) =>
        if caps.any fun b => decide (63 < b.toNat) then s.endCmd k 2 96 0
        else if recField bs 40 24 ≠ 0 then s.endCmd k 2 104 0
        else if s.fixedCtx w || s.regionBusy w bs then s.endCmd k 3 0 0
        else
          let num := (s.regions.filter fun r => r.world == w).length
          let r : Region := ⟨w, num, recField bs 0 8, recField bs 16 8, recField bs 24 8, caps.map STile.fresh⟩
          ({ s with regions := s.regions ++ [r] }).endCmd k 1 0 num

/-- SREGION (R217, R357). -/
def execSregion (k : Nat) (s : State) : Host.Outcome State Fault Refusal :=
  runCmd k 0x0032 2 (fun c => [worldLimit c, (24, c.arg 1 % 64 == 0)]) (sregionBody k) s

/-- The effect of SCRUB: a range that meets a reserved place is refused as an operand (R364). -/
def scrubBody (k : Nat) (c : Cmd) (s : State) : State :=
  if s.badFrame (c.arg 0) (c.arg 1) then s.endCmd k 2 16 0
  else
    (s.setScrub (granules (c.arg 0) (c.arg 1))).endCmd k 1 0 0

/-- SCRUB (R217, R364). -/
def execScrub (k : Nat) (s : State) : Host.Outcome State Fault Refusal :=
  runCmd k 0x0033 2 (fun c => [(16, c.arg 0 % 4096 == 0), (24, c.arg 1 % 4096 == 0)]) (scrubBody k) s

/-- Window entry i of a block (R217). -/
def windowOfBytes (bs : List Byte) (i : Nat) : Window :=
  let o := 32 * i
  ⟨recField bs o 8, recField bs (o + 8) 8, recField bs (o + 16) 8, recField bs (o + 24) 1, recField bs (o + 26) 2⟩

/-- The limits of window entry i (R217, R385). -/
def windowLimits (bs : List Byte) (i : Nat) : List (Nat × Bool) :=
  let o := 64 + 32 * i
  let w := windowOfBytes bs i
  [(o, w.vbase % 2 ^ 21 == 0), (o + 8, w.size % 2 ^ 21 == 0 && decide (w.size ≤ 2 ^ 40)), (o + 24, decide (w.port < 8)),
    (o + 25, recField bs (32 * i + 25) 1 == 0), (o + 26, decide (w.rworld ≤ 1023)),
    (o + 28, recField bs (32 * i + 28) 4 == 0)]

/-- Two windows of a list overlap. -/
def windowsMeet : List Window → Bool
  | [] => false
  | w :: ws => (ws.any fun v => meetRange w.vbase w.size v.vbase v.size) || windowsMeet ws

/-- The effect of PEERMAP (R385). -/
def peermapBody (k : Nat) (c : Cmd) (s : State) : State :=
  let w := c.arg 0
  let n := c.arg 2
  onBlock k (32 * n) c s fun bs s =>
    match firstBad ((upTo 0 n).flatMap (windowLimits bs)) with
    | some o => s.endCmd k 2 o 0
    | none =>
      let ws := (upTo 0 n).map (windowOfBytes bs)
      let meets := ws.any fun v => s.regions.any fun r =>
        r.world == w && meetRange v.vbase v.size r.vbase (65536 * r.tiles.length)
      if s.fixedCtx w || windowsMeet ws || meets then s.endCmd k 3 0 0
      else
        let x := (s.ctxs.find w).getD Ctx.blank
        ({ s with ctxs := s.ctxs.put w { x with windows := ws } }).endCmd k 1 0 0

/-- PEERMAP (R217, R385). -/
def execPeermap (k : Nat) (s : State) : Host.Outcome State Fault Refusal :=
  runCmd k 0x0034 3 (fun c => [worldLimit c, (24, c.arg 1 % 32 == 0), (32, decide (c.arg 2 ≤ 8))]) (peermapBody k) s

/-! ### Links and dies (R372, R377, R387) -/

/-- The event source of link n (R369). -/
def linkSource (n : Nat) : Nat := if n < 8 then 0x400 + n else if n = 8 then 0x410 else 0x420 + (n - 9)

/-- The worlds that hear of link n (R376). -/
def State.linkWorlds (s : State) (n : Nat) : List Nat :=
  (s.ctxs.filter fun e =>
    if n ≤ 8 then e.2.st == .locked || e.2.st == .running || e.2.st == .suspended
    else e.2.st != .free && e.2.windows.any fun w => portLink w.port == n).map fun e => e.1

/-- A started command of a code about an object ends (R215). -/
def State.endBy (s : State) (code arg status detail value : Nat) : State :=
  match s.cmds.find? fun e => e.2.code == code && e.2.st == .started && e.2.arg 0 == arg with
  | none => s
  | some e => s.endCmd e.1 status detail value

/-- The times and marks of a peer port whose link moves: when it went DOWN, and below which number its accesses were accepted
before it began to quiesce (R371, R387). -/
def State.markPort (s : State) (n : Nat) (new : LkState) : State :=
  if n ≤ hostLink then s
  else
    match new with
    | .down => { s with portDown := s.portDown.put (n - 9) s.time }
    | .active => { s with portDown := s.portDown.del (n - 9) }
    | .quiescing => { s with portMark := s.portMark.put (n - 9) s.nextId }
    | _ => s

/-- A link moves to another state; a LINK event is posted to every world that hears of it, but not for a retrain's begin and
its success (R372, R376). A retrain that is over ends its LINKRETRAIN (R217). -/
def State.moveLink (s : State) (n : Nat) (new : LkState) : State :=
  let old := s.link n
  let quietly := old == new || old == .active && new == .retraining || old == .retraining && new == .active
  let ev (w : Nat) : Event :=
    { Event.blank with ring := ringOf w, src := linkSource n, kind := 4, info := new.code + 256 * old.code }
  let s := if old = new then s else ({ s with links := s.links.setD n new .down } : State).markPort n new
  let s := if old = .retraining ∧ new ≠ .retraining then s.endBy 0x0041 (linkSource n) 1 0 new.code else s
  if quietly then s else (s.linkWorlds n).foldl (fun s w => s.raiseEvent (ev w)) s

/-- A link leaves ACTIVE or RETRAINING to be quiesced; a retrain that it meets ends (R372). -/
def State.quiesceLink (s : State) (n : Nat) : State :=
  if s.link n = .active ∨ s.link n = .retraining then s.moveLink n .quiescing else s

/-- The three links of a die (R369). -/
def dieLinks (d : Nat) : List Nat := [d, ddLink d (d ^^^ 1), ddLink d (d ^^^ 2)]

/-- The effect of WARMRESET: step 1, a pre-emption request for every group on the die (R377, R378). -/
def warmresetBody (k : Nat) (c : Cmd) (s : State) : State :=
  let d := c.arg 0
  let bad := (upTo 0 8).any fun n => !(dieLinks d).contains n && s.link n != .active
  if !s.warm.isEmpty || bad then s.endCmd k 3 0 0
  else ({ s with warm := s.warm.put d ⟨1, 0, false⟩ }).askAll fun g => g.coreList.any fun n => coreDie n == d

/-- WARMRESET (R217, R377). -/
def execWarmreset (k : Nat) (s : State) : Host.Outcome State Fault Refusal :=
  runCmd k 0x0040 1 (fun c => [(16, decide (c.arg 0 ≤ 3))]) (warmresetBody k) s

/-- The link of an event source (R369). -/
def linkOf (src : Nat) : Option Nat := (upTo 0 17).find? fun n => linkSource n == src

/-- The effect of LINKRETRAIN (R372). -/
def linkretrainBody (k : Nat) (c : Cmd) (s : State) : State :=
  match linkOf (c.arg 0) with
  | none => s.endCmd k 2 16 0
  | some n => if s.link n = .active then s.moveLink n .retraining else s.endCmd k 3 0 0

/-- LINKRETRAIN (R217, R372). -/
def execLinkretrain (k : Nat) (s : State) : Host.Outcome State Fault Refusal :=
  runCmd k 0x0041 1 (fun c => [(16, (linkOf (c.arg 0)).isSome)]) (linkretrainBody k) s

/-- The session of a peer port ends: the units of accesses to it that are still to be performed fail with a class, but not
those of accesses kept for a resume, which re-executes them; a new session numbers its requests anew (R176, R387). -/
def State.failPort (s : State) (port cls : Nat) : State :=
  { s with
    farSeen := s.farSeen.del port
    txns := s.txns.mapV fun x t =>
      if s.isKept x t then t
      else { t with units := t.units.map fun a => if a.port = some port then { a with err := some cls } else a } }

/-- The effect of PEERRESET: the port is quiesced and its session ends; a port that is DOWN is reset at once (R372, R387). -/
def peerresetBody (k : Nat) (c : Cmd) (s : State) : State :=
  let p := c.arg 0
  match s.link (portLink p) with
  | .active => s.quiesceLink (portLink p)
  | .retraining => s.quiesceLink (portLink p)
  | .down => (s.failPort p 11).moveLink (portLink p) .resetting
  | _ => s.endCmd k 3 0 0

/-- PEERRESET (R217, R387). -/
def execPeerreset (k : Nat) (s : State) : Host.Outcome State Fault Refusal :=
  runCmd k 0x0042 1 (fun c => [(16, decide (c.arg 0 ≤ 7))]) (peerresetBody k) s

/-! ### The wear log (R401) and the transport flag (R409) -/

/-- The 32 bytes of a wear-log entry (R401); one that was never appended reads zeros (log 21). -/
def WLog.bytes (e : WLog) : List Byte :=
  leBytes 8 e.time ++ leBytes 1 e.kind ++ leBytes 1 e.part ++ leBytes 2 e.unit ++ leBytes 4 e.info ++ leBytes 8 e.value ++
    leBytes 8 e.lbr

/-- The 32 bytes of a wear record (R401). -/
def Wear.bytes (w : Wear) : List Byte := leBytes 8 w.bsu ++ leBytes 8 w.hsu ++ leBytes 8 w.esu ++ leBytes 8 w.base

/-- What WEARLOG writes (R401). -/
def State.wearlogBytes (s : State) (c : Cmd) : List Byte :=
  if c.arg 1 = 0 then
    (upTo (c.arg 2) (c.arg 3)).flatMap fun i => (s.wlog.getD (i % 65536) ⟨0, 0, 0, 0, 0, 0, 0⟩).bytes
  else
    ((upTo 0 817).flatMap fun u => (s.nvmUnits.getD u ⟨0, 0, 0, 0⟩).bytes) ++
      (upTo 0 20).flatMap fun p => leBytes 8 (s.nvmLbr.getD p 0)

/-- The effect of WEARLOG (R401). -/
def wearlogBody (k : Nat) (c : Cmd) (s : State) : State :=
  if s.hostUp then
    ({ s with hostMem := memSets s.hostMem (c.arg 0) (s.wearlogBytes c) }).endCmd k 1 0
      (if c.arg 1 = 0 then s.wlogNext % 65536 else 0)
  else s.cmdAt k .paused

/-- WEARLOG (R217, R401). -/
def execWearlog (k : Nat) (s : State) : Host.Outcome State Fault Refusal :=
  runCmd k 0x0050 4 (fun c =>
    [(16, c.arg 0 % 64 == 0), (24, decide (c.arg 1 ≤ 1)), (32, c.arg 1 == 0 || c.arg 2 == 0),
      (40, if c.arg 1 = 0 then c.arg 3 != 0 && decide (c.arg 3 ≤ 65536) else c.arg 3 == 0)]) (wearlogBody k) s

/-- TRANSPORT (R217, R409). -/
def execTransport (k : Nat) (s : State) : Host.Outcome State Fault Refusal :=
  runCmd k 0x0051 0 (fun _ => []) (fun _ s => ({ s with transport := true }).endCmd k 1 0 0) s

/-! ### COMMAND_COMPLETE (R215, R216) -/

/-- The codes of R217. -/
def cmdCodes : List Nat :=
  [0x01, 0x02, 0x03, 0x04, 0x05, 0x10, 0x11, 0x12, 0x13, 0x14, 0x15, 0x16, 0x20, 0x21, 0x30, 0x31, 0x32, 0x33, 0x34, 0x40,
    0x41, 0x42, 0x50, 0x51]

/-- Groups of a list that are saved to slots. -/
def State.savedOf (s : State) (gs : List Nat) : Nat :=
  (gs.filter fun g => ((s.groups.find g).bind fun g => g.slot).isSome).length

/-- A started command that is done, with its value: SUSPEND after the last save, STOP with the context FREE, TLBINV with
nothing left that used a dropped entry (R217). -/
def State.cmdDone (s : State) (c : Cmd) : Option Nat :=
  if c.code = 0x13 then
    if c.track.all fun g => ((s.groups.find g).map fun g => !g.onCores && !g.inPlace).getD true then some (s.savedOf c.track) else none
  else if c.code = 0x15 then (if s.cstate (c.arg 0) = .free then some 0 else none)
  else if c.code = 0x30 then (if s.landed c.track then some 0 else none)
  else none

/-- The 32 bytes of a completion record (R216). -/
def Cmd.record (c : Cmd) (time : Nat) : List Byte :=
  leBytes 4 c.status ++ leBytes 4 c.tag ++ leBytes 8 c.detail ++ leBytes 8 c.value ++ leBytes 8 time

/-- Writes the completion record of an ended command and raises its vector; without a valid COMPL neither (R215). -/
def State.finishCmd (s : State) (k : Nat) (c : Cmd) : State :=
  let s := { s with cmds := s.cmds.del k }
  if c.compl % 32 ≠ 0 then s
  else
    { s with
      hostMem := memSets s.hostMem c.compl (c.record s.time)
      outs := if bitAt c.flags 0 then s.outs ++ [Out.msix 1024 s.gcq.vec] else s.outs }

/-- COMMAND_COMPLETE (R215, R216): of a command that has ended or is done, or of one whose code is unknown. -/
def execCommandComplete (k : Nat) (s : State) : Host.Outcome State Fault Refusal :=
  event s fun s =>
    match s.cmds.find k with
    | none => s
    | some c =>
      if !s.hostUp then s
      else
        match c.st with
        | .ended => s.finishCmd k c
        | .started =>
          (match s.cmdDone c with
            | some v => s.finishCmd k { c with status := 1, value := v }
            | none => s)
        | .paused => s
        | .taken =>
          if s.cmdReady k c && !cmdCodes.contains c.code then s.finishCmd k { c with status := 2, detail := 0 } else s

end Sys2Proof.Machine
end

