-- ==== Sys2Proof/Machine/IntLane.lean ====
section
/-!
DEFINITION. The integer, bit, compare and move instructions (R118 to R122) with their latencies (R117).
-/

namespace Sys2Proof.Machine

/-! ### Latencies and operand shapes -/

/-- Latency of an integer instruction by width (R117). -/
def latInt (t : Ty) : Nat := if t.bits = 64 then 5 else 3

/-- Latency of a multiplication by width (R117). -/
def latMul (t : Ty) : Nat := if t.bits = 64 then 11 else 5

/-- The result of a lane from one source of type ta. -/
def lane1 (ta : Ty) (a : Src) (f : Nat → Res) (x : Iss) (s : State) (l : Nat) : Res := f (x.val s l ta a)

/-- The result of a lane from two sources. -/
def lane2 (ta tb : Ty) (a b : Src) (f : Nat → Nat → Res) (x : Iss) (s : State) (l : Nat) : Res :=
  f (x.val s l ta a) (x.val s l tb b)

/-- The result of a lane from three sources. -/
def lane3 (ta tb tc : Ty) (a b p : Src) (f : Nat → Nat → Nat → Res) (x : Iss) (s : State) (l : Nat) : Res :=
  f (x.val s l ta a) (x.val s l tb b) (x.val s l tc p)

/-- The register value of an integer result of a type: wrapped to its width (R90) and extended (R89). -/
def intRes (t : Ty) (z : Int) : Res := Res.of (tyExt t (ofInt t.bits z))

/-! ### Bit operations -/

/-- Number of one bits among the low w bits. -/
def popCount (w x : Nat) : Nat := (upTo 0 w).foldl (fun n i => n + (x / 2 ^ i) % 2) 0

/-- Number of leading zeros of a w-bit value; w for 0 (R118). -/
def leadZeros (w x : Nat) : Nat := if x % 2 ^ w = 0 then w else w - 1 - Nat.log2 (x % 2 ^ w)

/-- The first one bit from bit i on, among the n bits left. -/
def firstOne (x : Nat) : Nat → Nat → Nat
  | i, 0 => i
  | i, n + 1 => if x / 2 ^ i % 2 = 1 then i else firstOne x (i + 1) n

/-- Number of trailing zeros of a w-bit value; w for 0 (R118). -/
def trailZeros (w x : Nat) : Nat := firstOne x 0 w

/-- Bit i goes to bit w - 1 - i (R118). -/
def bitRev (w x : Nat) : Nat := (upTo 0 w).foldl (fun y i => y + x / 2 ^ i % 2 * 2 ^ (w - 1 - i)) 0

/-- Bitwise complement of the low w bits. -/
def notBits (w x : Nat) : Nat := 2 ^ w - 1 - x % 2 ^ w

/-- Rotation left by n mod w (R118). -/
def rotLeft (w x n : Nat) : Nat := (x * 2 ^ (n % w) + x / 2 ^ (w - n % w)) % 2 ^ w

/-- shl of R119. -/
def shlOp (w a n : Nat) : Nat := if w ≤ n then 0 else a * 2 ^ n % 2 ^ w

/-- shr of R119. -/
def shrOp (w a n : Nat) : Nat := if w ≤ n then 0 else a / 2 ^ n

/-- sra of R119. -/
def sraOp (w : Nat) (a : Int) (n : Nat) : Int := if w ≤ n then (if a < 0 then -1 else 0) else a / 2 ^ n

/-- bfx of R120: a bit at or above the width reads as the sign of a .i value and as 0 otherwise. -/
def bfxOp (t : Ty) (a pl : Nat) : Int :=
  let pos := pl % 256
  let len := min (pl / 256 % 256) t.bits
  if len = 0 then 0
  else
    let f := ofInt len (tyInt t a / 2 ^ pos)
    if t.isI then toInt len f else f

/-- bfi of R120. -/
def bfiOp (w a b pl : Nat) : Nat :=
  let pos := pl % 256
  let len := min (pl / 256 % 256) w
  let mask := (2 ^ len - 1) * 2 ^ pos % 2 ^ w
  (b &&& notBits w mask) ||| (a * 2 ^ pos % 2 ^ w &&& mask)

/-! ### Division -/

/-- div of R119. -/
def divOp (t : Ty) (a b : Nat) : Int :=
  let x := tyInt t a
  let y := tyInt t b
  if y = 0 then 2 ^ t.bits - 1
  else if t.isI && decide (x = -2 ^ (t.bits - 1)) && decide (y = -1) then x
  else x.tdiv y

/-- rem of R119. -/
def remOp (t : Ty) (a b : Nat) : Int :=
  let x := tyInt t a
  let y := tyInt t b
  if y = 0 then x
  else if t.isI && decide (x = -2 ^ (t.bits - 1)) && decide (y = -1) then 0
  else x - y * x.tdiv y

/-! ### Meanings -/

/-- add (R118). -/
def execAddInteger (c : Ctl) (t : Ty) (d : Dst) (a b : Src) (s : State) : Host.Outcome State Fault Refusal :=
  execLane (.addInteger c t d a b) (.fixed (latInt t)) d t.regs
    (lane2 t t a b fun p q => intRes t (tyInt t p + tyInt t q)) s

/-- sub (R118). -/
def execSubInteger (c : Ctl) (t : Ty) (d : Dst) (a b : Src) (s : State) : Host.Outcome State Fault Refusal :=
  execLane (.subInteger c t d a b) (.fixed (latInt t)) d t.regs
    (lane2 t t a b fun p q => intRes t (tyInt t p - tyInt t q)) s

/-- mul (R118). -/
def execMulInteger (c : Ctl) (t : Ty) (d : Dst) (a b : Src) (s : State) : Host.Outcome State Fault Refusal :=
  execLane (.mulInteger c t d a b) (.fixed (latMul t)) d t.regs
    (lane2 t t a b fun p q => intRes t (tyInt t p * tyInt t q)) s

/-- mulhi (R118). -/
def execMulhi (c : Ctl) (t : Ty) (d : Dst) (a b : Src) (s : State) : Host.Outcome State Fault Refusal :=
  execLane (.mulhi c t d a b) (.fixed (latMul t)) d t.regs
    (lane2 t t a b fun p q => intRes t (tyInt t p * tyInt t q / 2 ^ t.bits)) s

/-- mulw (R118): the exact product of twice the width. -/
def execMulw (c : Ctl) (t : Ty) (d : Dst) (a b : Src) (s : State) : Host.Outcome State Fault Refusal :=
  execLane (.mulw c t d a b) (.fixed (latMul t)) d (t.bits / 16)
    (lane2 t t a b fun p q => Res.of (ofInt (2 * t.bits) (tyInt t p * tyInt t q))) s

/-- div (R118, R119, R90). -/
def execDivInteger (c : Ctl) (t : Ty) (d : Dst) (a b : Src) (s : State) : Host.Outcome State Fault Refusal :=
  execLane (.divInteger c t d a b) .variable d t.regs (lane2 t t a b fun p q => intRes t (divOp t p q)) s

/-- rem (R118, R119). -/
def execRem (c : Ctl) (t : Ty) (d : Dst) (a b : Src) (s : State) : Host.Outcome State Fault Refusal :=
  execLane (.rem c t d a b) .variable d t.regs (lane2 t t a b fun p q => intRes t (remOp t p q)) s

/-- neg (R118). -/
def execNeg (c : Ctl) (t : Ty) (d : Dst) (a : Src) (s : State) : Host.Outcome State Fault Refusal :=
  execLane (.neg c t d a) (.fixed (latInt t)) d t.regs (lane1 t a fun p => intRes t (-tyInt t p)) s

/-- abs (R118). -/
def execAbs (c : Ctl) (t : Ty) (d : Dst) (a : Src) (s : State) : Host.Outcome State Fault Refusal :=
  execLane (.abs c t d a) (.fixed (latInt t)) d t.regs
    (lane1 t a fun p => intRes t (if tyInt t p < 0 then -tyInt t p else tyInt t p)) s

/-- min (R118). -/
def execMinInteger (c : Ctl) (t : Ty) (d : Dst) (a b : Src) (s : State) : Host.Outcome State Fault Refusal :=
  execLane (.minInteger c t d a b) (.fixed (latInt t)) d t.regs
    (lane2 t t a b fun p q => intRes t (min (tyInt t p) (tyInt t q))) s

/-- max (R118). -/
def execMaxInteger (c : Ctl) (t : Ty) (d : Dst) (a b : Src) (s : State) : Host.Outcome State Fault Refusal :=
  execLane (.maxInteger c t d a b) (.fixed (latInt t)) d t.regs
    (lane2 t t a b fun p q => intRes t (max (tyInt t p) (tyInt t q))) s

/-- and (R118). -/
def execAnd (c : Ctl) (t : Ty) (d : Dst) (a b : Src) (s : State) : Host.Outcome State Fault Refusal :=
  execLane (.and c t d a b) (.fixed (latInt t)) d t.regs (lane2 t t a b fun p q => Res.of (p &&& q)) s

/-- or (R118). -/
def execOr (c : Ctl) (t : Ty) (d : Dst) (a b : Src) (s : State) : Host.Outcome State Fault Refusal :=
  execLane (.or c t d a b) (.fixed (latInt t)) d t.regs (lane2 t t a b fun p q => Res.of (p ||| q)) s

/-- xor (R118). -/
def execXor (c : Ctl) (t : Ty) (d : Dst) (a b : Src) (s : State) : Host.Outcome State Fault Refusal :=
  execLane (.xor c t d a b) (.fixed (latInt t)) d t.regs (lane2 t t a b fun p q => Res.of (p ^^^ q)) s

/-- andn: a & ~b (R118). -/
def execAndn (c : Ctl) (t : Ty) (d : Dst) (a b : Src) (s : State) : Host.Outcome State Fault Refusal :=
  execLane (.andn c t d a b) (.fixed (latInt t)) d t.regs
    (lane2 t t a b fun p q => Res.of (p &&& notBits t.bits q)) s

/-- not (R118). -/
def execNot (c : Ctl) (t : Ty) (d : Dst) (a : Src) (s : State) : Host.Outcome State Fault Refusal :=
  execLane (.not c t d a) (.fixed (latInt t)) d t.regs (lane1 t a fun p => Res.of (notBits t.bits p)) s

/-- shl (R119). -/
def execShl (c : Ctl) (t : Ty) (d : Dst) (a b : Src) (s : State) : Host.Outcome State Fault Refusal :=
  execLane (.shl c t d a b) (.fixed (latInt t)) d t.regs
    (lane2 t .b32 a b fun p n => Res.of (shlOp t.bits p n)) s

/-- shr (R119). -/
def execShr (c : Ctl) (t : Ty) (d : Dst) (a b : Src) (s : State) : Host.Outcome State Fault Refusal :=
  execLane (.shr c t d a b) (.fixed (latInt t)) d t.regs
    (lane2 t .b32 a b fun p n => Res.of (shrOp t.bits p n)) s

/-- sra (R119). -/
def execSra (c : Ctl) (t : Ty) (d : Dst) (a b : Src) (s : State) : Host.Outcome State Fault Refusal :=
  execLane (.sra c t d a b) (.fixed (latInt t)) d t.regs
    (lane2 t .b32 a b fun p n => intRes t (sraOp t.bits (tyInt t p) n)) s

/-- rotl (R118). -/
def execRotl (c : Ctl) (t : Ty) (d : Dst) (a b : Src) (s : State) : Host.Outcome State Fault Refusal :=
  execLane (.rotl c t d a b) (.fixed (latInt t)) d t.regs
    (lane2 t .b32 a b fun p n => Res.of (rotLeft t.bits p n)) s

/-- bfx (R120). -/
def execBfx (c : Ctl) (t : Ty) (d : Dst) (a b : Src) (s : State) : Host.Outcome State Fault Refusal :=
  execLane (.bfx c t d a b) (.fixed (latInt t)) d t.regs
    (lane2 t .b32 a b fun p pl => intRes t (bfxOp t p pl)) s

/-- bfi (R120). -/
def execBfi (c : Ctl) (t : Ty) (d : Dst) (a b p : Src) (s : State) : Host.Outcome State Fault Refusal :=
  execLane (.bfi c t d a b p) (.fixed (latInt t)) d t.regs
    (lane3 t t .b32 a b p fun u v pl => Res.of (bfiOp t.bits u v pl)) s

/-- popc (R118). -/
def execPopc (c : Ctl) (t : Ty) (d : Dst) (a : Src) (s : State) : Host.Outcome State Fault Refusal :=
  execLane (.popc c t d a) (.fixed (latInt t)) d 1 (lane1 t a fun p => Res.of (popCount t.bits p)) s

/-- clz (R118). -/
def execClz (c : Ctl) (t : Ty) (d : Dst) (a : Src) (s : State) : Host.Outcome State Fault Refusal :=
  execLane (.clz c t d a) (.fixed (latInt t)) d 1 (lane1 t a fun p => Res.of (leadZeros t.bits p)) s

/-- ctz (R118). -/
def execCtz (c : Ctl) (t : Ty) (d : Dst) (a : Src) (s : State) : Host.Outcome State Fault Refusal :=
  execLane (.ctz c t d a) (.fixed (latInt t)) d 1 (lane1 t a fun p => Res.of (trailZeros t.bits p)) s

/-- brev (R118). -/
def execBrev (c : Ctl) (t : Ty) (d : Dst) (a : Src) (s : State) : Host.Outcome State Fault Refusal :=
  execLane (.brev c t d a) (.fixed (latInt t)) d t.regs (lane1 t a fun p => Res.of (bitRev t.bits p)) s

/-- The extension of the 32-bit offset of lea (R118). -/
def leaExt (t : Ty) (b : Nat) : Int := if t.isI then toInt 32 b else b

/-- lea (R118). -/
def execLea (c : Ctl) (t : Ty) (sh : BitVec 3) (d : Dst) (a b : Src) (s : State) : Host.Outcome State Fault Refusal :=
  execLane (.lea c t sh d a b) (.fixed (latInt t)) d t.regs
    (lane2 t .b32 a b fun p q => intRes t (tyInt t p + leaExt t q * 2 ^ sh.toNat)) s

/-- The sum of addx with the carry in (R121). -/
def addxSum (x : Iss) (s : State) (t : Ty) (gs : BitVec 3) (a b : Src) (l : Nat) : Nat :=
  x.val s l t a + x.val s l t b + bitOf (laneGuard s x.clk l (x.wp.lane l) gs)

/-- The effect of addx: the sum goes to d and the carry out to the guard (R121). -/
def addxEffect (t : Ty) (gs : BitVec 3) (d : Dst) (a b : Src) (x : Iss) (s : State) : State :=
  let r := addxSum x s t gs a b
  let s1 := s.onLanes x.w x.m fun _ ln => ln.noteG x.clk (x.clk + 1 + latInt t) gs
  let s2 := s1.onLanes x.w x.m fun l ln => ln.setG gs (decide (2 ^ t.bits ≤ r l))
  laneEffect (.fixed (latInt t)) d t.regs (fun _ _ l => Res.of (r l % 2 ^ t.bits)) x s2

/-- addx (R121). -/
def execAddx (c : Ctl) (t : Ty) (gs : BitVec 3) (d : Dst) (a b : Src) (s : State) :
    Host.Outcome State Fault Refusal :=
  issueWord (.addx c t gs d a b) s noEmpty noPre (addxEffect t gs d a b)

/-- cmp on integer and bit types (R118, R70). -/
def execCmpInteger (c : Ctl) (t : Ty) (cc : Cmp) (g : BitVec 3) (a b : Src) (s : State) :
    Host.Outcome State Fault Refusal :=
  execGuard (.cmpInteger c t cc g a b) (latInt t) g
    (fun x s l => cmpInt cc (tyInt t (x.val s l t a)) (tyInt t (x.val s l t b))) s

/-- setb (R118). -/
def execSetb (c : Ctl) (t : Ty) (cc : Cmp) (d : Dst) (a b : Src) (s : State) : Host.Outcome State Fault Refusal :=
  execLane (.setb c t cc d a b) (.fixed (latInt t)) d 1
    (lane2 t t a b fun p q => Res.of (allOnesIf (cmpInt cc (tyInt t p) (tyInt t q)))) s

/-- sel (R118). -/
def execSel (c : Ctl) (t : Ty) (gs : BitVec 3) (d : Dst) (a b : Src) (s : State) : Host.Outcome State Fault Refusal :=
  execLane (.sel c t gs d a b) (.fixed (latInt t)) d t.regs
    (fun x s l => Res.of (tyExt t (if laneGuard s x.clk l (x.wp.lane l) gs then x.val s l t a else x.val s l t b))) s

/-- mov (R118, R122): a uniform destination takes the value of the lowest lane of M, and 0 with M empty. -/
def execMov (c : Ctl) (t : Ty) (d : Dst) (a : Src) (s : State) : Host.Outcome State Fault Refusal :=
  issueWord (.mov c t d a) s (emptyPut (.fixed (latInt t)) d t.regs 0) noPre
    (laneEffect (.fixed (latInt t)) d t.regs (lane1 t a Res.of))

/-- The value of movi (R122). -/
def moviVal (t : Ty) (imm : BitVec 40) : Nat :=
  if t.bits = 64 then (if t = .n64 then imm.toNat else (imm.signExtend 64).toNat) else imm.toNat % 2 ^ 32

/-- movi (R122). -/
def execMovi (c : Ctl) (t : Ty) (d : Dst) (imm : BitVec 40) (s : State) : Host.Outcome State Fault Refusal :=
  execLane (.movi c t d imm) (.fixed (latInt t)) d t.regs (fun _ _ _ => Res.of (moviVal t imm)) s

/-- mad (R118). -/
def execMad (c : Ctl) (t : Ty) (d : Dst) (a b p : Src) (s : State) : Host.Outcome State Fault Refusal :=
  execLane (.mad c t d a b p) (.fixed (latMul t)) d t.regs
    (lane3 t t t a b p fun u v w => intRes t (tyInt t u * tyInt t v + tyInt t w)) s

/-- clamp (R118). -/
def execClamp (c : Ctl) (t : Ty) (d : Dst) (a b p : Src) (s : State) : Host.Outcome State Fault Refusal :=
  execLane (.clamp c t d a b p) (.fixed (latInt t)) d t.regs
    (lane3 t t t a b p fun u v w => intRes t (min (max (tyInt t u) (tyInt t v)) (tyInt t w))) s

end Sys2Proof.Machine
end

