-- ==== Sys2Proof/Machine/FloatLane.lean ====
section
/-!
DEFINITION. The floating-point instructions other than the transcendental ones (R123 to R126, R128, R129).
-/

namespace Sys2Proof.Machine

/-- Latency of the fixed-latency floating instructions (R117). -/
def latF (t : Ty) : Nat := if t = .f64 then 11 else 4

/-- One-source operation on a value or on both elements. -/
def flt1 (t : Ty) (a : Src) (f : Ty → Nat → Res) : Iss → State → Nat → Res :=
  lane1 t a fun p => perElem t fun j => f (elemTy t) (elemOf t p j)

/-- Two-source operation on a value or on both elements. -/
def flt2 (t : Ty) (a b : Src) (f : Ty → Nat → Nat → Res) : Iss → State → Nat → Res :=
  lane2 t t a b fun p q => perElem t fun j => f (elemTy t) (elemOf t p j) (elemOf t q j)

/-- Three-source operation on a value or on both elements. -/
def flt3 (t : Ty) (a b p : Src) (f : Ty → Nat → Nat → Nat → Res) : Iss → State → Nat → Res :=
  lane3 t t t a b p fun u v w => perElem t fun j => f (elemTy t) (elemOf t u j) (elemOf t v j) (elemOf t w j)

/-- add (R123). -/
def execAddFloat (c : Ctl) (t : Ty) (rm : Rm) (d : Dst) (a b : Src) (s : State) : Host.Outcome State Fault Refusal :=
  execLane (.addFloat c t rm d a b) (.fixed (latF t)) d t.regs (flt2 t a b fun e => addF e rm) s

/-- sub (R123). -/
def execSubFloat (c : Ctl) (t : Ty) (rm : Rm) (d : Dst) (a b : Src) (s : State) : Host.Outcome State Fault Refusal :=
  execLane (.subFloat c t rm d a b) (.fixed (latF t)) d t.regs (flt2 t a b fun e => subF e rm) s

/-- mul (R123). -/
def execMulFloat (c : Ctl) (t : Ty) (rm : Rm) (d : Dst) (a b : Src) (s : State) : Host.Outcome State Fault Refusal :=
  execLane (.mulFloat c t rm d a b) (.fixed (latF t)) d t.regs (flt2 t a b fun e => mulF e rm) s

/-- fma (R123). -/
def execFma (c : Ctl) (t : Ty) (rm : Rm) (d : Dst) (a b p : Src) (s : State) : Host.Outcome State Fault Refusal :=
  execLane (.fma c t rm d a b p) (.fixed (latF t)) d t.regs (flt3 t a b p fun e => fmaF e rm) s

/-- div (R123, R126). -/
def execDivFloat (c : Ctl) (t : Ty) (rm : Rm) (d : Dst) (a b : Src) (s : State) : Host.Outcome State Fault Refusal :=
  execLane (.divFloat c t rm d a b) .variable d t.regs (flt2 t a b fun e => divF e rm) s

/-- rcp (R123, R126). -/
def execRcp (c : Ctl) (t : Ty) (rm : Rm) (d : Dst) (a : Src) (s : State) : Host.Outcome State Fault Refusal :=
  execLane (.rcp c t rm d a) .variable d t.regs (flt1 t a fun e => rcpF e rm) s

/-- sqrt (R123, R126). -/
def execSqrt (c : Ctl) (t : Ty) (rm : Rm) (d : Dst) (a : Src) (s : State) : Host.Outcome State Fault Refusal :=
  execLane (.sqrt c t rm d a) .variable d t.regs (flt1 t a fun e => sqrtF e rm) s

/-- rsq (R123, R126). -/
def execRsq (c : Ctl) (t : Ty) (rm : Rm) (d : Dst) (a : Src) (s : State) : Host.Outcome State Fault Refusal :=
  execLane (.rsq c t rm d a) .variable d t.regs (flt1 t a fun e => rsqrtF e rm) s

/-- min (R124). -/
def execMinFloat (c : Ctl) (t : Ty) (nan : Bool) (d : Dst) (a b : Src) (s : State) : Host.Outcome State Fault Refusal :=
  execLane (.minFloat c t nan d a b) (.fixed (latF t)) d t.regs
    (flt2 t a b fun e u v => Res.of (minMaxF e false nan u v)) s

/-- max (R124). -/
def execMaxFloat (c : Ctl) (t : Ty) (nan : Bool) (d : Dst) (a b : Src) (s : State) : Host.Outcome State Fault Refusal :=
  execLane (.maxFloat c t nan d a b) (.fixed (latF t)) d t.regs
    (flt2 t a b fun e u v => Res.of (minMaxF e true nan u v)) s

/-- cmp on floating types (R125). -/
def execCmpFloat (c : Ctl) (t : Ty) (cc : Cmp) (g : BitVec 3) (a b : Src) (s : State) :
    Host.Outcome State Fault Refusal :=
  execGuard (.cmpFloat c t cc g a b) (latF t) g (fun x s l => cmpF t cc (x.val s l t a) (x.val s l t b)) s

/-- class (R125). -/
def execClassF (c : Ctl) (t : Ty) (g : BitVec 3) (a b : Src) (s : State) : Host.Outcome State Fault Refusal :=
  execGuard (.classF c t g a b) (latF t) g
    (fun x s l => (x.val s l .b32 b).testBit (classOf t (x.val s l t a))) s

/-- rndi (R128). -/
def execRndi (c : Ctl) (t : Ty) (rm : Rm) (d : Dst) (a : Src) (s : State) : Host.Outcome State Fault Refusal :=
  execLane (.rndi c t rm d a) (.fixed (latF t)) d t.regs (flt1 t a fun e => rndiF e rm) s

/-- cpsign (R128). -/
def execCpsign (c : Ctl) (t : Ty) (d : Dst) (a b : Src) (s : State) : Host.Outcome State Fault Refusal :=
  execLane (.cpsign c t d a b) (.fixed (latF t)) d t.regs (flt2 t a b fun e u v => Res.of (cpsignF e u v)) s

/-- scale (R128). -/
def execScale (c : Ctl) (t : Ty) (rm : Rm) (d : Dst) (a b : Src) (s : State) : Host.Outcome State Fault Refusal :=
  execLane (.scale c t rm d a b) (.fixed (latF t)) d t.regs
    (lane2 t .i32 a b fun u n => scaleF t rm u (toInt 32 n)) s

/-- The first NaN of dot2, quieted and widened to .f32 (R129). -/
def dot2Nan (t : Ty) (u v w : Nat) : Option Nat :=
  let e := elemTy t
  let pick := [elemOf t u 0, elemOf t u 1, elemOf t v 0, elemOf t v 1].find? fun y => isNan e y
  match pick with
  | some y => some (nanTo .f32 e y)
  | none => if isNan .f32 w then some (quiet .f32 w) else none

/-- dot2 of a lane (R129). -/
def dot2Op (t : Ty) (rm : Rm) (u v w : Nat) : Res :=
  let e := elemTy t
  match dot2Nan t u v w with
  | some y => Res.of y
  | none =>
    match mulV (unpackF e (elemOf t u 0)) (unpackF e (elemOf t v 0)),
        mulV (unpackF e (elemOf t u 1)) (unpackF e (elemOf t v 1)) with
    | some p, some q => sumF .f32 rm [p, q, unpackF .f32 w]
    | _, _ => invalid .f32 4

/-- dot2 (R129). -/
def execDot2 (c : Ctl) (t : Ty) (rm : Rm) (d : Dst) (a b p : Src) (s : State) : Host.Outcome State Fault Refusal :=
  execLane (.dot2 c t rm d a b p) (.fixed (latF t)) d 1 (lane3 t t .f32 a b p (dot2Op t rm)) s

end Sys2Proof.Machine
end

