-- ==== Sys2Proof/Machine/Convert.lean ====
section
/-!
DEFINITION. Conversions and narrow formats: cvt, pack, unpack, bsel, qnt and dqt (R130 to R135).
-/

namespace Sys2Proof.Machine

/-- Latency of cvt (R117). -/
def latCvt (t st : Ty) : Nat := if t = .f64 ∨ st = .f64 then 11 else 4

/-- cvt (R130). -/
def execCvt (c : Ctl) (t st : Ty) (rm : Rm) (d : Dst) (a : Src) (s : State) : Host.Outcome State Fault Refusal :=
  execLane (.cvt c t st rm d a) (.fixed (latCvt t st)) d t.regs (lane1 st a (cvtOp t st rm)) s

/-- pack of a lane (R131): two .f32 values to a packed pair, or two .bf16x2 pairs to four FP8 bytes. -/
def packOp (t : Ty) (rm : Rm) (u v : Nat) : Res :=
  if t.isP then
    let r0 := cvtFF (elemTy t) .f32 rm u
    let r1 := cvtFF (elemTy t) .f32 rm v
    ⟨r0.val + r1.val * 2 ^ 16, r0.fl ||| r1.fl⟩
  else
    let r (y j : Nat) := cvtFF t .bf16 rm (elemOf .bf16x2 y j)
    ⟨(r u 0).val + (r u 1).val * 2 ^ 8 + (r v 0).val * 2 ^ 16 + (r v 1).val * 2 ^ 24,
      (r u 0).fl ||| (r u 1).fl ||| (r v 0).fl ||| (r v 1).fl⟩

/-- The type that pack reads and unpack writes (R131, R132). -/
def wideTy (t : Ty) : Ty := if t.isP then .f32 else .bf16x2

/-- pack (R131). -/
def execPack (c : Ctl) (t : Ty) (rm : Rm) (d : Dst) (a b : Src) (s : State) : Host.Outcome State Fault Refusal :=
  execLane (.pack c t rm d a b) (.fixed 4) d 1 (lane2 (wideTy t) (wideTy t) a b (packOp t rm)) s

/-- unpack of a lane (R132), as the value of the destination pair. -/
def unpackOp (t : Ty) (u : Nat) : Nat :=
  if t.isP then
    (cvtFF .f32 (elemTy t) .rn (elemOf t u 0)).val + (cvtFF .f32 (elemTy t) .rn (elemOf t u 1)).val * 2 ^ 32
  else
    let r (j : Nat) := (cvtFF .bf16 t .rn (u / 2 ^ (8 * j) % 2 ^ 8)).val
    r 0 + r 1 * 2 ^ 16 + r 2 * 2 ^ 32 + r 3 * 2 ^ 48

/-- unpack (R132). -/
def execUnpack (c : Ctl) (t : Ty) (d : Dst) (a : Src) (s : State) : Host.Outcome State Fault Refusal :=
  execLane (.unpack c t d a) (.fixed 4) d 2 (lane1 .b32 a fun u => Res.of (unpackOp t u)) s

/-- Result byte i of bsel (R133). -/
def bselByte (a sel i : Nat) : Nat :=
  let y0 := a / 2 ^ (8 * (sel / 2 ^ (3 * i) % 8)) % 256
  let y := if sel.testBit (20 + i) then bitRev 8 y0 else y0
  if sel.testBit (12 + i) then 0
  else if sel.testBit (16 + i) then (if y.testBit 7 then 255 else 0)
  else y

/-- bsel of a lane (R133). -/
def bselOp (a sel : Nat) : Nat :=
  bselByte a sel 0 + bselByte a sel 1 * 2 ^ 8 + bselByte a sel 2 * 2 ^ 16 + bselByte a sel 3 * 2 ^ 24

/-- bsel (R133). -/
def execBsel (c : Ctl) (d : Dst) (a b : Src) (s : State) : Host.Outcome State Fault Refusal :=
  execLane (.bsel c d a b) (.fixed 4) d 1 (lane2 .b64 .b32 a b fun u v => Res.of (bselOp u v)) s

/-- The larger magnitude pattern of two FP32 values; a NaN counts as 0 (R134). -/
def amaxOf (m x : Nat) : Nat := if isNan .f32 x then m else max m (x % 2 ^ 31)

/-- The scale code of a block whose largest magnitude is an FP32 pattern (R134). -/
def scaleCode (amax : Nat) : Nat :=
  match unpackF .f32 amax with
  | .fin _ m e =>
    let up := if 0 ≤ e + 8 then m * 2 ^ (e + 8).toNat else (m + 2 ^ (-(e + 8)).toNat - 1) / 2 ^ (-(e + 8)).toNat
    min 255 (up - 1)
  | _ => 255

/-- The scale code of the block that the lanes of M hold (R134). -/
def Iss.blockCode (x : Iss) (s : State) (a : Src) : Nat :=
  scaleCode ((maskLanes x.m).foldl (fun m l =>
    let u := (x.src64 s l a).toNat
    amaxOf (amaxOf m (u % 2 ^ 32)) (u / 2 ^ 32)) 0)

/-- qnt of a lane under a scale code (R134). -/
def qntOp (c u : Nat) : Res :=
  let q0 := nqCode c (u % 2 ^ 32)
  let q1 := nqCode c (u / 2 ^ 32)
  ⟨q0.val + q1.val * 16 + c * 256, q0.fl ||| q1.fl⟩

/-- qnt (R134). -/
def execQnt (c : Ctl) (t : Ty) (d : Dst) (a : Src) (s : State) : Host.Outcome State Fault Refusal :=
  execLane (.qnt c t d a) (.fixed 13) d 1
    (fun x s =>
      let k := x.blockCode s a
      fun l => qntOp k (x.src64 s l a).toNat) s

/-- dqt of a lane (R135), as the value of its destination. -/
def dqtOp (t : Ty) (u sp : Nat) : Res :=
  let k := u / 256 % 256
  let v0 := nqValue (u % 16) k sp
  let v1 := nqValue (u / 16 % 16) k sp
  if t = .f32 then ⟨v0.val + v1.val * 2 ^ 32, v0.fl ||| v1.fl⟩
  else
    let r0 := cvtFF (elemTy t) .f32 .rn v0.val
    let r1 := cvtFF (elemTy t) .f32 .rn v1.val
    ⟨r0.val + r1.val * 2 ^ 16, v0.fl ||| v1.fl ||| r0.fl ||| r1.fl⟩

/-- dqt (R135). -/
def execDqt (c : Ctl) (t : Ty) (d : Dst) (a b : Src) (s : State) : Host.Outcome State Fault Refusal :=
  execLane (.dqt c t d a b) (.fixed 4) d (if t == .f32 then 2 else 1) (lane2 .b32 .f32 a b (dqtOp t)) s

end Sys2Proof.Machine
end

