-- ==== Sys2Proof/Machine/Cross.lean ====
section
/-!
DEFINITION. Cross-lane instructions (R136 to R141) and random numbers (R142, R143).
-/

namespace Sys2Proof.Machine

/-! ### Moves between lanes -/

/-- The lane that shfl reads; none outside 0 to 31 (R136). -/
def shflLane (m : ShMode) (l n : Nat) : Option Nat :=
  match m with
  | .idx => some (n % 32)
  | .up => if n ≤ l then some (l - n) else none
  | .dn => if l + n < 32 then some (l + n) else none
  | .xor => some ((l ^^^ n % 32) % 32)

/-- shfl of a lane (R136). -/
def shflOp (m : ShMode) (a b : Src) (x : Iss) (s : State) (l : Nat) : Res :=
  match shflLane m l (x.val s l .b32 b) with
  | some j => Res.of (if inMask x.m j then x.val s j .b32 a else x.val s l .b32 a)
  | none => Res.of (x.val s l .b32 a)

/-- shfl (R136). -/
def execShfl (c : Ctl) (m : ShMode) (d : Dst) (a b : Src) (s : State) : Host.Outcome State Fault Refusal :=
  execLane (.shfl c m d a b) (.fixed 5) d 1 (shflOp m a b) s

/-- The value that bcast gives every lane (R137). -/
def bcastOp (a b : Src) (x : Iss) (s : State) : Res :=
  let j := x.val s (lowLane x.m) .b32 b % 32
  Res.of (if inMask x.m j then x.val s j .b32 a else 0)

/-- bcast (R137). -/
def execBcast (c : Ctl) (d : Dst) (a b : Src) (s : State) : Host.Outcome State Fault Refusal :=
  issueWord (.bcast c d a b) s (emptyPut (.fixed 5) d 1 0) noPre (oneEffect (.fixed 5) d 1 (bcastOp a b))

/-- The lanes of M in which a guard is true (R138). -/
def Iss.ballot (x : Iss) (s : State) (g : BitVec 3) : Mask :=
  x.m &&& maskOf fun l => laneGuard s x.clk l (x.wp.lane l) g

/-- The result of vote (R138). -/
def voteOp (m : VoteMode) (g : BitVec 3) (x : Iss) (s : State) : Res :=
  let p := x.ballot s g
  Res.of (match m with
    | .all => bitOf (p == x.m)
    | .any => bitOf (p != 0)
    | .eq => bitOf (p == x.m || p == 0)
    | .ballot => p.toNat)

/-- vote (R138). -/
def execVote (c : Ctl) (m : VoteMode) (d : Dst) (g : BitVec 3) (s : State) : Host.Outcome State Fault Refusal :=
  issueWord (.vote c m d g) s (emptyPut (.fixed 5) d 1 0) noPre (oneEffect (.fixed 5) d 1 (voteOp m g))

/-- match of a lane: the lanes of M with an equal value (R139). -/
def matchOp (t : Ty) (a : Src) (x : Iss) (s : State) (l : Nat) : Res :=
  let v := x.val s l t a
  Res.of (x.m &&& maskOf fun j => x.val s j t a == v).toNat

/-- match (R139). -/
def execMatchW (c : Ctl) (t : Ty) (d : Dst) (a : Src) (s : State) : Host.Outcome State Fault Refusal :=
  execLane (.matchW c t d a) (.fixed 5) d 1 (matchOp t a) s

/-! ### Reductions (R140, R141) -/

/-- The value of a reduction over no term (R140). -/
def emptyRed (op : Aop) (t : Ty) : Nat :=
  match op with
  | .min => if t.isF then infPat t else if t.isI then 2 ^ (t.bits - 1) - 1 else 2 ^ t.bits - 1
  | .max => if t.isF then infPat t + signPat t true else if t.isI then 2 ^ (t.bits - 1) else 0
  | .and => 2 ^ t.bits - 1
  | _ => 0

/-- A reduction of integers or bit strings. -/
def redInt (op : Aop) (t : Ty) (vs : List Nat) : Nat :=
  match op with
  | .add => vs.sum % 2 ^ t.bits
  | .min => vs.foldl (fun a b => if tyInt t b < tyInt t a then b else a) (emptyRed .min t)
  | .max => vs.foldl (fun a b => if tyInt t a < tyInt t b then b else a) (emptyRed .max t)
  | .and => vs.foldl (fun a b => a &&& b) (emptyRed .and t)
  | .or => vs.foldl (fun a b => a ||| b) 0
  | _ => vs.foldl (fun a b => a ^^^ b) 0

/-- A floating .add of terms in lane order (R141). -/
def redAddF (t : Ty) (vs : List Nat) : Res := nanOr t vs (sumF t .rn (vs.map (unpackF t)))

/-- A floating .min or .max of terms in lane order (R141). -/
def redMinMaxF (t : Ty) (isMax : Bool) (vs : List Nat) : Nat :=
  match vs.filter (fun v => !isNan t v) with
  | [] => quiet t (vs.headD 0)
  | v :: rest => rest.foldl (minMaxF t isMax false) v

/-- A reduction of terms in lane order (R140, R141). -/
def reduceOp (op : Aop) (t : Ty) (vs : List Nat) : Res :=
  if vs = [] then Res.of (emptyRed op t)
  else if t.isF then
    match op with
    | .add => redAddF t vs
    | .max => Res.of (redMinMaxF t true vs)
    | _ => Res.of (redMinMaxF t false vs)
  else Res.of (redInt op t vs)

/-- The reduction over the lanes of M (R140). -/
def redwOp (op : Aop) (t : Ty) (a : Src) (x : Iss) (s : State) : Res :=
  reduceOp op t ((maskLanes x.m).map fun l => x.val s l t a)

/-- redw (R140): with M empty, the uniform destination receives the empty-set value (R292). -/
def execRedw (c : Ctl) (op : Aop) (t : Ty) (d : Dst) (a : Src) (s : State) : Host.Outcome State Fault Refusal :=
  issueWord (.redw c op t d a) s (emptyPut (.fixed 9) d t.regs (emptyRed op t)) noPre
    (oneEffect (.fixed 9) d t.regs (redwOp op t a))

/-- scanw of a lane (R140). -/
def scanwOp (op : Aop) (t : Ty) (exc : Bool) (a : Src) (x : Iss) (s : State) (l : Nat) : Res :=
  reduceOp op t (((maskLanes x.m).filter fun j => if exc then decide (j < l) else decide (j ≤ l)).map
    fun j => x.val s j t a)

/-- scanw (R140). -/
def execScanw (c : Ctl) (op : Aop) (t : Ty) (exc : Bool) (d : Dst) (a : Src) (s : State) :
    Host.Outcome State Fault Refusal :=
  execLane (.scanw c op t exc d a) (.fixed 9) d t.regs (scanwOp op t exc a) s

/-! ### Random numbers (R142, R143) -/

/-- The rounds of Philox-4x32-10: x0 to x3 and y0, y1. -/
def philoxGo : Nat → Nat → Nat → Nat → Nat → Nat → Nat → List Nat
  | 0, x0, x1, x2, x3, _, _ => [x0, x1, x2, x3]
  | n + 1, x0, x1, x2, x3, y0, y1 =>
    let p0 := 0xd2511f53 * x0
    let p1 := 0xcd9e8d57 * x2
    philoxGo n (p1 / 2 ^ 32 ^^^ x1 ^^^ y0) (p1 % 2 ^ 32) (p0 / 2 ^ 32 ^^^ x3 ^^^ y1) (p0 % 2 ^ 32)
      ((y0 + 0x9e3779b9) % 2 ^ 32) ((y1 + 0xbb67ae85) % 2 ^ 32)

/-- The four words of a counter under a key (R142). -/
def philox (ctr key : Nat) : List Nat :=
  philoxGo 10 (ctr % 2 ^ 32) (ctr / 2 ^ 32 % 2 ^ 32) (ctr / 2 ^ 64 % 2 ^ 32) (ctr / 2 ^ 96 % 2 ^ 32) (key % 2 ^ 32)
    (key / 2 ^ 32)

/-- The next word of a random state, and the state after it (R143). -/
def Rng.draw (r : Rng) : Nat × Rng :=
  let w := (philox r.ctr.toNat r.key.toNat).getD r.idx 0
  if r.idx + 1 = 4 then (w, { r with idx := 0, ctr := r.ctr + 1 }) else (w, { r with idx := r.idx + 1 })

/-- The value that rnd draws, and the random state after it (R143). -/
def Rng.value (t : Ty) (r : Rng) : Nat × Rng :=
  let (w, r1) := r.draw
  if t = .b64 then
    let (w2, r2) := r1.draw
    (w + w2 * 2 ^ 32, r2)
  else if t = .f32 then ((packF .f32 .rn false (w / 256) (-24)).val, r1)
  else (w, r1)

/-- The effect of rnd: each lane of M draws (R143). -/
def rndEffect (t : Ty) (d : Dst) (x : Iss) (s : State) : State :=
  let s1 := laneEffect (.fixed 9) d t.regs (fun x _ l => Res.of ((x.wp.lane l).rng.value t).1) x s
  s1.onLanes x.w x.m fun _ ln => { ln with rng := (ln.rng.value t).2 }

/-- rnd (R143). -/
def execRnd (c : Ctl) (t : Ty) (d : Dst) (s : State) : Host.Outcome State Fault Refusal :=
  issueWord (.rnd c t d) s noEmpty noPre (rndEffect t d)

/-- The effect of rnd.seed (R143). -/
def rndSeedEffect (a b : Src) (x : Iss) (s : State) : State :=
  (s.onLanes x.w x.m fun l ln =>
    { ln with rng := ⟨x.src64 s l a, (x.src64 s l b).setWidth 128, 0⟩ }).retire x

/-- rnd.seed (R143). -/
def execRndSeed (c : Ctl) (t : Ty) (a b : Src) (s : State) : Host.Outcome State Fault Refusal :=
  issueWord (.rndSeed c t a b) s noEmpty noPre (rndSeedEffect a b)

end Sys2Proof.Machine
end

