-- ==== Sys2Proof/Machine/Kulisch.lean ====
section
/-!
DEFINITION. Kulisch accumulators (R110 to R113) and their instructions (R144 to R146).
-/

namespace Sys2Proof.Machine

/-- The lowest finite value of an accumulator (R110). -/
def kulLow : Int := -2 ^ 575 + 8

/-- The highest value of an accumulator (R110). -/
def kulHigh : Int := 2 ^ 575 - 1

/-- The pattern of an accumulator value. -/
def kulOf (z : Int) : Kul := BitVec.ofInt 576 z

/-- Side bits of an accumulator: PI 1, NI 2, NV 4; 0 when finite (R110). -/
def kulSide (a : Kul) : Nat := if a.toInt < kulLow then (a.toInt + 2 ^ 575).toNat else 0

/-- Accumulator q of a warp. -/
def Warp.acc (w : Warp) (q : BitVec 2) : Kul := w.ka.getD q.toNat 0

/-- Writes accumulator q of warp w. -/
def State.setAcc (s : State) (w : Nat) (q : BitVec 2) (a : Kul) : State :=
  s.onWarp w fun wp => { wp with ka := updNth (fun _ => a) q.toNat wp.ka }

/-- A term of an accumulating instruction: none where it is zero times infinity (R111). -/
abbrev KTerm := Option FV

/-- The side bits that terms add (R111). -/
def termSide (ts : List KTerm) : Nat :=
  ts.foldl (fun a t => match t with
    | none | some .nan => a ||| 4
    | some (.inf n) => if n then a ||| 2 else a ||| 1
    | _ => a) 0

/-- The exact sum of the finite terms, in units of 2^-300 (R111). -/
def termSum (ts : List KTerm) : Int :=
  ts.foldl (fun a t => match t with
    | some (.fin n m e) => a + signedM n m * 2 ^ (e + 300).toNat
    | _ => a) 0

/-- What an accumulator holds after terms, and the flags they set (R111). -/
def kulAdd (a : Kul) (ts : List KTerm) : Kul × BitVec 3 :=
  let s0 := kulSide a
  let s1 := s0 ||| termSide ts
  let inv := ts.any (fun t => t.isNone) || s1 &&& 3 == 3 && s0 &&& 3 != 3
  if s1 ≠ 0 then (kulOf (-2 ^ 575 + s1), flagIf fInv inv)
  else
    let z := a.toInt + termSum ts
    if kulHigh < z then (kulOf kulHigh, fKovf)
    else if z < kulLow then (kulOf kulLow, fKovf)
    else (kulOf z, 0)

/-- Elements of one value of a type (R93). -/
def elemCount (t : Ty) : List Nat := if t.isP then [0, 1] else [0]

/-- The terms that kadd takes from the lanes of M (R144). -/
def addTerms (t : Ty) (neg : Bool) (a : Src) (x : Iss) (s : State) : List KTerm :=
  (maskLanes x.m).flatMap fun l => (elemCount t).map fun j =>
    let v := unpackF (elemTy t) (elemOf t (x.val s l t a) j)
    some (if neg then negV v else v)

/-- The terms that kdot takes from the lanes of M (R144): a NaN operand makes a NaN term. -/
def dotTerms (t : Ty) (a b : Src) (x : Iss) (s : State) : List KTerm :=
  (maskLanes x.m).flatMap fun l => (elemCount t).map fun j =>
    mulV (unpackF (elemTy t) (elemOf t (x.val s l t a) j)) (unpackF (elemTy t) (elemOf t (x.val s l t b) j))

/-- The effect of an accumulating instruction (R111, R144). -/
def kulEffect (q : BitVec 2) (f : Iss → State → List KTerm) (x : Iss) (s : State) : State :=
  let r := kulAdd (x.wp.acc q) (f x s)
  ((s.setAcc x.w q r.1).orFlags x.wp.gid r.2).retire x

/-- The effect of kzero (R144). -/
def kzeroEffect (q : BitVec 2) (x : Iss) (s : State) : State := (s.setAcc x.w q 0).retire x

/-- kzero (R144). -/
def execKzero (c : Ctl) (q : BitVec 2) (s : State) : Host.Outcome State Fault Refusal :=
  issueWord (.kzero c q) s noEmpty noPre (kzeroEffect q)

/-- kadd (R111, R144). -/
def execKadd (c : Ctl) (t : Ty) (q : BitVec 2) (a : Src) (s : State) : Host.Outcome State Fault Refusal :=
  issueWord (.kadd c t q a) s noEmpty noPre (kulEffect q (addTerms t false a))

/-- ksub (R111, R144). -/
def execKsub (c : Ctl) (t : Ty) (q : BitVec 2) (a : Src) (s : State) : Host.Outcome State Fault Refusal :=
  issueWord (.ksub c t q a) s noEmpty noPre (kulEffect q (addTerms t true a))

/-- kdot (R111, R144). -/
def execKdot (c : Ctl) (t : Ty) (q : BitVec 2) (a b : Src) (s : State) : Host.Outcome State Fault Refusal :=
  issueWord (.kdot c t q a b) s noEmpty noPre (kulEffect q (dotTerms t a b))

/-- kround's value (R112): an accumulator of 0 gives +0 (log 24). -/
def kroundOp (t : Ty) (rm : Rm) (a : Kul) : Res :=
  let sd := kulSide a
  if sd = 0 then packF t rm (decide (a.toInt < 0)) a.toInt.natAbs (-300)
  else if 4 ≤ sd then Res.of (genNan t 1)
  else if sd = 3 then Res.of (genNan t 3)
  else Res.of (infPat t + signPat t (sd == 2))

/-- kround (R112, R144). -/
def execKround (c : Ctl) (t : Ty) (rm : Rm) (d : Dst) (q : BitVec 2) (s : State) : Host.Outcome State Fault Refusal :=
  issueWord (.kround c t rm d q) s noEmpty noPre
    (oneEffect .variable d t.regs fun x _ => kroundOp t rm (x.wp.acc q))

/-- ksave (R145). -/
def execKsave (c : Ctl) (d : Dst) (q : BitVec 2) (s : State) : Host.Outcome State Fault Refusal :=
  issueWord (.ksave c d q) s noEmpty noPre (oneEffect .variable d 18 fun x _ => Res.of (x.wp.acc q).toNat)

/-- The pattern that kload reads from 18 registers (R145). -/
def kloadPat (a : Dst) (x : Iss) (s : State) : Nat :=
  (upTo 0 18).foldl (fun p j => p + (x.reg s (lowLane x.m) a j).toNat * 2 ^ (32 * j)) 0

/-- What kload loads from a pattern (R112). -/
def kloadOp (p : Nat) : Kul × BitVec 3 :=
  if p = 2 ^ 575 then (kulOf kulLow, fKovf) else (BitVec.ofNat 576 p, 0)

/-- The effect of kload (R112, R145). -/
def kloadEffect (q : BitVec 2) (a : Dst) (x : Iss) (s : State) : State :=
  let r := kloadOp (kloadPat a x s)
  ((s.setAcc x.w q r.1).orFlags x.wp.gid r.2).retire x

/-- kload (R145). -/
def execKload (c : Ctl) (q : BitVec 2) (a : Dst) (s : State) : Host.Outcome State Fault Refusal :=
  issueWord (.kload c q a) s noEmpty noPre (kloadEffect q a)

/-- The status word of an accumulator (R146). -/
def kstatOp (a : Kul) : Nat :=
  let sd := kulSide a
  if sd ≠ 0 then 2 * sd + 1 + 0x3ff * 2 ^ 16
  else if a = 0 then 0x3ff * 2 ^ 16
  else Nat.log2 a.toInt.natAbs * 2 ^ 16 + (if a.toInt < 0 then 2 ^ 31 else 0)

/-- kstat (R146). -/
def execKstat (c : Ctl) (d : Dst) (q : BitVec 2) (s : State) : Host.Outcome State Fault Refusal :=
  issueWord (.kstat c d q) s noEmpty noPre (oneEffect .variable d 1 fun x _ => Res.of (kstatOp (x.wp.acc q)))

end Sys2Proof.Machine
end

