-- ==== Sys2Proof/Machine/Mailbox.lean ====
section
/-!
DEFINITION. The mailbox engine (R166, R209, R230, R382, R383): host writes and reads of the aperture, reads of BAR 0 and
writes of notify registers, in the order in which they reach it.
-/

namespace Sys2Proof.Machine

/-- The naturally aligned 4-byte parts of n bytes from va on, with their lengths (R382). -/
def wordParts : Nat → Nat → Nat → List (Nat × Nat)
  | 0, _, _ => []
  | _, _, 0 => []
  | f + 1, va, n =>
    let k := min n (4 - va % 4)
    (va, k) :: wordParts f (va + k) (n - k)

/-- What the checks of a mailbox access find: every part's physical address, the first failure, or a wait. -/
inductive MbChk
  | ok (pas : List Nat)
  | bad (cls va : Nat)
  | later
deriving DecidableEq, Repr

/-- Checks the parts in ascending order (R382, R383). -/
def State.mbCheck (s : State) (world : Nat) (need : Perm) : List (Nat × Nat) → MbChk × State
  | [] => (.ok [], s)
  | (va, _) :: rest =>
    match s.engineAt world va need with
    | (.bad k, s) => (.bad k va, s)
    | (.err k, s) => (.bad k va, s)
    | (.held, s) => (.later, s)
    | (.tile, s) => (.later, s)
    | (.ok pa, s) =>
      match State.mbCheck s world need rest with
      | (.ok ps, s) => (.ok (pa :: ps), s)
      | r => r

/-- The event of a mailbox access that fails (R383). -/
def mailboxEvent (world cls va : Nat) : Event :=
  { Event.blank with ring := ringOf world, src := 0x410, kind := 1, cls := cls, addr := va, slot := 0xffff }

/-- The aperture is 64 GiB (R382). -/
def apertureSize : Nat := 2 ^ 36

/-! ### Reads of BAR 0 (R7, R8, R17, R213, R219, R230, R375) -/

/-- The number under which the model names the physical function beside the virtual functions 0 to 1,023. -/
def physFn : Nat := 1024

/-- LINKSTAT: three bits for each link, in the order of R369 (R371, R375). -/
def State.linkstat (s : State) : Nat := (upTo 0 17).foldl (fun a n => a + (s.link n).code * 8 ^ n) 0

/-- GCQCFG and HEQCFG; the reserved bits read zero (R8, R213). -/
def Gcq.cfg (r : Gcq) : Nat := (if r.en then 2 ^ 31 else 0) + r.vec * 2 ^ 16 + r.log2n

/-- A register of a ring, by its place among the ring's four: base, configuration, host's count and device's count (R213). -/
def Gcq.reg (r : Gcq) (n host dev : Nat) : Nat := [r.base, r.cfg, host, dev].getD n 0

/-- The 64-bit registers of the physical function; what is not listed reads zero (R8, R213, R375). DESIGN CHOICE (log 90):
the manual gives DEVINFO and SPARESTAT no offset; here each stands at eight times its number of R17. -/
def State.physReg (s : State) (off : Nat) : Nat :=
  if off = 0 then s.devinfo
  else if off = 8 then s.sparestat
  else if off = 0x800 then s.linkstat
  else if 0x900 ≤ off ∧ off < 0x920 then s.gcq.reg ((off - 0x900) / 8) s.gcq.tail s.gcq.head
  else if 0x920 ≤ off ∧ off < 0x940 then s.heq.reg ((off - 0x920) / 8) s.heq.head s.heq.tail
  else 0

/-- SQn: TAIL and NERR (R230). -/
def SubQ.reg (k : SubQ) : Nat := (if k.nerr then 2 ^ 32 else 0) + k.tail

/-- The 64-bit registers of a virtual function; what is not listed reads zero (R8, R219, R230). -/
def Ctx.reg (c : Ctx) (off : Nat) : Nat :=
  if off = 0xf00 then c.eqhead
  else if off = 0xf08 then c.eqtail
  else if 0x1000 ≤ off ∧ off < 0x1080 then ((c.sqs.find ((off - 0x1000) / 8)).map SubQ.reg).getD 0
  else 0

/-- The register at an offset, a multiple of 8, of a function's BAR 0. -/
def State.reg (s : State) (fn off : Nat) : Nat :=
  if fn = physFn then s.physReg off else ((s.ctxs.find fn).map fun c => c.reg off).getD 0

/-- The byte at an offset of BAR 0. -/
def State.regByte (s : State) (fn off : Nat) : Byte := BitVec.ofNat 8 (s.reg fn (off / 8 * 8) / 2 ^ (8 * (off % 8)))

/-- A read request of up to 4,096 bytes of BAR 0 (R7, R166). -/
def State.regRead (s : State) (fn off len tag : Nat) : State :=
  { s with outs := s.outs ++
      [if 4096 < len then Out.completerAbort fn tag else Out.readData fn tag ((upTo off len).map (s.regByte fn))] }

/-- What a host access comes to: it is done, or it waits at the head of the engine. -/
inductive MbRes
  | done (s : State)
  | wait (s : State)

/-- A write TLP performs a part; what is left of it waits for its next step (R382). -/
def State.mbPut (s : State) (fn va pa pos : Nat) (bs : List Byte) (fresh : Bool) : MbRes :=
  let k := min (bs.length - pos) (4 - va % 4)
  let s := s.engineSector fn pa ((bs.drop pos).take k)
  if bs.length ≤ pos + k then .done s else .wait { s with mbRun := some ⟨va + k, pos + k, [], fresh⟩ }

/-- A read request reads a part; the answer goes out with the last one (R382). -/
def State.mbGet (s : State) (fn va pa len tag : Nat) (got : List Byte) (fresh : Bool) : MbRes :=
  let k := min (len - got.length) (4 - va % 4)
  let (b, s) := s.engineRead fn pa k
  let got := got ++ b
  if len ≤ got.length then .done { s with outs := s.outs ++ [Out.readData fn tag got] }
  else .wait { s with mbRun := some ⟨va + k, got.length, got, fresh⟩ }

/-- A write TLP: every byte is checked before the first part is written (R382, R383). -/
def State.mbWrite (s : State) (fn off : Nat) (bs : List Byte) (c : Ctx) : MbRes :=
  if c.st = .departing then .done { s with outs := s.outs ++ [Out.writeRefused fn] }
  else if apertureSize < off + bs.length then .done s
  else
    match s.mbCheck fn .w (wordParts (bs.length + 1) (c.abase + off) bs.length) with
    | (.later, t) => .wait t
    | (.bad cls va, _) => .done (s.raiseEvent (mailboxEvent fn cls va))
    | (.ok [], s) => .done s
    | (.ok (pa :: _), s) => s.mbPut fn (c.abase + off) pa 0 bs true

/-- A read request of up to 4,096 bytes (R382, R383). -/
def State.mbRead (s : State) (fn off len tag : Nat) (c : Ctx) : MbRes :=
  let abort (s : State) : State := { s with outs := s.outs ++ [Out.completerAbort fn tag] }
  if c.st = .departing ∨ apertureSize < off + len ∨ 4096 < len then .done (abort s)
  else
    match s.mbCheck fn .r (wordParts (len + 1) (c.abase + off) len) with
    | (.later, t) => .wait t
    | (.bad cls va, _) => .done ((abort s).raiseEvent (mailboxEvent fn cls va))
    | (.ok [], s) => .done { s with outs := s.outs ++ [Out.readData fn tag []] }
    | (.ok (pa :: _), s) => s.mbGet fn (c.abase + off) pa len tag [] true

/-- Performs a host access that is at the head of the engine; a function with no context has no aperture and no queues. -/
def State.mbDo (s : State) (i : MbOp) : MbRes :=
  let on (fn : Nat) (f : Ctx → MbRes) (none : MbRes) : MbRes :=
    match s.ctxs.find fn with
    | some c => if c.st = .free then none else f c
    | _ => none
  match i with
  | .write fn off bs => on fn (s.mbWrite fn off (bs.map fun b => BitVec.ofNat 8 b)) (.done s)
  | .read fn off len tag =>
    on fn (s.mbRead fn off len tag) (.done { s with outs := s.outs ++ [Out.completerAbort fn tag] })
  | .reg fn off len tag => .done (s.regRead fn off len tag)
  | .notify fn q v =>
    on fn (fun c =>
      if c.st = .departing then .done { s with outs := s.outs ++ [Out.writeRefused fn] }
      else
        match c.sqs.find q with
        | none => .done s
        | some k =>
          match s.notify fn q v k with
          | some s => .done s
          | none => .wait s) (.done s)

/-- The access at the head goes on with its next part; one that fails there ends, and its earlier parts stand (R382, R383; log 98). -/
def State.mbNext (s : State) (i : MbOp) (r : MbRun) : MbRes :=
  let gone (fn : Nat) : Bool := s.cstate fn == .free || s.cstate fn == .departing
  let part (fn : Nat) (need : Perm) (stop : State → State) (go : Nat → State → MbRes) : MbRes :=
    if gone fn then .done (stop s)
    else
      match s.engineAt fn r.va need with
      | (.bad k, s) => .done ((stop s).raiseEvent (mailboxEvent fn k r.va))
      | (.err k, s) => .done ((stop s).raiseEvent (mailboxEvent fn k r.va))
      | (.held, s) => .wait s
      | (.tile, s) => .wait s
      | (.ok pa, s) => go pa s
  match i with
  | .write fn _ bs =>
    part fn .w (fun s => if gone fn then { s with outs := s.outs ++ [Out.writeRefused fn] } else s) fun pa s =>
      s.mbPut fn r.va pa r.pos (bs.map fun b => BitVec.ofNat 8 b) false
  | .read fn _ len tag =>
    part fn .r (fun s => { s with outs := s.outs ++ [Out.completerAbort fn tag] }) fun pa s =>
      s.mbGet fn r.va pa len tag r.got false
  | .reg .. => .done s
  | .notify .. => .done s

/-- Performs the accesses that wait, in order, while they can be; n at most (R166). -/
def State.flushMbox : Nat → State → State
  | 0, s => s
  | n + 1, s =>
    match s.mbox, s.mbRun with
    | i :: rest, none =>
      (match s.mbDo i with
        | .done s => State.flushMbox n { s with mbox := rest }
        | .wait s => s)
    | _, _ => s

/-- The accesses that wait may go on. -/
def State.pumpMbox (s : State) : State := State.flushMbox s.mbox.length s

/-- After a step that did not start it, the access at the head performs one more part, so that other agents may see some of a TLP
and not the rest (R382). -/
def State.mbGo (s : State) : State :=
  match s.mbox, s.mbRun with
  | i :: rest, some r =>
    if r.fresh then { s with mbRun := some { r with fresh := false } }
    else if s.power != .on then s
    else
      match s.mbNext i r with
      | .done s => ({ s with mbox := rest, mbRun := none } : State).pumpMbox
      | .wait s => s
  | _, _ => s

/-- A host access reaches the engine: behind those that wait, or it is performed (R166). -/
def State.mbArrive (s : State) (i : MbOp) : State :=
  if !s.mbox.isEmpty then { s with mbox := s.mbox ++ [i] }
  else
    match s.mbDo i with
    | .done s => s
    | .wait s => { s with mbox := [i] }

/-- NOTIFY_REGISTER_WRITE (R166, R209, R228, R230): refused in a departing context; a queue that does not exist ignores it. -/
def execNotifyRegisterWrite (fn q v : Nat) (s : State) : Host.Outcome State Fault Refusal :=
  hostAccess s fun s => s.mbArrive (.notify fn q v)

/-- MAILBOX_WRITE (R166, R382, R383). -/
def execMailboxWrite (fn off : Nat) (bytes : List Nat) (s : State) : Host.Outcome State Fault Refusal :=
  hostAccess s fun s => s.mbArrive (.write fn off bytes)

/-- MAILBOX_READ (R7, R166, R213, R382, R383): of BAR 0, or of the aperture. -/
def execMailboxRead (bar : BarOf) (off len tag : Nat) (s : State) : Host.Outcome State Fault Refusal :=
  hostAccess s fun s => s.mbArrive (match bar with
    | .regs fn => .reg fn off len tag
    | .aperture fn => .read fn off len tag)

end Sys2Proof.Machine
end

