-- ==== Sys2Proof/Machine/MemEvents.lean ====
section
/-!
DEFINITION. Events of the warps' accesses: WATCHDOG (R295), the return of loads, the performing of writes and atomic
elements, acknowledgements, drained store counts, error replies (R158 to R182), translation walks (R345) and scrubbing
(R364).
-/

namespace Sys2Proof.Machine

/-- WATCHDOG: the instruction that the issuing warp would issue raises it and takes no effect; LANES are its active lanes
(R221, R295). -/
def execWatchdog (s : State) : Host.Outcome State Fault Refusal :=
  event s fun s =>
    match s.iss Ctl.plain with
    | none => s
    | some x => s.raise x (x.flt 14 x.m 0 0) 0

/-! ### Loads -/

/-- The bytes that a remote device returns (R386): free bytes. -/
def State.farBytes (s : State) (n : Nat) : List Byte := (upTo 0 n).map fun j => BitVec.ofNat 8 (s.free (2 ^ 20 + j))

/-- The comparison of a waita at one home slice, and its end with the last one (R184). -/
def State.waitaUnit (s : State) (x : Nat) (t : Txn) (q : Nat) (a : Acc) : State :=
  let s := s.waitaSector x t q a
  match s.txns.find x with
  | some t' => if t'.units = [] then s.waitaCompared x t' q else s
  | none => s

/-- What a remote device answers: a free choice between the access and the classes of its failures (R387). -/
def State.farErr (s : State) : Option Nat :=
  match s.free 3 % 4 with
  | 0 => none
  | 1 => some 8
  | 2 => some 9
  | _ => some 10

/-- A unit has met an error. -/
def Txn.fail (t : Txn) (u cls : Nat) : Txn := { t with units := updNth (fun a => { a with err := some cls }) u t.units }

/-- Units of an access leave the list of those to perform. -/
def Txn.done (t : Txn) (us : List Acc) : Txn := { t with units := t.units.filter fun b => !us.contains b }

/-- Reads units one after the other: what each of them read. -/
def readUnits (t : Txn) : List Acc → State → List Acc × State
  | [], s => ([], s)
  | a :: as, s =>
    let (bs, s) := s.readUnit t a
    let (gs, s) := readUnits t as s
    ({ a with data := bs } :: gs, s)

/-- Units of a load have been answered; the last one ends the load. -/
def State.loaded (s : State) (x : Nat) (t : Txn) (us gs : List Acc) : State :=
  let t' : Txn := { t.done us with got := t.got ++ gs }
  let s := { s with txns := s.txns.put x t' }
  if t'.units = [] then s.finishRead x t' else s

/-- Unit u of a load is answered, and with it the load's other units of the word (R158, R175, R387). -/
def State.loadUnit (s : State) (x u : Nat) (t : Txn) (a : Acc) : State :=
  if a.port.isSome then
    match s.farErr with
    | none => s.used.loaded x t [a] [{ a with data := s.farBytes a.n }]
    | some k => ({ s with txns := s.txns.put x (t.fail u k) } : State).used
  else
    let us := t.with a
    let (gs, s) := readUnits t us s
    s.loaded x t us gs

/-- A unit of an access in flight that may be performed now, with those that are performed with it. -/
def State.unitNow (s : State) (x u : Nat) (k : TxKind) : Option (Txn × Acc) :=
  match s.txns.find x with
  | none => none
  | some t =>
    match t.units[u]? with
    | none => none
    | some a => if t.kind = k ∧ (t.with a).all (s.unitOk x t) then some (t, a) else none

/-- LOAD_DATA_RETURN (R158, R175, R184). -/
def execLoadDataReturn (x u : Nat) (s : State) : Host.Outcome State Fault Refusal :=
  event s fun s =>
    match s.unitNow x u .load with
    | none => s
    | some (t, a) =>
      s.gated t.core (match t.ins, t.q with
        | .waita .., some q => s.waitaUnit x t q a
        | _, _ => s.loadUnit x u t a)

/-! ### Stores and atomics -/

/-- WRITE_UNIT_PERFORMED (R152, R157). -/
def execWriteUnitPerformed (x u : Nat) (s : State) : Host.Outcome State Fault Refusal :=
  event s fun s =>
    match s.unitNow x u .store with
    | none => s
    | some (t, a) =>
      if a.port.isSome then s
      else
        let us := t.with a
        let s := us.foldl (fun s a => s.writeUnit t a) s
        { s with txns := s.txns.put x (t.done us) }

/-- ATOMIC_ELEMENT_APPLIED (R159, R182). -/
def execAtomicElementApplied (x u : Nat) (s : State) : Host.Outcome State Fault Refusal :=
  event s fun s =>
    match s.unitNow x u .atomic with
    | none => s
    | some (t, a) => if a.port.isNone && s.elemOk x t a then s.gated t.core (s.applyElem x t a) else s

/-- Every unit of a counted access has been performed: the store count falls, and the flags are set (R168, R181). -/
def State.acknowledge (s : State) (x : Nat) (t : Txn) : State :=
  let s := { s with txns := s.txns.del x }
  let s := s.onWarp t.w fun wp => { wp with stores := wp.stores - t.owed }
  (s.flagsTo t).settle t.w

/-- STORE_ACKNOWLEDGED (R168). -/
def execStoreAcknowledged (x : Nat) (s : State) : Host.Outcome State Fault Refusal :=
  event s fun s =>
    match s.txns.find x with
    | none => s
    | some t => if t.units = [] ∧ 0 < t.owed then s.gated t.core (s.acknowledge x t) else s

/-! ### Store counts -/

/-- A release point's wait can end (R168, R190, R324, R366), or the wait of an access whose walk was held back (R378). -/
def drainOk (s : State) (y : Wait) (x : Iss) : Bool :=
  match y.kind with
  | .drain => (x.wp.drained || (y.stat.find 2).isSome) && s.freeAt (coreDie x.wp.core) x.g.world y.stat && match y.ins with
    | .publish .. => x.wp.shd == 0
    | .bar .. | .barArrive .. => !s.converting x
    | _ => true
  | .copySlot => x.wp.drained && decide ((s.core x.wp.core).copies.length < 32)
  | .flag => x.wp.matOut == 0
  | _ => false

/-- A lane that waits before it ends may end, and ends (R276). -/
def State.endNow (s : State) (q : Nat) (y : Wait) : State :=
  match s.warps.find y.w with
  | none => s
  | some wp =>
    let l := lowLane y.lanes
    if s.runs y.w && s.canEnd y.w l wp then
      s.gated wp.core ((s.unblock q).laneEnd y.w l ((wp.lane l).ending.getD false))
    else s

/-- STORE_COUNT_DRAINED (R168). -/
def execStoreCountDrained (q : Nat) (s : State) : Host.Outcome State Fault Refusal :=
  event s fun s =>
    match s.waits.find q with
    | none => s
    | some y => if y.kind = .ending then s.endNow q y else s.reissue q (drainOk s)

/-! ### Error replies -/

/-- Every unit left of an access in flight meets an error reply (R176). -/
def State.allFailed (s : State) (x : Nat) (t : Txn) : Bool :=
  !t.units.isEmpty && !s.isKept x t && t.units.all fun a => (s.unitErr t a).isSome

/-- ERROR_REPLY (R176): the performed units stand, and the instruction raises the fault. A waita that fails has armed
nothing. -/
def execErrorReply (x : Nat) (s : State) : Host.Outcome State Fault Refusal :=
  event s fun s =>
    match s.txns.find x with
    | none => s
    | some t =>
      if s.allFailed x t then
        match s.worstUnit t t.units with
        | none => s
        | some (cls, _, va) =>
          let s := { s with monitors := s.monitors.filter fun m => some m.q != t.q }
          s.gated t.core (s.failTxn x t cls va)
      else s

/-! ### Walks and scrubbing -/

/-- PAGE_WALK (R345, R347, R352, R353): a die walks a virtual address for a world, and remembers what it reads. A walk performs no
access through its leaf, for a write or not, and sets no bit of it (R350). -/
def execPageWalk (die world va : Nat) (_wr : Bool) (s : State) : Host.Outcome State Fault Refusal :=
  event s fun s => if 2 ^ 57 ≤ va then s else (s.walk die world va).2

/-- Some unit in flight meets granule g, and the key it is scrubbed with is that of its world (R364). -/
def State.toucher (s : State) (g : Nat) : Option Nat :=
  (s.txns.find? fun e => e.2.units.any fun a => a.port.isNone && granOf a.pa == g).map fun e => e.2.world

/-- FIRST_TOUCH_SCRUB (R364): the granule is zeroed under the key of the world whose access meets it. -/
def execFirstTouchScrub (g : Nat) (s : State) : Host.Outcome State Fault Refusal :=
  event s fun s =>
    match s.toucher g with
    | none => s
    | some w => if s.unscrubbed.getD g false then s.scrubNow (s.key w).key g else s

/-- A granule scrubbed in the background reads as zeros to its next owner, whichever key it reads with (R209, R364; log
33). -/
def State.scrubAny (s : State) (g : Nat) : State :=
  { s with
    mem := memSets s.mem (g * 4096) (List.replicate 4096 0)
    secKey := (upTo (g * 128) 128).foldl (fun t n => t.del n) s.secKey
    unscrubbed := s.unscrubbed.del g }

/-- BACKGROUND_SCRUB (R364): the unscrubbed granule of the lowest address. -/
def execBackgroundScrub (s : State) : Host.Outcome State Fault Refusal :=
  event s fun s =>
    match s.unscrubbed with
    | [] => s
    | e :: _ => s.scrubAny e.1

end Sys2Proof.Machine
end

