-- ==== Sys2Proof/Machine/SintLog.lean ====
section
/-!
DEFINITION. The logs of Sinter tiles: entries, compaction and appends to the log of an ABSENT tile (R359 to R362).
-/

namespace Sys2Proof.Machine

/-! ### Log entries (R360) -/

/-- The OP code of a reduction. -/
def logOp : Aop → Nat
  | .add => 1
  | .min => 2
  | .max => 3
  | .and => 4
  | .or => 5
  | .xor => 6
  | .inc => 7
  | .dec => 8
  | .exch => 0
  | .cas => 0

/-- The operation of an OP code; a store is an exchange. -/
def opOfLog (n : Nat) : Aop :=
  if n = 1 then .add else if n = 2 then .min else if n = 3 then .max else if n = 4 then .and else if n = 5 then .or
  else if n = 6 then .xor else if n = 7 then .inc else if n = 8 then .dec else .exch

/-- The TYPE code of a type. -/
def logTy : Ty → Nat
  | .i8 => 0
  | .i16 => 0
  | .i32 => 0
  | .i64 => 0
  | .n8 => 1
  | .n16 => 1
  | .n32 => 1
  | .n64 => 1
  | .f16 => 3
  | .bf16 => 4
  | .f32 => 5
  | .f64 => 6
  | _ => 2

/-- The type of a TYPE code and a size in bytes. -/
def tyOfLog (ty size : Nat) : Ty :=
  if ty = 0 then (if size = 1 then .i8 else if size = 2 then .i16 else if size = 4 then .i32 else .i64)
  else if ty = 1 then (if size = 1 then .n8 else if size = 2 then .n16 else if size = 4 then .n32 else .n64)
  else if ty = 3 then .f16
  else if ty = 4 then .bf16
  else if ty = 5 then .f32
  else if ty = 6 then .f64
  else if size = 1 then .b8 else if size = 2 then .b16 else if size = 4 then .b32 else .b64

/-- The 128 bits of an entry. -/
def LogE.word (e : LogE) : Nat :=
  let sz := if e.size = 1 then 0 else if e.size = 2 then 1 else if e.size = 4 then 2 else 3
  e.op * 2 ^ 118 + e.ty * 2 ^ 114 + sz * 2 ^ 112 + e.off * 2 ^ 96 + e.seq * 2 ^ 64 + e.val

/-- apply of an entry to a value (R361, R363). -/
def LogE.apply (e : LogE) (old : Nat) : Res := applyOp (opOfLog e.op) (tyOfLog e.ty e.size) old e.val

/-- The entry of a store of bytes at an address. -/
def storeEntry (va : Nat) (data : List Byte) : LogE := ⟨0, 2, data.length, va % 65536, 0, leNat data⟩

/-- The entries of an element of red or vred: a packed one makes two, of which the second may be left alone (R360). -/
def redEntries (op : Aop) (ty : Ty) (va : Nat) (data : List Byte) : List LogE :=
  let off := va % 65536
  if ty.isP then
    let k := logTy (elemTy ty)
    let e : LogE := ⟨logOp op, k, 2, off, 0, leNat (data.take 2)⟩
    if data.length = 2 then [e] else [e, ⟨logOp op, k, 2, off + 2, 0, leNat (data.drop 2)⟩]
  else [⟨logOp op, logTy ty, data.length, off, 0, leNat data⟩]

/-- The entries of a unit of st, red or vred (R360). -/
def logEntries (t : Txn) (a : Acc) : List LogE :=
  match t.kind with
  | .store => [storeEntry a.va a.data]
  | _ => redEntries (aopOf t.ins).1 (aopOf t.ins).2 a.va a.data

/-! ### Compaction (R361) -/

/-- The bytes of two entries intersect. -/
def LogE.touches (a b : LogE) : Bool := meetRange a.off a.size b.off b.size

/-- The bytes of a lie wholly within those of b. -/
def LogE.within (a b : LogE) : Bool := decide (b.off ≤ a.off) && decide (a.off + a.size ≤ b.off + b.size)

/-- Entry e merges into y. -/
def LogE.merges (e y : LogE) : Bool :=
  y.off == e.off && y.size == e.size && decide (1 ≤ e.op) && decide (e.op ≤ 6) &&
    (y.op == e.op && y.ty == e.ty || y.op == 0)

/-- One entry of the fold over a list kept newest first, with the flags that arise. -/
def foldEntry (o : List LogE) (e : LogE) : List LogE × BitVec 3 :=
  if e.op = 0 then (e :: o.filter fun y => !y.within e, 0)
  else
    match o.span fun y => !y.touches e with
    | (newer, y :: older) =>
      if e.merges y then
        let r := e.apply y.val
        (newer ++ { y with val := r.val } :: older, r.fl)
      else (e :: o, 0)
    | _ => (e :: o, 0)

/-- Compaction of a log with an incoming entry last. -/
def compact (log : List LogE) (x : LogE) : List LogE × BitVec 3 :=
  let r := (log ++ [x]).foldl (fun acc e =>
    let f := foldEntry acc.1 e
    (f.1, acc.2 ||| f.2)) ([], 0)
  (r.1.reverse, r.2)

/-- The bits of GFLAGS, as Res.fl orders them: SAT and INV go to the tile (R360). -/
def STile.flagged (t : STile) (fl : BitVec 3) : STile :=
  { t with sat := t.sat || fl.getLsbD 0, inv := t.inv || fl.getLsbD 1 }

/-- Appends an entry; none where the log stays too long (R360, R361). -/
def STile.append (t : STile) (e : LogE) : Option STile :=
  let e := { e with seq := t.seq }
  let t' := { t with seq := (t.seq + 1) % 2 ^ 32 }
  if t.log.length < t.cap then some { t' with log := t.log ++ [e] }
  else
    let (o, fl) := compact t.log e
    if o.length ≤ t.cap then some ({ t' with log := o }.flagged fl) else none

/-- Appends entries in order up to the first that does not fit: the tile, and the bytes of the entries that are stored
(R360). -/
def STile.appends (t : STile) : List LogE → STile × Nat
  | [] => (t, 0)
  | e :: es =>
    match t.append e with
    | some t =>
      let (t, n) := STile.appends t es
      (t, e.size + n)
    | none => (t, 0)

/-- A tile whose fetch is forced (R359). -/
def STile.forced (t : STile) : STile := { t with st := .arriving }

/-! ### LOG_APPEND (R359, R360) -/

/-- st, red and vred are appended; every other access forces a fetch (R359). -/
def logs : Instr → Bool
  | .st .. | .red .. | .vred .. => true
  | _ => false

/-- The first unit of an access that still lies in a tile. -/
def State.firstIn (s : State) (t : Txn) (u r n : Nat) : Bool :=
  (t.units.take u).all fun b => !b.sm || match s.tileAt t.world b.va with
    | some (r', n', _) => r' != r || n' != n
    | none => true

/-- What is left of a unit after its first n bytes. -/
def Acc.rest (a : Acc) (n : Nat) : Acc :=
  { a with va := a.va + n, pa := a.pa + n, n := a.n - n, data := a.data.drop n, idx := a.idx + n }

/-- LOG_APPEND (R359 to R361): unit u of access x is appended to the log of its ABSENT tile, and leaves no copy in the issuing
core's L1 (R153); where an entry of it does not fit, the fetch is forced, and what is left of the unit waits. -/
def execLogAppend (x u : Nat) (s : State) : Host.Outcome State Fault Refusal :=
  event s fun s =>
    match s.txns.find x with
    | none => s
    | some t =>
      match t.units[u]? with
      | none => s
      | some a =>
        match s.tileAt t.world a.va with
        | none => s
        | some (r, n, y) =>
          let ok := a.sm && logs t.ins && y.st == .absent && a.err.isNone && !s.isKept x t && s.inOrder x t a &&
            s.firstIn t u r n && (s.replyErr t.world a.pa).isNone && !s.away (coreDie t.core) a.pa
          if !ok then s
          else
            let (y', k) := y.appends (logEntries t a)
            let whole := k == a.n
            let s := (s.onTile r n fun _ => if whole then y' else y'.forced).l1Drop t.core t.world a.pa
            { s with txns := s.txns.put x { t with
                units := if whole then dropNth u t.units else updNth (fun a => a.rest k) u t.units } }

end Sys2Proof.Machine
end

