-- ==== Sys2Proof/Machine/Peer.lean ====
section
/-!
DEFINITION. Peer traffic (R386, R387): the requests of a peer device, performed for its world at the home slice or put
into the log of an ABSENT tile, and the acknowledgements that remote devices send back.
-/

namespace Sys2Proof.Machine

/-- Bytes as they come with an event. -/
def toBytes (bs : List Nat) : List Byte := bs.map fun b => BitVec.ofNat 8 b

/-! ### Requests of a peer device -/

/-- What a request of a peer device needs of the page (R349). -/
def remNeed : RemOp → Perm
  | .rd => .r
  | .wr => .w
  | .red .. => .a

/-- Performs a request at a physical address, and answers the peer: the bytes read, or an acknowledgement. -/
def State.farDo (s : State) (q : FarReq) (pa : Nat) : State :=
  let answer (s : State) (bs : List Byte) : State := { s with outs := s.outs ++ [Out.peerData q.port bs] }
  match q.op with
  | .rd => answer (s.engineRead q.world pa q.bytes.length).2 (s.engineRead q.world pa q.bytes.length).1
  | .wr => answer (s.engineSector q.world pa (toBytes q.bytes)) []
  | .red op t =>
    let old := leNat (s.engineRead q.world pa q.bytes.length).1
    answer (s.engineSector q.world pa (leBytes q.bytes.length (applyOp op t old (leNat (toBytes q.bytes))).val)) []

/-- The log entries of a request; a read makes none (R360). -/
def FarReq.entries (q : FarReq) : List LogE :=
  match q.op with
  | .rd => []
  | .wr => [storeEntry q.va (toBytes q.bytes)]
  | .red op t => redEntries op t q.va (toBytes q.bytes)

/-- The number of a write or an element is remembered once it is applied, so that it is applied at most once (R387). -/
def State.farMark (s : State) (q : FarReq) : State :=
  { s with farSeen := s.farSeen.put q.port (q.seq :: s.farSeen.getD q.port []) }

/-- What is left of a request after its first n bytes. -/
def FarReq.rest (q : FarReq) (n : Nat) : FarReq := { q with va := q.va + n, bytes := q.bytes.drop n }

/-- Puts the entries of a request into the log of its ABSENT tile; what is left of it has to wait for the tile (R359, R360). -/
def State.farLog (s : State) (q : FarReq) : Option FarReq × State :=
  match s.tileAt q.world q.va with
  | none => (some q, s)
  | some (r, n, y) =>
    if q.op = .rd ∨ y.st ≠ .absent then (some q, s.forceTile q.world q.va)
    else
      match s.walk hubDie q.world q.va with
      | (.leaf l, s) =>
        let s := s.setAD hubDie q.world q.va l true
        let (y', k) := y.appends q.entries
        if k = q.bytes.length then
          (none, { ((s.onTile r n fun _ => y').farMark q) with outs := s.outs ++ [Out.peerData q.port []] })
        else (some (q.rest k), s.onTile r n fun _ => y'.forced)
      | (_, s) => (some q, s)

/-- A request is answered, or what is left of it waits with what that changes (R359, R378, R379, R387). -/
def State.farTry (s : State) (q : FarReq) : Option FarReq × State :=
  match s.engineAt q.world q.va (remNeed q.op) with
  | (.ok pa, s) => (none, if q.op = .rd then s.farDo q pa else (s.farDo q pa).farMark q)
  | (.bad k, s) => (none, { s with outs := s.outs ++ [Out.peerError q.port k] })
  | (.err k, s) => (none, { s with outs := s.outs ++ [Out.peerError q.port k] })
  | (.held, s) => (some q, s)
  | (.tile, _) => s.farLog q

/-- A request reaches its world: behind those of its port that wait, or it is answered. -/
def State.farArrive (s : State) (q : FarReq) : State :=
  if s.farq.any fun k => k.port == q.port then { s with farq := s.farq ++ [q] }
  else
    match s.farTry q with
    | (none, s) => s
    | (some q, s) => { s with farq := s.farq ++ [q] }

/-- The requests that waited go on where they can. -/
def State.pumpFar (s : State) : State := s.farq.foldl (fun s q => s.farArrive q) { s with farq := [] }

/-- What waited for a tile, a die or a page goes on: the queue engine's writes, the mailbox and the peers' requests. -/
def State.pump (s : State) : State := s.flushLate.pumpMbox.pumpFar

/-- A request that comes again under its number: one that still waits is answered then, and one that has been applied is
acknowledged and not applied again (R387). -/
def State.farAgain (s : State) (q : FarReq) : Option State :=
  if s.farq.any fun k => k.port == q.port && k.seq == q.seq then some s
  else if q.op != .rd && (s.farSeen.getD q.port []).contains q.seq then
    some { s with outs := s.outs ++ [Out.peerData q.port []] }
  else none

/-- The sizes of a request: a write or read of one unit, or an element of a red or vred (R183, R386). -/
def remSized (op : RemOp) (n : Nat) : Bool :=
  match op with
  | .red _ t => (1 == n || 2 == n || 4 == n || 8 == n) && n == t.bits / 8
  | _ => 1 == n || 2 == n || 4 == n || 8 == n || 16 == n

/-- REMOTE_ACCESS (R386, R387): a naturally aligned access of one unit that arrives over an ACTIVE port under a sequence
number; for a read, the bytes give the count alone. -/
def execRemoteAccess (id : FarId) (world va : Nat) (op : RemOp) (bytes : List Nat) (s : State) :
    Host.Outcome State Fault Refusal :=
  event s fun s =>
    let n := bytes.length
    if decide (id.port < 8) && s.link (portLink id.port) == .active && s.running &&
        decide (world ≤ 1023) && remSized op n && va % n == 0 then
      let q : FarReq := ⟨id.port, id.seq, world, va, op, bytes⟩
      match s.farAgain q with
      | some s => s
      | none => s.farArrive q
    else s

/-! ### Acknowledgements (R168, R181, R386) -/

/-- The flags that a remote device reports with an element: free where the operation may raise some, which is a floating sum alone
(R124, R181). -/
def State.farFlags (s : State) (t : Txn) : BitVec 3 :=
  let k := aopOf t.ins
  if k.1 = .add ∧ (k.2.isF || k.2.isP) then BitVec.ofNat 3 (s.free 4 % 4) else 0

/-- The first unit of an access that goes to a peer port which answers, and that nothing stands before. -/
def State.farUnit (s : State) (x : Nat) (t : Txn) : Option (Nat × Acc) :=
  ((upTo 0 t.units.length).zip t.units).find? fun e => e.2.port.isSome && s.unitOk x t e.2

/-- PEER_ACKNOWLEDGEMENT (R386, R387): the remote device has performed a write or an element of access x, or answers with
its failure. -/
def execPeerAcknowledgement (x : Nat) (s : State) : Host.Outcome State Fault Refusal :=
  event s fun s =>
    match s.txns.find x with
    | none => s
    | some t =>
      match s.farUnit x t with
      | none => s
      | some (u, a) =>
        if t.kind = .load then s
        else
          match s.farErr with
          | some k => ({ s with txns := s.txns.put x (t.fail u k) } : State).used
          | none =>
            let t' := ({ t with units := dropNth u t.units } : Txn).report a.lane (s.farFlags t)
            let s := ({ s with txns := s.txns.put x t' } : State).used
            if t'.units = [] ∧ 0 < t'.owed then s.gated t.core (s.acknowledge x t') else s

end Sys2Proof.Machine
end

