-- ==== Sys2Proof/Machine/Sinter.lean ====
section
/-!
DEFINITION. Sinter tiles (R357 to R364): the frames of a tile, fetch and eviction, and their failures.
-/

namespace Sys2Proof.Machine

/-! ### Frames (R357, R358) -/

/-- The region of a place in State.regions, with the tile. -/
def State.tileOf (s : State) (r n : Nat) : Option (Region × STile) :=
  match s.regions[r]? with
  | none => none
  | some g => (g.tiles[n]?).map fun t => (g, t)

/-- The translations of the 16 pages of a tile (R357). -/
def State.tilePages (s : State) (g : Region) (n : Nat) : List Tr :=
  (upTo 0 16).map fun i => (s.xlate hubDie g.world (g.vbase + 65536 * n + 4096 * i) .none false).1

/-- The frame of a page; none where the page is not mapped by a leaf with SM (R357). -/
def Tr.frame : Tr → Option Nat
  | .ok h => if h.sint.isSome then some (h.pa / 4096 * 4096) else none
  | _ => none

/-- The frames of the 16 pages of a tile. -/
def State.frames (s : State) (g : Region) (n : Nat) : List (Option Nat) := (s.tilePages g n).map Tr.frame

/-- The error reply that a page meets: in the walk of its tables, or at its frame (R176, R358, R379). -/
def State.pageErr (s : State) (world : Nat) (t : Tr) : Option Nat :=
  match t with
  | .bad b => if b.cls = 10 ∨ b.cls = 11 then some b.cls else none
  | _ => t.frame.bind fun pa => s.replyErr world pa

/-- The error reply that a tile's pages meet, the class of the highest priority (R176, R358). -/
def State.frameErr (s : State) (g : Region) (n : Nat) : Option Nat :=
  (s.tilePages g n).foldl (fun best t =>
    match s.pageErr g.world t, best with
    | some k, some b => some (min k b)
    | some k, none => some k
    | none, b => b) none

/-- Some page of a tile cannot be reached now (R374, R378). -/
def State.framesHeld (s : State) (g : Region) (n : Nat) : Bool :=
  (s.tilePages g n).any fun t => match t with
    | .held _ => true
    | _ => (t.frame.map fun pa => s.away hubDie pa).getD false

/-- A fetch or an eviction can run to its end: the host link carries its requests, and every page of the tile answers. -/
def State.tileRuns (s : State) (g : Region) (n : Nat) : Bool :=
  s.hostUp && (s.frameErr g n).isNone && !s.framesHeld g n

/-- The class with which a fetch or an eviction fails: a page's error reply, or else that of the host link, or of a failed
access of the backing store, which waits for the end of a retrain (R358, R359, R373). -/
def State.tileFails (s : State) (g : Region) (n : Nat) : Option Nat :=
  match s.frameErr g n with
  | some k => some k
  | none => if s.hostWaits then none else some 11

/-! ### Fetch (R358, R363) -/

/-- Writes a page that comes from the backing store. -/
def State.putPage (s : State) (world pa : Nat) (bs : List Byte) : State :=
  let key := (s.key world).key
  let s := s.scrubFirst world pa
  { s with
    mem := memSets s.mem pa bs
    secKey := (upTo (pa / 32) 128).foldl (fun t n => t.put n key) s.secKey }

/-- The accessed bits of the leaves through which the pages of a tile are copied, and the dirty bits where the frames are written
(R350). -/
def State.tileLeaves (s : State) (g : Region) (n : Nat) (wr : Bool) : State :=
  ((s.tilePages g n).zip (upTo 0 16)).foldl (fun s t =>
    match t.1 with
    | .ok h => if h.sint.isSome then s.setAD hubDie g.world (g.vbase + 65536 * n + 4096 * t.2) h.leaf wr else s
    | _ => s) s

/-- Copies the backing store into the frames, from page i on. -/
def State.fillFrames (s : State) (g : Region) (n : Nat) : Nat → List (Option Nat) → State
  | _, [] => s
  | i, none :: fs => State.fillFrames s g n (i + 1) fs
  | i, some pa :: fs =>
    State.fillFrames (s.putPage g.world pa (memBytes s.hostMem (g.backing + 65536 * n + 4096 * i) 4096)) g n (i + 1) fs

/-- Applies the entries of a log at the home slices, in log order (R363). -/
def State.applyLog (s : State) (g : Region) (r n : Nat) (fs : List (Option Nat)) : List LogE → State
  | [] => s
  | e :: es =>
    match (fs.getD (e.off / 4096) none) with
    | none => State.applyLog s g r n fs es
    | some f =>
      let pa := f + e.off % 4096
      let res := e.apply (s.hbmNat (s.key g.world).key pa e.size)
      let s := s.engineSector g.world pa (leBytes e.size res.val)
      State.applyLog (s.onTile r n fun y => y.flagged res.fl) g r n fs es

/-- TILE_FETCH_COMPLETE (R350, R358, R363). -/
def execTileFetchComplete (r t : Nat) (s : State) : Host.Outcome State Fault Refusal :=
  event s fun s =>
    match s.tileOf r t with
    | none => s
    | some (g, y) =>
      let fs := s.frames g t
      if y.st == .arriving && s.tileRuns g t then
        let s := ((s.tileLeaves g t true).fillFrames g t 0 fs).applyLog g r t fs y.log
        (s.onTile r t fun y => { y with st := .resident, log := [], refetch := false }).pump
      else s

/-! ### Failed fetches (R358, R359) -/

/-- An address of a world lies in the tile. -/
def State.inTile (s : State) (r n world va : Nat) : Bool :=
  match s.tileAt world va with
  | some (r', n', _) => r' == r && n' == n
  | none => false

/-- The waiting instructions that wait for the tile. -/
def State.tileWaits (s : State) (r n : Nat) : List (Nat × Iss × Nat) :=
  s.waits.filterMap fun e =>
    match e.2.stat.find 0, s.issWait e.1 with
    | some va, some x =>
      if (e.2.kind == .drain || e.2.kind == .matrix) && s.inTile r n x.g.world va then some (e.1, x, va) else none
    | _, _ => none

/-- A waiting instruction takes the fault of a failed fetch (R359); one of the matrix engine leaves it. -/
def State.failWait (s : State) (cls : Nat) (e : Nat × Iss × Nat) : State :=
  let (q, x, va) := e
  match s.waits.find q with
  | none => s
  | some y =>
    if y.kind = .matrix then
      let s := s.onCore x.wp.core fun c => { c with matq := c.matq.filter fun o => o.q != q }
      s.matFault x (x.flt cls x.m va 0)
    else s.raise x (x.flt cls x.m va 0) 0

/-- The accesses of warps and copies that wait for a tile meet an error reply (R359). -/
def State.failUnits (s : State) (r n cls : Nat) : State :=
  { s with
    txns := s.txns.mapV fun x t =>
      if s.isKept x t then t
      else
        { t with units := t.units.map fun a =>
            if a.sm && a.err.isNone && s.inTile r n t.world a.va then { a with err := some cls } else a }
    cores := s.cores.mapV fun _ k =>
      { k with copies := k.copies.map fun c =>
          { c with bad := c.bad ++ (c.sms.filter fun va => s.inTile r n c.world va).map fun va => (va / 65536, cls) } } }

/-- The first part of the host access at the head that lies in the tile; of one that has begun, its next part (R382). -/
def State.mbPart (s : State) (r n fn off len : Nat) : Option (Nat × Nat) :=
  match s.mbRun with
  | some m => if s.inTile r n fn m.va then some (fn, m.va) else none
  | none => (s.ctxs.find fn).bind fun c =>
      ((wordParts (len + 1) (c.abase + off) len).find? fun p => s.inTile r n fn p.1).map fun p => (fn, p.1)

/-- A host access that waits for the tile. -/
def State.mbIn (s : State) (r n : Nat) : MbOp → Option (Nat × Nat)
  | .write fn off bs => s.mbPart r n fn off bs.length
  | .read fn off len _ => s.mbPart r n fn off len
  | .reg .. => none
  | .notify .. => none

/-- The host access at the head of the mailbox engine fails where it waits for the tile (R359, R383). -/
def State.failMbox (s : State) (r n cls : Nat) : State :=
  match s.mbox with
  | [] => s
  | i :: rest =>
    match s.mbIn r n i with
    | none => s
    | some (fn, va) =>
      let s := { s with
        mbox := rest
        mbRun := none
        outs := match i with
          | .read _ _ _ tag => s.outs ++ [Out.completerAbort fn tag]
          | _ => s.outs }
      s.raiseEvent (mailboxEvent fn cls va)

/-- The first request of each peer that waits for the tile is answered with the failure (R359, R387). -/
def State.failFar (s : State) (r n cls : Nat) : State :=
  s.farq.foldl (fun s q =>
    if s.inTile r n q.world q.va && (s.farq.all fun k => k.port != q.port) then
      { s with outs := s.outs ++ [Out.peerError q.port cls] }
    else { s with farq := s.farq ++ [q] }) { s with farq := [] }

/-- A fetch or an eviction fails: the tile goes to a state, and each access that waits for it faults (R358, R359, R384). -/
def State.failTile (s : State) (r n cls : Nat) (st : SState) : State :=
  let ws := s.tileWaits r n
  let s := ((s.failUnits r n cls).failMbox r n cls).failFar r n cls
  let s := s.onTile r n fun y => { y with st := st, refetch := false }
  (ws.foldl (fun s e => s.failWait cls e) s).pump

/-- A fetch fails: the tile is ABSENT with its log unchanged (R358, R359). -/
def State.failFetch (s : State) (r n cls : Nat) : State := s.failTile r n cls .absent

/-- TILE_FETCH_FAILURE (R358, R359, R373): the host link is down, or the backing read or a page meets an error reply. -/
def execTileFetchFailure (r t : Nat) (s : State) : Host.Outcome State Fault Refusal :=
  event s fun s =>
    match s.tileOf r t with
    | none => s
    | some (g, y) =>
      if y.st ≠ .arriving then s
      else
        match s.tileFails g t with
        | some k => s.failFetch r t k
        | none => s

/-! ### Eviction (R358) -/

/-- Copies the frames to the backing store, from page i on; an unscrubbed page reads zeros (R364). -/
def State.saveFrames (s : State) (g : Region) (n : Nat) : Nat → List (Option Nat) → State
  | _, [] => s
  | i, none :: fs => State.saveFrames s g n (i + 1) fs
  | i, some pa :: fs =>
    let s := s.scrubFirst g.world pa
    let bs := s.hbmBytes (s.key g.world).key pa 4096
    State.saveFrames { s with hostMem := memSets s.hostMem (g.backing + 65536 * n + 4096 * i) bs } g n (i + 1) fs

/-- The lines and sectors of a tile's frames leave L2 and every L1 (R358). -/
def State.dropFrames (s : State) (world : Nat) (fs : List (Option Nat)) : State :=
  let hit (pa : Nat) : Bool := fs.any fun f => f == some (pa / 4096 * 4096)
  { s with
    l2 := (s.l2Keep fun y => !(y.world == world && hit (y.line * 128))).l2
    cores := s.cores.mapV fun _ c =>
      { c with l1 := c.l1.keep fun k _ => !(k % 2048 == world && hit (k / 2048 * 32)) } }

/-- An access that forces a fetch waits for the tile (R359). -/
def State.tileWanted (s : State) (r n : Nat) : Bool :=
  (s.txns.any fun e => !s.isKept e.1 e.2 && !logs e.2.ins &&
    e.2.units.any fun a => a.sm && a.err.isNone && s.inTile r n e.2.world a.va) ||
    !(s.tileWaits r n).isEmpty ||
    s.cores.any fun e => e.2.copies.any fun c => c.sms.any fun va => s.inTile r n c.world va

/-- TILE_EVICTION_COMPLETE (R350, R358, R367): the tile is ABSENT; a fetch starts at once where one is wanted. -/
def execTileEvictionComplete (r t : Nat) (s : State) : Host.Outcome State Fault Refusal :=
  event s fun s =>
    match s.tileOf r t with
    | none => s
    | some (g, y) =>
      let fs := s.frames g t
      if y.st == .leaving && s.tileRuns g t then
        let s := ((s.tileLeaves g t false).dropFrames g.world fs).saveFrames g t 0 fs
        let again := y.refetch || s.tileWanted r t
        (s.onTile r t fun y =>
          { y with st := if again then .arriving else .absent, log := [], seq := 0, refetch := false }).pump
      else s

/-- TILE_EVICTION_FAILURE (R358, R373): the host link is down, or a page or the backing store meets an error reply; the tile is
RESIDENT again, with its frames unchanged. -/
def execTileEvictionFailure (r t : Nat) (s : State) : Host.Outcome State Fault Refusal :=
  event s fun s =>
    match s.tileOf r t with
    | none => s
    | some (g, y) =>
      if y.st == .leaving && (s.tileFails g t).isSome then
        (s.onTile r t fun y => { y with st := .resident, refetch := false }).pump
      else s

end Sys2Proof.Machine
end

