-- ==== Sys2Proof/Machine/LinkEvents.lean ====
section
/-!
DEFINITION. Events of links and dies: training, retrains and quiesces (R372, R373), warm resets of a die (R378 to R381),
isolated dies (R374), peer sessions (R387), the host link's fall and its hot reset (R211, R212, R384).
-/

namespace Sys2Proof.Machine

/-! ### The host link goes down (R211, R212, R384) -/

/-- A host access that is answered with data. -/
def MbOp.reads : MbOp → Bool
  | .read .. => true
  | .reg .. => true
  | _ => false

/-- The host accesses that wait lose their reads: nobody takes the answer. -/
def State.dropReads (s : State) : State :=
  { s with
    mbox := s.mbox.filter fun i => !i.reads
    mbRun := if ((s.mbox.head?.map MbOp.reads).getD false) then none else s.mbRun }

/-- Fetches and evictions in progress fail (R358, R384). -/
def State.failTiles (s : State) : State :=
  ((upTo 0 s.regions.length).zip s.regions).foldl (fun s e =>
    ((upTo 0 e.2.tiles.length).zip e.2.tiles).foldl (fun s t =>
      match t.2.st with
      | .arriving => s.failTile e.1 t.1 11 .absent
      | .leaving => s.failTile e.1 t.1 11 .resident
      | _ => s) s) s

/-- The contexts that are protected and hold a state from which they depart (R212). -/
def State.protectedFns (s : State) : List Nat :=
  (s.ctxs.filter fun e => e.2.prot && e.2.st != .free && e.2.st != .departing).map fun e => e.1

/-- The key slot of a context is discarded, and the context departs (R211, R212). -/
def State.dropCtx (s : State) (fn : Nat) : State := (s.revoke fn).depart fn

/-- An unprotected context at a host link-down: it enters ERROR, and in ERROR already its started items still complete with
LINKDOWN (R198, R384). -/
def State.linkLost (s : State) (fn : Nat) : State := if s.cstate fn = .error then s.errorLink fn else s.toError fn true

/-- The keys of the IDE streams that carry one of some functions are discarded (R211, R212). -/
def State.dropIde (s : State) (fns : List Nat) : State :=
  { s with ide := s.ide.keep fun _ d => !d.fns.any fun fn => fns.contains fn }

/-- What a host link-down does beside the link's own state (R212, R384). DESIGN CHOICE (log 88): the manual does not say which
SPDM sessions are those of the protected contexts; here every session ends where any context is protected. -/
def State.hostDown (s : State) : State :=
  let ps := s.protectedFns
  let s := s.dropReads.failTiles
  let s := if ps = [] then s else { s.dropIde ps with spdm := { s.spdm with sessions := [] } }
  let s := ps.foldl (fun s fn => s.dropCtx fn) s
  (s.ctxs.map fun e => e.1).foldl (fun s fn => s.linkLost fn) s

/-- The saved groups of the hypervisor world are discarded, and its key slot is EMPTY (R211). -/
def State.dropHyp (s : State) : State :=
  let gs := s.groups.filter fun e => e.2.world == 1024 && e.2.slot.isSome
  let s := gs.foldl (fun s e => s.discardEnded e.1) s
  let s := s.revoke 1024
  { s with keys := s.keys.del 1024, slots := s.slots.keep fun _ k => k.world != 1024 }

/-- HOST_LINK_DOWN (R212, R384): the physical layer reports the link down. -/
def execHostLinkDown (s : State) : Host.Outcome State Fault Refusal :=
  event s fun s =>
    if s.link hostLink == .down || !s.powered then s else ((s.moveLink hostLink .down).hostDown).pump

/-- The link's own part of a hot reset: down, then RESETTING (R372, R384). -/
def State.hotLink (s : State) : State :=
  let s := if s.link hostLink == .down || s.link hostLink == .resetting then s else s.moveLink hostLink .down
  if s.link hostLink == .resetting then s else s.moveLink hostLink .resetting

/-- Every TDI goes to CONFIG_UNLOCKED (R211). -/
def State.unlockAll (s : State) : State := { s with ctxs := s.ctxs.mapV fun _ c => { c with prot := false } }

/-- HOT_RESET (R211, R213, R372, R384): sessions, key slots and commands are discarded, and every context departs; in the self-test
the host link alone has anything to reset. -/
def execHotReset (s : State) : Host.Outcome State Fault Refusal :=
  event s fun s =>
    if !s.powered then s
    else
      let s := s.hotLink.dropReads.failTiles
      let s := { s with gcq := Gcq.reset, heq := Gcq.reset, cmds := [], ide := [], spdm := ⟨false, false, false, []⟩ }
      let fns := (s.ctxs.filter fun e => e.2.st != .free && e.2.st != .departing).map fun e => e.1
      (fns.foldl (fun s fn => s.dropCtx fn) s).unlockAll.dropHyp.pump

/-! ### Isolated dies (R374) -/

/-- A link joins its ends: it carries flits, or holds them for a retrain (R373). -/
def State.joins (s : State) (n : Nat) : Bool := s.link n == .active || s.link n == .retraining

/-- One more hop from a set of dies that are joined to the hub. -/
def State.spread (s : State) (ds : List Nat) : List Nat :=
  [0, 1, 2, 3].filter fun d =>
    ds.contains d || ds.contains (d ^^^ 1) && s.joins (ddLink d (d ^^^ 1)) ||
      ds.contains (d ^^^ 2) && s.joins (ddLink d (d ^^^ 2))

/-- The dies that a path of links joins to the hub. -/
def State.joinedDies (s : State) : List Nat := s.spread (s.spread (s.spread ([0, 1, 2, 3].filter s.joins)))

/-- Every core of the other dies drops its sectors of the die's range, the waits armed there are SPURIOUS, and the pin
entries that cover its lines are released (R378, step 2; R380). -/
def State.dropRemote (s : State) (d : Nat) : State :=
  let s := { s with
    cores := s.cores.mapV fun _ c =>
      { c with
        l1 := c.l1.keep fun k _ => paDie (k / 2048 * 32) != d
        pins := c.pins.filter fun p => p.lines.all fun l => paDie (l * 128) != d } }
  let ms := s.monitors.filter fun m => m.slice / 40 == d
  let s := ms.foldl (fun s m =>
    { s with waits := s.waits.upd m.q fun y =>
        if y.sat then y
        else { y with sat := true, stat := (maskLanes m.lanes).foldl (fun st l => st.put l 5) y.stat } }) s
  { s with monitors := s.monitors.filter fun m => m.slice / 40 != d }

/-- The groups on a die, running or stopped in place. -/
def State.onDie (s : State) (d : Nat) : Tbl Group :=
  s.groups.filter fun e => (e.2.onCores || e.2.inPlace) && e.2.coreList.any fun n => coreDie n == d

/-- A die is isolated: its groups are ENDED, its links are quiesced and go DOWN, and it is in step 4 of a warm reset (R372, R374,
R378). -/
def State.isolate (s : State) (d : Nat) : State :=
  let s := { s with warm := s.warm.put d ⟨4, 0, true⟩ }
  let s := (s.onDie d).foldl (fun s e => s.endWithEvent e.2.core 0xffff e.1) s
  let s := s.dropRemote d
  (dieLinks d).foldl (fun s n => if s.link n == .down then s else (s.quiesceLink n).moveLink n .down) s

/-- Dies that no path joins to the hub are isolated, one whose warm reset still saves its groups among them (R374). -/
def State.checkIsolated (s : State) : State :=
  if !s.running then s
  else
    let ds := s.joinedDies
    let out := [0, 1, 2, 3].filter fun d => !ds.contains d && !s.dead.contains d && ((s.warm.find d).map fun w => w.step == 1).getD true
    (out.foldl (fun s d => s.isolate d) s).pump

/-! ### Training and retrains (R372, R373) -/

/-- The die in reset that a link belongs to. -/
def State.resetDie (s : State) (n : Nat) : Option (Nat × Warm) := s.warm.find? fun e => (dieLinks e.1).contains n

/-- What follows a link's way to DOWN: the host link's contexts, or dies that are cut off (R374, R384). -/
def State.afterDown (s : State) (n : Nat) : State :=
  if n = hostLink then s.hostDown.pump else if n < hostLink then s.checkIsolated else s

/-- LINK_TRAINING_SUCCESS (R372, R381, R384, R387): a link of a die in reset stays in RESETTING. -/
def execLinkTrainingSuccess (n : Nat) (s : State) : Host.Outcome State Fault Refusal :=
  event s fun s =>
    if 16 < n ∨ s.power = .off then s
    else
      match s.link n with
      | .down =>
        if !s.running ∨ hostLink ≤ n ∧ (s.resetDie n).isNone then s.moveLink n .active else s
      | .resetting =>
        if (s.resetDie n).isSome then s
        else
          let s := s.moveLink n .active
          if n ≤ hostLink then s else s.endBy 0x0042 (n - 9) 1 0 1
      | _ => s

/-- LINK_TRAINING_FAILURE (R372, R381): a link of a die in reset keeps the die out. -/
def execLinkTrainingFailure (n : Nat) (s : State) : Host.Outcome State Fault Refusal :=
  event s fun s =>
    if s.link n ≠ .resetting then s
    else
      match s.resetDie n with
      | some (d, _) => { s with warm := s.warm.upd d fun w => { w with bad := if w.bad = 0 then 7 else w.bad } }
      | none =>
        let s := s.moveLink n .down
        if n ≤ hostLink then s else s.endBy 0x0042 (n - 9) 1 0 0

/-- RETRAIN_TRIGGER (R372). -/
def execRetrainTrigger (n : Nat) (s : State) : Host.Outcome State Fault Refusal :=
  event s fun s => if s.link n = .active then s.moveLink n .retraining else s

/-- RETRAIN_SUCCESS (R372, R373): LINKRETRAIN ends with the link's new state. -/
def execRetrainSuccess (n : Nat) (s : State) : Host.Outcome State Fault Refusal :=
  event s fun s =>
    if s.link n = .retraining then s.moveLink n .active else s

/-- RETRAIN_FAILURE (R372): four attempts of 1 ms have failed. -/
def execRetrainFailure (n : Nat) (s : State) : Host.Outcome State Fault Refusal :=
  event s fun s =>
    if s.link n = .retraining then (s.moveLink n .down).afterDown n else s

/-- QUIESCE_COMPLETE (R372, R387): of a peer port, whose session ends and which is reset; the links of a die in warm reset
go DOWN in its step 4. -/
def execQuiesceComplete (n : Nat) (s : State) : Host.Outcome State Fault Refusal :=
  event s fun s =>
    if s.link n = .quiescing ∧ hostLink < n then ((s.moveLink n .down).failPort (n - 9) 11).moveLink n .resetting else s

/-- PEER_SESSION_END (R387): a port that went DOWN and has not been ACTIVE for 100 ms; a retrain ends no session (R373). -/
def execPeerSessionEnd (port : Nat) (s : State) : Host.Outcome State Fault Refusal :=
  event s fun s =>
    let st := s.link (portLink port)
    if port < 8 ∧ (st = .down ∨ st = .resetting) ∧ s.portDown.getD port 0 + 100000 ≤ s.time then s.failPort port 11
    else s

/-! ### Warm reset (R378 to R381) -/

/-- Runs f where the reset of a die is in a step. -/
def State.inStep (s : State) (die step : Nat) (f : Warm → State) : State :=
  match s.warm.find die with
  | none => s
  | some w => if w.step = step then f w else s

/-- The reset of a die goes on to a step. -/
def State.toStep (s : State) (die step : Nat) : State :=
  { s with warm := s.warm.upd die fun w => { w with step := step } }

/-- WARM_RESET_QUIESCE (R378, step 2): once every group of the die is saved. -/
def execWarmResetQuiesce (die : Nat) (s : State) : Host.Outcome State Fault Refusal :=
  event s fun s =>
    s.inStep die 1 fun _ =>
      if s.onDie die ≠ [] then s
      else ((dieLinks die).foldl (fun s n => s.quiesceLink n) ((s.toStep die 2).dropRemote die)).checkIsolated

/-- WARM_RESET_WRITE_BACK (R378, step 3). -/
def execWarmResetWriteBack (die : Nat) (s : State) : Host.Outcome State Fault Refusal :=
  event s fun s =>
    s.inStep die 2 fun _ =>
      let s := s.toStep die 3
      s.l2Keep fun y => paDie (y.line * 128) != die

/-- WARM_RESET_ERROR_REPLIES (R378, step 4; R379). -/
def execWarmResetErrorReplies (die : Nat) (s : State) : Host.Outcome State Fault Refusal :=
  event s fun s =>
    s.inStep die 3 fun _ =>
      ((dieLinks die).foldl (fun s n => if s.link n == .down then s else s.moveLink n .down) (s.toStep die 4)).pump

/-- The bytes that were stored in the lines of an isolated die since they were last written back: HBM holds an older value of them,
and of every other byte what it held (R374, R380; log 60). -/
def State.loseDirty (s : State) (die : Nat) : State :=
  let ls := (s.l2.flatMap fun e => e.2).filter fun y => paDie (y.line * 128) == die
  ls.foldl (fun s y =>
    let fs := s.farBytes 128
    let lose (m : Memory) (o : Nat) : Memory := memSets m (y.line * 128 + o) [fs.getD o 0]
    ({ s with mem := y.dirty.foldl lose s.mem } : State).used) s

/-- The other die of a die-to-die link of die d; none of the hub link (R369). -/
def otherDie (d n : Nat) : Option Nat :=
  [d ^^^ 1, d ^^^ 2].find? fun e => ddLink d e == n && decide (4 ≤ n)

/-- The link is shared with a die whose reset has failed, and stays DOWN (R381). -/
def State.deadEnd (s : State) (d n : Nat) : Bool := ((otherDie d n).map fun e => s.dead.contains e).getD false

/-- The links of a die that its reset takes into RESETTING: those that are DOWN, but for those of a dead die (R372, R381). -/
def State.resetLinks (s : State) (die : Nat) : State :=
  (dieLinks die).foldl (fun s n => if s.link n == .down && !s.deadEnd die n then s.moveLink n .resetting else s) s

/-- The links of a die that leave RESETTING with it: not those that another die in reset still holds there (R372, R381;
log 94). -/
def State.trainLinks (s : State) (die : Nat) : State :=
  (dieLinks die).foldl (fun s n =>
    let held := ((otherDie die n).map fun e => (s.warm.find e).isSome).getD false
    if s.link n == .resetting && !held then s.moveLink n .active else s) s

/-- WARM_RESET_DIE_RESET (R378, step 5; R380): the caches and translations of the die are gone. -/
def execWarmResetDieReset (die : Nat) (s : State) : Host.Outcome State Fault Refusal :=
  event s fun s =>
    s.inStep die 4 fun w =>
      let s := if w.iso then s.loseDirty die else s
      let s := s.toStep die 5
      let s := { s.l2Keep fun y => paDie (y.line * 128) != die with
        tcache := s.tcache.filter fun t => t.die != die
        cores := s.cores.mapV fun n c => if coreDie n = die then { c with l1 := [], ic := [], pins := [] } else c }
      s.resetLinks die

/-- Unit numbers of a column: cores, matrix engines and slice (R389). -/
def colUnits (col : Nat) : List Nat := [2 * col, 2 * col + 1, 320 + 2 * col, 320 + 2 * col + 1, 640 + col]

/-- The call-up of a column is over, or has no spare: its cores are eligible again (R395). -/
def State.endCall (s : State) (col : Nat) : State :=
  let free (s : State) (n : Nat) : State :=
    s.onCore n fun c => if c.drain then { c with drain := false, rest := .no } else c
  free (free ({ s with calls := s.calls.del col } : State) (2 * col)) (2 * col + 1)

/-- A spare replaces a column: the records are the spare's, SPARESTAT and the remap table change, a call-up of the column is over,
and a CALLUP entry is written (R15, R389, R395, R401; log 21). -/
def State.mapSpare (s : State) (col unit value : Nat) : State :=
  let d := colDie col
  let idx := 4 - s.spares.getD d 0
  let s := { s with
    spares := updNth (fun n => n - 1) d s.spares
    colSpare := s.colSpare.put col idx
    units := (colUnits col).foldl (fun t u => t.del u) s.units
    ticked := (colUnits col).foldl (fun t u => t.del u) s.ticked
    nospare := s.nospare.filter fun u => !(colUnits col).contains u }
  ((s.logWear 4 (s.clusterPart (colCluster col)) unit idx value).remeasure 3).endCall col

/-- A column fails self-test: a spare replaces it, or it is unusable (R16, R381, R395, R409). -/
def State.colFails (s : State) (col : Nat) : State :=
  if 0 < s.spares.getD (colDie col) 0 then s.mapSpare col (2 * col) (3 * 2 ^ 62)
  else
    ({ s with
      colBad := if s.colBad.contains col then s.colBad else s.colBad ++ [col]
      clusterOk := s.clusterOk &&& ~~~(BitVec.ofNat 40 (2 ^ colCluster col)) } : State).remeasure 3

/-- A slice fails the self-test of a warm reset: a spare replaces its column, and without one the sequence fails in step
6. A number that names no column of the die stands for its memory controllers and HBM interface (R381). -/
def State.sliceFails (s : State) (die col : Nat) : State :=
  if colDie col = die ∧ col < 160 ∧ 0 < s.spares.getD die 0 then s.mapSpare col (640 + col) (3 * 2 ^ 62)
  else { s with warm := s.warm.upd die fun w => { w with bad := 6 } }

/-- WARM_RESET_SELF_TEST (R378, step 6; R381): the columns and the slices that failed. -/
def execWarmResetSelfTest (die : Nat) (failed slices : List Nat) (s : State) : Host.Outcome State Fault Refusal :=
  event s fun s =>
    s.inStep die 5 fun _ =>
      let cols := failed.filter fun c => decide (c < 160) && colDie c == die
      let s := cols.foldl (fun s c => s.colFails c) (s.toStep die 6)
      slices.foldl (fun s c => s.sliceFails die c) s

/-- WARM_RESET_TRAINING (R378, step 7; R381): the three links leave RESETTING together. -/
def execWarmResetTraining (die : Nat) (s : State) : Host.Outcome State Fault Refusal :=
  event s fun s =>
    s.inStep die 6 fun w =>
      if w.bad = 0 ∧ !s.dead.contains die then
        (s.toStep die 7).trainLinks die
      else
        let s := (dieLinks die).foldl (fun s n => s.moveLink n .down) s
        let dead := if s.dead.contains die then s.dead else s.dead ++ [die]
        ({ s with dead := dead, warm := s.warm.del die } : State).endBy 0x0040 die 5 (if w.bad = 0 then 6 else w.bad) 0

/-- The columns of a launch whose routing check fails are barred for it: those of the die that is re-admitted, and those of
another die whose cluster lost its place in CLUSTER_OK with it (R16, R378, step 8). -/
def State.barCols (s : State) (die : Nat) (x : Launch) : Launch :=
  let ok := s.linksOk x.claimed
  let bad := x.claimed.filter fun c => !x.barred.contains c && (!s.colOk c || colDie c == die && !ok)
  { x with barred := x.barred ++ bad }

/-- RE_ADMISSION (R377, R378, step 8). -/
def execReAdmission (die : Nat) (s : State) : Host.Outcome State Fault Refusal :=
  event s fun s =>
    s.inStep die 7 fun _ =>
      let s := { s with warm := s.warm.del die }
      let s := { s with launches := s.launches.mapV fun _ x => s.barCols die x }
      (s.endBy 0x0040 die 1 0 0).pump

end Sys2Proof.Machine
end

