-- ==== Sys2Proof/Machine/Wear.lean ====
section
/-!
DEFINITION. Ticks: wear (R390 to R392), the life budget (R396, R397), rest (R393, R394), call-ups (R395), grants (R400),
boost decisions (R398, R399), NVM records (R401) and the gates of upper cores (R414).
-/

namespace Sys2Proof.Machine

/-! ### Factors (R391, R394) -/

/-- The table point of a reading: 0 for 45 °C and below, up to 6 for 105 °C and above (R391). -/
def tempPoint (t : Nat) : Nat := min 6 ((max t 45 - 45) / 10)

/-- fVB in tenths at 0.75, 0.80 and 0.85 V. -/
def fvb (lvl : Nat) : Nat := [10, 14, 20].getD lvl 10

/-- fVH in tenths at 0.75, 0.80 and 0.85 V. -/
def fvh (lvl : Nat) : Nat := [10, 16, 25].getD lvl 10

/-- fTB in tenths. -/
def ftb (p : Nat) : Nat := [5, 7, 10, 14, 20, 28, 40].getD p 40

/-- fTH in hundredths. -/
def fth (p : Nat) : Nat := [110, 105, 100, 95, 90, 85, 80].getD p 80

/-- fTE in hundredths. -/
def fte (p : Nat) : Nat := [30, 55, 100, 180, 320, 560, 1000].getD p 1000

/-- fTR in tenths (R394). -/
def ftr (p : Nat) : Nat := [6, 8, 10, 12].getD p 12

/-- What a unit accrues in a tick at a level, a table point and an activity in sixteenths, in counts of 1/256 milli-unit
(R391). -/
def accrual (lvl p a : Nat) : Nat × Nat × Nat :=
  (2560 * fvb lvl * ftb p / 100, 2560 * fvh lvl * fth p * a / 16000, 2560 * a * a * fte p / 25600)

/-- Equivalent accrual in counts of 1/256 mLU (R392). -/
def equiv (d : Nat × Nat × Nat) : Nat := max d.1 (max (2 * d.2.1) (4 * d.2.2))

/-! ### Units (R389) -/

/-- The core of a core or matrix-engine unit. -/
def unitCore (u : Nat) : Nat := u % 320

/-- The core is not powered: it rests, or it is gated (R391, R393, R414). -/
def Core.unpowered (c : Core) : Bool :=
  (match c.rest with
    | .resting n _ => n != 21
    | _ => false) || match c.gate with
    | .gated _ _ => true
    | _ => false

/-- The link of a link-macro unit. -/
def unitLink (u : Nat) : Nat := u - 800

/-- The unit is powered (R391). -/
def State.poweredUnit (s : State) (u : Nat) : Bool :=
  if u < 640 then !(s.core (unitCore u)).unpowered else u < 800 || s.link (unitLink u) != .down

/-- What the sensors and counters report of unit u in a tick: an entry of u holds 32 * °C + activity in sixteenths; a unit
with no entry reads as before, and its macro or slice was idle (log 71). -/
def reading (es : List (Nat × Nat)) (old : Tbl Nat) (u : Nat) : Nat :=
  match es.find? fun e => e.1 == u with
  | some e => e.2 / 32
  | none => old.getD u 0

/-- The activity of a unit in the tick, in sixteenths: counted for cores and engines, reported for the others (R391). -/
def State.activity (s : State) (es : List (Nat × Nat)) (u : Nat) : Nat :=
  let c := s.core (unitCore u)
  if u < 320 then min 16 (if c.cycles = 0 then 0 else 16 * c.issues / (4 * c.cycles))
  else if u < 640 then min 16 (if c.cycles = 0 then 0 else 16 * c.busy / c.cycles)
  else
    match es.find? fun e => e.1 == u with
    | some e => min 16 (e.2 % 32)
    | none => 0

/-- The voltage point of a unit in the tick (R391, R400). -/
def State.unitLevel (s : State) (u : Nat) : Nat := if u < 320 then (s.core u).level else 0

/-- What every unit accrues in the tick (R391). -/
def State.accruals (s : State) (es : List (Nat × Nat)) : List (Nat × Nat × Nat) :=
  (upTo 0 817).map fun u =>
    if s.poweredUnit u then accrual (s.unitLevel u) (tempPoint (reading es s.temps u)) (s.activity es u) else (0, 0, 0)

/-- The record with an accrual. -/
def Wear.add (w : Wear) (d : Nat × Nat × Nat) : Wear :=
  { w with bsu := w.bsu + d.1, hsu := w.hsu + d.2.1, esu := w.esu + d.2.2 }

/-- The records after a tick. -/
def State.addWear (s : State) (ds : List (Nat × Nat × Nat)) : State :=
  { s with units := ((upTo 0 817).zip ds).filterMap fun e =>
      let w := (s.wear e.1).add e.2
      if w = ⟨0, 0, 0, 0⟩ then none else some (e.1, w) }

/-! ### The life budget (R396, R397) -/

/-- The cores of a partition, ascending (R27). -/
def Part.cores (p : Part) : List Nat := (upTo 0 320).filter fun n => p.mask.getLsbD (colCluster (coreCol n))

/-- What a unit accrued beyond the reference, where no grant covered it (R397). -/
def State.excess (s : State) (ds : List (Nat × Nat × Nat)) (u : Nat) : Nat :=
  if (s.core (unitCore u)).level = 0 then equiv (ds.getD u (0, 0, 0)) - 2560 else 0

/-- The LBR of a partition after a tick (R397). -/
def State.newLbr (s : State) (ds : List (Nat × Nat × Nat)) (p : Part) : Nat :=
  let cs := p.cores
  let gain := 2 * cs.length * lifeAllowance p.hours
  let loss := 2 * cs.length * 2560 + cs.foldl (fun a n => a + s.excess ds n + s.excess ds (320 + n)) 0
  min (p.lbr + gain - loss) (2 ^ 63 - 1)

/-! ### Rest (R393, R394) -/

/-- A tick of a core's rest or gate: recovery in tenths of 1 mBSU (R394). -/
def restTick (p : Nat) (c : Core) : Core :=
  let c := match c.rest with
    | .resting n r => { c with rest := if n = 21 then .resting 20 r else .resting (n - 1) (if n = 0 then r else r + 6 * ftr p) }
    | _ => c
  match c.gate with
  | .gated g r => { c with gate := .gated g (r + 2 * ftr p) }
  | _ => c

/-- The lower of the middle values of a sorted list (R393). -/
def medianOf (l : List Nat) : Nat := (l.mergeSort).getD ((l.length - 1) / 2) 0

/-- The core could take a group of some launch (R257, R393). -/
def State.coreIn (s : State) (n : Nat) : Bool :=
  let c := s.core n
  c.rest == .no && (match c.gate with
    | .open => true
    | .pending _ => true
    | _ => false) && !c.drain && !s.dead.contains (coreDie n) && (s.warm.find (coreDie n)).isNone &&
    s.usable (coreCol n)

/-- Groups on a core. -/
def State.onCoreGroups (s : State) (n : Nat) : Tbl Group :=
  s.groups.filter fun e => (e.2.onCores || e.2.inPlace) && e.2.coreList.contains n

/-- The grants of the groups on a core end (R400). -/
def State.endGrants (s : State) (n : Nat) : State :=
  { s with groups := s.groups.mapV fun _ g => if g.coreList.contains n then { g with grant := none } else g }

/-- Core n is marked where its BSU is over 102 % of the median, unless it is the last eligible core of its partition; with
no group on it, it begins to rest (R393). -/
def State.markCore (s : State) (p : Part) (med n : Nat) : State :=
  let others := p.cores.any fun k => k != n && s.coreIn k
  if (s.core n).rest == .no && decide (102 * med < 100 * (s.wear n).bsu) && others then
    let rest : Rest := if s.onCoreGroups n = [] then .resting 20 0 else .marked
    (s.onCore n fun c => { c with rest := rest }).endGrants n
  else s

/-- The rest check of a partition (R393). -/
def State.markPart (s : State) (p : Part) : State :=
  let med := medianOf (p.cores.map fun n => (s.wear n).bsu)
  p.cores.foldl (fun s n => s.markCore p med n) s

/-- REST_END (R393, R394, R436 to R438): the recovery is taken off, and the core is eligible, unless it is marked again. -/
def execRestEnd (core : Nat) (s : State) : Host.Outcome State Fault Refusal :=
  event s fun s =>
    match (s.core core).rest with
    | .resting 0 r =>
      let s := (s.restTicked core r).onCore core fun c => { c with rest := .no }
      (match (s.corePart core).bind s.parts.find with
        | none => s
        | some p => s.markCore p (medianOf (p.cores.map fun n => (s.wear n).bsu)) core)
    | _ => s

/-! ### Call-ups (R395) -/

/-- The fields of a record that have reached 95 % of their thresholds: the kind and the value, BSU first (R395, R401). -/
def Wear.crossed (w : Wear) : Option (Nat × Nat) :=
  if 256 * 1000 * 2090000000 ≤ w.bsu then some (0, w.bsu)
  else if 256 * 1000 * 1045000000 ≤ w.hsu then some (1, w.hsu)
  else if 256 * 1000 * 522500000 ≤ w.esu then some (2, w.esu)
  else none

/-- The first unit of a column that has crossed, with the kind and the value. -/
def State.crossedIn (s : State) (col : Nat) : Option (Nat × Nat × Nat) :=
  (colUnits col).findSome? fun u => (s.wear u).crossed.map fun k => (u, k.1, k.2)

/-- VALUE of a CALLUP or NOSPARE entry (R401). -/
def crossValue (k v : Nat) : Nat := k * 2 ^ 62 + v % 2 ^ 62

/-- A unit that has crossed with no spare left is recorded once (R395). -/
def State.noSpare (s : State) (u : Nat) : State :=
  match (s.wear u).crossed with
  | none => s
  | some (k, v) =>
    if s.nospare.contains u then s
    else
      let part := if u < 640 then s.corePart (unitCore u) else if u < 800 then s.clusterPart (colCluster (u - 640)) else none
      { (s.logWear 6 part u 0 (crossValue k v)) with nospare := s.nospare ++ [u] }

/-- The drain of a column: its cores take nothing new, their groups are asked to stop, grants end, gates lapse, and a rest
is completed with what it earned (R394, R395, R400, R414). -/
def State.drainCol (s : State) (col : Nat) : State :=
  let each (s : State) (n : Nat) : State :=
    let s := match (s.core n).rest with
      | .resting _ r => s.restTicked n r
      | _ => s
    ((s.openGate n).onCore n fun c => { c with drain := true, rest := .no }).endGrants n
  let s := each (each s (2 * col)) (2 * col + 1)
  s.askAll fun g => g.coreList.any fun n => coreCol n == col

/-- A column of the die is being drained. -/
def State.draining (s : State) (d : Nat) : Bool := s.cores.any fun e => e.2.drain && coreDie e.1 == d

/-- The call-up of a column that is due: the unit and the VALUE of its crossing, found now or at an earlier tick (R395). -/
def State.callOf (s : State) (col : Nat) : Option (Nat × Nat) :=
  match s.calls.find col with
  | some c => some c
  | none => (s.crossedIn col).map fun e => (e.1, crossValue e.2.1 e.2.2)

/-- The units of a column that have crossed with no spare left are recorded, and keep running (R395). -/
def State.noSpares (s : State) (col : Nat) : State := (colUnits col).foldl (fun s u => s.noSpare u) (s.endCall col)

/-- The call-up check of a column (R395): one call-up of a die at a time, and none during its warm reset; a call-up that is
due and has to wait stays due. -/
def State.checkCol (s : State) (col : Nat) : State :=
  match s.callOf col with
  | none => s
  | some c =>
    let d := colDie col
    if 0 < s.spares.getD d 0 then
      let s := { s with calls := s.calls.put col c }
      if s.draining d || (s.warm.find d).isSome || s.dead.contains d then s else s.drainCol col
    else s.noSpares col

/-- SPARE_CALL_UP (R15, R395): the drained column is mapped to a spare, and its cores are eligible again. -/
def execSpareCallUp (col : Nat) (s : State) : Host.Outcome State Fault Refusal :=
  event s fun s =>
    let lo := 2 * col
    let ready := (s.core lo).drain && s.onCoreGroups lo == [] && s.onCoreGroups (lo + 1) == []
    match s.calls.find col with
    | none => s
    | some (u, v) =>
      if !ready || (s.warm.find (colDie col)).isSome then s
      else if s.spares.getD (colDie col) 0 = 0 then s.noSpares col
      else s.mapSpare col u v

/-! ### Grants (R400) -/

/-- A grant at a tick boundary: it comes into force, or one of its ticks has run. -/
def Grant.tick (k : Grant) : Grant := if k.fresh then { k with fresh := false } else { k with left := k.left - 1 }

/-- The level in force on a core: the highest of the grants that run for its groups. -/
def State.levelOf (s : State) (n : Nat) : Nat :=
  s.groups.foldl (fun m e =>
    match e.2.grant with
    | some k => if !k.fresh && k.left != 0 && e.2.onCores && e.2.coreList.contains n then max m k.lvl else m
    | none => m) 0

/-- GRANT_EXPIRY (R400). -/
def execGrantExpiry (g : Nat) (s : State) : Host.Outcome State Fault Refusal :=
  event s fun s =>
    match (s.groups.find g).bind fun g => g.grant with
    | none => s
    | some k => if k.left = 0 then s.onGroup g fun g => { g with grant := none } else s

/-! ### TICK (R391 to R397, R400) -/

/-- Grants count, and the cores take the levels of the next tick. -/
def State.tickGrants (s : State) : State :=
  let s := { s with groups := s.groups.mapV fun _ g => { g with grant := g.grant.map Grant.tick } }
  { s with cores := s.cores.mapV fun n c => { c with level := s.levelOf n } }

/-- The records, budgets and readings after a tick, and the time at its end; in its microseconds that have had no POWER_ESTIMATE the
estimates are formed as they were (R391, R397, R403; log 104). -/
def State.tickWear (s : State) (es : List (Nat × Nat)) : State :=
  let ds := s.accruals es
  let now := (s.time / 1000 + 1) * 1000
  { s.addWear ds with
    time := now
    estDone := false
    parts := (s.reckonAll s.parts (now - s.time - if s.estDone then 1 else 0)).mapV fun _ p => { p with lbr := s.newLbr ds p }
    temps := es.foldl (fun t e => if e.1 < 817 then t.setD e.1 (e.2 / 32) 0 else t) s.temps }

/-- Rests and gates earn, and the cores' counters start anew (R394). -/
def State.tickCores (s : State) : State :=
  { s with cores := s.cores.mapV fun n c =>
      { restTick (min 3 (tempPoint (s.temps.getD n 0))) c with cycles := 0, issues := 0, busy := 0 } }

/-- The marks and the call-up checks of a tick (R393, R395). -/
def State.tickChecks (s : State) : State :=
  let s := s.parts.foldl (fun s e => s.markPart e.2) s
  let s := (upTo 0 160).foldl (fun s col => s.checkCol col) s
  (upTo 800 17).foldl (fun s u => s.noSpare u) s

/-- The records as of a completed tick (R258, R415). -/
def State.tickDone (s : State) : State := ({ s with ticked := s.units } : State).used

/-- TICK (R391): a millisecond of Gatchalar time ends. -/
def execTick (es : List (Nat × Nat)) (s : State) : Host.Outcome State Fault Refusal :=
  event s fun s => if s.running then (s.tickWear es).tickCores.tickDone.tickChecks.tickGrants else s

/-! ### Boost decisions (R398, R399, R412) -/

/-- e(V, t) in hundredths of 1 mLU (R398). -/
def boostRate (lvl p : Nat) : Nat := max (10 * fvb lvl * ftb p) (max (fvh lvl * fth p) (10 * fte p))

/-- The units of a group: the cores it occupies and their engines (R398). -/
def Group.units (g : Group) : List Nat := g.coreList.flatMap fun n => [n, 320 + n]

/-- The cost of a request in counts of 1/256 mLU (R398). -/
def State.boostCost (s : State) (g : Group) (lvl d : Nat) : Nat :=
  let rate := g.units.foldl (fun a u =>
    let p := tempPoint (s.temps.getD u 0)
    a + (boostRate lvl p - boostRate 0 p)) 0
  (256 * d * rate + 99) / 100

/-- A partition is throttled (R406). -/
def State.throttledPart (s : State) (p : Nat) : Bool := s.zones.any fun z => z.parts.contains p

/-- The result code of a request (R399, R412). -/
def State.boostCode (s : State) (g : Group) (pn : Nat) (p : Part) (lvl d : Nat) : Nat :=
  let limit := if lvl = 2 then 75 else 85
  if (g.units.any fun u => decide (limit ≤ s.temps.getD u 0)) || s.throttledPart pn then 3
  else if 2 ≤ p.reef ∨ p.skip ≠ 0 then 2
  else if s.boostCost g lvl d ≤ p.lbr then 0
  else 1

/-- A request is decided (R399 to R401). -/
def State.decideBoost (s : State) (gid : Nat) (g : Group) (pn : Nat) (p : Part) (lvl d : Nat) : Nat × State :=
  let code := s.boostCode g pn p lvl d
  let cost := s.boostCost g lvl d
  let info := lvl + code * 4 + d * 2 ^ 16
  let s := s.onGroup gid fun g => { g with lastBoost := code + 1 }
  if code = 0 then
    let s := { s with parts := s.parts.upd pn fun p => { p with lbr := p.lbr - cost } }
    (0, (s.onGroup gid fun g => { g with grant := some ⟨lvl, d, true⟩ }).logWear 2 (some pn) 0xffff info cost)
  else (code, s.logWear 3 (some pn) 0xffff info cost)

/-- The partition of a waiting warp's context. -/
def State.waitPart (s : State) (y : Wait) : Option Nat :=
  ((s.warps.find y.w).bind fun wp => s.groups.find wp.gid).bind fun g => s.worldPart g.world

/-- BOOST_DECISION (R399, R412): the first request of its partition is decided, and boost retires. -/
def execBoostDecision (q : Nat) (s : State) : Host.Outcome State Fault Refusal :=
  event s fun s =>
    match s.waits.find q, s.issWait q with
    | some y, some x =>
      let first := s.waits.all fun e => e.1 ≥ q || e.2.kind != .boost || s.waitPart e.2 != s.waitPart y
      (match y.ins, s.waitPart y with
        | .boost _ lvl d _, some pn =>
          (match s.parts.find pn with
            | none => s
            | some p =>
              if !first || !s.runs y.w then s
              else
                let (code, s') := s.decideBoost x.wp.gid x.g pn p lvl.toNat (y.stat.getD 0 0)
                s.gated x.wp.core (oneEffect .variable d 1 (fun _ _ => Res.of code) x s'))
        | _, _ => s)
    | _, _ => s

/-! ### NVM (R401, R404, R408) -/

/-- Every wear record and LBR goes to MRAM (R401); measurement block 4 changes (R204). -/
def State.flushNvm (s : State) : State :=
  ({ s with
    nvmUnits := s.units
    nvmLbr := s.parts.foldl (fun t e => t.setD e.1 e.2.lbr 0) s.nvmLbr
    nvmAt := s.time } : State).remeasure 4

/-- NVM_RECORD_WRITE (R401): once per second, with a SECOND entry per partition. -/
def execNvmRecordWrite (s : State) : Host.Outcome State Fault Refusal :=
  event s fun s =>
    if s.running && s.time % 1000000 == 0 && s.nvmAt != s.time then
      (s.parts.map fun e => e.1).foldl (fun s p => s.logWear 1 (some p) 0xffff 0 0) s.flushNvm
    else s

/-! ### Gates (R414) -/

/-- GATE_APPLY (R414): a pending request applies at a moment when the upper core is quiet. -/
def execGateApply (col : Nat) (s : State) : Host.Outcome State Fault Refusal :=
  event s fun s =>
    let n := 2 * col + 1
    match (s.core n).gate with
    | .pending g => if s.quiet n then s.onCore n fun c => { c with gate := .gated g 0 } else s
    | _ => s

/-- GATE_WAKE (R414): the gated core is not quiet any more, as after a put into one of its FIFOs. -/
def execGateWake (col : Nat) (s : State) : Host.Outcome State Fault Refusal :=
  event s fun s =>
    let n := 2 * col + 1
    match (s.core n).gate with
    | .gated _ _ => if s.quiet n then s else s.openGate n
    | _ => s

/-- WAKE_COMPLETE (R414): 2,048 cycles after the gate opened. -/
def execWakeComplete (col : Nat) (s : State) : Host.Outcome State Fault Refusal :=
  event s fun s =>
    let n := 2 * col + 1
    match (s.core n).gate with
    | .waking t next =>
      if t + 2048 ≤ (s.core n).clk then
        s.onCore n fun c => { c with gate := match next with
          | some g => .pending g
          | none => .open }
      else s
    | _ => s

end Sys2Proof.Machine
end

