-- ==== Sys2Proof/Machine/Power.lean ====
section
/-!
DEFINITION. Power and heat: estimates, loans and reef levels (R403, R404), derated HBM stacks (R405), hot zones (R406), the
supply (R407, R408), and power-on with its self-test (R17, R409).
-/

namespace Sys2Proof.Machine

/-! ### Estimates (R403, R404) -/

/-- POWER_ESTIMATE (R403, R404): a microsecond passes, and the estimates of partitions are formed; es lists those that have
changed, in mW. The last microsecond of a tick ends with TICK, which also passes those before it that have had no event of their own
(log 104). -/
def execPowerEstimate (es : List (Nat × Nat)) (s : State) : Host.Outcome State Fault Refusal :=
  event s fun s =>
    if !s.running || s.estDone then s
    else
      let ps := es.foldl (fun t e => t.upd e.1 fun p => { p with est := e.2 }) s.parts
      let last := (s.time + 1) % 1000 == 0
      ({ s with time := if last then s.time else s.time + 1, estDone := last, parts := s.reckonAll ps 1 } : State).used

/-- FORCED_CLOCK_SKIPPING (R404): it begins, deepens or ends on a partition. -/
def execForcedClockSkipping (p : Nat) (s : State) : Host.Outcome State Fault Refusal :=
  event s fun s =>
    { s with parts := s.parts.upd p fun k =>
        { k with skip :=
            if k.reef = 3 then (if 20 ≤ k.at3 then 2 else if 10 ≤ k.at3 ∧ k.skip = 0 then 1 else k.skip)
            else if 10 ≤ k.below3 then 0 else k.skip } }

/-! ### Heat (R405, R406) -/

/-- The contexts of a partition that hear of derating (R405). -/
def State.hearers (s : State) (p : Nat) : List Nat :=
  (s.ctxs.filter fun e =>
    e.2.part == p && (e.2.st == .locked || e.2.st == .running || e.2.st == .suspended)).map fun e => e.1

/-- A DERATED event to the contexts of a partition (R405). -/
def State.derated (s : State) (p info : Nat) : State :=
  (s.hearers p).foldl (fun s w =>
    s.raiseEvent { Event.blank with ring := ringOf w, src := 0xf00, kind := 3, info := info }) s

/-- The activation cap of a stack at a temperature, in percent (R405). -/
def hbmCap (temp : Nat) : Nat := if 95 ≤ temp then 50 else if 85 ≤ temp then 75 else 100

/-- HBM_DERATING (R405): a stack's cap changes; the partitions with a share on it hear of the start and of the end of the
derating. -/
def execHbmDerating (stack temp : Nat) (s : State) : Host.Outcome State Fault Refusal :=
  event s fun s =>
    let cap := hbmCap temp
    if 8 ≤ stack ∨ s.derates.getD stack 100 = cap then s
    else
      let edge := cap == 100 || s.derates.getD stack 100 == 100
      let info := stack + cap * 2 ^ 8 + (if cap = 100 then 0 else 2 ^ 31)
      let ps := (s.parts.filter fun e => edge && decide (0 < e.2.bw.getD stack 0)).map fun e => e.1
      ps.foldl (fun s p => s.derated p info) { s with derates := s.derates.setD stack cap 100 }

/-- The cores of the zone about a column: the columns of its die at x and y distance at most 1 (R406). -/
def zoneCores (col : Nat) : List Nat :=
  (upTo 0 320).filter fun n =>
    let c := coreCol n
    colDie c == colDie col && decide (colX c ≤ colX col + 1) && decide (colX col ≤ colX c + 1) &&
      decide (colY c ≤ colY col + 1) && decide (colY col ≤ colY c + 1)

/-- The hottest core of a zone reads this (R406). -/
def State.zoneTemp (s : State) (col : Nat) : Nat := (zoneCores col).foldl (fun m n => max m (s.temps.getD n 0)) 0

/-- The energies of the partitions with cores in the zone, but for those throttled already: their estimates are not stated
(R406; log 74). -/
def State.zoneSums (s : State) (col : Nat) (done : List Nat) : List (Nat × Nat) :=
  (s.parts.filter fun e =>
    !done.contains e.1 && (zoneCores col).any fun n => e.2.mask.getLsbD (colCluster (coreCol n))).map fun e =>
      (e.1, s.free (120 + e.1))

/-- The partition with the largest sum, the lowest number among equals; none where every sum is zero (R406). -/
def State.zoneNext (s : State) (col : Nat) (done : List Nat) : Option Nat :=
  ((s.zoneSums col done).foldl (fun b e => if b.2 < e.2 then (some e.1, e.2) else b) ((none, 0) : Option Nat × Nat)).1

/-- The next partition of a zone is throttled, and hears of it; bits that the manual does not give for a zone are free
(R406; log 74). -/
def State.throttleNext (s : State) (z : Zone) : State :=
  let rest := s.zones.filter fun y => y.col != z.col
  match s.zoneNext z.col z.parts with
  | none => ({ s with zones := rest ++ [{ z with since := s.time }] } : State).used
  | some p =>
    let s1 := { s with zones := rest ++ [{ z with parts := z.parts ++ [p], since := s.time }] }
    (s1.derated p (0xf + s.free 119 % 2 ^ 8 * 2 ^ 8 + 2 ^ 31)).used

/-- The zone of a column. -/
def State.zoneOf (s : State) (col : Nat) : Option Zone := s.zones.find? fun z => z.col == col

/-- HOT_ZONE_THROTTLE (R406): a core that reads 95 °C or more forms a hot zone. -/
def execHotZoneThrottle (core : Nat) (s : State) : Host.Outcome State Fault Refusal :=
  event s fun s =>
    if core < 320 ∧ 95 ≤ s.temps.getD core 0 ∧ (s.zoneOf (coreCol core)).isNone then
      s.throttleNext ⟨coreCol core, [], s.time⟩
    else s

/-- THROTTLE_ESCALATION (R406): the zone is still hot 1 ms later. -/
def execThrottleEscalation (core : Nat) (s : State) : Host.Outcome State Fault Refusal :=
  event s fun s =>
    match s.zoneOf (coreCol core) with
    | none => s
    | some z => if z.since + 1000 ≤ s.time ∧ 95 ≤ s.zoneTemp z.col then s.throttleNext z else s

/-- THROTTLE_END (R406): the zone's hottest core reads below 90 °C. -/
def execThrottleEnd (core : Nat) (s : State) : Host.Outcome State Fault Refusal :=
  event s fun s =>
    match s.zoneOf (coreCol core) with
    | none => s
    | some z => if s.zoneTemp z.col < 90 then { s with zones := s.zones.filter fun y => y.col != z.col } else s

/-! ### Supply (R407, R408) -/

/-- SUPPLY_DROOP (R24, R407): clock stretching rides it through, with no architectural effect. -/
def execSupplyDroop (_core : Nat) (s : State) : Host.Outcome State Fault Refusal := event s fun s => s

/-- The rests in progress are completed with what they have earned (R394, R417). -/
def State.endRests (s : State) : State :=
  (s.cores.map fun e => e.1).foldl (fun s n =>
    match (s.core n).rest with
    | .resting _ r => (s.restDone n r false).onCore n fun c => { c with rest := .no }
    | _ => s) s

/-- The warm resets in steps 5 to 7 stop: their dies stay out until the next power-on self-test (R388). -/
def State.stopResets (s : State) : State :=
  (s.warm.filter fun e => decide (5 ≤ e.2.step)).foldl (fun s e =>
    let s := (dieLinks e.1).foldl (fun s n => if s.link n == .down then s else s.moveLink n .down) s
    ({ s with warm := s.warm.del e.1, dead := if s.dead.contains e.1 then s.dead else s.dead ++ [e.1] } : State).endBy 0x0040
      e.1 5 (if e.2.step = 7 then 7 else 6) 0) s

/-- What a supply becomes at a power-fail warning, and at its end (R408). -/
def Power.warned : Power → Power
  | .on => .failing
  | .selfTest => .testFailing
  | p => p

/-- The supply after the end of a power-fail warning (R408). -/
def Power.cleared : Power → Power
  | .failing => .on
  | .testFailing => .selfTest
  | p => p

/-- POWER_FAIL_WARNING (R388, R408). -/
def execPowerFailWarning (s : State) : Host.Outcome State Fault Refusal :=
  event s fun s =>
    if s.power.warned = s.power then s
    else
      let s := { s with power := s.power.warned, groups := s.groups.mapV fun _ g => { g with grant := none } }
      let s := (s.askAll fun _ => true).stopResets
      s.endRests.flushNvm.logWear 7 none 0xffff 0 0

/-- POWER_FAIL_CLEAR (R408). -/
def execPowerFailClear (s : State) : Host.Outcome State Fault Refusal :=
  event s fun s => { s with power := s.power.cleared }

/-- What outlasts a loss of power: the host's memory, what MRAM holds (R7, R15, R17, R401, R408, R409), and what has left
the device. -/
def State.kept (s : State) : State :=
  { State.reset with
    agenda := s.agenda, turn := s.turn, freeCtr := s.freeCtr, nextId := s.nextId, hostMem := s.hostMem, outs := s.outs
    spares := s.spares, colSpare := s.colSpare, colBad := s.colBad, clusterOk := s.clusterOk, units := s.nvmUnits
    ticked := s.nvmUnits, nvmUnits := s.nvmUnits, nvmLbr := s.nvmLbr, nospare := s.nospare, wlog := s.wlog
    wlogNext := s.wlogNext, transport := s.transport, images := s.images, tested := s.tested, meas := s.meas }

/-- Every gate opens, and the powered-down rests are completed with what they have earned (R394, R414). -/
def State.endGates (s : State) : State := (s.cores.map fun e => e.1).foldl (fun s n => s.openGate n) s

/-- HOLD_UP_EXPIRY (R394, R408): wear records and LBRs survive as they stand, HBM contents are lost, and the device is off. -/
def execHoldUpExpiry (s : State) : Host.Outcome State Fault Refusal :=
  event s fun s =>
    if s.power = .failing ∨ s.power = .testFailing then { s.endRests.endGates.flushNvm.kept with power := .off } else s

/-- POWER_ON (R7, R408, R409): the device is reset, and its self-test begins. -/
def execPowerOn (s : State) : Host.Outcome State Fault Refusal :=
  .next (if s.power = .off then { s.kept with power := .selfTest } else s)

/-- A slice fails the power-on self-test: a spare replaces its column, or the column is unusable and the die's hash excludes
the slice (R16, R151, R395). -/
def State.sliceOut (s : State) (col : Nat) : State :=
  if 160 ≤ col then s
  else if 0 < s.spares.getD (colDie col) 0 then s.mapSpare col (640 + col) (3 * 2 ^ 62)
  else
    let i := 8 * (colY col % 5) + colX col % 8
    { s.colFails col with slices := updNth (fun l => l.filter fun k => k != i) (colDie col) s.slices }

/-- The result of a self-test as measurement block 6 holds it: the columns and the slices that failed (R204; log 22). -/
def testResult (failed slices : List Nat) : List Nat := failed.length :: failed ++ slices

/-- SELF_TEST_END (R17, R151, R204, R372, R409): columns and slices that failed are replaced or left out, and the device
runs. -/
def execSelfTestEnd (failed slices : List Nat) (s : State) : Host.Outcome State Fault Refusal :=
  event s fun s =>
    if s.running || s.power == .off then s
    else
      let s := { s with
        slices := [allSlices, allSlices, allSlices, allSlices]
        power := if s.power == Power.selfTest then Power.on else Power.failing
        transport := false, tested := if s.transport then testResult failed slices else s.tested }
      let s := (failed.filter fun c => decide (c < 160)).foldl (fun s c => s.colFails c) s
      let s := slices.foldl (fun s c => s.sliceOut c) s
      ((s.remeasure 3).remeasure 6).checkIsolated

/-- SHOCK_SENSOR (R409): it needs no power. -/
def execShockSensor (s : State) : Host.Outcome State Fault Refusal := .next { s with transport := true }

/-- An image that is offered to the device and passes the check of its Ed448 signature, none where it fails: the Gatchalar
firmware as block 1 or the core microcode as block 2, with its content. The event does not name it; it is a free value. -/
def State.signedImage (s : State) : Option (Nat × Nat) := if s.free 0 % 2 = 0 then none else some (1 + s.free 1 % 2, s.free 2)

/-- FIRMWARE_UPDATE (R202, R204): an image is replaced once its Ed448 signature has been verified; an image that fails is
not used. -/
def execFirmwareUpdate (s : State) : Host.Outcome State Fault Refusal :=
  event s fun s =>
    match s.signedImage with
    | some (block, image) =>
      if s.running then ({ s with images := s.images.put block image } : State).remeasure block else s
    | none => s

end Sys2Proof.Machine
end

