-- ==== Sys2Proof/Machine/Security.lean ====
section
/-!
DEFINITION. Messages of SPDM and TDISP (R197, R200, R202, R204). What the manual leaves to the protocols' own documents is
a free value of the answer (log 70).
-/

namespace Sys2Proof.Machine

/-- Messages reach the device over the host link once its self-test is over. -/
def State.listens (s : State) : Bool := s.running && s.hostUp

/-- An answer leaves the device. -/
def State.answer (s : State) (m : Msg) (vals : List Nat) : State := { s with outs := s.outs ++ [Out.answer m vals] }

/-- An answer whose content the manual does not give (log 70). -/
def State.answerFree (s : State) (m : Msg) : State := (s.answer m [s.free 70]).used

/-- A refused request is answered with its protocol's error response, and changes nothing (R202). -/
def State.refuse (s : State) (m : Msg) : State := { s with outs := s.outs ++ [Out.errorAnswer m] }

/-- A message: where ok holds it has an effect, else it is refused. -/
def State.message (s : State) (m : Msg) (ok : Bool) (f : State → State) : State :=
  if !s.listens then s else if ok then f s else s.refuse m

/-- A secure session is established. -/
def State.inSession (s : State) (ses : Nat) : Bool := s.spdm.sessions.getD ses false

/-! ### TDISP (R197, R202) -/

/-- The configuration of a context that its lock measures (R204, block 5). -/
def State.config (s : State) (fn : Nat) : List Nat :=
  match s.ctxs.find fn with
  | none => []
  | some c => [c.root, c.qs, c.ccount, c.allot, match (s.key fn).st with
      | .empty => 0
      | .valid => 1
      | .revoked => 2]

/-- The effect of LOCK_INTERFACE_REQUEST: the configuration is fixed and measured, and the context is protected (R197). -/
def State.lockTdi (s : State) (fn : Nat) : State :=
  let s := (s.moveCtx fn .locked).onCtx fn fun c => { c with prot := true }
  ({ s with measured := s.measured.put fn (s.config fn) } : State).answerFree .lockInterface

/-- LOCK_INTERFACE_REQUEST (R197, R202). -/
def execLockInterfaceRequest (ses fn : Nat) (s : State) : Host.Outcome State Fault Refusal :=
  event s fun s =>
    s.message .lockInterface (s.inSession ses && s.cstate fn == .configured) fun s => s.lockTdi fn

/-- START_INTERFACE_REQUEST (R197, R202). -/
def execStartInterfaceRequest (ses fn : Nat) (s : State) : Host.Outcome State Fault Refusal :=
  event s fun s =>
    s.message .startInterface (s.inSession ses && s.cstate fn == .locked) fun s =>
      (s.moveCtx fn .running).answer .startInterface []

/-- STOP_INTERFACE_REQUEST (R197, R202, R209). -/
def execStopInterfaceRequest (ses fn : Nat) (s : State) : Host.Outcome State Fault Refusal :=
  event s fun s =>
    s.message .stopInterface (s.inSession ses && s.cstate fn != .free && s.cstate fn != .departing) fun s =>
      (s.depart fn).answer .stopInterface []

/-- GET_DEVICE_INTERFACE_REPORT (R202): of a locked, running or suspended protected context. -/
def execGetDeviceInterfaceReport (ses fn : Nat) (s : State) : Host.Outcome State Fault Refusal :=
  event s fun s =>
    let st := s.cstate fn
    s.message .interfaceReport (s.inSession ses && (st == .locked || st == .running || st == .suspended)) fun s =>
      s.answerFree .interfaceReport

/-- The TDISP state of a context: 0 CONFIG_UNLOCKED, as after a hot reset (R211), 1 CONFIG_LOCKED, 2 RUN, 3 ERROR; while a
protected context departs the manual gives none (R196; log 70). -/
def State.tdiState (s : State) (fn : Nat) : Nat :=
  if ((s.ctxs.find fn).map fun c => c.prot).getD false then
    match s.cstate fn with
    | .free => 0
    | .configured => 0
    | .locked => 1
    | .running => 2
    | .suspended => 2
    | .error => 3
    | .departing => s.free 71
  else 0

/-- GET_DEVICE_INTERFACE_STATE (R196, R202). -/
def execGetDeviceInterfaceState (ses fn : Nat) (s : State) : Host.Outcome State Fault Refusal :=
  event s fun s =>
    s.message .interfaceState (s.inSession ses && decide (fn ≤ 1023)) fun s =>
      (s.answer .interfaceState [s.tdiState fn]).used

/-! ### SPDM (R202, R204) -/

/-- GET_VERSION (R202): a connection begins. -/
def execGetVersion (s : State) : Host.Outcome State Fault Refusal :=
  event s fun s =>
    s.message .version true fun s =>
      ({ s with spdm := { s.spdm with version := true, caps := false, algos := false } } : State).answer .version [0x13]

/-- GET_CAPABILITIES (R202). -/
def execGetCapabilities (s : State) : Host.Outcome State Fault Refusal :=
  event s fun s =>
    s.message .capabilities s.spdm.version fun s =>
      ({ s with spdm := { s.spdm with caps := true } } : State).answerFree .capabilities

/-- NEGOTIATE_ALGORITHMS (R202). -/
def execNegotiateAlgorithms (s : State) : Host.Outcome State Fault Refusal :=
  event s fun s =>
    s.message .algorithms s.spdm.caps fun s =>
      ({ s with spdm := { s.spdm with algos := true } } : State).answerFree .algorithms

/-- GET_DIGESTS (R202). -/
def execGetDigests (s : State) : Host.Outcome State Fault Refusal :=
  event s fun s => s.message .digests s.spdm.algos fun s => s.answerFree .digests

/-- GET_CERTIFICATE (R202). -/
def execGetCertificate (s : State) : Host.Outcome State Fault Refusal :=
  event s fun s => s.message .certificate s.spdm.algos fun s => s.answerFree .certificate

/-- CHALLENGE (R202). -/
def execChallenge (s : State) : Host.Outcome State Fault Refusal :=
  event s fun s => s.message .challenge s.spdm.algos fun s => s.answerFree .challenge

/-- The digest of measurement block i, as its last change left it; block 5 is that of the TDI of a function (R204; log 22). -/
def State.digest (s : State) (fn i : Nat) : Nat :=
  if i = 5 then Config.shake (s.measured.getD fn []) else (s.meas.find i).getD (Config.shake (s.content i))

/-- The measurement blocks 1 to 6, each as its digest and the signature of it (R204; log 22). -/
def State.blocks (s : State) (fn : Nat) : List Nat :=
  (upTo 1 6).flatMap fun i => [s.digest fn i, Config.sign (s.digest fn i)]

/-- GET_MEASUREMENTS (R204). -/
def execGetMeasurements (fn : Nat) (s : State) : Host.Outcome State Fault Refusal :=
  event s fun s => s.message .measurements s.spdm.algos fun s => s.answer .measurements (s.blocks fn)

/-- A session number that is not in use: up to 8 sessions at once (R202). -/
def State.freeSession (s : State) : Option Nat := (upTo 0 8).find? fun n => (s.spdm.sessions.find n).isNone

/-- KEY_EXCHANGE (R202): a session begins. -/
def execKeyExchange (s : State) : Host.Outcome State Fault Refusal :=
  event s fun s =>
    s.message .keyExchange (s.spdm.algos && s.freeSession.isSome) fun s =>
      match s.freeSession with
      | none => s
      | some n =>
        (({ s with spdm := { s.spdm with sessions := s.spdm.sessions.put n false } } : State).answer .keyExchange
          [n, s.free 70]).used

/-- FINISH (R202): a session is established. -/
def execFinish (ses : Nat) (s : State) : Host.Outcome State Fault Refusal :=
  event s fun s =>
    s.message .finish (s.spdm.sessions.find ses == some false) fun s =>
      ({ s with spdm := { s.spdm with sessions := s.spdm.sessions.put ses true } } : State).answerFree .finish

/-- HEARTBEAT (R202). -/
def execHeartbeat (ses : Nat) (s : State) : Host.Outcome State Fault Refusal :=
  event s fun s => s.message .heartbeat (s.inSession ses) fun s => s.answer .heartbeat []

/-- KEY_UPDATE (R202). -/
def execKeyUpdate (ses : Nat) (s : State) : Host.Outcome State Fault Refusal :=
  event s fun s => s.message .keyUpdate (s.inSession ses) fun s => s.answer .keyUpdate []

/-- END_SESSION (R202). -/
def execEndSession (ses : Nat) (s : State) : Host.Outcome State Fault Refusal :=
  event s fun s =>
    s.message .endSession (s.inSession ses) fun s =>
      ({ s with spdm := { s.spdm with sessions := s.spdm.sessions.del ses } } : State).answer .endSession []

/-- The trusted security manager may load the key of a function: its context is, or is about to be, protected (R200). -/
def State.keyByTsm (s : State) (fn : Nat) : Bool :=
  s.keyOpen fn && (s.cstate fn == .configured || ((s.ctxs.find fn).map fun c => c.prot).getD false)

/-- What the device accepts of a vendor-defined request: the world key of a function that the trusted security manager may
load, or the key of one of the 64 selective IDE streams (R200, R202, R212). -/
def State.venOk (s : State) : KeyFor → Bool
  | .world fn => s.keyByTsm fn
  | .stream n _ => decide (n < 64)

/-- The functions whose protected contexts are LOCKED or beyond, among those that a stream carried or is to carry: a change
of their stream is an error condition (R197, R198). -/
def State.streamErrs (s : State) (n : Nat) (fns : List Nat) : List Nat :=
  (((s.ide.find n).map fun d => d.fns).getD [] ++ fns).filter s.fixedCtx

/-- The effect of a vendor-defined request (R197, R200, R202). -/
def State.venDo (s : State) (key : Nat) : KeyFor → State
  | .world fn => { s with keys := s.keys.put fn ⟨.valid, key % 2 ^ 512⟩ }
  | .stream n fns =>
    (s.streamErrs n fns).foldl (fun s fn => s.toError fn false) { s with ide := s.ide.put n ⟨fns, key⟩ }

/-- VENDOR_DEFINED_REQUEST (R200, R202, R212): a key for a world or for an IDE stream, within a session. -/
def execVendorDefinedRequest (ses : Nat) (obj : KeyFor) (key : Nat) (s : State) : Host.Outcome State Fault Refusal :=
  event s fun s => s.message .vendor (s.inSession ses && s.venOk obj) fun s => (s.venDo key obj).answerFree .vendor

/-- UNSUPPORTED_REQUEST (R202). -/
def execUnsupportedRequest (code : Nat) (s : State) : Host.Outcome State Fault Refusal :=
  event s fun s => s.message (.other code) false fun s => s

end Sys2Proof.Machine
end

