-- ==== Sys2Proof/Machine/Transc.lean ====
section
/-!
DEFINITION. ex2, lg2, sin, cos and tanh (R126, R127). The exact value of a function is irrational but for the operands
that R126 and the exact cases settle; fixed-point arithmetic with 320 fraction bits finds the two FP32 values it lies
between, and Config.upper says which of them the machine returns (log 14).
-/

namespace Sys2Proof.Machine

/-- One in fixed point. -/
def fxOne : Nat := 2 ^ 320

/-- pi in fixed point. -/
def fxPi : Nat := 0x3243f6a8885a308d313198a2e03707344a4093822299f31d0082efa98ec4e6c89452821e638d01377

/-- The natural logarithm of 2 in fixed point. -/
def fxLn2 : Nat := 0xb17217f7d1cf79abc9e3b39803f2f6af40f343267298b62d8a0d175b8baafa2be7b876206debac98

/-- m * 2^e in fixed point. -/
def fxOf (m : Nat) (e : Int) : Nat :=
  if 0 ≤ e + 320 then m * 2 ^ (e + 320).toNat else m / 2 ^ (min (-(e + 320)).toNat (Nat.log2 m + 1))

/-- The sum of z^k / k! from term k on, where t is the term before: n terms. -/
def expGo (z : Nat) : Nat → Nat → Nat → Nat
  | 0, _, _ => 0
  | n + 1, k, t =>
    let t' := t * z / 2 ^ 320 / k
    t' + expGo z n (k + 1) t'

/-- e^z for 0 ≤ z < 1. -/
def fxExp (z : Nat) : Nat := fxOne + expGo z 90 1 fxOne

/-- The alternating terms of sin or cos: t is the term before, z2 the square of the argument. -/
def trigGo (z2 : Nat) : Nat → Nat → Int → Int
  | 0, _, _ => 0
  | n + 1, k, t =>
    let t' : Int := -(t * z2 / 2 ^ 320 / (k * (k + 1) : Nat))
    t' + trigGo z2 n (k + 2) t'

/-- sin z for 0 ≤ z < 2. -/
def fxSin (z : Nat) : Int := z + trigGo (z * z / 2 ^ 320) 60 2 z

/-- cos z for 0 ≤ z < 2. -/
def fxCos (z : Nat) : Int := fxOne + trigGo (z * z / 2 ^ 320) 60 1 fxOne

/-- The terms y^(2j+1) / (2j+1) of atanh y: p is the power, k the odd number. -/
def atanhGo (y2 : Nat) : Nat → Nat → Nat → Nat
  | 0, _, _ => 0
  | n + 1, k, p => p / k + atanhGo y2 n (k + 2) (p * y2 / 2 ^ 320)

/-- The natural logarithm of x, 1 ≤ x < 2, by atanh ((x - 1) / (x + 1)). -/
def fxLn (x : Nat) : Nat :=
  let y := (x - fxOne) * 2 ^ 320 / (x + fxOne)
  2 * atanhGo (y * y / 2 ^ 320) 110 1 y

/-! ### The two neighbours -/

/-- What a function gives: an exact value, or the FP32 values below and above in magnitude. -/
inductive Faith
  | exact (r : Res)
  | between (lo hi : Res)
deriving DecidableEq, Repr

/-- The neighbours of a value between m * 2^e and (m + 1) * 2^e, which is itself no FP32 value. -/
def around (neg : Bool) (m : Nat) (e : Int) : Faith :=
  .between (packF .f32 .rz neg (jam m true) (e - 1))
    (packF .f32 (if neg then .rd else .ru) neg (jam m true) (e - 1))

/-- The neighbours of a value just below the magnitude m * 2^e, an FP32 value. -/
def justBelow (neg : Bool) (m : Nat) (e : Int) : Faith := around neg (m * 2 ^ 40 - 1) (e - 40)

/-- The neighbours of a value just above the magnitude m * 2^e, an FP32 value. -/
def justAbove (neg : Bool) (m : Nat) (e : Int) : Faith := around neg (m * 2 ^ 40) (e - 40)

/-- m * 2^e is below 2^k in magnitude. -/
def below (m : Nat) (e k : Int) : Bool := decide (m = 0) || decide ((Nat.log2 m : Int) + e < k)

/-- 2^a (R126, R127). -/
def ex2V (a : FV) : Faith :=
  match a with
  | .nan => .exact (Res.of 0)
  | .inf n => .exact (Res.of (if n then 0 else infPat .f32))
  | .fin n m e =>
    if m = 0 then .exact (packF .f32 .rn false 1 0)
    else if below m e (-25) then (if n then justBelow false 1 0 else justAbove false 1 0)
    else if !below m e 8 then
      if n then .between (Res.of 0) (Res.of 1) else .exact ⟨maxFin .f32, fSat⟩
    else
      let z : Int := signedM n (fxOf m e)
      let k := z / 2 ^ 320
      let f := (z % 2 ^ 320).toNat
      if f = 0 then
        let r := roundMag .f32 .rn false 1 k
        if -149 ≤ k then .exact (if maxFin .f32 < r then ⟨maxFin .f32, fSat⟩ else Res.of r)
        else .between (Res.of 0) (Res.of 1)
      else around false (fxExp (f * fxLn2 / 2 ^ 320)) (k - 320)

/-- log2 a (R126, R127). -/
def lg2V (a : FV) : Faith :=
  match a with
  | .nan => .exact (Res.of 0)
  | .inf n => .exact (if n then invalid .f32 5 else Res.of (infPat .f32))
  | .fin n m e =>
    if m = 0 then .exact (Res.of (infPat .f32 + signPat .f32 true))
    else if n then .exact (invalid .f32 5)
    else
      let j := Nat.log2 m
      let k : Int := e + j
      if m = 2 ^ j then .exact (packF .f32 .rn (decide (k < 0)) k.natAbs 0)
      else
        let y : Int := k * 2 ^ 320 + (fxLn (m * 2 ^ (320 - j)) * 2 ^ 320 / fxLn2 : Nat)
        if y < 0 then around true ((-y).toNat - 1) (-320) else around false y.toNat (-320)

/-- sin and cos of m * 2^e from the quarter turn: quadrant, then the remainder. -/
def trigV (isCos : Bool) (neg : Bool) (m : Nat) (e : Int) : Faith :=
  let z := fxOf m e
  let q := 2 * z / fxPi
  let r := z - q * fxPi / 2
  let kind := (q + if isCos then 1 else 0) % 4
  let y := if kind % 2 = 0 then fxSin r else fxCos r
  around ((neg && !isCos) != decide (2 ≤ kind)) y.toNat (-320)

/-- sin a (R126, R127). -/
def sinV (a : FV) : Faith :=
  match a with
  | .nan => .exact (Res.of 0)
  | .inf _ => .exact (invalid .f32 5)
  | .fin n m e =>
    if m = 0 then .exact (Res.of (signPat .f32 n))
    else if below m e (-13) then justBelow n m e
    else trigV false n m e

/-- cos a (R126, R127). -/
def cosV (a : FV) : Faith :=
  match a with
  | .nan => .exact (Res.of 0)
  | .inf _ => .exact (invalid .f32 5)
  | .fin n m e =>
    if m = 0 then .exact (packF .f32 .rn false 1 0)
    else if below m e (-13) then justBelow false 1 0
    else trigV true n m e

/-- tanh a (R126, R127): (e^2a - 1) / (e^2a + 1). -/
def tanhV (a : FV) : Faith :=
  match a with
  | .nan => .exact (Res.of 0)
  | .inf n => .exact (packF .f32 .rn n 1 0)
  | .fin n m e =>
    if m = 0 then .exact (Res.of (signPat .f32 n))
    else if below m e (-13) then justBelow n m e
    else if !below m e 4 then justBelow n 1 0
    else
      let z := 2 * fxOf m e
      let k := z / fxLn2
      let ex := fxExp (z - k * fxLn2) * 2 ^ k
      around n ((ex - fxOne) * 2 ^ 320 / (ex + fxOne)) (-320)

/-- The FP32 result of a function: of two neighbours, the one that the machine's fixed choice names (R127). -/
def faithful (fn ty bits : Nat) (f : Faith) : Res :=
  match f with
  | .exact r => r
  | .between lo hi => if Config.upper fn ty bits then hi else lo

/-- A function of R127 on one element: widened to FP32, computed, and rounded RN to the destination. -/
def transcF (fn : Nat) (f : FV → Faith) (ty t : Ty) (a : Nat) : Res :=
  nanOr t [a]
    (let r := faithful fn ty.code.toNat a (f (unpackF t a))
     if t = .f32 then r
     else
       let r' := cvtFF t .f32 .rn r.val
       ⟨r'.val, r.fl ||| r'.fl⟩)

/-- ex2 (R123, R127). -/
def execEx2 (c : Ctl) (t : Ty) (d : Dst) (a : Src) (s : State) : Host.Outcome State Fault Refusal :=
  execLane (.ex2 c t d a) (.fixed 14) d 1 (flt1 t a (transcF 0 ex2V t)) s

/-- lg2 (R123, R127). -/
def execLg2 (c : Ctl) (t : Ty) (d : Dst) (a : Src) (s : State) : Host.Outcome State Fault Refusal :=
  execLane (.lg2 c t d a) (.fixed 14) d 1 (flt1 t a (transcF 1 lg2V t)) s

/-- sin (R123, R127). -/
def execSin (c : Ctl) (t : Ty) (d : Dst) (a : Src) (s : State) : Host.Outcome State Fault Refusal :=
  execLane (.sin c t d a) (.fixed 14) d 1 (flt1 t a (transcF 2 sinV t)) s

/-- cos (R123, R127). -/
def execCos (c : Ctl) (t : Ty) (d : Dst) (a : Src) (s : State) : Host.Outcome State Fault Refusal :=
  execLane (.cos c t d a) (.fixed 14) d 1 (flt1 t a (transcF 3 cosV t)) s

/-- tanh (R123, R127). -/
def execTanh (c : Ctl) (t : Ty) (d : Dst) (a : Src) (s : State) : Host.Outcome State Fault Refusal :=
  execLane (.tanh c t d a) (.fixed 14) d 1 (flt1 t a (transcF 4 tanhV t)) s

end Sys2Proof.Machine
end

