-- ==== Sys2Proof/Machine/WaitEvents.lean ====
section
/-!
DEFINITION. Events that end waits: full-empty loads (R180), waita (R184, R185), copies (R191 to R193), tile queues (R241),
counters (R237), barriers (R317), await and helping (R274, R275), register blocks (R299), vertical FIFOs (R302), the matrix
engine (R323), tfetch (R340) and results of variable latency (R117).
-/

namespace Sys2Proof.Machine

/-! ### Full-empty loads (R180) -/

/-- The granules of a waiting load are all full. -/
def feOk (s : State) (y : Wait) (x : Iss) : Bool :=
  y.kind == .fe && match y.ins with
    | .ldsp _ _ _ _ _ _ a off => x.allFull (x.offs s a off)
    | _ => false

/-- FE_LOAD_COMPLETE (R180). -/
def execFeLoadComplete (q : Nat) (s : State) : Host.Outcome State Fault Refusal :=
  event s fun s => s.reissue q (feOk s)

/-- Cycles that the waiting instruction has waited. -/
def waited (y : Wait) (x : Iss) : Nat := x.clk - y.since

/-- A wait that runs out: where its warp runs, the effect f. -/
def State.runOut (s : State) (q : Nat) (ok : Wait → Iss → Bool) (f : Wait → Iss → State → State) : State :=
  match s.waits.find q, s.issWait q with
  | some y, some x => if s.runs y.w && ok y x then s.gated x.wp.core (f y x s) else s
  | _, _ => s

/-- FE_TIMEOUT (R180): nothing is read or cleared. -/
def execFeTimeout (q : Nat) (s : State) : Host.Outcome State Fault Refusal :=
  event s fun s =>
    s.runOut q (fun y x => y.kind == .fe && !feOk s y x && decide (2 ^ 22 ≤ waited y x)) fun _ x s =>
      s.raise x (x.flt 13 x.m 0 0) 0

/-! ### waita (R184, R185) -/

/-- Every comparison of a waita has been made. -/
def State.compared (s : State) (q : Nat) : Bool := s.txns.all fun e => e.2.q != some q

/-- A sleeping waita. -/
def State.sleeps (s : State) (q : Nat) (y : Wait) : Bool := y.kind == .sleep && s.compared q

/-- WAITA_RELEASE (R185): an event has named a sector, a request or a save releases the warp, or nothing named does. -/
def execWaitaRelease (q : Nat) (s : State) : Host.Outcome State Fault Refusal :=
  event s fun s => s.runOut q (fun y _ => s.sleeps q y) fun _ _ s => s.waitaEnd q

/-- Every lane of a waita without a status gets one. -/
def Wait.fill (y : Wait) (v : Nat) : Wait :=
  { y with stat := (maskLanes y.lanes).foldl (fun st l => if (st.find l).isSome then st else st.put l v) y.stat }

/-- Some lane of a waita found its slice's table full (R185). -/
def Wait.isFull (y : Wait) : Bool := y.stat.any fun e => e.2 == 4

/-- WAITA_TIMEOUT (R184, R185): one with a FULL lane has returned long before. -/
def execWaitaTimeout (q : Nat) (s : State) : Host.Outcome State Fault Refusal :=
  event s fun s =>
    s.runOut q (fun y x => s.sleeps q y && !y.sat && !y.isFull && match y.ins with
        | .waita _ tmo _ _ _ => decide (tmoCycles tmo ≤ waited y x)
        | _ => false) fun _ _ s =>
      ({ s with waits := s.waits.upd q fun y => y.fill 3 }).waitaEnd q

/-- WAITA_FULL_RETURN (R185): the lanes that armed a monitor return SPURIOUS, the others what they have. -/
def execWaitaFullReturn (q : Nat) (s : State) : Host.Outcome State Fault Refusal :=
  event s fun s =>
    s.runOut q (fun y _ => s.sleeps q y && y.isFull) fun _ _ s => s.waitaEnd q

/-- A sleeping waita must return now: a pre-emption request is pending for its group, or one of its lanes is FULL and 512 cycles
have passed since it armed (R185). -/
def State.waitaDue (s : State) (q : Nat) (y : Wait) (x : Iss) : Bool :=
  s.sleeps q y && (x.g.preempt || y.isFull && decide (512 ≤ waited y x))

/-- Every waita that must return now does (R185). -/
def State.wakeDue (s : State) : State :=
  (s.waits.filter fun e => e.2.kind == .sleep).foldl (fun s e => s.runOut e.1 (s.waitaDue e.1) fun _ _ s => s.waitaEnd e.1) s

/-! ### Copies (R191 to R193) -/

/-- COPY_COMPLETE (R191). -/
def execCopyComplete (y : Nat) (s : State) : Host.Outcome State Fault Refusal :=
  event s fun s => s.copyComplete y

/-- COPY_ERROR_STOP (R193). -/
def execCopyErrorStop (y : Nat) (s : State) : Host.Outcome State Fault Refusal :=
  event s fun s => s.copyStop y

/-- The copies that a tcwait waits for have left the engine. -/
def tcwaitOk (s : State) (y : Wait) (x : Iss) : Bool :=
  y.kind == .tcwait && match y.ins with
    | .tcwait _ tag => x.tcopies s tag == []
    | _ => false

/-- TCWAIT_RETURN (R192, R193). -/
def execTcwaitReturn (q : Nat) (s : State) : Host.Outcome State Fault Refusal :=
  event s fun s => s.reissue q (tcwaitOk s)

/-! ### Queues, counters and barriers -/

/-- A push finds room in its queue, and the accesses of its warp are done. -/
def pushOk (y : Wait) (x : Iss) : Bool :=
  y.kind == .tqpush && match y.ins with
    | .tqpush _ n _ => x.wp.drained && decide (0 < (x.g.tq n).allow)
    | _ => false

/-- TQ_PUSH_TAKES_EFFECT (R241). -/
def execTqPushTakesEffect (q : Nat) (s : State) : Host.Outcome State Fault Refusal :=
  event s fun s => s.reissue q pushOk

/-- A pop finds a handle in its queue, and the accesses of its warp are done (log 76). -/
def popOk (y : Wait) (x : Iss) : Bool :=
  y.kind == .tqpop && match y.ins with
    | .tqpop _ _ n => x.wp.drained && !(x.g.tq n).content.isEmpty
    | _ => false

/-- TQ_POP_TAKES_EFFECT (R241). -/
def execTqPopTakesEffect (q : Nat) (s : State) : Host.Outcome State Fault Refusal :=
  event s fun s => s.reissue q popOk

/-- CNTWAIT_SATISFIED (R237). -/
def execCntwaitSatisfied (q : Nat) (s : State) : Host.Outcome State Fault Refusal :=
  event s fun s => s.reissue q fun y _ => y.kind == .counter && (y.sat || match y.stat.find 0 with
    | some k => decide (y.stat.getD 1 0 ≤ s.counter k)
    | none => false)

/-- BAR_COMPLETE (R317). -/
def execBarComplete (q : Nat) (s : State) : Host.Outcome State Fault Refusal :=
  event s fun s => s.reissue q fun y x => y.kind == .bar && (x.wp.bar (y.stat.getD 0 0)).done

/-! ### await (R274, R275, R281) -/

/-- A lane leaves a waiting instruction; the last one ends it. -/
def State.leaveWait (s : State) (q l : Nat) : State :=
  match s.waits.find q with
  | none => s
  | some y =>
    let rest := y.lanes &&& ~~~(oneLane l)
    let s := s.onWarp y.w fun wp =>
      { wp.setLane l (fun ln => { ln with wait := none }) with idleSince := (s.core wp.core).clk }
    { s with waits := if rest = 0 then s.waits.del q else s.waits.upd q fun y => { y with lanes := rest } }

/-- Lane l waits in instruction q. -/
def State.laneWaits (s : State) (q l : Nat) : Option (Wait × Warp) :=
  match s.waits.find q with
  | none => none
  | some y =>
    match s.warps.find y.w with
    | none => none
    | some wp => if inMask y.lanes l && (wp.lane l).wait == some q && s.runs y.w then some (y, wp) else none

/-- await returns in lane l (R281); its warp holds its blocks again (R275). -/
def State.awaitNow (s : State) (q l : Nat) (y : Wait) (wp : Warp) (d : Dst) : State :=
  let s := (s.leaveWait q l).onWarp y.w fun w => w.setLane l fun ln =>
    let ln := ln.awaitPop d
    { ln with pc := ln.pc + 12 }
  let world := ((s.groups.find wp.gid).map fun g => g.world).getD 0
  (s.acquire wp.core world).settle y.w

/-- Lane l, which waits in y, can go on: its innermost frame is done, or it may end (R276, R281). -/
def State.laneDone (s : State) (y : Wait) (wp : Warp) (l : Nat) : Bool :=
  match y.kind with
  | .await => (wp.lane l).frameDone
  | .ending => s.canEnd y.w l wp
  | _ => false

/-- AWAIT_RETURN (R275, R276, R281). -/
def execAwaitReturn (q l : Nat) (s : State) : Host.Outcome State Fault Refusal :=
  event s fun s =>
    match s.laneWaits q l with
    | none => s
    | some (y, wp) =>
      if wp.saved == 0 && s.laneDone y wp l then
        s.gated wp.core (match y.kind, y.ins with
          | .await, .await _ d => s.awaitNow q l y wp d
          | _, _ => (s.unblock q).laneEnd y.w l ((wp.lane l).ending.getD false))
      else s

/-- The frame that a blocked lane awaits: its innermost one, or, where it is to end, the innermost one that is not done (R276,
R281). -/
def Lane.awaited (ln : Lane) (k : WKindW) (w l : Nat) : Option FrameRef :=
  let n := ln.frames.length
  let fs := if k = .ending then ln.own else ln.own.take 1
  (((upTo 0 n).zip fs).find? fun e => e.2.count != 0).map fun e => ⟨w, l, n - 1 - e.1⟩

/-- The record that a helping lane takes: of its frame, in its core's store, with the lowest SEQ and then the lowest LO
(R274). -/
def pickHelp (f : FrameRef) : List TRec → Option TRec
  | [] => none
  | r :: rs =>
    match pickHelp f rs with
    | none => if r.parent = f then some r else none
    | some b =>
      if r.parent = f ∧ (r.seq < b.seq ∨ r.seq = b.seq ∧ r.lo ≤ b.lo) then some r else some b

/-- The record that lane l of a warp may help with now, in the wait y (R274). -/
def State.helpRec (s : State) (y : Wait) (wp : Warp) (l : Nat) : Option TRec :=
  let ln := wp.lane l
  if (y.kind == .await || y.kind == .ending) && decide (4096 ≤ (s.core wp.core).clk - ln.since) then
    match ln.awaited y.kind y.w l with
    | none => none
    | some f => pickHelp f (s.core wp.core).recs
  else none

/-- The wait, the warp and the record with which lane l helps; the warp holds its blocks again (R274, R275). -/
def State.helps (s : State) (q l : Nat) : Option (Wait × Warp × TRec) :=
  match s.laneWaits q l with
  | none => none
  | some (y, wp) => if wp.saved = 0 then (s.helpRec y wp l).map fun r => (y, wp, r) else none

/-- AWAIT_HELP (R274): the lane runs a record of the frame it awaits, inline; the group that owned the record may retire
(R271, R285). -/
def execAwaitHelp (q l : Nat) (s : State) : Host.Outcome State Fault Refusal :=
  event s fun s =>
    match s.helps q l with
    | none => s
    | some (y, wp, r) =>
      let t := (s.leaveWait q l).onCore wp.core fun c => { c with recs := c.recs.erase r }
      let t := t.onWarp y.w fun w => w.setLane l fun ln => ln.runInline ln.pc (ln.ending == some true) true r.inlineTask
      let world := ((s.groups.find wp.gid).map fun g => g.world).getD 0
      s.gated wp.core (((t.acquire wp.core world).retireCheck r.owner).settle y.w)

/-! ### Register blocks (R275, R299) -/

/-- Every lane of the warp has exited, is parked, or is blocked in await (R275). -/
def State.idle (s : State) (wp : Warp) : Bool :=
  wp.lanes.all fun ln => ln.exited || match ln.wait with
    | some q => ((s.waits.find q).map fun y => y.kind == .await || y.kind == .ending).getD false
    | none => ln.parked

/-- A lane of the warp that waits can go on, or can help (R274, R275). -/
def State.stirs (s : State) (wp : Warp) : Bool :=
  laneNums.any fun l => match (wp.lane l).wait.bind s.waits.find with
    | some y => s.laneDone y wp l || (s.helpRec y wp l).isSome
    | none => false

/-- The warp has been idle for 4,096 cycles, with no lane helping (R275). -/
def State.longIdle (s : State) (wp : Warp) : Bool :=
  let c := (s.core wp.core).clk
  s.idle wp && !wp.over && decide (wp.lastIssue + 4096 ≤ c) && decide (wp.idleSince + 4096 ≤ c) &&
    wp.lanes.all fun ln => ln.wait.isNone || decide (ln.since + 4096 ≤ c)

/-- The dynamic blocks that R275 releases: those held, the emergency block apart. -/
def Warp.freeable (wp : Warp) : BitVec 8 :=
  match wp.emer with
  | none => wp.held
  | some n => wp.held &&& ~~~(BitVec.ofNat 8 (2 ^ n))

/-- BLOCK_RELEASE (R275): the blocks of an idle warp are freed, their contents in the block save area; no result is on its
way to them. -/
def execBlockRelease (w : Nat) (s : State) : Host.Outcome State Fault Refusal :=
  event s fun s =>
    match s.warps.find w with
    | none => s
    | some wp =>
      let b := wp.freeable
      if s.runs w && s.longIdle wp && !s.stirs wp && wp.score.isEmpty && b != 0 then
        (s.toArea w b).onWarp w fun wp => { wp with saved := wp.saved ||| b, held := wp.held &&& ~~~b }
      else s

/-- BLOCK_RESTORE (R275): a warp one of whose lanes can issue again, or help, gets its blocks back. -/
def execBlockRestore (w : Nat) (s : State) : Host.Outcome State Fault Refusal :=
  event s fun s =>
    match s.warps.find w with
    | none => s
    | some wp =>
      match s.groups.find wp.gid with
      | none => s
      | some g =>
        let rc := ((s.launches.find g.lid).map fun x => x.rc).getD LRec.blank
        if wp.saved != 0 && (!s.idle wp || s.stirs wp) && decide (blockCount wp.saved ≤ s.freeBlocks wp.gid wp.core rc) then
          (s.fromArea w).onWarp w fun wp => { wp with held := wp.held ||| wp.saved, saved := 0 }
        else s

/-- A waiting ralloc may be granted: a block of its share, or the emergency token (R299). -/
def rallocOk (s : State) (y : Wait) (x : Iss) : Bool := y.kind == .ralloc && (x.takesBlock s || x.takesToken s)

/-- RALLOC_GRANT (R299). -/
def execRallocGrant (q : Nat) (s : State) : Host.Outcome State Fault Refusal :=
  event s fun s => s.reissue q (rallocOk s)

/-! ### Vertical FIFOs, the matrix engine, tfetch -/

/-- A put finds room in its FIFO, and the accesses of its warp are done. -/
def putOk (y : Wait) (x : Iss) : Bool :=
  y.kind == .vput && match y.ins with
    | .vput _ f _ => x.wp.drained && decide ((x.g.fifo f).length < 16)
    | _ => false

/-- VPUT_TAKES_EFFECT (R302). -/
def execVputTakesEffect (q : Nat) (s : State) : Host.Outcome State Fault Refusal :=
  event s fun s => s.reissue q putOk

/-- A get finds an entry in its FIFO, and the accesses of its warp are done (log 76). -/
def getOk (y : Wait) (x : Iss) : Bool :=
  y.kind == .vget && match y.ins with
    | .vget _ f _ => x.wp.drained && !(x.g.fifo f).isEmpty
    | _ => false

/-- VGET_TAKES_EFFECT (R302). -/
def execVgetTakesEffect (q : Nat) (s : State) : Host.Outcome State Fault Refusal :=
  event s fun s => s.reissue q getOk

/-- MATRIX_PORT_COMPLETE (R323): the instruction at the head of the core's engine does its work; it leaves the engine
unless it waits for a tile or a die. -/
def execMatrixPortComplete (core : Nat) (s : State) : Host.Outcome State Fault Refusal :=
  event s fun s =>
    match (s.core core).matq with
    | [] => s
    | op :: _ =>
      let pop (s : State) : State := s.onCore core fun c => { c with matq := c.matq.filter fun o => o.q != op.q }
      match s.waits.find op.q, s.issWait op.q with
      | some y, some x =>
        if y.kind = .matrix then
          if s.matReady y op x then
            let s := matRun y.ins op x s
            if ((s.waits.find op.q).map fun y => y.kind) = some .matrix then s else pop s
          else s
        else pop s
      | _, _ => (pop s).onWarp op.w fun wp => { wp with matOut := wp.matOut - 1 }

/-- A tfetch that waits for an entry, with its descriptor; it completes whether or not a fault stops its group (R208,
R343). -/
def State.tfetchOf (s : State) (q : Nat) : Option (Wait × Iss × Nat) :=
  match s.waits.find q, s.issWait q with
  | some y, some x => if y.kind = .tfetch then some (y, x, y.stat.getD 5 0) else none
  | _, _ => none

/-- TFETCH_ENTRY_GRANTED (R340). -/
def execTfetchEntryGranted (q : Nat) (s : State) : Host.Outcome State Fault Refusal :=
  event s fun s =>
    match s.tfetchOf q with
    | none => s
    | some (_, x, d) =>
      if (s.core x.wp.core).pinsHeld < 16 ∧ (x.pinWay s d).isNone then s.gated x.wp.core (tfetchDone d true x s) else s

/-- TFETCH_TIMEOUT (R340): after 4,096 cycles, or at a pre-emption request, it completes without an entry. -/
def execTfetchTimeout (q : Nat) (s : State) : Host.Outcome State Fault Refusal :=
  event s fun s =>
    match s.tfetchOf q with
    | none => s
    | some (y, x, d) =>
      if (decide (4096 ≤ waited y x) || x.g.preempt) && (x.pinWay s d).isNone then s.gated x.wp.core (tfetchDone d false x s) else s

/-! ### Steps on what instructions share (R180, R241, R299, R302) -/

/-- A wait on a queue, a FIFO, granules, a block or a copy tag takes effect at the first point at which it can, whoever comes after
it. -/
def atOnce (s : State) (y : Wait) (x : Iss) : Bool :=
  tcwaitOk s y x || pushOk y x || popOk y x || putOk y x || getOk y x || feOk s y x || rallocOk s y x

/-- Those of the waiting instructions qs that can take effect now. -/
def State.due (s : State) (qs : List Nat) : List Nat :=
  qs.filter fun q => match s.waits.find q, s.issWait q with
    | some y, some x => s.runs y.w && atOnce s y x
    | _, _ => false

/-- The waiting instructions qs take effect, each at the first point at which it can; which of several comes first is a
free choice (R180, R241, R302). -/
def State.serveWaits : Nat → List Nat → State → State
  | 0, _, s => s
  | n + 1, qs, s =>
    match s.due qs with
    | [] => s
    | ds =>
      let q := ds.getD (s.free 40010 % ds.length) 0
      State.serveWaits n (qs.erase q) ((s.reissue q (atOnce s)).used)

/-- VARIABLE_LATENCY_RESULT (R117, R287): the oldest result of variable latency of a warp is there, and the scoreboard
lets go of its registers (log 7). -/
def execVariableLatencyResult (w : Nat) (s : State) : Host.Outcome State Fault Refusal :=
  event s fun s =>
    match (s.warps.find w).bind fun wp => wp.score.find? fun h => h.tx.isNone with
    | none => s
    | some h => s.onWarp w fun wp => { wp with score := wp.score.erase h }

end Sys2Proof.Machine
end

