-- ==== Sys2Proof/Machine/Dispatch.lean ====
section
/-!
DEFINITION. exec: one arm per constructor of Instr, each a direct call of its meaning.
-/

namespace Sys2Proof.Machine

def exec (i : Instr) (s : State) : Host.Outcome State Fault Refusal :=
  match i with
  | .addInteger c t d a b => Sys2Proof.Machine.execAddInteger c t d a b s
  | .subInteger c t d a b => Sys2Proof.Machine.execSubInteger c t d a b s
  | .mulInteger c t d a b => Sys2Proof.Machine.execMulInteger c t d a b s
  | .mulhi c t d a b => Sys2Proof.Machine.execMulhi c t d a b s
  | .mulw c t d a b => Sys2Proof.Machine.execMulw c t d a b s
  | .divInteger c t d a b => Sys2Proof.Machine.execDivInteger c t d a b s
  | .rem c t d a b => Sys2Proof.Machine.execRem c t d a b s
  | .neg c t d a => Sys2Proof.Machine.execNeg c t d a s
  | .abs c t d a => Sys2Proof.Machine.execAbs c t d a s
  | .minInteger c t d a b => Sys2Proof.Machine.execMinInteger c t d a b s
  | .maxInteger c t d a b => Sys2Proof.Machine.execMaxInteger c t d a b s
  | .and c t d a b => Sys2Proof.Machine.execAnd c t d a b s
  | .or c t d a b => Sys2Proof.Machine.execOr c t d a b s
  | .xor c t d a b => Sys2Proof.Machine.execXor c t d a b s
  | .andn c t d a b => Sys2Proof.Machine.execAndn c t d a b s
  | .not c t d a => Sys2Proof.Machine.execNot c t d a s
  | .shl c t d a b => Sys2Proof.Machine.execShl c t d a b s
  | .shr c t d a b => Sys2Proof.Machine.execShr c t d a b s
  | .sra c t d a b => Sys2Proof.Machine.execSra c t d a b s
  | .rotl c t d a b => Sys2Proof.Machine.execRotl c t d a b s
  | .bfx c t d a b => Sys2Proof.Machine.execBfx c t d a b s
  | .bfi c t d a b p => Sys2Proof.Machine.execBfi c t d a b p s
  | .popc c t d a => Sys2Proof.Machine.execPopc c t d a s
  | .clz c t d a => Sys2Proof.Machine.execClz c t d a s
  | .ctz c t d a => Sys2Proof.Machine.execCtz c t d a s
  | .brev c t d a => Sys2Proof.Machine.execBrev c t d a s
  | .lea c t sh d a b => Sys2Proof.Machine.execLea c t sh d a b s
  | .addx c t gs d a b => Sys2Proof.Machine.execAddx c t gs d a b s
  | .cmpInteger c t cc g a b => Sys2Proof.Machine.execCmpInteger c t cc g a b s
  | .setb c t cc d a b => Sys2Proof.Machine.execSetb c t cc d a b s
  | .sel c t gs d a b => Sys2Proof.Machine.execSel c t gs d a b s
  | .mov c t d a => Sys2Proof.Machine.execMov c t d a s
  | .movi c t d imm => Sys2Proof.Machine.execMovi c t d imm s
  | .mad c t d a b p => Sys2Proof.Machine.execMad c t d a b p s
  | .clamp c t d a b p => Sys2Proof.Machine.execClamp c t d a b p s
  | .addFloat c t rm d a b => Sys2Proof.Machine.execAddFloat c t rm d a b s
  | .subFloat c t rm d a b => Sys2Proof.Machine.execSubFloat c t rm d a b s
  | .mulFloat c t rm d a b => Sys2Proof.Machine.execMulFloat c t rm d a b s
  | .fma c t rm d a b p => Sys2Proof.Machine.execFma c t rm d a b p s
  | .divFloat c t rm d a b => Sys2Proof.Machine.execDivFloat c t rm d a b s
  | .rcp c t rm d a => Sys2Proof.Machine.execRcp c t rm d a s
  | .sqrt c t rm d a => Sys2Proof.Machine.execSqrt c t rm d a s
  | .rsq c t rm d a => Sys2Proof.Machine.execRsq c t rm d a s
  | .ex2 c t d a => Sys2Proof.Machine.execEx2 c t d a s
  | .lg2 c t d a => Sys2Proof.Machine.execLg2 c t d a s
  | .sin c t d a => Sys2Proof.Machine.execSin c t d a s
  | .cos c t d a => Sys2Proof.Machine.execCos c t d a s
  | .tanh c t d a => Sys2Proof.Machine.execTanh c t d a s
  | .minFloat c t nan d a b => Sys2Proof.Machine.execMinFloat c t nan d a b s
  | .maxFloat c t nan d a b => Sys2Proof.Machine.execMaxFloat c t nan d a b s
  | .cmpFloat c t cc g a b => Sys2Proof.Machine.execCmpFloat c t cc g a b s
  | .classF c t g a b => Sys2Proof.Machine.execClassF c t g a b s
  | .rndi c t rm d a => Sys2Proof.Machine.execRndi c t rm d a s
  | .cpsign c t d a b => Sys2Proof.Machine.execCpsign c t d a b s
  | .scale c t rm d a b => Sys2Proof.Machine.execScale c t rm d a b s
  | .dot2 c t rm d a b p => Sys2Proof.Machine.execDot2 c t rm d a b p s
  | .cvt c t st rm d a => Sys2Proof.Machine.execCvt c t st rm d a s
  | .pack c t rm d a b => Sys2Proof.Machine.execPack c t rm d a b s
  | .unpack c t d a => Sys2Proof.Machine.execUnpack c t d a s
  | .bsel c d a b => Sys2Proof.Machine.execBsel c d a b s
  | .qnt c t d a => Sys2Proof.Machine.execQnt c t d a s
  | .dqt c t d a b => Sys2Proof.Machine.execDqt c t d a b s
  | .shfl c m d a b => Sys2Proof.Machine.execShfl c m d a b s
  | .bcast c d a b => Sys2Proof.Machine.execBcast c d a b s
  | .vote c m d g => Sys2Proof.Machine.execVote c m d g s
  | .matchW c t d a => Sys2Proof.Machine.execMatchW c t d a s
  | .redw c op t d a => Sys2Proof.Machine.execRedw c op t d a s
  | .scanw c op t exc d a => Sys2Proof.Machine.execScanw c op t exc d a s
  | .rnd c t d => Sys2Proof.Machine.execRnd c t d s
  | .rndSeed c t a b => Sys2Proof.Machine.execRndSeed c t a b s
  | .kzero c q => Sys2Proof.Machine.execKzero c q s
  | .kadd c t q a => Sys2Proof.Machine.execKadd c t q a s
  | .ksub c t q a => Sys2Proof.Machine.execKsub c t q a s
  | .kdot c t q a b => Sys2Proof.Machine.execKdot c t q a b s
  | .kround c t rm d q => Sys2Proof.Machine.execKround c t rm d q s
  | .ksave c d q => Sys2Proof.Machine.execKsave c d q s
  | .kload c q a => Sys2Proof.Machine.execKload c q a s
  | .kstat c d q => Sys2Proof.Machine.execKstat c d q s
  | .ld c t ch n d a off => Sys2Proof.Machine.execLd c t ch n d a off s
  | .st c t ch n d a off => Sys2Proof.Machine.execSt c t ch n d a off s
  | .ldk c t ch n d a off => Sys2Proof.Machine.execLdk c t ch n d a off s
  | .ldsp c t n fe clr d a off => Sys2Proof.Machine.execLdsp c t n fe clr d a off s
  | .stsp c t n fe d a off => Sys2Proof.Machine.execStsp c t n fe d a off s
  | .feget c d a off => Sys2Proof.Machine.execFeget c d a off s
  | .feset c a off => Sys2Proof.Machine.execFeset c a off s
  | .feclr c a off => Sys2Proof.Machine.execFeclr c a off s
  | .atom c t op o d a off => Sys2Proof.Machine.execAtom c t op o d a off s
  | .red c t op o d a off => Sys2Proof.Machine.execRed c t op o d a off s
  | .vatom c t op o d a off => Sys2Proof.Machine.execVatom c t op o d a off s
  | .vred c t op o d a off => Sys2Proof.Machine.execVred c t op o d a off s
  | .waita c tmo d a off => Sys2Proof.Machine.execWaita c tmo d a off s
  | .wake c a off => Sys2Proof.Machine.execWake c a off s
  | .pfetch c ch a off => Sys2Proof.Machine.execPfetch c ch a off s
  | .evict c ch a off => Sys2Proof.Machine.execEvict c ch a off s
  | .tcopy c out shd tag cnv d a b => Sys2Proof.Machine.execTcopy c out shd tag cnv d a b s
  | .tcwait c tag => Sys2Proof.Machine.execTcwait c tag s
  | .trap c code => Sys2Proof.Machine.execTrap c code s
  | .bkpt c => Sys2Proof.Machine.execBkpt c s
  | .flagrd c d => Sys2Proof.Machine.execFlagrd c d s
  | .flagclr c f => Sys2Proof.Machine.execFlagclr c f s
  | .csrr c r d => Sys2Proof.Machine.execCsrr c r d s
  | .csrw c r a => Sys2Proof.Machine.execCsrw c r a s
  | .rfe c => Sys2Proof.Machine.execRfe c s
  | .tqpush c q b => Sys2Proof.Machine.execTqpush c q b s
  | .tqpop c d q => Sys2Proof.Machine.execTqpop c d q s
  | .tqtry c gs d q => Sys2Proof.Machine.execTqtry c gs d q s
  | .tqallow c d q => Sys2Proof.Machine.execTqallow c d q s
  | .cntsig c set a b => Sys2Proof.Machine.execCntsig c set a b s
  | .cntwait c a b => Sys2Proof.Machine.execCntwait c a b s
  | .klaunch c d a => Sys2Proof.Machine.execKlaunch c d a s
  | .fslot c n d => Sys2Proof.Machine.execFslot c n d s
  | .spawn c d a b => Sys2Proof.Machine.execSpawn c d a b s
  | .fmark c => Sys2Proof.Machine.execFmark c s
  | .await c d => Sys2Proof.Machine.execAwait c d s
  | .tret c => Sys2Proof.Machine.execTret c s
  | .tidx c f d => Sys2Proof.Machine.execTidx c f d s
  | .tstat c d => Sys2Proof.Machine.execTstat c d s
  | .nop c => Sys2Proof.Machine.execNop c s
  | .bra c off => Sys2Proof.Machine.execBra c off s
  | .brx c a => Sys2Proof.Machine.execBrx c a s
  | .call c d off => Sys2Proof.Machine.execCall c d off s
  | .ret c a => Sys2Proof.Machine.execRet c a s
  | .exit c => Sys2Proof.Machine.execExit c s
  | .meet c off => Sys2Proof.Machine.execMeet c off s
  | .yield c dl => Sys2Proof.Machine.execYield c dl s
  | .ralloc c n => Sys2Proof.Machine.execRalloc c n s
  | .rfree c n => Sys2Proof.Machine.execRfree c n s
  | .rblk c d => Sys2Proof.Machine.execRblk c d s
  | .vput c f a => Sys2Proof.Machine.execVput c f a s
  | .vget c f d => Sys2Proof.Machine.execVget c f d s
  | .vfree c f d => Sys2Proof.Machine.execVfree c f d s
  | .bar c b => Sys2Proof.Machine.execBar c b s
  | .barArrive c b => Sys2Proof.Machine.execBarArrive c b s
  | .barWait c b => Sys2Proof.Machine.execBarWait c b s
  | .barTest c g b => Sys2Proof.Machine.execBarTest c g b s
  | .barset c b n => Sys2Proof.Machine.execBarset c b n s
  | .mma c fs qdm acc zsk st d a b => Sys2Proof.Machine.execMma c fs qdm acc zsk st d a b s
  | .mmz c d => Sys2Proof.Machine.execMmz c d s
  | .accmov c d a => Sys2Proof.Machine.execAccmov c d a s
  | .accld c t glb d a => Sys2Proof.Machine.execAccld c t glb d a s
  | .accst c t glb shd rm d a => Sys2Proof.Machine.execAccst c t glb shd rm d a s
  | .tfetch c a => Sys2Proof.Machine.execTfetch c a s
  | .tunpin c a => Sys2Proof.Machine.execTunpin c a s
  | .mmstat c r d => Sys2Proof.Machine.execMmstat c r d s
  | .publish c a b => Sys2Proof.Machine.execPublish c a b s
  | .sfetch c a => Sys2Proof.Machine.execSfetch c a s
  | .sevict c a => Sys2Proof.Machine.execSevict c a s
  | .sstat c d a => Sys2Proof.Machine.execSstat c d a s
  | .rflv c d => Sys2Proof.Machine.execRflv c d s
  | .boost c lvl d a => Sys2Proof.Machine.execBoost c lvl d a s
  | .bstat c d => Sys2Proof.Machine.execBstat c d s
  | .pgateOn c d => Sys2Proof.Machine.execPgateOn c d s
  | .pgateOff c d => Sys2Proof.Machine.execPgateOff c d s
  | .wrec c k d a => Sys2Proof.Machine.execWrec c k d a s
  | .watchdog => Sys2Proof.Machine.execWatchdog s
  | .loadDataReturn x u => Sys2Proof.Machine.execLoadDataReturn x u s
  | .writeUnitPerformed x u => Sys2Proof.Machine.execWriteUnitPerformed x u s
  | .atomicElementApplied x u => Sys2Proof.Machine.execAtomicElementApplied x u s
  | .storeAcknowledged x => Sys2Proof.Machine.execStoreAcknowledged x s
  | .storeCountDrained q => Sys2Proof.Machine.execStoreCountDrained q s
  | .errorReply x => Sys2Proof.Machine.execErrorReply x s
  | .pageWalk die world va wr => Sys2Proof.Machine.execPageWalk die world va wr s
  | .firstTouchScrub g => Sys2Proof.Machine.execFirstTouchScrub g s
  | .backgroundScrub => Sys2Proof.Machine.execBackgroundScrub s
  | .feLoadComplete q => Sys2Proof.Machine.execFeLoadComplete q s
  | .feTimeout q => Sys2Proof.Machine.execFeTimeout q s
  | .waitaRelease q => Sys2Proof.Machine.execWaitaRelease q s
  | .waitaTimeout q => Sys2Proof.Machine.execWaitaTimeout q s
  | .waitaFullReturn q => Sys2Proof.Machine.execWaitaFullReturn q s
  | .copyComplete y => Sys2Proof.Machine.execCopyComplete y s
  | .copyErrorStop y => Sys2Proof.Machine.execCopyErrorStop y s
  | .tcwaitReturn q => Sys2Proof.Machine.execTcwaitReturn q s
  | .tqPushTakesEffect q => Sys2Proof.Machine.execTqPushTakesEffect q s
  | .tqPopTakesEffect q => Sys2Proof.Machine.execTqPopTakesEffect q s
  | .cntwaitSatisfied q => Sys2Proof.Machine.execCntwaitSatisfied q s
  | .barComplete q => Sys2Proof.Machine.execBarComplete q s
  | .awaitReturn q l => Sys2Proof.Machine.execAwaitReturn q l s
  | .awaitHelp q l => Sys2Proof.Machine.execAwaitHelp q l s
  | .blockRelease w => Sys2Proof.Machine.execBlockRelease w s
  | .blockRestore w => Sys2Proof.Machine.execBlockRestore w s
  | .rallocGrant q => Sys2Proof.Machine.execRallocGrant q s
  | .vputTakesEffect q => Sys2Proof.Machine.execVputTakesEffect q s
  | .vgetTakesEffect q => Sys2Proof.Machine.execVgetTakesEffect q s
  | .matrixPortComplete core => Sys2Proof.Machine.execMatrixPortComplete core s
  | .tfetchEntryGranted q => Sys2Proof.Machine.execTfetchEntryGranted q s
  | .tfetchTimeout q => Sys2Proof.Machine.execTfetchTimeout q s
  | .variableLatencyResult w => Sys2Proof.Machine.execVariableLatencyResult w s
  | .askForWork core lid => Sys2Proof.Machine.execAskForWork core lid s
  | .halyardServe die => Sys2Proof.Machine.execHalyardServe die s
  | .groupPlacement lid => Sys2Proof.Machine.execGroupPlacement lid s
  | .preEmptionRequest g => Sys2Proof.Machine.execPreEmptionRequest g s
  | .groupSave g => Sys2Proof.Machine.execGroupSave g s
  | .deferredSave g => Sys2Proof.Machine.execDeferredSave g s
  | .groupStop g => Sys2Proof.Machine.execGroupStop g s
  | .groupResume g => Sys2Proof.Machine.execGroupResume g s
  | .restoreComplete g => Sys2Proof.Machine.execRestoreComplete g s
  | .eventPost src ctx => Sys2Proof.Machine.execEventPost src ctx s
  | .launchStart lid => Sys2Proof.Machine.execLaunchStart lid s
  | .launchCompletion lid => Sys2Proof.Machine.execLaunchCompletion lid s
  | .notifyRegisterWrite fn q v => Sys2Proof.Machine.execNotifyRegisterWrite fn q v s
  | .copyEntry e => Sys2Proof.Machine.execCopyEntry e s
  | .copyEntryComplete e => Sys2Proof.Machine.execCopyEntryComplete e s
  | .counterSignalEntry e => Sys2Proof.Machine.execCounterSignalEntry e s
  | .counterWaitEntry e => Sys2Proof.Machine.execCounterWaitEntry e s
  | .eqheadWrite fn v => Sys2Proof.Machine.execEqheadWrite fn v s
  | .gcqtailWrite v => Sys2Proof.Machine.execGcqtailWrite v s
  | .gcqcfgWrite v => Sys2Proof.Machine.execGcqcfgWrite v s
  | .heqcfgWrite v => Sys2Proof.Machine.execHeqcfgWrite v s
  | .heqheadWrite v => Sys2Proof.Machine.execHeqheadWrite v s
  | .registerWrite off v => Sys2Proof.Machine.execRegisterWrite off v s
  | .commandTake => Sys2Proof.Machine.execCommandTake s
  | .commandComplete k => Sys2Proof.Machine.execCommandComplete k s
  | .partition k => Sys2Proof.Machine.execPartition k s
  | .pshare k => Sys2Proof.Machine.execPshare k s
  | .bwshare k => Sys2Proof.Machine.execBwshare k s
  | .lifeset k => Sys2Proof.Machine.execLifeset k s
  | .caldsize k => Sys2Proof.Machine.execCaldsize k s
  | .configure k => Sys2Proof.Machine.execConfigure k s
  | .lock k => Sys2Proof.Machine.execLock k s
  | .start k => Sys2Proof.Machine.execStart k s
  | .suspend k => Sys2Proof.Machine.execSuspend k s
  | .resume k => Sys2Proof.Machine.execResume k s
  | .stop k => Sys2Proof.Machine.execStop k s
  | .key k => Sys2Proof.Machine.execKey k s
  | .resumeSlot k => Sys2Proof.Machine.execResumeSlot k s
  | .discardSlot k => Sys2Proof.Machine.execDiscardSlot k s
  | .tlbinv k => Sys2Proof.Machine.execTlbinv k s
  | .pairs k => Sys2Proof.Machine.execPairs k s
  | .sregion k => Sys2Proof.Machine.execSregion k s
  | .scrub k => Sys2Proof.Machine.execScrub k s
  | .peermap k => Sys2Proof.Machine.execPeermap k s
  | .warmreset k => Sys2Proof.Machine.execWarmreset k s
  | .linkretrain k => Sys2Proof.Machine.execLinkretrain k s
  | .peerreset k => Sys2Proof.Machine.execPeerreset k s
  | .wearlog k => Sys2Proof.Machine.execWearlog k s
  | .transport k => Sys2Proof.Machine.execTransport k s
  | .endOfClearingSequence fn => Sys2Proof.Machine.execEndOfClearingSequence fn s
  | .keyRevocation w => Sys2Proof.Machine.execKeyRevocation w s
  | .ideIntegrityFailure stream => Sys2Proof.Machine.execIdeIntegrityFailure stream s
  | .configurationViolation fn => Sys2Proof.Machine.execConfigurationViolation fn s
  | .uncorrectableMemoryError fn => Sys2Proof.Machine.execUncorrectableMemoryError fn s
  | .hostLinkDown => Sys2Proof.Machine.execHostLinkDown s
  | .hotReset => Sys2Proof.Machine.execHotReset s
  | .lockInterfaceRequest ses fn => Sys2Proof.Machine.execLockInterfaceRequest ses fn s
  | .startInterfaceRequest ses fn => Sys2Proof.Machine.execStartInterfaceRequest ses fn s
  | .stopInterfaceRequest ses fn => Sys2Proof.Machine.execStopInterfaceRequest ses fn s
  | .getDeviceInterfaceReport ses fn => Sys2Proof.Machine.execGetDeviceInterfaceReport ses fn s
  | .getDeviceInterfaceState ses fn => Sys2Proof.Machine.execGetDeviceInterfaceState ses fn s
  | .getVersion => Sys2Proof.Machine.execGetVersion s
  | .getCapabilities => Sys2Proof.Machine.execGetCapabilities s
  | .negotiateAlgorithms => Sys2Proof.Machine.execNegotiateAlgorithms s
  | .getDigests => Sys2Proof.Machine.execGetDigests s
  | .getCertificate => Sys2Proof.Machine.execGetCertificate s
  | .challenge => Sys2Proof.Machine.execChallenge s
  | .getMeasurements fn => Sys2Proof.Machine.execGetMeasurements fn s
  | .keyExchange => Sys2Proof.Machine.execKeyExchange s
  | .finish ses => Sys2Proof.Machine.execFinish ses s
  | .heartbeat ses => Sys2Proof.Machine.execHeartbeat ses s
  | .keyUpdate ses => Sys2Proof.Machine.execKeyUpdate ses s
  | .endSession ses => Sys2Proof.Machine.execEndSession ses s
  | .vendorDefinedRequest ses obj key => Sys2Proof.Machine.execVendorDefinedRequest ses obj key s
  | .unsupportedRequest code => Sys2Proof.Machine.execUnsupportedRequest code s
  | .mailboxWrite fn off bytes => Sys2Proof.Machine.execMailboxWrite fn off bytes s
  | .mailboxRead bar off len tag => Sys2Proof.Machine.execMailboxRead bar off len tag s
  | .linkTrainingSuccess n => Sys2Proof.Machine.execLinkTrainingSuccess n s
  | .linkTrainingFailure n => Sys2Proof.Machine.execLinkTrainingFailure n s
  | .retrainTrigger n => Sys2Proof.Machine.execRetrainTrigger n s
  | .retrainSuccess n => Sys2Proof.Machine.execRetrainSuccess n s
  | .retrainFailure n => Sys2Proof.Machine.execRetrainFailure n s
  | .quiesceComplete n => Sys2Proof.Machine.execQuiesceComplete n s
  | .warmResetQuiesce die => Sys2Proof.Machine.execWarmResetQuiesce die s
  | .warmResetWriteBack die => Sys2Proof.Machine.execWarmResetWriteBack die s
  | .warmResetErrorReplies die => Sys2Proof.Machine.execWarmResetErrorReplies die s
  | .warmResetDieReset die => Sys2Proof.Machine.execWarmResetDieReset die s
  | .warmResetSelfTest die failed slices => Sys2Proof.Machine.execWarmResetSelfTest die failed slices s
  | .warmResetTraining die => Sys2Proof.Machine.execWarmResetTraining die s
  | .reAdmission die => Sys2Proof.Machine.execReAdmission die s
  | .remoteAccess id world va op bytes => Sys2Proof.Machine.execRemoteAccess id world va op bytes s
  | .peerAcknowledgement x => Sys2Proof.Machine.execPeerAcknowledgement x s
  | .peerSessionEnd port => Sys2Proof.Machine.execPeerSessionEnd port s
  | .logAppend x u => Sys2Proof.Machine.execLogAppend x u s
  | .tileFetchComplete r t => Sys2Proof.Machine.execTileFetchComplete r t s
  | .tileFetchFailure r t => Sys2Proof.Machine.execTileFetchFailure r t s
  | .tileEvictionComplete r t => Sys2Proof.Machine.execTileEvictionComplete r t s
  | .tileEvictionFailure r t => Sys2Proof.Machine.execTileEvictionFailure r t s
  | .tick es => Sys2Proof.Machine.execTick es s
  | .restEnd core => Sys2Proof.Machine.execRestEnd core s
  | .spareCallUp col => Sys2Proof.Machine.execSpareCallUp col s
  | .grantExpiry g => Sys2Proof.Machine.execGrantExpiry g s
  | .boostDecision q => Sys2Proof.Machine.execBoostDecision q s
  | .nvmRecordWrite => Sys2Proof.Machine.execNvmRecordWrite s
  | .powerEstimate es => Sys2Proof.Machine.execPowerEstimate es s
  | .forcedClockSkipping p => Sys2Proof.Machine.execForcedClockSkipping p s
  | .hbmDerating stack temp => Sys2Proof.Machine.execHbmDerating stack temp s
  | .hotZoneThrottle core => Sys2Proof.Machine.execHotZoneThrottle core s
  | .throttleEscalation core => Sys2Proof.Machine.execThrottleEscalation core s
  | .throttleEnd core => Sys2Proof.Machine.execThrottleEnd core s
  | .gateApply col => Sys2Proof.Machine.execGateApply col s
  | .gateWake col => Sys2Proof.Machine.execGateWake col s
  | .wakeComplete col => Sys2Proof.Machine.execWakeComplete col s
  | .supplyDroop core => Sys2Proof.Machine.execSupplyDroop core s
  | .powerFailWarning => Sys2Proof.Machine.execPowerFailWarning s
  | .powerFailClear => Sys2Proof.Machine.execPowerFailClear s
  | .holdUpExpiry => Sys2Proof.Machine.execHoldUpExpiry s
  | .powerOn => Sys2Proof.Machine.execPowerOn s
  | .selfTestEnd failed slices => Sys2Proof.Machine.execSelfTestEnd failed slices s
  | .shockSensor => Sys2Proof.Machine.execShockSensor s
  | .firmwareUpdate => Sys2Proof.Machine.execFirmwareUpdate s

end Sys2Proof.Machine
end

