-- ==== Sys2Proof/Machine/Sched.lean ====
section
/-!
DEFINITION. Issue: instruction fetch (R32, R349), candidate lanes (R287), the selection of a warp by its quadrant (R286), the
PC groups of an issue opportunity and their conflicts (R288 to R291), the hints STALL, GAP, GIVE, RA and RB (R35 to R38), and
the yield counter (R295).
-/

namespace Sys2Proof.Machine

/-! ### Fetch (R31, R32, R54, R349) -/

/-- What stands at a PC: an instruction, a word that is none, a failed fetch, or a die that holds the request back. -/
inductive Fetched
  | ins (i : Instr)
  | illegal
  | bad (cls lvl : Nat)
  | held
deriving DecidableEq, Repr

/-- The place of one byte of code, or why it cannot be fetched. -/
def State.codeAt (s : State) (die world va : Nat) : Except Fetched Nat × State :=
  match s.windowOf world va with
  | some _ => (.error (.bad 9 4), s)
  | none =>
    match s.xlate die world va .x false with
    | (.bad b, s) => (.error (.bad b.cls b.lvl), s)
    | (.held _, s) => (.error .held, s)
    | (.ok h, s) =>
      match s.replyErr world h.pa with
      | some k => (.error (.bad k 0), s)
      | none =>
        if s.away die h.pa then (.error .held, s)
        else (.ok h.pa, (s.setAD die world va h.leaf false).scrubFirst world h.pa)

/-- A line fills a place of the instruction cache, which holds 3,072 of them: a free choice makes way where it is full (R19; log
34). -/
def Core.fillIc (c : Core) (l : ILine) (pick : Nat) : Core :=
  let ic := c.ic.filter fun k => k.world != l.world || k.line != l.line
  let ic := if ic.length < 3072 then ic else ic.eraseIdx (pick % ic.length)
  { c with ic := ic ++ [l] }

/-- A line of code as a core sees it: as its instruction cache holds it, or as memory does now (R19; log 34). -/
def State.codeLine (s : State) (core world line : Nat) : List Byte × State :=
  let now := s.hbmBytes (s.key world).key (32 * line) 32
  let fill (s : State) : State :=
    (s.touchL2 world (32 * line) 0 .no .no).onCore core fun c => c.fillIc ⟨world, line, now⟩ (s.free 40009)
  match (s.core core).ic.find? fun l => l.world == world && l.line == line with
  | none => (now, fill s)
  | some l =>
    if l.bytes = now then (now, s)
    else if s.free 40100 % 2 = 0 then (l.bytes, s.used)
    else (now, (fill s).used)

/-- n bytes of code at a physical address, in at most two lines. -/
def State.codeBytes (s : State) (core world pa n : Nat) : List Byte × State :=
  let (a, s) := s.codeLine core world (pa / 32)
  if pa % 32 + n ≤ 32 then ((a.drop (pa % 32)).take n, s)
  else
    let (b, s) := s.codeLine core world (pa / 32 + 1)
    (((a ++ b).drop (pa % 32)).take n, s)

/-- The instruction of 12 bytes (R31, R54). -/
def decoded (bs : List Byte) : Fetched :=
  match decodeBytes bs with
  | .ok (i, _) => .ins i
  | .error _ => .illegal

/-- Fetches the word at a PC for a world on a core; a word may lie in two pages (R32, R349). -/
def State.fetch (s : State) (core world pc : Nat) : Fetched × State :=
  let die := coreDie core
  match s.codeAt die world pc with
  | (.error e, s) => (e, s)
  | (.ok pa, s) =>
    let n := min 12 (4096 - pc % 4096)
    if n = 12 then
      let (bs, s) := s.codeBytes core world pa 12
      (decoded bs, s)
    else
      match s.codeAt die world (pc + n) with
      | (.error e, s) => (e, s)
      | (.ok pb, s) =>
        let (as, s) := s.codeBytes core world pa n
        let (bs, s) := s.codeBytes core world pb (12 - n)
        (decoded (as ++ bs), s)

/-! ### Ports (R117, R290) -/

/-- What an instruction occupies in its quadrant: 1 matrix, 2 load-store, 3 copy, 4 special function, 5 control, 6 integer
lanes, 7 FMA lanes, 0 nothing (R117, R290). -/
def portOf (i : Instr) : Nat :=
  match toRaw i with
  | none => 0
  | some r =>
    let o := r.op.toNat
    if 0x280 ≤ o ∧ o < 0x290 then 1
    else if 0x180 ≤ o ∧ o ≤ 0x18f ∨ 0x290 ≤ o ∧ o < 0x300 then 2
    else if o = 0x190 ∨ o = 0x191 then 3
    else if 0x200 ≤ o ∧ o < 0x280 ∨ 0x380 ≤ o then 5
    else if 0x300 ≤ o then (if [0x305, 0x307, 0x308, 0x309, 0x30a, 0x310, 0x311].contains o then 5 else 0)
    else if o < 0x80 then 6
    else if 0x86 ≤ o ∧ o ≤ 0x8e ∨ o = 0x104 ∨ 0x110 ≤ o then 4
    else 7

/-- Cycles for which an instruction holds its port (R117). -/
def holdOf (i : Instr) : Nat :=
  match i with
  | .mulInteger _ t .. | .mulhi _ t .. | .mad _ t .. => if t.bits = 64 then 4 else 1
  | .divInteger .. | .rem .. => 8
  | .rcp _ t .. | .sqrt _ t .. | .rsq _ t .. | .divFloat _ t .. => if t = .f64 then 16 else 4
  | .ex2 .. | .lg2 .. | .sin .. | .cos .. | .tanh .. | .qnt .. | .rnd .. | .rndSeed .. => 4
  | .redw .. | .scanw .. => 2
  | .kzero .. | .kadd .. | .ksub .. | .kdot .. | .kround .. | .ksave .. | .kload .. | .kstat .. => 4
  | .cvt _ t st .. => if t = .f64 ∨ st = .f64 then 8 else 1
  | .addFloat _ t .. | .subFloat _ t .. | .mulFloat _ t .. | .fma _ t .. | .minFloat _ t .. | .maxFloat _ t ..
  | .cmpFloat _ t .. | .classF _ t .. | .rndi _ t .. | .cpsign _ t .. | .scale _ t .. => if t = .f64 then 8 else 1
  | _ => 1

/-- The key of a quadrant's port in Core.ports. -/
def portKey (quad p : Nat) : Nat := 8 * quad + p

/-- The port that an instruction needs is free in this cycle (R117). -/
def Core.portFree (c : Core) (quad : Nat) (i : Instr) : Bool :=
  portOf i == 0 || decide (c.ports.getD (portKey quad (portOf i)) 0 ≤ c.clk)

/-! ### Candidates (R287) -/

/-- Two register ranges meet. -/
def Use.meets (a b : Use) : Bool := decide (a.reg < b.reg + b.n) && decide (b.reg < a.reg + a.n)

/-- The scoreboard holds a register of the instruction for lane l (R117, R287). -/
def Warp.scored (w : Warp) (l : Nat) (us : List Use) : Bool :=
  w.score.any fun h => (decide (512 ≤ h.reg) || inMask h.lanes l) && us.any fun u => u.meets ⟨h.reg, h.n⟩

/-- Every register of an instruction, its guard among them. -/
def allUses (i : Instr) : List Use :=
  (match ctlOf i with
    | some c => useG c.gi
    | none => []) ++ touchesOf i

/-- The words at the PCs of a warp's lanes, without what the fetch changes. -/
def State.words (s : State) (wp : Warp) (world : Nat) : List (Dword × Fetched) :=
  let pcs := (wp.lanes.filter fun ln => !ln.exited && ln.wait.isNone).foldl (fun l ln =>
    if l.contains ln.pc then l else l ++ [ln.pc]) ([] : List Dword)
  pcs.map fun pc => (pc, (s.fetch wp.core world pc.toNat).1)

/-- The lanes that are candidates in this cycle (R35, R287). -/
def State.candidates (s : State) (wp : Warp) (ws : List (Dword × Fetched)) : Mask :=
  let c := s.core wp.core
  maskOf fun l =>
    let ln := wp.lane l
    !ln.exited && !ln.parked && ln.wait.isNone && decide (ln.barUntil ≤ c.clk) &&
      match ws.find? fun e => e.1 == ln.pc with
      | some (_, .ins i) => !wp.scored l (allUses i)
      | some (_, .held) => false
      | some _ => true
      | none => false

/-- The warp may issue at all: its group runs, or another of its warps took a fault in this very cycle (R205), no mma of its own
is outstanding (R323), no dynamic block of it is in its save area (R299), and its core is neither gated nor waking (R414). -/
def State.issues (s : State) (w : Nat) (wp : Warp) (g : Group) : Bool :=
  let c := s.core wp.core
  !wp.stopped && (g.st == .resident || g.st == .stopping) &&
    (match g.pend with
      | none => true
      | some p => p.clk == s.faultClk g && !p.warps.contains w) && wp.saved == 0 &&
    (match c.gate with
      | .open => true
      | .pending _ => true
      | _ => false) &&
    s.waits.all fun e => e.2.w != w || e.2.kind != .matrix || match e.2.ins with
      | .mma .. => false
      | _ => true

/-- A warp with candidate lanes: its number, itself, the words at its PCs, and its candidates. -/
structure Ready where
  w : Nat
  wp : Warp
  ws : List (Dword × Fetched)
  m : Mask
deriving Repr

/-- The warps of a quadrant with a candidate lane (R286, R287). -/
def State.withCands (s : State) (core quad : Nat) : List Ready :=
  s.warps.filterMap fun e =>
    let wp := e.2
    if wp.core = core ∧ wp.quad = quad then
      match s.groups.find wp.gid with
      | none => none
      | some g =>
        if s.issues e.1 wp g then
          let ws := s.words wp g.world
          let m := s.candidates wp ws
          if m = 0 then none else some ⟨e.1, wp, ws, m⟩
        else none
    else none

/-- Of two ready warps, the one that has waited longer, then that of the lower place (R286). -/
def older (a b : Ready) : Ready :=
  if a.wp.lastIssue < b.wp.lastIssue ∨ a.wp.lastIssue = b.wp.lastIssue ∧ a.wp.place ≤ b.wp.place then a else b

/-! ### PC groups and conflicts (R288 to R291) -/

/-- The lowest PC among lanes of a set. -/
def Warp.lowPc (w : Warp) (m : Mask) : Option Dword :=
  (maskLanes m).foldl (fun b l =>
    match b with
    | none => some (w.lane l).pc
    | some p => if (w.lane l).pc < p then some (w.lane l).pc else some p) none

/-- The lanes of a set at a PC. -/
def Warp.atPc (w : Warp) (m : Mask) (pc : Dword) : Mask := m &&& maskOf fun l => (w.lane l).pc == pc

/-- The lanes of a set whose starvation count is 64 (R289). -/
def Warp.starved (w : Warp) (m : Mask) : Mask := m &&& maskOf fun l => (w.lane l).starve == 64

/-- The PC of the primary port (R289). -/
def Warp.primary (w : Warp) (m : Mask) : Option Dword :=
  match w.lowPc (w.starved m) with
  | some p => some p
  | none =>
    match w.deferred with
    | some p => if w.atPc m p != 0 then some p else w.lowPc m
    | none => w.lowPc m

/-- The lane registers of a list of operands. -/
def laneRegs (us : List Use) : List Nat := (us.filter fun u => decide (u.reg < 256)).flatMap fun u => upTo u.reg u.n

/-- Every lane of the set keeps register n in the reuse cache (R38). -/
def keptIn (w : Warp) (m : Mask) (f : Lane → List Nat) (n : Nat) : Bool :=
  (maskLanes m).all fun l => (f (w.lane l)).contains n

/-- The lane registers that an instruction reads from the register file: those of operands A and B that the reuse cache does not
keep, and the others (R38, R291). -/
def bankReads (w : Warp) (m : Mask) (i : Instr) : List Nat :=
  ((laneRegs (readsA i)).filter fun n => !keptIn w m (fun ln => ln.ra) n) ++
    ((laneRegs (readsB i)).filter fun n => !keptIn w m (fun ln => ln.rb) n) ++ laneRegs (readsC i)

/-- Some bank has to supply more than two reads (R291). -/
def overBank (rs : List Nat) : Bool := [0, 1, 2, 3].any fun b => decide (2 < (rs.filter fun r => r % 4 == b).length)

/-- An instruction writes a uniform register (R290). -/
def writesK (i : Instr) : Bool := (writesOf i).any fun u => decide (512 ≤ u.reg)

/-- Two instructions of one opportunity need one port: an engine port, or the lanes of the whole quadrant, which one of them
holds (R117, R290). -/
def samePort (a b : Instr) : Bool :=
  portOf a == portOf b && portOf a != 0 && (decide (portOf a ≤ 5) || decide (1 < holdOf a) || decide (1 < holdOf b))

/-- Two instructions of one opportunity conflict (R290, R291). -/
def conflict (w : Warp) (ma mb : Mask) (a b : Instr) : Bool :=
  samePort a b || (writesK a && writesK b) ||
    overBank (bankReads w ma a ++ bankReads w mb b) || overBank (bankReads w ma a) || overBank (bankReads w mb b)

/-- The word at a PC that a ready warp found. -/
def Ready.word (r : Ready) (pc : Dword) : Fetched := ((r.ws.find? fun e => e.1 == pc).map fun e => e.2).getD .illegal

/-- Two words conflict; a word that is no instruction needs nothing. -/
def Ready.clash (r : Ready) (pa pb : Dword) : Bool :=
  match r.word pa, r.word pb with
  | .ins a, .ins b => conflict r.wp (r.wp.atPc r.m pa) (r.wp.atPc r.m pb) a b
  | _, _ => false

/-- The port that the word at a PC needs is free (R117). -/
def State.portOpen (s : State) (r : Ready) (pc : Dword) : Bool :=
  match r.word pc with
  | .ins i => (s.core r.wp.core).portFree r.wp.quad i
  | _ => true

/-- A port hold keeps the warp back: that of the group which takes its primary port (R117, R286, R289; log 95). -/
def State.portHeld (s : State) (r : Ready) : Bool :=
  match r.wp.primary r.m with
  | some p => !s.portOpen r p
  | none => true

/-- The warp that a quadrant selects: port holds, GAP and GIVE hold warps back (R36, R37, R117, R286). -/
def State.selectWarp (s : State) (core quad : Nat) : Option Ready :=
  let clk := (s.core core).clk
  let cs := s.withCands core quad
  let ok := cs.filter fun r =>
    !s.portHeld r && decide (r.wp.gapUntil ≤ clk) && (r.wp.give != clk || cs.all fun o => o.w == r.w)
  match ok with
  | [] => none
  | r :: rest => some (rest.foldl older r)

/-- The PCs that issue at an opportunity, primary first, and the PC of a deferred group (R289, R290); the group that takes the
secondary port issues where its port is not held (R117; log 95). -/
def State.plan (s : State) (r : Ready) : List Dword × Option Dword :=
  match r.wp.primary r.m with
  | none => ([], none)
  | some p =>
    match r.wp.lowPc (r.m &&& ~~~(r.wp.atPc r.m p)) with
    | none => ([p], none)
    | some q => if r.clash p q then ([p], some q) else if s.portOpen r q then ([p, q], none) else ([p], none)

/-! ### What an opportunity does (R35 to R38, R289, R295) -/

/-- The effective execution mask of the group at a PC, and the hints of its word (R34, R35). -/
def State.hintsAt (s : State) (r : Ready) (pc : Dword) : Option (Ctl × Mask) :=
  match r.word pc with
  | .ins i =>
    (match ctlOf i with
      | none => none
      | some c =>
        let act := r.wp.atPc r.m pc
        (({ s with cur := some ⟨r.w, act, pc, none, none, false, s.freeCtr, false⟩ } : State).iss c).map fun x => (c, x.m))
  | _ => none

/-- The registers of an operand position in the reuse cache after an instruction that reads rs there: they stay only where the
instruction asks for it (R38). -/
def reuse (kept rs : List Nat) (ask : Bool) : List Nat := (kept.filter fun k => !rs.contains k) ++ if ask then rs else []

/-- The hints of an issuing group act in the lanes of M: they are barred, and the reuse cache keeps what the instruction asks for
(R35, R38, R288, R292). -/
def Warp.hinted (w : Warp) (clk : Nat) (i : Instr) (c : Ctl) (m : Mask) : Warp :=
  w.onLanes m fun _ ln =>
    { ln with
      ra := reuse ln.ra (laneRegs (readsA i)) c.ra, rb := reuse ln.rb (laneRegs (readsB i)) c.rb
      barUntil := clk + 1 + c.stall.toNat }

/-- The accounts of one issuing group: hints, GAP, GIVE, the single instruction that needs a bank too often, and its port's
hold (R36, R37, R117, R291). -/
def State.account (s : State) (r : Ready) (pc : Dword) : State :=
  match r.word pc, s.hintsAt r pc with
  | .ins i, some (c, m) =>
    let clk := (s.core r.wp.core).clk
    let act := r.wp.atPc r.m pc
    let extra := if overBank (bankReads r.wp act i) then 2 else 1
    let s := s.onWarp r.w fun w =>
      let w := w.hinted clk i c m
      { w with
        gapUntil := max w.gapUntil (clk + max extra (1 + c.gap.toNat))
        give := if c.give then clk + 1 else w.give }
    if portOf i = 0 ∨ holdOf i ≤ 1 then s
    else s.onCore r.wp.core fun k => { k with ports := k.ports.put (portKey r.wp.quad (portOf i)) (clk + holdOf i) }
  | _, _ => s

/-- The counts of an opportunity: starvation, the last issue, the deferred group, the yield counter (R289, R290, R295). -/
def Warp.counted (w : Warp) (clk : Nat) (m : Mask) (pcs : List Dword) (defer : Option Dword) : Warp :=
  { w with
    lanes := mapFrom (fun l ln =>
      if !inMask m l then ln
      else if pcs.contains ln.pc then { ln with starve := 0 }
      else { ln with starve := min 64 (ln.starve + 1) }) 0 w.lanes
    lastIssue := clk
    deferred := defer
    yield := w.yield - 1 }

/-- The issuing group at a PC of the opportunity, whose free values begin at draw. -/
def Ready.cur (r : Ready) (draw : Nat) (pc : Dword) : Cur := ⟨r.w, r.wp.atPc r.m pc, pc, none, none, r.wp.yield == 0, draw, false⟩

/-- A quadrant's turn ends: the next quadrant's follows, and after the fourth a cycle has passed (R286). -/
def State.endTurn (s : State) (core : Nat) : State :=
  s.onCore core fun c =>
    if c.quad = 3 then { c with quad := 0, clk := c.clk + 1, cycles := c.cycles + 1 } else { c with quad := c.quad + 1 }

/-- Prepares an opportunity: its accounts, and the groups that issue (R288, R289). -/
def State.opportunity (s : State) (core : Nat) (r : Ready) : State :=
  let (pcs, defer) := s.plan r
  let cur := r.cur s.freeCtr
  let s := pcs.foldl (fun s pc => s.account r pc) s
  let s := s.onWarp r.w fun w => w.counted (s.core core).clk r.m pcs defer
  let s := s.onCore core fun c => { c with issues := c.issues + 1 }
  { s with cur := (pcs.head?).map cur, second := (pcs[1]?).map cur }

/-- The fault of a word that is no instruction, or that cannot be fetched (R54, R349). -/
def State.badWord (s : State) (cls lvl addr : Nat) : State :=
  match s.iss Ctl.plain with
  | none => s
  | some x => s.raise x { x.flt cls x.m addr 0 with lvl := lvl } 0

/-- The world of a warp. -/
def State.worldOf (s : State) (w : Nat) : Nat :=
  (((s.warps.find w).bind fun wp => s.groups.find wp.gid).map fun g => g.world).getD 0

/-- The word of the issuing group, with the free values that the opportunity fetched it with. -/
def State.fetchCur (s : State) (u : Cur) : Fetched × State :=
  let (f, t) := ({ s with freeCtr := u.draw } : State).fetch (s.warpCore u.w) (s.worldOf u.w) u.pc.toNat
  (f, { t with freeCtr := max s.freeCtr t.freeCtr + 1 })

/-- Between s and t, warp w took a fault before its instruction retired, of a class of higher priority than WATCHDOG: its group
holds it, or iterations have ended by it (R205, R277). -/
def faultedAbove (s t : State) (w : Nat) : Bool :=
  let pends (s : State) : Option Pend := ((s.warps.find w).bind fun wp => s.groups.find wp.gid).bind fun g => g.pend
  (match pends t with
    | some p => pends s != some p && p.w == w && decide (p.f.cls < 14)
    | none => false) ||
    (t.evq.drop s.evq.length).any fun e => e.kind == 1 && decide (e.cls < 14)

/-- An instruction that issues with the yield counter at zero takes no effect: it raises WATCHDOG, or the fault of higher
priority that it meets (R205, R295). -/
def State.runLate (s : State) (u : Cur) (i : Instr) : Host.Outcome State Fault Refusal :=
  match exec i s with
  | .next t => if faultedAbove s t u.w then .next t else exec .watchdog s
  | _ => exec .watchdog s

/-- Runs the issuing group: the word at its PC, or the fault of a word that is none; WATCHDOG where its yield counter stood at
zero (R54, R205, R295, R349). -/
def State.runCur (s : State) (u : Cur) : Host.Outcome State Fault Refusal :=
  match s.fetchCur u with
  | (.ins i, s) => if u.late then s.runLate u i else exec i s
  | (.illegal, s) => .next (s.badWord 1 0 0)
  | (.bad cls lvl, s) => .next (s.badWord cls lvl u.pc.toNat)
  | (.held, s) => .next s

/-- After an instruction: no group issues. -/
def State.clearCur (s : State) : State := { s with cur := none }

end Sys2Proof.Machine
end

