-- ==== Sys2Proof/Machine/Auto.lean ====
section
/-!
DEFINITION. The order in which the model takes what the manual leaves to the machine, when nothing on the agenda chooses
(log 3): self-test, then the events that the state has ready, then the cores' quadrants in turn, then time.
-/

namespace Sys2Proof.Machine

/-- A move that may change the state. -/
abbrev Try := State → Host.Outcome State Fault Refusal

/-- The keys of a table. -/
def keysOf {α : Type} (t : Tbl α) : List Nat := t.map fun e => e.1

/-- The self-test of a powered device trains its links and ends (R372, R409). -/
def tryPower (s : State) : List Try :=
  if s.power = .selfTest then
    ((upTo 0 17).map fun n => execLinkTrainingSuccess n) ++ [execSelfTestEnd [] []]
  else []

/-- Events of the accesses in flight. -/
def tryTxns (s : State) : List Try :=
  s.txns.flatMap fun e =>
    let x := e.1
    [execErrorReply x, execStoreAcknowledged x, execPeerAcknowledgement x] ++
      (upTo 0 e.2.units.length).flatMap fun u =>
        [execLoadDataReturn x u, execWriteUnitPerformed x u, execAtomicElementApplied x u, execLogAppend x u]

/-- A pre-emption request is pending for the group of a warp. -/
def State.preempted (s : State) (w : Nat) : Bool :=
  match s.warps.find w with
  | none => false
  | some wp => ((s.groups.find wp.gid).map fun g => g.preempt).getD false

/-- Events that end waits; a waita sleeps until a named cause releases it (log 3). -/
def tryWaits (s : State) : List Try :=
  s.waits.flatMap fun e =>
    let q := e.1
    match e.2.kind with
    | .drain => [execStoreCountDrained q]
    | .flag => [execStoreCountDrained q]
    | .copySlot => [execStoreCountDrained q]
    | .ending => execStoreCountDrained q :: (maskLanes e.2.lanes).map fun l => execAwaitHelp q l
    | .fe => [execFeLoadComplete q, execFeTimeout q]
    | .sleep => (if e.2.sat || s.preempted e.2.w then [execWaitaRelease q] else []) ++
        [execWaitaFullReturn q, execWaitaTimeout q]
    | .tcwait => [execTcwaitReturn q]
    | .tqpush => [execTqPushTakesEffect q]
    | .tqpop => [execTqPopTakesEffect q]
    | .counter => [execCntwaitSatisfied q]
    | .bar => [execBarComplete q]
    | .await => (maskLanes e.2.lanes).flatMap fun l => [execAwaitReturn q l, execAwaitHelp q l]
    | .ralloc => [execRallocGrant q]
    | .vput => [execVputTakesEffect q]
    | .vget => [execVgetTakesEffect q]
    | .tfetch => [execTfetchEntryGranted q, execTfetchTimeout q]
    | .boost => [execBoostDecision q]
    | .matrix => []
    | .access => []

/-- Events of cores: copies, the matrix port, rests and gates. -/
def tryCores (s : State) : List Try :=
  s.cores.flatMap fun e =>
    let c := e.2
    (c.copies.flatMap fun y => [execCopyComplete y.id, execCopyErrorStop y.id]) ++
      (if c.matq.isEmpty then [] else [execMatrixPortComplete e.1]) ++
      (match c.rest with
        | .resting 0 _ => [execRestEnd e.1]
        | _ => []) ++
      (match c.gate with
        | .open => []
        | .pending _ => [execGateApply (e.1 / 2)]
        | .gated _ _ => [execGateWake (e.1 / 2)]
        | .waking _ _ => [execWakeComplete (e.1 / 2)]) ++
      (if c.drain then [execSpareCallUp (e.1 / 2)] else [])

/-- Events of warps: results of variable latency, and dynamic blocks (R117, R299). -/
def tryWarps (s : State) : List Try :=
  s.warps.flatMap fun e => [execVariableLatencyResult e.1, execBlockRelease e.1, execBlockRestore e.1]

/-- Events of launches and groups. -/
def tryGroups (s : State) : List Try :=
  (keysOf s.launches).flatMap (fun l => [execLaunchStart l, execGroupPlacement l, execLaunchCompletion l]) ++
    (keysOf s.groups).flatMap (fun g =>
      [execGroupStop g, execGroupSave g, execDeferredSave g, execRestoreComplete g, execGroupResume g,
        execPreEmptionRequest g, execGrantExpiry g]) ++
    ((keysOf s.cores).flatMap fun n => (keysOf s.launches).map fun l => execAskForWork n l) ++
    [0, 1, 2, 3].map fun d => execHalyardServe d

/-- Events of rings, queue entries, commands and contexts. -/
def tryHost (s : State) : List Try :=
  (s.evq.map fun e => execEventPost e.src e.ring) ++
    (keysOf s.entries).flatMap (fun e =>
      [execCopyEntry e, execCopyEntryComplete e, execCounterSignalEntry e, execCounterWaitEntry e]) ++
    [execCommandTake] ++
    (keysOf s.cmds).flatMap (fun k =>
      [execPartition k, execPshare k, execBwshare k, execLifeset k, execCaldsize k, execConfigure k, execLock k, execStart k,
        execSuspend k, execResume k, execStop k, execKey k, execResumeSlot k, execDiscardSlot k, execTlbinv k, execPairs k,
        execSregion k, execScrub k, execPeermap k, execWarmreset k, execLinkretrain k, execPeerreset k, execWearlog k,
        execTransport k, execCommandComplete k]) ++
    (keysOf s.ctxs).map fun fn => execEndOfClearingSequence fn

/-- Events of links and dies; everything succeeds. -/
def tryLinks (s : State) : List Try :=
  (upTo 0 8).map execPeerSessionEnd ++
  (s.links.flatMap fun e =>
    match e.2 with
    | .retraining => [execRetrainSuccess e.1]
    | .quiescing => [execQuiesceComplete e.1]
    | .resetting => [execLinkTrainingSuccess e.1]
    | _ => []) ++
    s.warm.flatMap fun e =>
      [execWarmResetQuiesce e.1, execWarmResetWriteBack e.1, execWarmResetErrorReplies e.1, execWarmResetDieReset e.1,
        execWarmResetSelfTest e.1 [] [], execWarmResetTraining e.1, execReAdmission e.1]

/-- A fetch or an eviction cannot run to its end: a page of the tile answers with an error, or the host link is down. The model
takes no failure of the backing store by itself (log 3). -/
def State.tileLost (s : State) (g : Region) (n : Nat) : Bool := (s.frameErr g n).isSome || !(s.hostUp || s.hostWaits)

/-- Events of Sinter tiles, and scrubbing where an access waits for it. -/
def tryTiles (s : State) : List Try :=
  (((upTo 0 s.regions.length).zip s.regions).flatMap fun e =>
    ((upTo 0 e.2.tiles.length).zip e.2.tiles).flatMap fun t =>
      let lost := s.tileLost e.2 t.1
      match t.2.st with
      | .arriving => [if lost then execTileFetchFailure e.1 t.1 else execTileFetchComplete e.1 t.1]
      | .leaving => [if lost then execTileEvictionFailure e.1 t.1 else execTileEvictionComplete e.1 t.1]
      | _ => []) ++
    (if s.unscrubbed.isEmpty then []
      else s.txns.flatMap fun e => e.2.units.map fun a => execFirstTouchScrub (granOf a.pa))

/-- Every event that may be ready, in the model's order. -/
def State.tries (s : State) : List Try :=
  tryPower s ++ tryTxns s ++ tryWaits s ++ tryCores s ++ tryWarps s ++ tryHost s ++ tryTiles s ++ tryLinks s ++ tryGroups s ++
    [execNvmRecordWrite]

/-- The first move that changes more than the free values' counter. -/
def firstMove (s : State) : List Try → Option State
  | [] => none
  | f :: fs =>
    match f s with
    | .next t => if ({ t with freeCtr := s.freeCtr } : State) = s then firstMove s fs else some t
    | _ => firstMove s fs

/-- Some warp of the core could issue in this cycle or a later one, or its gate's wake counts its cycles. -/
def State.busyCore (s : State) (n : Nat) : Bool :=
  (match (s.core n).gate with
    | .waking _ _ => true
    | _ => false) || s.warps.any fun e => e.2.core == n && !e.2.stopped && !e.2.over

/-- The busy core whose turn it is. -/
def State.nextCore (s : State) : Option Nat :=
  match (keysOf s.cores).filter s.busyCore with
  | [] => none
  | ns => some (ns.getD (s.turn % ns.length) 0)

end Sys2Proof.Machine
end

