-- ==== Sys2Proof/Machine/Step.lean ====
section
/-!
DEFINITION. One step of the machine, and the placement of one instruction where the next step fetches it.
-/

namespace Sys2Proof.Machine

/-- Pending gate requests apply at the first moment their core is quiet (R414). -/
def State.gatesDue (s : State) : State :=
  { s with cores := s.cores.mapV fun n c =>
      match c.gate with
      | .pending g => if s.quiet n then { c with gate := .gated g 0 } else c
      | _ => c }

/-- What follows every step: no group issues, every waita that must return does (R185), what pinned operands now hold joins the values
that an mma may read (R341), a host access performs its next part (R382), departures whose words are written go on (R235), the
warps of groups with a pending pre-emption request stop where they stand (R296), waits on queues, FIFOs, granules, blocks and copy
tags take effect where they can now (R180, R192, R241, R299, R302), and gate requests apply on quiet cores (R414); a step uses up
its free values (log 4). -/
def State.settled (s : State) : State :=
  let s := s.clearCur.wakeDue.seePins.mbGo.departGo
  let s := (s.groups.filter fun e => e.2.preempt).foldl (fun s e => s.markStops e.1) s
  (s.serveWaits s.waits.length (keysOf s.waits)).gatesDue.used

/-- What follows an instruction: the quadrant's turn ends unless its second port is to issue, and the state settles. -/
def State.afterIssue (s : State) (core : Nat) : State :=
  if s.second.isSome then s.settled else (s.endTurn core).settled

/-- f of the next state of an outcome. -/
def onNext (o : Host.Outcome State Fault Refusal) (f : State → State) : Host.Outcome State Fault Refusal :=
  match o with
  | .next t => .next (f t)
  | .fault e => .fault e
  | .refused r => .refused r

/-- Runs the group that issues on core n. -/
def State.issueCur (s : State) (n : Nat) (u : Cur) : Host.Outcome State Fault Refusal :=
  onNext (({ s with cur := some u } : State).runCur u) fun t => t.afterIssue n

/-- One quadrant of core n has its turn (R286 to R290). -/
def State.issueStep (s : State) (n : Nat) : Host.Outcome State Fault Refusal :=
  if s.power = .off then .next s
  else
    match s.selectWarp n (s.core n).quad with
    | none => .next (s.endTurn n).settled
    | some r =>
      let s := s.opportunity n r
      match s.cur with
      | none => .next (s.endTurn n).settled
      | some u => s.issueCur n u

/-- The step that the model takes by itself: an event that is ready, a busy core's quadrant, or a millisecond (log 3). -/
def State.autoStep (s : State) : Host.Outcome State Fault Refusal :=
  match firstMove s s.tries with
  | some t => .next t.settled
  | none =>
    match s.nextCore with
    | some n => if s.turn % 65536 = 65535 then onNext (execTick [] { s with turn := s.turn + 1 }) State.settled
        else State.issueStep { s with turn := s.turn + 1 } n
    | none => onNext (execTick [] s) State.settled

/-- One step: the group on the second port of an opportunity, then the next move of the agenda, then the model's own. -/
def step (s : State) : Host.Outcome State Fault Refusal :=
  match s.second with
  | some u => State.issueCur { s with second := none } (s.warpCore u.w) u
  | none =>
    match s.agenda with
    | .ev i :: rest => onNext (exec i { s with agenda := rest }) State.settled
    | .issue n :: rest => State.issueStep { s with agenda := rest } n
    | [] => s.autoStep

/-! ### Placing an instruction -/

/-- Virtual address at which withFetchWord places its word. -/
def placeVa : Nat := 64

/-- The world, the key and the translation root that withFetchWord sets up: a table page per level, then the code page. -/
def placeRoot : Nat := 4096

/-- The table entries that map virtual page 0 to the code page, for reading, writing, atomics and execution (R346). -/
def placeMem : Memory :=
  let m := memSets [] 4096 (leBytes 8 (8192 + 1))
  let m := memSets m 8192 (leBytes 8 (12288 + 1))
  let m := memSets m 12288 (leBytes 8 (16384 + 1))
  let m := memSets m 16384 (leBytes 8 (20480 + 1))
  memSets m 20480 (leBytes 8 (24576 + 2111))

/-- The launch record of the launch that withFetchWord sets up: one warp of one group, privileged nowhere. -/
def placeRec : LRec where
  kbase := placeVa
  entry := placeVa
  trapoff := 0
  groupw := 1
  regs := 128
  prio := 0
  rf := 16
  sp := 16
  acc := 16
  arm := 0
  strict := false
  ng := (1, 1, 1)
  yield := 64
  rect := (0, 0, 1, 1)
  tqs := List.replicate 32 4
  sigaddr := 0
  sigval := 0
  dstatus := 0
  slots := List.replicate 8 (List.replicate 16 0)

/-- The launch that withFetchWord sets up. -/
def placeLaunch : Launch where
  world := 0
  entry := none
  copy := []
  recAddr := 0
  prio := 0
  rc := placeRec
  st := .dispatching
  next := 1
  retired := 0
  ended := 0
  claimed := [0]
  barred := []
  order := 0
  claim := none

/-- The context that withFetchWord sets up: world 0, RUNNING. -/
def placeCtx : Ctx := { Ctx.blank with st := .running, root := placeRoot, ccount := 4, allot := 1 }

/-- The group and the warp that withFetchWord sets up on core 0: identities 0 (launch), 1 (group) and 2 (warp). -/
def placeGroup : Group := { Group.start 0 placeLaunch 0 with num := 0, warps := [2] }

/-- The warp of the group, all lanes at the placed word. -/
def placeWarp : Warp :=
  { Warp.start 1 false ⟨0, 0, 0⟩ (List.replicate 32 (Lane.start (BitVec.ofNat 64 placeVa))) 512 with
    core := 0, tier := 0, place := 0, quad := 0 }

/-- s with an instruction stored where step fetches next: at the PC of the one warp of a resident group, whose quadrant
issues in the next step (log 12). -/
def State.withFetchWord (s : State) (nbits w : Nat) : State :=
  { s with
    agenda := [.issue 0]
    second := none
    cur := none
    nextId := 3
    power := .on
    mem := memSets placeMem (24576 + placeVa) (leBytes 12 (w % 2 ^ nbits))
    secKey := []
    unscrubbed := []
    tcache := []
    warm := []
    dead := []
    cores := [(0, Core.fresh)]
    keys := [(0, ⟨.valid, 1⟩)]
    ctxs := [(0, placeCtx)]
    launches := [(0, placeLaunch)]
    groups := [(1, placeGroup)]
    warps := [(2, placeWarp)]
    waits := []
    txns := [] }

end Sys2Proof.Machine
end

