-- ==== Sys2Proof/Safety.lean ====
section
/-!
DEFINITION. What a safe run is: steps that answer a next state, and the forms of the state that every step keeps.
-/

namespace Sys2Proof.Machine

/-- The state after n steps, where each of them answers a next state. -/
def State.after : Nat → State → Option State
  | 0, s => some s
  | n + 1, s =>
    match step s with
    | .next t => State.after n t
    | _ => none

/-- No step of the run stops by a fault or a refusal. -/
def State.SafeRun (s : State) : Prop := ∀ n, (s.after n).isSome = true

/-- Both memories are in their canonical form: rising addresses, no listed zero. -/
def State.memOk (s : State) : Prop := memWf s.mem = true ∧ memWf s.hostMem = true

/-- No instruction is issuing between two steps. -/
def State.atRest (s : State) : Prop := s.cur = none

/-- The next move of the agenda, if any, is a word of R80 to R86 that nothing issues: the one use of the agenda that stops. -/
def State.strayWord (s : State) : Bool :=
  match s.second, s.agenda with
  | none, .ev i :: _ => (ctlOf i).isSome
  | _, _ => false

/-! ### What an instruction of a warp leaves unchanged

The statements name registers by the numbers of Use: lane register i is i, guard n is 256 + n and uniform register i is
512 + i. Two numbers are added here: 1,024 + q is accumulator ka q, and 2,048 is the random state of a lane. -/

/-- Kulisch accumulator q. -/
def useAcc (q : BitVec 2) : List Use := [⟨1024 + q.toNat, 1⟩]

/-- The random state. -/
def useRng : List Use := [⟨2048, 1⟩]

/-- Register r is one of us. -/
def covers (us : List Use) (r : Nat) : Prop := ∃ u ∈ us, u.reg ≤ r ∧ r < u.reg + u.n

/-- A lane before and after an instruction that may write us: every other lane register, guard and field is as before; the
pc is said elsewhere, and the meeting register is kept or released (R294). -/
structure Lane.Kept (old new : Lane) (us : List Use) : Prop where
  rest : new =
    { old with v := new.v, g := new.g, haz := new.haz, pc := new.pc, mr := new.mr, rng := new.rng }
  regs : ∀ i, ¬covers us i → new.v.getD i 0 = old.v.getD i 0
  guards : ∀ n, n < 7 → ¬covers us (256 + n) → new.g.getLsbD n = old.g.getLsbD n
  random : ¬covers us 2048 → new.rng = old.rng
  meeting : new.mr = old.mr ∨ new.mr = 0

/-- A warp before and after an instruction that retires: the lanes of act advance by 12 (R32), and only registers us, in
the lanes of m, may change. -/
structure Warp.Kept (old new : Warp) (act m : Mask) (us : List Use) : Prop where
  size : new.lanes.length = old.lanes.length
  rest : new = { old with lanes := new.lanes, k := new.k, uhaz := new.uhaz, ka := new.ka, score := new.score }
  lanes : ∀ l, l < old.lanes.length → Lane.Kept (old.lane l) (new.lane l) (if inMask m l then us else [])
  pcs : ∀ l, l < old.lanes.length → (new.lane l).pc = if inMask act l then (old.lane l).pc + 12 else (old.lane l).pc
  uniform : ∀ i, ¬covers us (512 + i) → new.k.getD i 0 = old.k.getD i 0
  accs : ∀ q, ¬covers us (1024 + q) → new.ka.getD q 0 = old.ka.getD q 0

/-- Every byte of HBM, under every key, and every byte of host memory reads as before. -/
def SameBytes (s u : State) : Prop :=
  (∀ key a, u.hbmByte key a = s.hbmByte key a) ∧ ∀ a, memByte u.hostMem a = memByte s.hostMem a

/-- Issue x retires its instruction (R32, R34): registers us may change, in the lanes of M, and the flags fl are added to
GFLAGS; every other warp and group, every other state component and every byte of memory is as before. -/
structure Retired (s u : State) (x : Iss) (us : List Use) (fl : BitVec 3) : Prop where
  rest : u = { s with warps := u.warps, groups := u.groups }
  warp : ∃ wp, u.warps.find x.w = some wp ∧ Warp.Kept x.wp wp x.act x.m us
  warps : ∀ w, w ≠ x.w → u.warps.find w = s.warps.find w
  group : u.groups.find x.wp.gid = some { x.g with gflags := x.g.gflags ||| fl }
  groups : ∀ g, g ≠ x.wp.gid → u.groups.find g = s.groups.find g
  bytes : SameBytes s u

/-- The word i, which is well-formed, issues in state s as x: it is no second issue of a waiting instruction, M is not
empty, and the register-block and STRICT checks pass (R34, R39, R42, R87). -/
structure Runs (s : State) (i : Instr) (x : Iss) : Prop where
  formed : WellFormed i
  issue : ∃ c, ctlOf i = some c ∧ s.iss c = some x ∧ x.check i c.gi = none
  fresh : x.q = none
  lanes : x.m ≠ 0

/-- Wherever the word i runs, exec answers a next state: the instruction has retired, with us, fl and post telling what
it wrote. -/
def Completes (i : Instr) (us : List Use) (fl : State → Iss → BitVec 3) (post : State → Iss → State → Prop) : Prop :=
  ∀ s x, Runs s i x → ∃ u, exec i s = .next u ∧ Retired s u x us (fl s x) ∧ post s x u

/-- The n registers of destination d hold a value: in each lane of M its own, r l; in a uniform destination that of the
lowest lane of M (R42, R115, R122). -/
def Gets (u : State) (x : Iss) (d : Dst) (n : Nat) (r : Nat → Nat) : Prop :=
  ∃ wp, u.warps.find x.w = some wp ∧
    match d with
    | .v i => ∀ l j, l < x.wp.lanes.length → inMask x.m l = true → j < n →
        (wp.lane l).v.getD (i.toNat + j) 0 = BitVec.ofNat 32 (r l / 2 ^ (32 * j))
    | .k i => ∀ j, j < n → wp.k.getD (i.toNat + j) 0 = BitVec.ofNat 32 (r (lowLane x.m) / 2 ^ (32 * j))

/-- The lanes of M hold a guard (R34: a write to g7 is discarded). -/
def GetsGuard (u : State) (x : Iss) (g : BitVec 3) (r : Nat → Bool) : Prop :=
  ∃ wp, u.warps.find x.w = some wp ∧
    ∀ l, l < x.wp.lanes.length → inMask x.m l = true → g ≠ 7 → (wp.lane l).g.getLsbD g.toNat = r l

/-- The word i completes, writes r to its destination and sets no flag. -/
def Gives (i : Instr) (d : Dst) (n : Nat) (r : State → Iss → Nat → Nat) : Prop :=
  Completes i (useD n d) (fun _ _ => 0) fun s x u => Gets u x d n (r s x)

/-- The word i completes, writes the results r to its destination and adds their flags to GFLAGS (R108). -/
def GivesRes (i : Instr) (d : Dst) (n : Nat) (r : State → Iss → Nat → Res) : Prop :=
  Completes i (useD n d) (fun s x => x.flagsOf (r s x)) fun s x u => Gets u x d n fun l => (r s x l).val

/-- The word i completes and writes r to guard g. -/
def GivesGuard (i : Instr) (g : BitVec 3) (r : State → Iss → Nat → Bool) : Prop :=
  Completes i (useG g) (fun _ _ => 0) fun s x u => GetsGuard u x g (r s x)

/-- The operand a of type t in lane l, as a bit vector of the width of t. -/
def Iss.bv (x : Iss) (s : State) (l : Nat) (t : Ty) (a : Src) : BitVec t.bits := BitVec.ofNat t.bits (x.val s l t a)

/-- The register value of a result of type t (R89): .i types narrower than 32 bits are sign-extended, all others
zero-extended. -/
def regVal (t : Ty) (b : BitVec t.bits) : Nat :=
  if t.isI && decide (t.bits < 32) then (b.signExtend 32).toNat else b.toNat

/-- A value extended to v bits as its type says: .i types by their sign, all others by zeros (R88). -/
def widen (t : Ty) (v : Nat) {w : Nat} (b : BitVec w) : BitVec v := if t.isI then b.signExtend v else b.setWidth v

/-- a is below b in the order of type t (R88). -/
def tyLt (t : Ty) {w : Nat} (a b : BitVec w) : Bool := if t.isI then a.slt b else a.ult b

/-- a and b compare under an integer code of R70 in the order of type t. -/
def cmpBv (cc : Cmp) (t : Ty) {w : Nat} (a b : BitVec w) : Bool :=
  match cc with
  | .eq => a == b
  | .ne => a != b
  | .lt => tyLt t a b
  | .le => !tyLt t b a
  | .gt => tyLt t b a
  | .ge => !tyLt t a b
  | _ => false

/-- Guard n in lane l as the instruction reads it (R34, R39). -/
def Iss.guard (x : Iss) (s : State) (l : Nat) (n : BitVec 3) : Bool := laneGuard s x.clk l (x.wp.lane l) n

/-- Kulisch accumulator q of the warp of an issue holds a. -/
def GetsAcc (u : State) (x : Iss) (q : BitVec 2) (a : Kul) : Prop :=
  ∃ wp, u.warps.find x.w = some wp ∧ (q.toNat < x.wp.ka.length → wp.acc q = a)

/-- The lanes of M hold a random state. -/
def GetsRng (u : State) (x : Iss) (r : Nat → Rng) : Prop :=
  ∃ wp, u.warps.find x.w = some wp ∧ ∀ l, l < x.wp.lanes.length → inMask x.m l = true → (wp.lane l).rng = r l

/-! ### Correct rounding (R94 to R96) -/

/-- The number that a value stands for; 0 for those that stand for none. -/
def FV.rat : FV → ℚ
  | .fin n m e => (if n then -1 else 1) * (m : ℚ) * (2 : ℚ) ^ e
  | _ => 0

/-- The number of a pattern of format t. -/
def patRat (t : Ty) (p : Nat) : ℚ := (unpackF t p).rat

/-- A pattern of format t that stands for a finite number. -/
def isFin (t : Ty) (p : Nat) : Bool :=
  match unpackF t p with
  | .fin _ _ _ => true
  | _ => false

/-- The distance of the largest finite value from the one below it. -/
def topStep (t : Ty) : ℚ := patRat t (maxFin t) - patRat t (maxFin t - 1)

/-- The number y, rounded with unbounded exponent range, exceeds the largest finite value of format t (R95). -/
def Exceeds (t : Ty) (rm : Rm) (y : ℝ) : Prop :=
  let top : ℝ := patRat t (maxFin t)
  let step : ℝ := topStep t
  match rm with
  | .rn => top + step / 2 < |y| ∨ |y| = top + step / 2 ∧ maxFin t % 2 = 1
  | .rz => top + step ≤ |y|
  | .rd => if y < 0 then top < |y| else top + step ≤ y
  | .ru => if y < 0 then top + step ≤ |y| else top < y

/-- The finite pattern p of format t is y rounded under a mode: nearest with ties to an even last bit, towards zero,
downwards or upwards (R94, R96). -/
def Nearest (t : Ty) (rm : Rm) (y : ℝ) (p : Nat) : Prop :=
  match rm with
  | .rn => ∀ q, isFin t q = true → |(patRat t p : ℝ) - y| ≤ |(patRat t q : ℝ) - y| ∧
      (|(patRat t q : ℝ) - y| = |(patRat t p : ℝ) - y| → patRat t q ≠ patRat t p → p % 2 = 0)
  | .rz => |(patRat t p : ℝ)| ≤ |y| ∧ ∀ q, isFin t q = true → |(patRat t q : ℝ)| ≤ |y| → |patRat t q| ≤ |patRat t p|
  | .rd => (patRat t p : ℝ) ≤ y ∧ ∀ q, isFin t q = true → (patRat t q : ℝ) ≤ y → patRat t q ≤ patRat t p
  | .ru => y ≤ (patRat t p : ℝ) ∧ ∀ q, isFin t q = true → y ≤ (patRat t q : ℝ) → patRat t p ≤ patRat t q

/-- The result r is the number y, not 0, rounded once to format t: the largest finite value with SAT where the rounded
value exceeds it (R95), else the nearest pattern with no flag; the sign is that of y (R94 to R96). -/
structure RoundedTo (t : Ty) (rm : Rm) (y : ℝ) (r : Res) : Prop where
  finite : isFin t r.val = true
  width : r.val < 2 ^ fmtBits t
  sign : signOf t r.val = decide (y < 0)
  beyond : Exceeds t rm y → r = ⟨maxFin t + signPat t (decide (y < 0)), fSat⟩
  inRange : ¬Exceeds t rm y → r.fl = 0 ∧ Nearest t rm y r.val

/-! ### Orders, infinities and integers of floating values (R92, R101, R124) -/

/-- The number of a value is below that of another, with the infinities at the ends; a NaN is neither below nor above. -/
def FV.below : FV → FV → Prop
  | .nan, _ => False
  | _, .nan => False
  | .inf n, .inf m => n = true ∧ m = false
  | .inf n, .fin _ _ _ => n = true
  | .fin _ _ _, .inf m => m = false
  | a, b => a.rat < b.rat

/-- Pattern a stands for a smaller number than pattern b; -0 and +0 stand for one number (R125). -/
def valLt (t : Ty) (a b : Nat) : Prop := (unpackF t a).below (unpackF t b)

/-- Pattern a stands for a smaller number than pattern b, or is -0 where b is +0 (R124). -/
def comesBefore (t : Ty) (a b : Nat) : Prop := valLt t a b ∨ a = signPat t true ∧ b = signPat t false

/-- The infinity of a sign (R92). -/
def infOf (t : Ty) (n : Bool) : Nat := infPat t + signPat t n

/-- The integer z is the number y rounded under a mode: nearest with ties to even, towards zero, down or up (R94, R101). -/
def IntOf (rm : Rm) (y : ℚ) (z : ℤ) : Prop :=
  match rm with
  | .rn => |(z : ℚ) - y| ≤ 1 / 2 ∧ (|(z : ℚ) - y| = 1 / 2 → Even z)
  | .rz => z = if y < 0 then ⌈y⌉ else ⌊y⌋
  | .rd => z = ⌊y⌋
  | .ru => z = ⌈y⌉

/-- The least number of an integer type (R88). -/
def intLow (t : Ty) : ℤ := if t.isI then -2 ^ (t.bits - 1) else 0

/-- The greatest number of an integer type (R88). -/
def intHigh (t : Ty) : ℤ := if t.isI then 2 ^ (t.bits - 1) - 1 else 2 ^ t.bits - 1

/-- The result r is the integer z in the integer type t: beyond its range the nearest end, with SAT (R101). -/
structure IntTo (t : Ty) (z : ℤ) (r : Res) : Prop where
  below : z < intLow t → r = ⟨regVal t (BitVec.ofInt t.bits (intLow t)), fSat⟩
  above : intHigh t < z → r = ⟨regVal t (BitVec.ofInt t.bits (intHigh t)), fSat⟩
  inRange : intLow t ≤ z → z ≤ intHigh t → r = Res.of (regVal t (BitVec.ofInt t.bits z))

/-! ### NQ4 (R103 to R106) -/

/-- The codebook (R103). -/
def codebook : List ℚ :=
  [-1, -3 / 4, -9 / 16, -27 / 64, -19 / 64, -23 / 128, -11 / 128, 0, 9 / 128, 19 / 128, 15 / 64, 21 / 64, 7 / 16,
    73 / 128, 97 / 128, 1]

/-- The FP32 result v of code q under scale code c and the superblock scale of pattern sp (R105). -/
structure NqElem (q c sp : Nat) (v : Res) : Prop where
  nan : isNan .f32 sp = true → v = Res.of (genNan .f32 2)
  noSign : ∀ n, sp = infOf .f32 n → codebook.getD q 0 = 0 → v = invalid .f32 4
  inf : ∀ n, sp = infOf .f32 n → codebook.getD q 0 ≠ 0 →
    v = Res.of (infOf .f32 (n != decide (codebook.getD q 0 < 0)))
  zero : isFin .f32 sp = true → codebook.getD q 0 * patRat .f32 sp = 0 →
    v = Res.of (signPat .f32 (signOf .f32 sp != decide (codebook.getD q 0 < 0)))
  value : isFin .f32 sp = true → codebook.getD q 0 * patRat .f32 sp ≠ 0 →
    ∃ t, RoundedTo .f32 .rn ((codebook.getD q 0 * (c + 1) * patRat .f32 sp : ℚ) : ℝ) t ∧ v.fl = t.fl ∧
      (patRat .f32 t.val = 0 → v.val = t.val) ∧
      (patRat .f32 t.val ≠ 0 → RoundedTo .f32 .rn ((patRat .f32 t.val / 256 : ℚ) : ℝ) ⟨v.val, 0⟩)

/-- The result r is the code of the FP32 pattern y under the multiplier (c + 1) * 2^-8 (R101, R106): the nearest level of
the codebook, between two the one whose index is nearer to 7, and then the lower. -/
structure NqCodeOf (c y : Nat) (r : Res) : Prop where
  nan : isNan .f32 y = true → r = ⟨7, fInv⟩
  inf : ∀ n, y = infOf .f32 n → r = ⟨if n then 0 else 15, fSat⟩
  above : isFin .f32 y = true → 1 < patRat .f32 y * 256 / (c + 1) → r = ⟨15, fSat⟩
  below : isFin .f32 y = true → patRat .f32 y * 256 / (c + 1) < -1 → r = ⟨0, fSat⟩
  inRange : isFin .f32 y = true → |patRat .f32 y * 256 / (c + 1)| ≤ 1 → r.fl = 0 ∧ r.val < 16 ∧
    ∀ q, q < 16 → q ≠ r.val →
      let far := fun k : Nat => |codebook.getD k 0 - patRat .f32 y * 256 / (c + 1)|
      let off := fun k : Nat => ((k : ℤ) - 7).natAbs
      far r.val < far q ∨ far r.val = far q ∧ (off r.val < off q ∨ off r.val = off q ∧ r.val < q)

/-! ### Random numbers (R142) -/

/-- A round of the generator on the words (x0, x1, x2, x3) of a counter and (y0, y1) of a key. -/
def philoxRound (z : (Word × Word × Word × Word) × Word × Word) : (Word × Word × Word × Word) × Word × Word :=
  let p0 : BitVec 64 := 0xd2511f53 * z.1.1.setWidth 64
  let p1 : BitVec 64 := 0xcd9e8d57 * z.1.2.2.1.setWidth 64
  ((p1.extractLsb' 32 32 ^^^ z.1.2.1 ^^^ z.2.1, p1.extractLsb' 0 32, p0.extractLsb' 32 32 ^^^ z.1.2.2.2 ^^^ z.2.2,
    p0.extractLsb' 0 32), z.2.1 + 0x9e3779b9, z.2.2 + 0xbb67ae85)

/-- The word that a random state gives next: ten rounds on its counter under its key, and the word of its index. -/
def Rng.word (r : Rng) : Word :=
  let z := (philoxRound^[10] ((r.ctr.extractLsb' 0 32, r.ctr.extractLsb' 32 32, r.ctr.extractLsb' 64 32,
    r.ctr.extractLsb' 96 32), r.key.extractLsb' 0 32, r.key.extractLsb' 32 32)).1
  match r.idx with
  | 0 => z.1
  | 1 => z.2.1
  | 2 => z.2.2.1
  | _ => z.2.2.2

/-- The random state after a word is drawn (R143). -/
def Rng.behind (r : Rng) : Rng :=
  if r.idx = 3 then { r with idx := 0, ctr := r.ctr + 1 } else { r with idx := r.idx + 1 }

/-! ### Instructions that start an access or wait -/

/-- What the checks of R174 leave of a state when they pass: cached entries, L2 lines, scrubbed granules and free values of
the walks, the accessed and dirty bits of the leaves, and the acquire point of a newer publish epoch. Every byte of a scrubbed
granule outside the leaf entries reads as before under the world's key. -/
structure CheckedBytes (s u : State) (x : Iss) (rs : List LReq) : Prop where
  bytes : ∀ a, s.unscr a = false →
    (∀ r ∈ rs, ∀ h, r.tr = .loc h → a < h.leaf.addr ∨ h.leaf.addr + 8 ≤ a) →
    u.hbmByte (s.key x.g.world).key a = s.hbmByte (s.key x.g.world).key a
  host : u.hostMem = s.hostMem

/-- The instruction ins has started the access of units and retired (R158, R168, R174, R177): the access is in flight under
the next identity, its counts are raised, no register has changed, and no byte of memory but the marks of its checks. -/
structure Started (s u : State) (x : Iss) (rs : List LReq) (ins : Instr) (kind : TxKind) (units : List Acc) (owed : Nat) :
    Prop extends CheckedBytes s u x rs where
  rest : u = { s with
    warps := u.warps, txns := u.txns, nextId := u.nextId, regions := u.regions, outs := u.outs, peerSeq := u.peerSeq
    tcache := u.tcache, freeCtr := u.freeCtr, mem := u.mem, secKey := u.secKey, l2 := u.l2, unscrubbed := u.unscrubbed
    cores := u.cores }
  txn : u.txns = s.txns.put s.nextId ⟨x.w, x.wp.core, x.g.world, kind, ins, x.m, x.pc, units, [], owed, [], [], none⟩
  ident : u.nextId = s.nextId + 1
  warp : ∃ wp, u.warps.find x.w = some wp ∧
    Warp.Kept x.wp { wp with stores := x.wp.stores, loads := x.wp.loads } x.act x.m [] ∧
    wp.stores = x.wp.stores + owed ∧ wp.loads = x.wp.loads + if owed = 0 then 1 else 0
  warps : ∀ w, w ≠ x.w → u.warps.find w = s.warps.find w

/-- What becomes of a lane of issue x when its instruction begins to wait under number q: a lane of M waits, and any other
active lane advances; meeting registers are kept or released (R287, R294). -/
def Halts (x : Iss) (q l : Nat) (new : Lane) : Prop :=
  let old := x.wp.lane l
  let ln := if inMask x.m l then old.waits q x.clk
    else if inMask x.act l then { old with pc := old.pc + 12 } else old
  new = ln ∨ new = { ln with mr := 0 }

/-- The lanes of M wait in instruction ins (R287): a waiting instruction is listed, the other active lanes advance, and
nothing else changes but meeting registers that are released. -/
structure Waits (s u : State) (x : Iss) (ins : Instr) (kind : WKindW) (stat : Tbl Nat) : Prop where
  rest : u = { s with warps := u.warps, waits := u.waits, nextId := u.nextId }
  ident : u.nextId = s.nextId + 1
  wait : u.waits = s.waits.put s.nextId ⟨x.w, ins, x.m, x.pc, x.clk, kind, stat, false⟩
  warp : ∃ wp, u.warps.find x.w = some wp ∧ wp = { x.wp with lanes := wp.lanes } ∧
    wp.lanes.length = x.wp.lanes.length ∧ ∀ l, l < x.wp.lanes.length → Halts x s.nextId l (wp.lane l)
  warps : ∀ w, w ≠ x.w → u.warps.find w = s.warps.find w

/-- The word i is waiting after its issue. -/
def Blocks (i : Instr) (kind : WKindW) (stat : Tbl Nat) (when_ : State → Iss → Prop) : Prop :=
  ∀ s x, Runs s i x → when_ s x → ∃ u, exec i s = .next u ∧ Waits s u x i kind stat

/-- The lanes of M pass the checks of R174 for their addresses with the results rs, and no die that quiesces holds back a
walk of them (R378). -/
def Passes (s : State) (x : Iss) (ls : List Nat) (align : Nat) (need : Perm) (winOk : Bool) (f : Nat → Nat)
    (rs : List LReq) : Prop :=
  (x.trAll align need winOk false (ls.map fun l => (l, f l)) s).1 = rs ∧ worstOf rs = none ∧ heldOf rs = none

/-- The matrix engine has taken the instruction (R323): it stands at the end of its core's queue with the registers vals and
the addresses addrs that it read, its lanes wait, and nothing else changes. -/
structure Queued (s u : State) (x : Iss) (ins : Instr) (vals : List (List Word)) (addrs : List Nat) : Prop where
  rest : u = { s with warps := u.warps, waits := u.waits, nextId := u.nextId, cores := u.cores }
  ident : u.nextId = s.nextId + 1
  wait : u.waits = s.waits.put s.nextId ⟨x.w, ins, x.m, x.pc, x.clk, .matrix, [], false⟩
  core : u.core x.wp.core = { s.core x.wp.core with
    matq := (s.core x.wp.core).matq ++ [⟨s.nextId, x.w, vals, addrs, []⟩] }
  cores : ∀ n, n ≠ x.wp.core → u.core n = s.core n
  warp : ∃ wp, u.warps.find x.w = some wp ∧ wp = { x.wp with lanes := wp.lanes, matOut := x.wp.matOut + 1 } ∧
    wp.lanes.length = x.wp.lanes.length ∧ ∀ l, l < x.wp.lanes.length → Halts x s.nextId l (wp.lane l)
  warps : ∀ w, w ≠ x.w → u.warps.find w = s.warps.find w

/-- Where the word i runs and its own condition holds, the matrix engine takes it. -/
def Enqueues (i : Instr) (when_ : State → Iss → Prop) (vals : State → Iss → List (List Word))
    (addrs : State → Iss → List Nat) : Prop :=
  ∀ s x, Runs s i x → when_ s x → ∃ u, exec i s = .next u ∧ Queued s u x i (vals s x) (addrs s x)

/-- The warp of issue x has gone on, with registers us written in the lanes of M. -/
def WentOn (u : State) (x : Iss) (us : List Use) : Prop :=
  ∃ wp, u.warps.find x.w = some wp ∧ Warp.Kept x.wp wp x.act x.m us

/-- The waiting instruction q, which issues again as x, is done: it is listed no longer, and its lanes go on behind it, with
registers us written. The other lanes of the warp stand where they stood. -/
structure Resumed (u : State) (q : Nat) (x : Iss) (us : List Use) : Prop where
  ended : u.waits.find q = none
  warp : ∃ wp, u.warps.find x.w = some wp ∧ wp.lanes.length = x.wp.lanes.length ∧
    ∀ l, l < x.wp.lanes.length →
      (inMask x.m l = true → (x.wp.lane l).wait = some q → (wp.lane l).wait = none ∧
        (wp.lane l).pc = (x.wp.lane l).pc + 12 ∧
        ∀ i, ¬covers us i → (wp.lane l).v.getD i 0 = (x.wp.lane l).v.getD i 0) ∧
      (inMask x.m l = false → (wp.lane l).pc = (x.wp.lane l).pc ∧ (wp.lane l).v = (x.wp.lane l).v)

/-- The waiting instruction q is y, and may take effect now as issue x: its warp runs, and its core's gate is open. -/
def Wakes (s : State) (q : Nat) (y : Wait) (x : Iss) : Prop :=
  s.power ≠ .off ∧ s.waits.find q = some y ∧ s.issWait q = some x ∧ s.runs y.w = true ∧ (s.core x.wp.core).gate = .open

/-! ### Instructions that change their group, their warp or their lanes' places -/

/-- The instruction has retired, with registers us written in the lanes of M, and has made its group g' and its warp w'
(but for the lanes' advance); L1 copies may have been invalidated by an acquire point (R168); every other warp and group,
every other state component and every byte of memory is as before. -/
structure Effect (s u : State) (x : Iss) (us : List Use) (g' : Group) (w' : Warp) : Prop where
  rest : u = { s with warps := u.warps, groups := u.groups, cores := u.cores }
  warp : ∃ wp, u.warps.find x.w = some wp ∧ Warp.Kept w' wp x.act x.m us
  warps : ∀ w, w ≠ x.w → u.warps.find w = s.warps.find w
  group : u.groups.find x.wp.gid = some g'
  groups : ∀ g, g ≠ x.wp.gid → u.groups.find g = s.groups.find g
  cores : ∀ n, u.core n = { s.core n with l1 := (u.core n).l1 }
  bytes : SameBytes s u

/-- No copy of a sector of the issue's world is left in its core's L1: what an acquire point does (R168). -/
def Acquired (u : State) (x : Iss) : Prop := ∀ e ∈ (u.core x.wp.core).l1, e.1 % 2048 ≠ x.g.world

/-- Where the word i runs and its own condition holds, exec answers a next state with this effect. -/
def CompletesIf (i : Instr) (when_ : State → Iss → Prop) (us : List Use) (g' : State → Iss → Group)
    (w' : State → Iss → Warp) (post : State → Iss → State → Prop) : Prop :=
  ∀ s x, Runs s i x → when_ s x → ∃ u, exec i s = .next u ∧ Effect s u x us (g' s x) (w' s x) ∧ post s x u

/-- The instruction transfers control (R305): the lanes of M go where dest says, the other active lanes advance, registers
us are written in the lanes of M, and nothing else changes but meeting registers that are released. -/
structure Jumped (s u : State) (x : Iss) (us : List Use) (dest : Nat → Dword) : Prop where
  rest : u = { s with warps := u.warps }
  warp : ∃ wp, u.warps.find x.w = some wp ∧
    wp = { x.wp with lanes := wp.lanes, score := wp.score } ∧ wp.lanes.length = x.wp.lanes.length ∧
    ∀ l, l < x.wp.lanes.length →
      Lane.Kept (x.wp.lane l) (wp.lane l) (if inMask x.m l then us else []) ∧
      (wp.lane l).pc = if inMask x.m l then dest l
        else if inMask x.act l then (x.wp.lane l).pc + 12 else (x.wp.lane l).pc
  warps : ∀ w, w ≠ x.w → u.warps.find w = s.warps.find w

/-- The fault f stops the group of the issue (R205, R208): the group is stopping, its record waits, and neither a register
nor memory nor another group has changed. That the fault is taken will clear barrier bar or the failure of tag. -/
structure StopsWith (s u : State) (x : Iss) (f : FRec) (bar tag : Option Nat) : Prop where
  rest : u = { s with groups := u.groups }
  group : u.groups.find x.wp.gid = some
    { x.g with st := if x.g.st == .resident then .stopping else x.g.st, pend := some (s.pendOf x f bar tag) }
  groups : ∀ g, g ≠ x.wp.gid → u.groups.find g = s.groups.find g

/-- The fault f stops the group of the issue, and its being taken clears nothing else. -/
abbrev Stops (s u : State) (x : Iss) (f : FRec) : Prop := StopsWith s u x f none none

/-- No fault of the group is pending, and some lane of M runs no task: what makes a fault stop its group (R205, R277). -/
abbrev StopsGroup (x : Iss) : Prop := x.g.pend = none ∧ ∃ l ∈ maskLanes x.m, (x.wp.lane l).task = none

/-- Where the word i runs and its own condition holds, it raises a fault of class cls in the lanes of M, with ADDR and INFO,
and the fault stops the group. -/
def Faults (i : Instr) (when_ : State → Iss → Prop) (cls : Nat) (addr info : State → Iss → Nat) : Prop :=
  ∀ s x, Runs s i x → when_ s x → StopsGroup x →
    ∃ u, exec i s = .next u ∧ Stops s u x (x.flt cls x.m (addr s x) (info s x))

/-- Where the word i runs, and p fails lanes of M one of which runs no task, it raises a fault of class cls in the lanes of M
that p fails, with ADDR 0 and INFO, and the fault stops the group. -/
def FaultsIn (i : Instr) (p : Iss → Nat → Bool) (cls info : Nat) : Prop :=
  ∀ s x, Runs s i x → x.g.pend = none → (∃ l ∈ maskLanes x.m, p x l = true ∧ (x.wp.lane l).task = none) →
    ∃ u, exec i s = .next u ∧ Stops s u x (x.flt cls (x.failing (p x)) 0 info)

end Sys2Proof.Machine
end

