-- ==== Sys2Proof/Certificates/Slice0/Obligations.lean ====
section
/-!
DEFINITION. The statements about the model, for the provers. Each names the rules of the manual that it rests on; a clause
that rests on a choice of the model names its log entry.
-/

open Sys2Proof Sys2Proof.Machine

/-! ### Integer instructions -/

/-- R118, R88 to R90: addInteger, subInteger, mulInteger, mulhi, mulw, mad, neg, abs, minInteger, maxInteger and clamp
complete. Sums, differences, products, the sign instructions and the selections of the integer types, with their
frame. Each is the operation on bit vectors of the width of the type; a result of a narrow .i type is sign-extended
into its register. -/
def Obligations.IntegerArithmetic : Prop :=
  ∀ (c : Ctl) (t : Ty) (d : Dst) (a b p : Src),
    Gives (.addInteger c t d a b) d t.regs (fun s x l => regVal t (x.bv s l t a + x.bv s l t b)) ∧
    Gives (.subInteger c t d a b) d t.regs (fun s x l => regVal t (x.bv s l t a - x.bv s l t b)) ∧
    Gives (.mulInteger c t d a b) d t.regs (fun s x l => regVal t (x.bv s l t a * x.bv s l t b)) ∧
    Gives (.mulhi c t d a b) d t.regs (fun s x l => regVal t
      ((widen t (2 * t.bits) (x.bv s l t a) * widen t (2 * t.bits) (x.bv s l t b)).extractLsb' t.bits t.bits)) ∧
    Gives (.mulw c t d a b) d (t.bits / 16) (fun s x l =>
      (widen t (2 * t.bits) (x.bv s l t a) * widen t (2 * t.bits) (x.bv s l t b)).toNat) ∧
    Gives (.mad c t d a b p) d t.regs (fun s x l => regVal t (x.bv s l t a * x.bv s l t b + x.bv s l t p)) ∧
    Gives (.neg c t d a) d t.regs (fun s x l => regVal t (-x.bv s l t a)) ∧
    Gives (.abs c t d a) d t.regs (fun s x l => regVal t
      (if (x.bv s l t a).msb then -x.bv s l t a else x.bv s l t a)) ∧
    Gives (.minInteger c t d a b) d t.regs (fun s x l => regVal t
      (if tyLt t (x.bv s l t b) (x.bv s l t a) then x.bv s l t b else x.bv s l t a)) ∧
    Gives (.maxInteger c t d a b) d t.regs (fun s x l => regVal t
      (if tyLt t (x.bv s l t a) (x.bv s l t b) then x.bv s l t b else x.bv s l t a)) ∧
    Gives (.clamp c t d a b p) d t.regs (fun s x l => regVal t
      (let m := if tyLt t (x.bv s l t a) (x.bv s l t b) then x.bv s l t b else x.bv s l t a
       if tyLt t (x.bv s l t p) m then x.bv s l t p else m))

/-- R119: divInteger, rem, shl, shr and sra complete. Division and remainder, with the all-ones quotient and the
remainder a of a division by zero, and shifts by any 32-bit count; on .i types the quotient of the least number by -1
is that number, and its remainder 0. -/
def Obligations.DivisionAndShifts : Prop :=
  ∀ (c : Ctl) (t : Ty) (d : Dst) (a b : Src),
    Gives (.divInteger c t d a b) d t.regs (fun s x l => regVal t
      (if x.bv s l t b = 0 then BitVec.allOnes t.bits
       else if t.isI then (x.bv s l t a).sdiv (x.bv s l t b) else x.bv s l t a / x.bv s l t b)) ∧
    Gives (.rem c t d a b) d t.regs (fun s x l => regVal t
      (if t.isI then (x.bv s l t a).srem (x.bv s l t b) else x.bv s l t a % x.bv s l t b)) ∧
    Gives (.shl c t d a b) d t.regs (fun s x l => (x.bv s l t a <<< x.val s l .b32 b).toNat) ∧
    Gives (.shr c t d a b) d t.regs (fun s x l => (x.bv s l t a >>> x.val s l .b32 b).toNat) ∧
    Gives (.sra c t d a b) d t.regs (fun s x l => ((x.bv s l t a).sshiftRight (x.val s l .b32 b)).toNat)

/-- R118, R120: and, or, xor, andn, not, popc, clz, ctz, brev, rotl, bfx, bfi and lea complete. The bitwise
instructions, the bit counts, the bit reversal, rotation, the field instructions and lea. -/
def Obligations.BitsAndFields : Prop :=
  ∀ (c : Ctl) (t : Ty) (d : Dst) (a b p : Src) (sh : BitVec 3),
    Gives (.and c t d a b) d t.regs (fun s x l => (x.bv s l t a &&& x.bv s l t b).toNat) ∧
    Gives (.or c t d a b) d t.regs (fun s x l => (x.bv s l t a ||| x.bv s l t b).toNat) ∧
    Gives (.xor c t d a b) d t.regs (fun s x l => (x.bv s l t a ^^^ x.bv s l t b).toNat) ∧
    Gives (.andn c t d a b) d t.regs (fun s x l => (x.bv s l t a &&& ~~~x.bv s l t b).toNat) ∧
    Gives (.not c t d a) d t.regs (fun s x l => (~~~x.bv s l t a).toNat) ∧
    Gives (.popc c t d a) d 1 (fun s x l => (x.bv s l t a).cpop.toNat) ∧
    Gives (.clz c t d a) d 1 (fun s x l => (x.bv s l t a).clz.toNat) ∧
    Gives (.ctz c t d a) d 1 (fun s x l => (x.bv s l t a).ctz.toNat) ∧
    Gives (.brev c t d a) d t.regs (fun s x l => (x.bv s l t a).reverse.toNat) ∧
    Gives (.rotl c t d a b) d t.regs (fun s x l => ((x.bv s l t a).rotateLeft (x.val s l .b32 b)).toNat) ∧
    Gives (.bfx c t d a b) d t.regs (fun s x l =>
      (widen t t.bits ((widen t (t.bits + 512) (x.bv s l t a)).extractLsb' (x.val s l .b32 b % 256)
        (min (x.val s l .b32 b / 256 % 256) t.bits))).toNat) ∧
    Gives (.bfi c t d a b p) d t.regs (fun s x l =>
      (let pos := x.val s l .b32 p % 256
       let mask := (BitVec.allOnes t.bits >>> (t.bits - min (x.val s l .b32 p / 256 % 256) t.bits)) <<< pos
       (x.bv s l t b &&& ~~~mask) ||| ((x.bv s l t a <<< pos) &&& mask)).toNat) ∧
    Gives (.lea c t sh d a b) d t.regs (fun s x l =>
      (x.bv s l t a + (widen t t.bits (x.bv s l .b32 b)) <<< sh.toNat).toNat)

/-- R118, R122: setb, sel, mov and movi complete. Comparison masks, selection and moves; a uniform destination of mov
takes the value of the lowest lane. -/
def Obligations.SelectAndMove : Prop :=
  ∀ (c : Ctl) (t : Ty) (cc : Cmp) (gs : BitVec 3) (d : Dst) (a b : Src) (imm : BitVec 40),
    Gives (.setb c t cc d a b) d 1 (fun s x l =>
      if cmpBv cc t (x.bv s l t a) (x.bv s l t b) then 0xffffffff else 0) ∧
    Gives (.sel c t gs d a b) d t.regs (fun s x l => regVal t
      (if x.guard s l gs then x.bv s l t a else x.bv s l t b)) ∧
    Gives (.mov c t d a) d t.regs (fun s x l => (x.bv s l t a).toNat) ∧
    Gives (.movi c t d imm) d t.regs (fun _ _ _ =>
      if t.bits = 32 then (imm.setWidth 32).toNat
      else if t = .n64 then imm.toNat else (imm.signExtend 64).toNat)

/-- R118, R70: cmpInteger and addx complete. An integer comparison writes its guard, and a write to g7 is discarded
(R34). R121: addx adds with the carry that its guard holds, and writes the carry out to the same guard; g7 carries 1
in, and its carry out is discarded (R75). -/
def Obligations.CompareAndCarry : Prop :=
  (∀ (c : Ctl) (t : Ty) (cc : Cmp) (g : BitVec 3) (a b : Src),
    GivesGuard (.cmpInteger c t cc g a b) g fun s x l => cmpBv cc t (x.bv s l t a) (x.bv s l t b)) ∧
  (∀ (c : Ctl) (t : Ty) (gs : BitVec 3) (d : Dst) (a b : Src),
    Completes (.addx c t gs d a b) (useD t.regs d ++ useG gs) (fun _ _ => 0) fun s x u =>
      let sum := fun l => (x.bv s l t a).toNat + (x.bv s l t b).toNat + if gs = 7 ∨ x.guard s l gs then 1 else 0
      Gets u x d t.regs (fun l => sum l % 2 ^ t.bits) ∧ GetsGuard u x gs fun l => decide (2 ^ t.bits ≤ sum l))

/-! ### Floating-point instructions -/

/-- The formats of the arithmetic instructions (R123). -/
def isArith (t : Ty) : Prop := t = .f16 ∨ t = .bf16 ∨ t = .f32 ∨ t = .f64

/-- R98: an operation gives the first NaN among its operands in their order, quieted, and no flag. -/
def firstNans (t : Ty) (rm : Rm) (a b p : Nat) (n : Int) : Prop :=
  (∀ f ∈ [addF t rm, subF t rm, mulF t rm, divF t rm],
    (isNan t a = true → f a b = Res.of (quiet t a)) ∧
    (isNan t a = false → isNan t b = true → f a b = Res.of (quiet t b))) ∧
  (isNan t a = true → fmaF t rm a b p = Res.of (quiet t a)) ∧
  (isNan t a = false → isNan t b = true → fmaF t rm a b p = Res.of (quiet t b)) ∧
  (isNan t a = false → isNan t b = false → isNan t p = true → fmaF t rm a b p = Res.of (quiet t p)) ∧
  (isNan t a = true → ∀ f ∈ [rcpF t rm, sqrtF t rm, rsqrtF t rm, fun y => scaleF t rm y n], f a = Res.of (quiet t a))

/-- R96 to R98, R126: add, sub, mul and fma of infinities and zeros: the generated NaNs of causes 3 and 4 with INV, the
infinities, and the signs of zero results. -/
def specialSums (t : Ty) (rm : Rm) (a b p : Nat) (n k : Bool) : Prop :=
  let inf := infOf t
  let zero := signPat t
  addF t rm (inf n) (inf (!n)) = invalid t 3 ∧ addF t rm (inf n) (inf n) = Res.of (inf n) ∧
  (isFin t b = true → addF t rm (inf n) b = Res.of (inf n) ∧ addF t rm b (inf n) = Res.of (inf n)) ∧
  (isFin t a = true → isFin t b = true → patRat t a + patRat t b = 0 → signOf t a = signOf t b →
    addF t rm a b = Res.of (zero (signOf t a))) ∧
  (isNan t b = false → subF t rm a b = addF t rm a (b ^^^ 2 ^ (fmtBits t - 1))) ∧
  mulF t rm (inf n) (zero k) = invalid t 4 ∧ mulF t rm (zero k) (inf n) = invalid t 4 ∧
  mulF t rm (inf n) (inf k) = Res.of (inf (n != k)) ∧
  (isFin t b = true → patRat t b ≠ 0 → mulF t rm (inf n) b = Res.of (inf (n != signOf t b)) ∧
    mulF t rm b (inf n) = Res.of (inf (n != signOf t b))) ∧
  (isFin t a = true → isFin t b = true → patRat t a * patRat t b = 0 →
    mulF t rm a b = Res.of (zero (signOf t a != signOf t b))) ∧
  (isNan t p = false → fmaF t rm (inf n) (zero k) p = invalid t 4 ∧ fmaF t rm (zero k) (inf n) p = invalid t 4) ∧
  (isNan t a = false → isNan t b = false → mulF t rm a b = Res.of (inf n) →
    fmaF t rm a b (inf (!n)) = invalid t 3 ∧ fmaF t rm a b (inf n) = Res.of (inf n) ∧
    (isFin t p = true → fmaF t rm a b p = Res.of (inf n))) ∧
  (isFin t a = true → isFin t b = true → fmaF t rm a b (inf n) = Res.of (inf n)) ∧
  (isFin t a = true → isFin t b = true → isFin t p = true → patRat t a * patRat t b + patRat t p = 0 →
    fmaF t rm a b p = Res.of (zero (if (signOf t a != signOf t b) = signOf t p then signOf t p else rm == .rd)))

/-- R126, R128: div, rcp, sqrt and rsq of infinities, zeros and negative numbers, and scale, whose finite results are
rounded once. -/
def specialQuotients (t : Ty) (rm : Rm) (a b : Nat) (n k : Bool) (e : Int) : Prop :=
  let inf := infOf t
  let zero := signPat t
  divF t rm (zero n) (zero k) = invalid t 5 ∧ divF t rm (inf n) (inf k) = invalid t 5 ∧
  (isFin t b = true → divF t rm (inf n) b = Res.of (inf (n != signOf t b)) ∧
    divF t rm b (inf n) = Res.of (zero (signOf t b != n))) ∧
  (isFin t a = true → patRat t a ≠ 0 → divF t rm a (zero k) = Res.of (inf (signOf t a != k)) ∧
    divF t rm (zero k) a = Res.of (zero (k != signOf t a))) ∧
  rcpF t rm (inf n) = Res.of (zero n) ∧ rcpF t rm (zero n) = Res.of (inf n) ∧
  sqrtF t rm (zero n) = Res.of (zero n) ∧ sqrtF t rm (inf false) = Res.of (inf false) ∧
  rsqrtF t rm (zero n) = Res.of (inf n) ∧ rsqrtF t rm (inf false) = Res.of 0 ∧
  sqrtF t rm (inf true) = invalid t 5 ∧ rsqrtF t rm (inf true) = invalid t 5 ∧
  (patRat t a < 0 → sqrtF t rm a = invalid t 5 ∧ rsqrtF t rm a = invalid t 5) ∧
  scaleF t rm (zero n) e = Res.of (zero n) ∧ scaleF t rm (inf n) e = Res.of (inf n) ∧
  (patRat t a ≠ 0 → RoundedTo t rm ((patRat t a * (2 : ℚ) ^ e : ℚ) : ℝ) (scaleF t rm a e))

/-- R129: dot2 of u, v and w: the first NaN quieted and widened, the generated NaNs of causes 4 and 3, an infinity, or the
exact sum rounded once to FP32. -/
def dotTwo (t : Ty) (rm : Rm) (u v w : Nat) : Prop :=
  let e := elemTy t
  let a := elemOf t u
  let b := elemOf t v
  let nans := ∃ y ∈ [a 0, a 1, b 0, b 1], isNan e y = true
  let zeroInf := ∃ j < 2, ∃ n k, a j = infOf e n ∧ b j = signPat e k ∨ a j = signPat e k ∧ b j = infOf e n
  let sign := fun j => signOf e (a j) != signOf e (b j)
  let hasInf := fun n => (∃ j < 2, (isFin e (a j) = false ∨ isFin e (b j) = false) ∧ sign j = n) ∨ w = infOf .f32 n
  let sum := patRat e (a 0) * patRat e (b 0) + patRat e (a 1) * patRat e (b 1) + patRat .f32 w
  (∀ y, [a 0, a 1, b 0, b 1].find? (isNan e) = some y → dot2Op t rm u v w = Res.of (cvtOp .f32 e .rn y).val) ∧
  (¬nans → isNan .f32 w = true → dot2Op t rm u v w = Res.of (quiet .f32 w)) ∧
  (¬nans → isNan .f32 w = false →
    (zeroInf → dot2Op t rm u v w = invalid .f32 4) ∧
    (¬zeroInf → hasInf false → hasInf true → dot2Op t rm u v w = invalid .f32 3) ∧
    (∀ n, ¬zeroInf → hasInf n → ¬hasInf (!n) → dot2Op t rm u v w = Res.of (infOf .f32 n)) ∧
    (¬hasInf false → ¬hasInf true →
      (sum ≠ 0 → RoundedTo .f32 rm ((sum : ℚ) : ℝ) (dot2Op t rm u v w)) ∧
      (sum = 0 → dot2Op t rm u v w = Res.of (signPat .f32
        (if sign 0 = sign 1 ∧ sign 1 = signOf .f32 w then sign 0 else rm == .rd)))))

/-- R123 to R126, R93, R98, R107, R108, R128, R129: addFloat, subFloat, mulFloat, fma, divFloat, rcp, sqrt, rsq, scale and
dot2 complete. The rounded operations give, in each lane of M and for each element of a packed type, the result and the
flags of one rounding, with their frame. The results of sums, quotients and roots of finite operands stand in RoundedSums,
RoundedQuotients and RoundedRoots; here stand the NaNs, the infinities, the zeros, scale and dot2. -/
def Obligations.FloatArithmetic : Prop :=
  (∀ (t : Ty) (rm : Rm) (a b p : Nat) (n k : Bool) (e : Int), isArith t →
    a < 2 ^ fmtBits t → b < 2 ^ fmtBits t → p < 2 ^ fmtBits t →
    firstNans t rm a b p e ∧ specialSums t rm a b p n k ∧ specialQuotients t rm a b n k e) ∧
  (∀ (t : Ty) (rm : Rm) (u v w : Nat), t = .f16x2 ∨ t = .bf16x2 → w < 2 ^ 32 → dotTwo t rm u v w) ∧
  ∀ (c : Ctl) (t : Ty) (rm : Rm) (d : Dst) (a b p : Src),
    GivesRes (.addFloat c t rm d a b) d t.regs (fun s x l => perElem t fun j =>
      addF (elemTy t) rm (elemOf t (x.val s l t a) j) (elemOf t (x.val s l t b) j)) ∧
    GivesRes (.subFloat c t rm d a b) d t.regs (fun s x l => perElem t fun j =>
      subF (elemTy t) rm (elemOf t (x.val s l t a) j) (elemOf t (x.val s l t b) j)) ∧
    GivesRes (.mulFloat c t rm d a b) d t.regs (fun s x l => perElem t fun j =>
      mulF (elemTy t) rm (elemOf t (x.val s l t a) j) (elemOf t (x.val s l t b) j)) ∧
    GivesRes (.fma c t rm d a b p) d t.regs (fun s x l => perElem t fun j =>
      fmaF (elemTy t) rm (elemOf t (x.val s l t a) j) (elemOf t (x.val s l t b) j) (elemOf t (x.val s l t p) j)) ∧
    GivesRes (.divFloat c t rm d a b) d t.regs (fun s x l => divF t rm (x.val s l t a) (x.val s l t b)) ∧
    GivesRes (.rcp c t rm d a) d t.regs (fun s x l => rcpF t rm (x.val s l t a)) ∧
    GivesRes (.sqrt c t rm d a) d t.regs (fun s x l => sqrtF t rm (x.val s l t a)) ∧
    GivesRes (.rsq c t rm d a) d t.regs (fun s x l => rsqrtF t rm (x.val s l t a)) ∧
    GivesRes (.scale c t rm d a b) d t.regs (fun s x l =>
      scaleF t rm (x.val s l t a) (BitVec.ofNat 32 (x.val s l .i32 b)).toInt) ∧
    GivesRes (.dot2 c t rm d a b p) d 1 (fun s x l =>
      dot2Op t rm (x.val s l t a) (x.val s l t b) (x.val s l .f32 p))

/-- R124: min and max of a and b: the NaN rule, and the smaller or larger pattern with -0 below +0, a where they are
equal. -/
def minMaxRule (t : Ty) (nan : Bool) (a b : Nat) : Prop :=
  ∀ mx, (isNan t a = true → isNan t b = true → minMaxF t mx nan a b = quiet t a) ∧
    (isNan t a = true → isNan t b = false → minMaxF t mx nan a b = if nan then quiet t a else b) ∧
    (isNan t a = false → isNan t b = true → minMaxF t mx nan a b = if nan then quiet t b else a) ∧
    (isNan t a = false → isNan t b = false →
      let beaten := if mx then comesBefore t a b else comesBefore t b a
      (beaten → minMaxF t mx nan a b = b) ∧ (¬beaten → minMaxF t mx nan a b = a))

/-- R70, R125: the fourteen comparison codes; the codes without a u are false where an operand is a NaN, but for nan. -/
def cmpRule (t : Ty) (cc : Cmp) (a b : Nat) : Prop :=
  let un := isNan t a = true ∨ isNan t b = true
  let lt := valLt t a b
  let gt := valLt t b a
  cmpF t cc a b = true ↔ match cc with
    | .eq => ¬un ∧ ¬lt ∧ ¬gt
    | .ne => ¬un ∧ (lt ∨ gt)
    | .lt => lt
    | .le => ¬un ∧ ¬gt
    | .gt => gt
    | .ge => ¬un ∧ ¬lt
    | .num => ¬un
    | .nan => un
    | .equ => un ∨ ¬lt ∧ ¬gt
    | .neu => un ∨ lt ∨ gt
    | .ltu => un ∨ lt
    | .leu => un ∨ ¬gt
    | .gtu => un ∨ gt
    | .geu => un ∨ ¬lt

/-- R125: the class of a pattern; a number below the least normal one, 2^(1 - bias), is subnormal. -/
def classRule (t : Ty) (a : Nat) : Prop :=
  let n := signOf t a
  let small := |patRat t a| < (2 : ℚ) ^ (1 - (expBias t : ℤ))
  (isNan t a = true → classOf t a = if a.testBit (manBits t - 1) then 8 else 9) ∧
  (∀ k, a = infOf t k → classOf t a = if k then 0 else 7) ∧
  (∀ k, a = signPat t k → classOf t a = if k then 3 else 4) ∧
  (isFin t a = true → patRat t a ≠ 0 → small → classOf t a = if n then 2 else 5) ∧
  (isFin t a = true → ¬small → classOf t a = if n then 1 else 6)

/-- R128: rndi gives an integral value in the format with the sign of a; zeros and infinities give themselves, a NaN
itself quieted. cpsign gives the bits of a with the sign bit of b. -/
def rndiRule (t : Ty) (rm : Rm) (a b : Nat) : Prop :=
  (isFin t a = true → ∃ z : ℤ, IntOf rm (patRat t a) z ∧ isFin t (rndiF t rm a).val = true ∧
    patRat t (rndiF t rm a).val = z ∧ signOf t (rndiF t rm a).val = signOf t a ∧ (rndiF t rm a).val < 2 ^ fmtBits t) ∧
  (∀ n, a = infOf t n → (rndiF t rm a).val = a) ∧ (isNan t a = true → (rndiF t rm a).val = quiet t a) ∧
  cpsignF t a b < 2 ^ fmtBits t ∧ (cpsignF t a b).testBit (fmtBits t - 1) = b.testBit (fmtBits t - 1) ∧
  ∀ k, k < fmtBits t - 1 → (cpsignF t a b).testBit k = a.testBit k

/-- R70, R124, R125, R128: minFloat, maxFloat, cmpFloat, classF, rndi and cpsign complete. Min and max with their NaN rule,
the comparisons and the classes that write a guard, the rounding to an integer and the copied sign, with what each of
them computes; none of them sets a flag. -/
def Obligations.FloatSelection : Prop :=
  (∀ (t : Ty) (nan : Bool) (cc : Cmp) (rm : Rm) (a b : Nat), isArith t → a < 2 ^ fmtBits t → b < 2 ^ fmtBits t →
    minMaxRule t nan a b ∧ cmpRule t cc a b ∧ classRule t a ∧ rndiRule t rm a b) ∧
  ∀ (c : Ctl) (t : Ty) (nan : Bool) (cc : Cmp) (rm : Rm) (g : BitVec 3) (d : Dst) (a b : Src),
    GivesRes (.minFloat c t nan d a b) d t.regs (fun s x l => perElem t fun j =>
      Res.of (minMaxF (elemTy t) false nan (elemOf t (x.val s l t a) j) (elemOf t (x.val s l t b) j))) ∧
    GivesRes (.maxFloat c t nan d a b) d t.regs (fun s x l => perElem t fun j =>
      Res.of (minMaxF (elemTy t) true nan (elemOf t (x.val s l t a) j) (elemOf t (x.val s l t b) j))) ∧
    GivesGuard (.cmpFloat c t cc g a b) g (fun s x l => cmpF t cc (x.val s l t a) (x.val s l t b)) ∧
    GivesGuard (.classF c t g a b) g (fun s x l => (x.val s l .b32 b).testBit (classOf t (x.val s l t a))) ∧
    GivesRes (.rndi c t rm d a) d t.regs (fun s x l => Res.of (rndiF t rm (x.val s l t a)).val) ∧
    GivesRes (.cpsign c t d a b) d t.regs (fun s x l => perElem t fun j =>
      Res.of (cpsignF (elemTy t) (elemOf t (x.val s l t a) j) (elemOf t (x.val s l t b) j)))

/-- R126, R127: the transcendental functions complete with the result of one fixed function of the instruction, the
type and the argument, in every lane: the choice between two neighbours is Config.upper (log 14), not a number of the
model. -/
def Obligations.Transcendental : Prop :=
  ∀ (c : Ctl) (t : Ty) (d : Dst) (a : Src),
    GivesRes (.ex2 c t d a) d 1 (fun s x l => perElem t fun j => transcF 0 ex2V t (elemTy t) (elemOf t (x.val s l t a) j)) ∧
    GivesRes (.lg2 c t d a) d 1 (fun s x l => perElem t fun j => transcF 1 lg2V t (elemTy t) (elemOf t (x.val s l t a) j)) ∧
    GivesRes (.sin c t d a) d 1 (fun s x l => perElem t fun j => transcF 2 sinV t (elemTy t) (elemOf t (x.val s l t a) j)) ∧
    GivesRes (.cos c t d a) d 1 (fun s x l => perElem t fun j => transcF 3 cosV t (elemTy t) (elemOf t (x.val s l t a) j)) ∧
    GivesRes (.tanh c t d a) d 1 (fun s x l => perElem t fun j => transcF 4 tanhV t (elemTy t) (elemOf t (x.val s l t a) j))

/-- R101, R130: cvt of the pattern y of format st to format or integer type dt. A number becomes an integer by its
mode and the range of the type (an equal or wider type that cannot hold it is clamped too: log 85); an integer is rounded
once to a format; zeros keep their sign; NaNs and infinities convert as R100 and the table of R101 say (payloads: log 23). -/
def cvtRule (dt st : Ty) (rm : Rm) (y : Nat) : Prop :=
  let float := fun t => isArith t ∨ t = .e4m3 ∨ t = .e5m2
  let int := fun t => Ty.isI t = true ∨ Ty.isN t = true
  let z : ℤ := if st.isI then (BitVec.ofNat st.bits y).toInt else (BitVec.ofNat st.bits y).toNat
  (int dt → int st → IntTo dt z (cvtOp dt st rm y)) ∧
  (float dt → int st → z ≠ 0 → RoundedTo dt rm (z : ℝ) (cvtOp dt st rm y)) ∧
  (float dt → int st → z = 0 → cvtOp dt st rm y = Res.of 0) ∧
  (int dt → float st → isNan st y = true → cvtOp dt st rm y = ⟨0, fInv⟩) ∧
  (int dt → float st → st ≠ .e4m3 → ∀ n, y = infOf st n →
    cvtOp dt st rm y = ⟨regVal dt (BitVec.ofInt dt.bits (if n then intLow dt else intHigh dt)), fSat⟩) ∧
  (int dt → float st → isFin st y = true → ∃ i, IntOf rm (patRat st y) i ∧ IntTo dt i (cvtOp dt st rm y)) ∧
  (float dt → float st → ∀ n, y = signPat st n → cvtOp dt st rm y = Res.of (signPat dt n)) ∧
  (float dt → float st → st ≠ .e4m3 → ∀ n, y = infOf st n → cvtOp dt st rm y =
    if dt = .e4m3 then ⟨0x7e + signPat dt n, fSat⟩ else Res.of (infOf dt n)) ∧
  (float dt → float st → isNan st y = true → cvtOp dt st rm y = Res.of (signPat dt (signOf st y) +
    if dt = .e4m3 then 0x7f else if dt = .e5m2 then 0x7e else if st = .e4m3 ∨ st = .e5m2 then genNan dt 6
    else genNan dt 0 + y % 2 ^ min (manBits st - 1) (manBits dt - 1)))

/-- R131, R132: pack converts each element under its mode, and unpack widens each. -/
def packRule (t : Ty) (rm : Rm) (u v : Nat) : Prop :=
  let half := fun y j => elemOf .bf16x2 y j
  (t = .f16x2 ∨ t = .bf16x2 →
    let r := fun y => cvtOp (elemTy t) .f32 rm y
    packOp t rm u v = ⟨(r u).val + (r v).val * 2 ^ 16, (r u).fl ||| (r v).fl⟩ ∧
    unpackOp t u = (cvtOp .f32 (elemTy t) .rn (elemOf t u 0)).val +
      (cvtOp .f32 (elemTy t) .rn (elemOf t u 1)).val * 2 ^ 32) ∧
  (t = .e4m3 ∨ t = .e5m2 →
    let r := fun y j => cvtOp t .bf16 rm (half y j)
    packOp t rm u v = ⟨(r u 0).val + (r u 1).val * 2 ^ 8 + (r v 0).val * 2 ^ 16 + (r v 1).val * 2 ^ 24,
      (r u 0).fl ||| (r u 1).fl ||| (r v 0).fl ||| (r v 1).fl⟩ ∧
    ∀ j, j < 4 → unpackOp t u / 2 ^ (16 * j) % 2 ^ 16 = (cvtOp .bf16 t .rn (u / 2 ^ (8 * j) % 2 ^ 8)).val)

/-- R133: each byte of bsel is zero, eight copies of a sign, or a byte of the pair as it is or reversed. -/
def bselRule (a sel : Nat) : Prop :=
  bselOp a sel < 2 ^ 32 ∧ ∀ i, i < 4 →
    let y0 : BitVec 8 := (BitVec.ofNat 64 a).extractLsb' (8 * (sel / 2 ^ (3 * i) % 8)) 8
    let y := if sel.testBit (20 + i) then y0.reverse else y0
    BitVec.ofNat 8 (bselOp a sel / 2 ^ (8 * i)) =
      if sel.testBit (12 + i) then 0 else if sel.testBit (16 + i) then (if y.msb then 0xff else 0) else y

/-- R134: c is the scale code of the block of the elements ys: the smallest code whose multiplier is not less than their
largest magnitude, and 255 where none is. A NaN counts for nothing. -/
def blockRule (c : Nat) (ys : List Nat) : Prop :=
  c ≤ 255 ∧
  (c = 255 ∨ ∀ y ∈ ys, isNan .f32 y = false → isFin .f32 y = true ∧ |patRat .f32 y| * 256 ≤ c + 1) ∧
  (c = 0 ∨ ∃ y ∈ ys, isNan .f32 y = false ∧ (isFin .f32 y = true → (c : ℚ) < |patRat .f32 y| * 256))

/-- R134, R135: qnt gives the codes of two elements beside the scale code, and dqt the values of two codes. -/
def quantRule (t : Ty) (c u sp : Nat) : Prop :=
  (∃ q0 q1 : Res, NqCodeOf c (u % 2 ^ 32) q0 ∧ NqCodeOf c (u / 2 ^ 32 % 2 ^ 32) q1 ∧
    qntOp c (u % 2 ^ 64) = ⟨q0.val + q1.val * 16 + c * 256, q0.fl ||| q1.fl⟩) ∧
  (∃ v0 v1 : Res, NqElem (u % 16) (u / 256 % 256) sp v0 ∧ NqElem (u / 16 % 16) (u / 256 % 256) sp v1 ∧
    (t = .f32 → dqtOp t u sp = ⟨v0.val + v1.val * 2 ^ 32, v0.fl ||| v1.fl⟩) ∧
    (t = .f16x2 ∨ t = .bf16x2 →
      let r := fun v : Res => cvtOp (elemTy t) .f32 .rn v.val
      dqtOp t u sp = ⟨(r v0).val + (r v1).val * 2 ^ 16, v0.fl ||| v1.fl ||| (r v0).fl ||| (r v1).fl⟩))

/-- R101, R103 to R106, R130 to R135: cvt, pack, unpack, bsel, qnt and dqt complete. The conversions, the packed and narrow
formats and the byte selection, with their flags and frame, and what each of them computes; the finite conversions between
floating formats stand in RoundedConversions. -/
def Obligations.Conversions : Prop :=
  (∀ (dt st : Ty) (rm : Rm) (y : Nat), y < 2 ^ 64 →
    ((isArith st ∨ st = .e4m3 ∨ st = .e5m2) → y < 2 ^ fmtBits st) → cvtRule dt st rm y) ∧
  (∀ (t : Ty) (rm : Rm) (u v c sp : Nat), u < 2 ^ 64 → c < 256 → sp < 2 ^ 32 →
    packRule t rm (u % 2 ^ 32) v ∧ bselRule u v ∧ quantRule t c u sp) ∧
  (∀ (s : State) (x : Iss) (a : Src), blockRule (x.blockCode s a)
    ((maskLanes x.m).flatMap fun l => [(x.src64 s l a).toNat % 2 ^ 32, (x.src64 s l a).toNat / 2 ^ 32])) ∧
  ∀ (c : Ctl) (t st : Ty) (rm : Rm) (d : Dst) (a b : Src),
    GivesRes (.cvt c t st rm d a) d t.regs (fun s x l => cvtOp t st rm (x.val s l st a)) ∧
    GivesRes (.pack c t rm d a b) d 1 (fun s x l => packOp t rm (x.val s l (wideTy t) a) (x.val s l (wideTy t) b)) ∧
    Gives (.unpack c t d a) d 2 (fun s x l => unpackOp t (x.val s l .b32 a)) ∧
    Gives (.bsel c d a b) d 1 (fun s x l => bselOp (x.val s l .b64 a) (x.val s l .b32 b)) ∧
    GivesRes (.qnt c t d a) d 1 (fun s x l => qntOp (x.blockCode s a) (x.src64 s l a).toNat) ∧
    GivesRes (.dqt c t d a b) d (if t = .f32 then 2 else 1) (fun s x l =>
      dqtOp t (x.val s l .b32 a) (x.val s l .f32 b))

/-! ### Cross-lane, random and accumulator instructions -/

/-- R140, R141: what a reduction of the terms vs, in the order of their lanes, gives: the value of the empty set, the
wrapped sum, the least or greatest term, the bitwise combination, the exact floating sum rounded once to nearest, and the
floating minimum and maximum that ignore NaNs. -/
def reduceRule (t : Ty) (vs : List Nat) : Prop :=
  let int := t.isI = true ∨ t.isN = true
  let bits := t = .b32 ∨ t = .b64
  let float := t = .f32 ∨ t = .f64
  let nans := ∀ v ∈ vs, isNan t v = true
  (vs = [] →
    (int → reduceOp .add t vs = Res.of 0 ∧ reduceOp .min t vs = Res.of (BitVec.ofInt t.bits (intHigh t)).toNat ∧
      reduceOp .max t vs = Res.of (BitVec.ofInt t.bits (intLow t)).toNat) ∧
    (float → reduceOp .add t vs = Res.of 0 ∧ reduceOp .min t vs = Res.of (infOf t false) ∧
      reduceOp .max t vs = Res.of (infOf t true)) ∧
    (bits → reduceOp .and t vs = Res.of (2 ^ t.bits - 1) ∧ reduceOp .or t vs = Res.of 0 ∧
      reduceOp .xor t vs = Res.of 0)) ∧
  (int → vs ≠ [] →
    reduceOp .add t vs = Res.of (vs.map fun v => BitVec.ofNat t.bits v).sum.toNat ∧
    (∃ r ∈ vs, reduceOp .min t vs = Res.of r ∧
      ∀ v ∈ vs, tyLt t (BitVec.ofNat t.bits v) (BitVec.ofNat t.bits r) = false) ∧
    ∃ r ∈ vs, reduceOp .max t vs = Res.of r ∧
      ∀ v ∈ vs, tyLt t (BitVec.ofNat t.bits r) (BitVec.ofNat t.bits v) = false) ∧
  (bits → ∀ op ∈ [Aop.and, .or, .xor], (reduceOp op t vs).fl = 0) ∧
  (bits → vs ≠ [] → ∀ k,
    ((reduceOp .and t vs).val.testBit k = true ↔ ∀ v ∈ vs, v.testBit k = true) ∧
    ((reduceOp .or t vs).val.testBit k = true ↔ ∃ v ∈ vs, v.testBit k = true) ∧
    ((reduceOp .xor t vs).val.testBit k = true ↔ (vs.countP fun v => v.testBit k) % 2 = 1)) ∧
  (float → vs ≠ [] →
    (∀ v, vs.find? (isNan t) = some v → reduceOp .add t vs = Res.of (quiet t v)) ∧
    ((∀ v ∈ vs, isNan t v = false) →
      (infOf t false ∈ vs → infOf t true ∈ vs → reduceOp .add t vs = invalid t 3) ∧
      (∀ n, infOf t n ∈ vs → infOf t (!n) ∉ vs → reduceOp .add t vs = Res.of (infOf t n)) ∧
      ((∀ v ∈ vs, isFin t v = true) →
        ((vs.map (patRat t)).sum ≠ 0 → RoundedTo t .rn (((vs.map (patRat t)).sum : ℚ) : ℝ) (reduceOp .add t vs)) ∧
        ((vs.map (patRat t)).sum = 0 → (∀ v ∈ vs, v = signPat t true) → reduceOp .add t vs = Res.of (signPat t true)) ∧
        ((vs.map (patRat t)).sum = 0 → (∃ v ∈ vs, v ≠ signPat t true) → reduceOp .add t vs = Res.of 0))) ∧
    (nans → ∀ op ∈ [Aop.min, .max], reduceOp op t vs = Res.of (quiet t (vs.headD 0))) ∧
    (¬nans →
      (∃ r ∈ vs, isNan t r = false ∧ reduceOp .min t vs = Res.of r ∧ ∀ v ∈ vs, ¬comesBefore t v r) ∧
      ∃ r ∈ vs, isNan t r = false ∧ reduceOp .max t vs = Res.of r ∧ ∀ v ∈ vs, ¬comesBefore t r v))

/-- R142, R143: what rnd draws from a random state: one word for 32 bits, two for 64, and for .f32 the number of the top
24 bits of a word over 2^24, which no rounding changes. The counter moves on behind its fourth word. -/
def drawRule (r : Rng) : Prop :=
  r.value .b32 = (r.word.toNat, r.behind) ∧
  r.value .b64 = (r.word.toNat + r.behind.word.toNat * 2 ^ 32, r.behind.behind) ∧
  (r.value .f32).2 = r.behind ∧ (r.value .f32).1 < 2 ^ 31 ∧ isFin .f32 (r.value .f32).1 = true ∧
  patRat .f32 (r.value .f32).1 = ((r.word.toNat / 256 : Nat) : ℚ) / 2 ^ 24

/-- R136 to R141: shfl, bcast, vote, matchW, scanw, redw, rnd and rndSeed complete. What each lane receives from the
lanes of M, and what a reduction gives. R142, R143: rnd draws from each lane's own random state and advances it, by the
rounds of the generator; rnd.seed sets it. -/
def Obligations.CrossLaneAndRandom : Prop :=
  (∀ (t : Ty) (vs : List Nat), (∀ v ∈ vs, v < 2 ^ t.bits) → reduceRule t vs) ∧
  (∀ r : Rng, r.idx < 4 → drawRule r) ∧
  (∀ (c : Ctl) (t : Ty) (m : ShMode) (vm : VoteMode) (op : Aop) (exc : Bool) (g : BitVec 3) (d : Dst) (a b : Src),
    Gives (.shfl c m d a b) d 1 (fun s x l =>
      let n : Int := x.val s l .b32 b
      let j : Int := match m with
        | .idx => n % 32
        | .up => l - n
        | .dn => l + n
        | .xor => ((l ^^^ (x.val s l .b32 b % 32) : Nat) : Int)
      if 0 ≤ j ∧ j ≤ 31 ∧ inMask x.m j.toNat = true then x.val s j.toNat .b32 a else x.val s l .b32 a) ∧
    Gives (.bcast c d a b) d 1 (fun s x _ =>
      let j := x.val s (lowLane x.m) .b32 b % 32
      if inMask x.m j then x.val s j .b32 a else 0) ∧
    Gives (.vote c vm d g) d 1 (fun s x _ =>
      let p : Mask := x.m &&& maskOf fun l => x.guard s l g
      match vm with
      | .all => if p = x.m then 1 else 0
      | .any => if p = 0 then 0 else 1
      | .eq => if p = x.m ∨ p = 0 then 1 else 0
      | .ballot => p.toNat) ∧
    Gives (.matchW c t d a) d 1 (fun s x l =>
      (x.m &&& maskOf fun j => decide (x.val s j t a = x.val s l t a) : Mask).toNat) ∧
    GivesRes (.scanw c op t exc d a) d t.regs (fun s x l =>
      reduceOp op t (((maskLanes x.m).filter fun j => if exc then decide (j < l) else decide (j ≤ l)).map
        fun j => x.val s j t a)) ∧
    Completes (.redw c op t d a) (useD t.regs d)
      (fun s x => (reduceOp op t ((maskLanes x.m).map fun l => x.val s l t a)).fl)
      (fun s x u => Gets u x d t.regs fun _ => (reduceOp op t ((maskLanes x.m).map fun l => x.val s l t a)).val)) ∧
  (∀ (c : Ctl) (t : Ty) (d : Dst) (a b : Src),
    Completes (.rnd c t d) (useD t.regs d ++ useRng) (fun _ _ => 0) (fun _ x u =>
      Gets u x d t.regs (fun l => ((x.wp.lane l).rng.value t).1) ∧
      GetsRng u x fun l => ((x.wp.lane l).rng.value t).2) ∧
    Completes (.rndSeed c t a b) useRng (fun _ _ => 0) (fun s x u =>
      GetsRng u x fun l => ⟨x.src64 s l a, (x.src64 s l b).setWidth 128, 0⟩))

/-- R110 to R112, R144 to R146: kzero, kadd, ksub, kdot, kround, ksave, kload and kstat complete. The accumulator
instructions. The exact sum of the finite terms is added once. -/
def Obligations.KulischInstructions : Prop :=
  ∀ (c : Ctl) (t : Ty) (rm : Rm) (q : BitVec 2) (d : Dst) (a b : Src),
    Completes (.kzero c q) (useAcc q) (fun _ _ => 0) (fun _ x u => GetsAcc u x q 0) ∧
    Completes (.kadd c t q a) (useAcc q) (fun s x => (kulAdd (x.wp.acc q) (addTerms t false a x s)).2)
      (fun s x u => GetsAcc u x q (kulAdd (x.wp.acc q) (addTerms t false a x s)).1) ∧
    Completes (.ksub c t q a) (useAcc q) (fun s x => (kulAdd (x.wp.acc q) (addTerms t true a x s)).2)
      (fun s x u => GetsAcc u x q (kulAdd (x.wp.acc q) (addTerms t true a x s)).1) ∧
    Completes (.kdot c t q a b) (useAcc q) (fun s x => (kulAdd (x.wp.acc q) (dotTerms t a b x s)).2)
      (fun s x u => GetsAcc u x q (kulAdd (x.wp.acc q) (dotTerms t a b x s)).1) ∧
    Completes (.kround c t rm d q) (useD t.regs d) (fun _ x => (kroundOp t rm (x.wp.acc q)).fl)
      (fun _ x u => Gets u x d t.regs fun _ => (kroundOp t rm (x.wp.acc q)).val) ∧
    Gives (.ksave c d q) d 18 (fun _ x _ => (x.wp.acc q).toNat) ∧
    Completes (.kload c q d) (useAcc q) (fun s x => (kloadOp (kloadPat d x s)).2)
      (fun s x u => GetsAcc u x q (kloadOp (kloadPat d x s)).1) ∧
    Gives (.kstat c d q) d 1 (fun _ x _ => kstatOp (x.wp.acc q))

/-! ### Rounding -/

/-- R94 to R96, R123: add, sub, mul and fma of finite operands are the exact result rounded once, in every mode; an
exact zero sum of operands of opposite sign is +0, and -0 under RD. -/
def Obligations.RoundedSums : Prop :=
  ∀ (t : Ty) (rm : Rm) (a b p : Nat), isArith t → isFin t a = true → isFin t b = true → isFin t p = true →
    (patRat t a + patRat t b ≠ 0 → RoundedTo t rm ((patRat t a + patRat t b : ℚ) : ℝ) (addF t rm a b)) ∧
    (patRat t a + patRat t b = 0 → signOf t a ≠ signOf t b → addF t rm a b = Res.of (signPat t (rm == .rd))) ∧
    (patRat t a - patRat t b ≠ 0 → RoundedTo t rm ((patRat t a - patRat t b : ℚ) : ℝ) (subF t rm a b)) ∧
    (patRat t a * patRat t b ≠ 0 → RoundedTo t rm ((patRat t a * patRat t b : ℚ) : ℝ) (mulF t rm a b)) ∧
    (patRat t a * patRat t b + patRat t p ≠ 0 →
      RoundedTo t rm ((patRat t a * patRat t b + patRat t p : ℚ) : ℝ) (fmaF t rm a b p))

/-- R94 to R96, R123, R126: div and rcp of finite operands are the exact quotient rounded once, in every mode. -/
def Obligations.RoundedQuotients : Prop :=
  ∀ (t : Ty) (rm : Rm) (a b : Nat), isArith t → isFin t a = true → isFin t b = true → patRat t b ≠ 0 →
    (patRat t a ≠ 0 → RoundedTo t rm ((patRat t a / patRat t b : ℚ) : ℝ) (divF t rm a b)) ∧
    RoundedTo t rm ((1 / patRat t b : ℚ) : ℝ) (rcpF t rm b)

/-- R94 to R96, R123, R126: sqrt and rsq of a positive finite operand are the exact root, and its reciprocal, rounded
once, in every mode. -/
def Obligations.RoundedRoots : Prop :=
  ∀ (t : Ty) (rm : Rm) (a : Nat), isArith t → isFin t a = true → 0 < patRat t a →
    RoundedTo t rm (Real.sqrt (patRat t a : ℝ)) (sqrtF t rm a) ∧
    RoundedTo t rm (1 / Real.sqrt (patRat t a : ℝ)) (rsqrtF t rm a)

/-- R94, R95, R101: a conversion between floating formats, the FP8 formats among them, rounds the number once. -/
def Obligations.RoundedConversions : Prop :=
  ∀ (dt st : Ty) (rm : Rm) (a : Nat), (isArith dt ∨ dt = .e4m3 ∨ dt = .e5m2) → (isArith st ∨ st = .e4m3 ∨ st = .e5m2) →
    isFin st a = true → patRat st a ≠ 0 → RoundedTo dt rm (patRat st a : ℝ) (cvtOp dt st rm a)

/-- R110 to R112, R145: the exact sum of the finite terms of an accumulating instruction is added once, in units of
2^-300, and saturates at the ends of the finite range; infinite, NaN and invalid terms set side bits, which make the
accumulator non-finite. kround rounds a finite accumulator once, and gives the NaN or infinity of the side bits; an
accumulator survives ksave and kload bit for bit, and the one pattern that is no value loads the lowest finite one. -/
def Obligations.KulischValues : Prop :=
  (∀ (a : Kul) (ts : List KTerm), kulSide a = 0 →
    (∀ t ∈ ts, ∃ n m e, t = some (.fin n m e) ∧ (-300 : Int) ≤ e) →
    ∀ z : Int, (z : ℚ) = a.toInt + 2 ^ 300 * (ts.map fun t => (t.getD .nan).rat).sum →
      (kulLow ≤ z → z ≤ kulHigh → (kulAdd a ts).1.toInt = z ∧ (kulAdd a ts).2 = 0) ∧
      (kulHigh < z → kulAdd a ts = (kulOf kulHigh, fKovf)) ∧ (z < kulLow → kulAdd a ts = (kulOf kulLow, fKovf))) ∧
  (∀ (a : Kul) (ts : List KTerm),
    let side := kulSide a ||| (if some (.inf false) ∈ ts then 1 else 0) ||| (if some (.inf true) ∈ ts then 2 else 0) |||
      (if none ∈ ts ∨ some .nan ∈ ts then 4 else 0)
    side ≠ 0 → kulAdd a ts = (kulOf (-2 ^ 575 + side),
      if none ∈ ts ∨ side % 4 = 3 ∧ kulSide a % 4 ≠ 3 then fInv else 0)) ∧
  (∀ (a : Kul) (t : Ty) (rm : Rm),
    (a ≠ kulOf (-2 ^ 575) → kloadOp a.toNat = (a, 0)) ∧ kloadOp (2 ^ 575) = (kulOf kulLow, fKovf) ∧
    (t = .f32 ∨ t = .bf16 ∨ t = .f64 → kulSide a = 0 → a ≠ 0 →
      RoundedTo t rm ((a.toInt : ℝ) * 2 ^ (-300 : ℤ)) (kroundOp t rm a)) ∧
    (4 ≤ kulSide a → kroundOp t rm a = Res.of (genNan t 1)) ∧
    (kulSide a = 3 → kroundOp t rm a = Res.of (genNan t 3)) ∧
    (kulSide a = 1 → kroundOp t rm a = Res.of (infPat t)) ∧
    (kulSide a = 2 → kroundOp t rm a = Res.of (infPat t + signPat t true)))

/-! ### Global memory -/

/-- R155, R158, R168, R172 to R178: ld, ldk and st complete. ld, ldk and st, once their checks pass, put an access in
flight with the units of each lane's bytes, cut into parts of at most a word (whole elements of a store to a Sinter page,
8-byte ones among them: log 27), and go on; a load holds its destination registers, and a store is counted unit by unit.
R350: the ld or st of a lane whose leaf entry lacks AF, or DF for a store, sets the bits in memory. -/
def Obligations.LoadsAndStores : Prop :=
  ∀ (c : Ctl) (t : Ty) (ch : Ch) (n : Cnt) (d : Dst) (a : Src) (off : BitVec 20) (s : State) (x : Iss) (rs : List LReq),
    (Runs s (.ld c t ch n d a off) x →
      Passes s x (maskLanes x.m) (accSize t n) .r true (fun l => x.ea s l a off) rs →
      ∃ u, exec (.ld c t ch n d a off) s = .next u ∧
        Started s u x rs (.ld c t ch n d a off) .load (rs.flatMap fun r => r.units (accSize t n) 4 []) 0 ∧
        ∃ wp, u.warps.find x.w = some wp ∧
          wp.score = x.wp.score ++ [⟨x.m, dstBase d, accRegs t n, some s.nextId⟩]) ∧
    (Runs s (.ldk c t ch n d a off) x →
      Passes s x [lowLane x.m] (accSize t n) .r false (fun l => x.ea s l a off) rs →
      ∃ u, exec (.ldk c t ch n d a off) s = .next u ∧
        Started s u x rs (.ldk c t ch n d a off) .load (rs.flatMap fun r => r.units (accSize t n) 4 []) 0 ∧
        ∃ wp, u.warps.find x.w = some wp ∧
          wp.score = x.wp.score ++ [⟨x.m, dstBase d, accRegs t n, some s.nextId⟩]) ∧
    (Runs s (.st c t ch n d a off) x →
      Passes s x (maskLanes x.m) (accSize t n) .w true (fun l => x.ea s l a off) rs →
      let us := rs.flatMap fun r => r.units (accSize t n) (r.part (t.bits / 8))
        (leBytes (accSize t n) ((upTo 0 (accRegs t n)).foldl (fun v j => v + (x.reg s r.lane d j).toNat * 2 ^ (32 * j)) 0))
      ∃ u, exec (.st c t ch n d a off) s = .next u ∧
        Started s u x rs (.st c t ch n d a off) .store us us.length ∧ u.regions = s.regions) ∧
    (∀ i wr need l h s', (i = Instr.ld c t ch n d a off ∧ wr = false ∧ need = Perm.r ∨
        i = Instr.st c t ch n d a off ∧ wr = true ∧ need = Perm.w) → Runs s i x → x.m = oneLane l → l < 32 →
      x.trLane s (x.ea s l a off) (accSize t n) need true false = (.loc h, s') →
      adBits h.leaf.ent wr ≠ h.leaf.ent → (∀ e ∈ s'.tcache, x.ea s l a off / 4096 ∉ e.parts) →
      h.leaf.addr + 8 ≤ hbmSize →
      ∃ u, exec i s = .next u ∧
        (u.hbmNat (s.key x.g.world).key h.leaf.addr 8).testBit 11 = true ∧
        (wr = true → (u.hbmNat (s.key x.g.world).key h.leaf.addr 8).testBit 52 = true))

/-- R168, R173, R181 to R183: vatom, atom, vred and red complete. atom, red, vatom and vred, once their checks pass
and where they are no release point with accesses outstanding, put one element per lane, or per element of a vector,
in flight. An acquiring atomic keeps its lanes waiting until the value returns. -/
def Obligations.AtomicsStart : Prop :=
  ∀ (c : Ctl) (t : Ty) (op : Aop) (o : MOrd) (vec : Bool) (d : Dst) (a : Src) (off : BitVec 20) (s : State) (x : Iss)
    (rs : List LReq),
    let atom := if vec then Instr.vatom c t op o d a off else .atom c t op o d a off
    let red := if vec then Instr.vred c t op o d a off else .red c t op o d a off
    let us := rs.flatMap fun r => atomUnits vec op t r (x.atomBytes s r.lane vec op t d)
    let addr := fun l => x.ea s l a off
    (Runs s atom x → (o = .no ∨ o = .rel ∧ x.wp.drained = true) →
      Passes s x (maskLanes x.m) (atomSize vec t) .a false addr rs →
      ∃ u, exec atom s = .next u ∧ Started s u x rs atom .atomic us 0 ∧
        ∃ wp, u.warps.find x.w = some wp ∧
          wp.score = x.wp.score ++ [⟨x.m, dstBase d, if vec then 8 else t.regs, some s.nextId⟩]) ∧
    (Runs s atom x → (o = .acq ∨ o = .acqrel ∧ x.wp.drained = true) →
      Passes s x (maskLanes x.m) (atomSize vec t) .a false addr rs →
      ∃ u, exec atom s = .next u ∧ CheckedBytes s u x rs ∧
        (∃ q, u.waits.find q = some ⟨x.w, atom, x.m, x.pc, x.clk, .access, [], false⟩ ∧
          ∃ n, u.txns.find n =
            some ⟨x.w, x.wp.core, x.g.world, .atomic, atom, x.m, x.pc, us, [], 0, [], [], some q⟩) ∧
        ∃ wp, u.warps.find x.w = some wp ∧ ∀ l, l < x.wp.lanes.length → (wp.lane l).v = (x.wp.lane l).v ∧
          (inMask x.m l = true → (wp.lane l).pc = (x.wp.lane l).pc)) ∧
    (Runs s red x → (o = .no ∨ o = .rel ∧ x.wp.drained = true) →
      Passes s x (maskLanes x.m) (atomSize vec t) .a true addr rs →
      ∃ u, exec red s = .next u ∧ Started s u x rs red .atomic us us.length ∧ u.regions = s.regions)

/-! ### Faults, handlers and control registers -/

/-- R206, R207, R225 to R227: trap and bkpt complete. trap, where the launch has a handler and no lane of M is in
handler state, retires and goes to the trap entry: each lane of M keeps its return PC and its meeting register, enters
handler state, and TRAPCAUSE and TRAPADDR tell of the fault. The other active lanes have advanced. R206, R208, R226:
bkpt, and trap without a handler, stop the group: the fault record waits with the class, the code, the PC of the
instruction and the lanes of M, and with the lanes in which the instruction retires when the group has stopped. -/
def Obligations.TrapsAndBreakpoints : Prop :=
  (∀ (c : Ctl) (code : BitVec 12) (s : State) (x : Iss), Runs s (.trap c code) x → x.ln.rc.trapoff ≠ 0 →
    (∀ l ∈ maskLanes x.m, (x.wp.lane l).hs = false) →
    ∃ u wp, exec (.trap c code) s = .next u ∧ u = { s with warps := u.warps } ∧
      u.warps.find x.w = some wp ∧ (∀ w, w ≠ x.w → u.warps.find w = s.warps.find w) ∧
      wp = { x.wp with lanes := wp.lanes, trapcause := wp.trapcause, trapaddr := wp.trapaddr } ∧
      wp.trapcause = BitVec.ofNat 64 (x.m.toNat * 2 ^ 32 + 15 * 2 ^ 24 + code.toNat) ∧ wp.trapaddr = 0 ∧
      ∀ l, l < x.wp.lanes.length →
        (wp.lane l).v = (x.wp.lane l).v ∧ (wp.lane l).g = (x.wp.lane l).g ∧
        (inMask x.m l = true → inMask x.act l = true →
          (wp.lane l).epc = (x.wp.lane l).pc + 12 ∧ ((wp.lane l).emr = (x.wp.lane l).mr ∨ (wp.lane l).emr = 0) ∧
          (wp.lane l).mr = 0 ∧ (wp.lane l).hs = true ∧
          (wp.lane l).pc = BitVec.ofNat 64 (x.ln.rc.kbase + x.ln.rc.trapoff)) ∧
        (inMask x.m l = false → (wp.lane l).hs = (x.wp.lane l).hs ∧ (wp.lane l).epc = (x.wp.lane l).epc ∧
          (wp.lane l).pc = if inMask x.act l then (x.wp.lane l).pc + 12 else (x.wp.lane l).pc)) ∧
  (∀ (c : Ctl) (code : BitVec 12) (s : State) (x : Iss), StopsGroup x →
    (∀ l ∈ maskLanes x.m, (x.wp.lane l).hs = false) →
    let taken := fun (u : State) (f : FRec) => Stops s u x f ∧ ∃ g, u.groups.find x.wp.gid = some g ∧
      g.pend = some ⟨f, (s.core x.g.core).clk, x.w, x.act, none, none, [x.w]⟩
    (Runs s (.bkpt c) x → ∃ u, exec (.bkpt c) s = .next u ∧ taken u (x.flt 16 x.m 0 0)) ∧
    (Runs s (.trap c code) x → x.ln.rc.trapoff = 0 →
      ∃ u, exec (.trap c code) s = .next u ∧ taken u (x.flt 15 x.m 0 code.toNat)))

/-- R227: rfe completes. rfe returns each lane of M to the PC and the meeting register that it saved, and leaves
handler state; lanes outside handler state raise ILLEGAL with INFO 1 (LANES by log 26). -/
def Obligations.ReturnFromHandler : Prop :=
  ∀ (c : Ctl),
    (∀ s x, Runs s (.rfe c) x → (∀ l ∈ maskLanes x.m, (x.wp.lane l).hs = true) →
      ∃ u wp, exec (.rfe c) s = .next u ∧ u = { s with warps := u.warps } ∧ u.warps.find x.w = some wp ∧
        (∀ w, w ≠ x.w → u.warps.find w = s.warps.find w) ∧ wp = { x.wp with lanes := wp.lanes } ∧
        ∀ l, l < x.wp.lanes.length →
          (inMask x.m l = true → (wp.lane l).pc = (x.wp.lane l).epc ∧ (wp.lane l).hs = false ∧
            ((wp.lane l).mr = (x.wp.lane l).emr ∨ (wp.lane l).mr = 0)) ∧
          (inMask x.m l = false → (wp.lane l).hs = (x.wp.lane l).hs ∧
            (wp.lane l).pc = if inMask x.act l then (x.wp.lane l).pc + 12 else (x.wp.lane l).pc) ∧
          (wp.lane l).v = (x.wp.lane l).v ∧ (wp.lane l).g = (x.wp.lane l).g) ∧
    FaultsIn (.rfe c) (fun x l => !(x.wp.lane l).hs) 1 1

/-- R17, R107, R109, R225, R226: flagrd, flagclr, csrr and csrw complete. flagrd and flagclr read and clear GFLAGS,
csrr reads each control register, csrw writes TRAPARM, and a privileged register raises PRIV outside the hypervisor
world. The sets on their way of the instructions that precede a flagclr in its threads are cleared with it, and those of
the copies of every warp of the group (log 123). -/
def Obligations.ControlRegisters : Prop :=
  ∀ (c : Ctl) (d a : Dst) (f : BitVec 3) (r : BitVec 12),
    CompletesIf (.flagrd c d) (fun _ x => x.wp.matOut = 0) (useD 1 d) (fun _ x => x.g) (fun _ x => x.wp)
      (fun _ x u => Gets u x d 1 fun _ => x.g.gflags.toNat) ∧
    Blocks (.flagrd c d) .flag [] (fun _ x => x.wp.matOut ≠ 0) ∧
    (∀ s x, Runs s (.flagclr c f) x → ∃ u, exec (.flagclr c f) s = .next u ∧
      u = { s with warps := u.warps, groups := u.groups, txns := u.txns, cores := u.cores } ∧ WentOn u x [] ∧
      u.groups.find x.wp.gid = some { x.g with gflags := x.g.gflags &&& ~~~f } ∧
      (∀ g, g ≠ x.wp.gid → u.groups.find g = s.groups.find g) ∧
      (∀ n t, s.txns.find n = some t → ∃ t', u.txns.find n = some t' ∧
        t' = { t with flags := t'.flags, mute := t'.mute } ∧ (t.w ≠ x.w → t' = t) ∧
        (t.w = x.w → ∀ l ∈ maskLanes x.m, t'.flags.getD l 0 = t.flags.getD l 0 &&& ~~~f ∧
          t'.mute.getD l 0 = t.mute.getD l 0 ||| f)) ∧
      ∀ n, u.core n = { s.core n with
        copies := (s.core n).copies.map fun y => if y.gid = x.wp.gid then { y with mute := y.mute ||| f } else y }) ∧
    CompletesIf (.csrr c r d) (fun _ x => r = 0x100 → x.g.world = 1024) (useD 2 d) (fun _ x => x.g) (fun _ x => x.wp)
      (fun s x u =>
        (r = 0x000 → Gets u x d 2 fun _ =>
          0x0ad1 * 2 ^ 48 + Config.step.toNat * 2 ^ 40 + s.clusterOk.toNat) ∧
        (r = 0x001 → Gets u x d 2 fun _ => s.sparestat) ∧
        (r = 0x010 → Gets u x d 2 fun _ => s.ctxinfo x.g.world) ∧
        (r = 0x020 → Gets u x d 2 fun _ => x.wp.trapcause.toNat) ∧
        (r = 0x021 → Gets u x d 2 fun _ => x.wp.trapaddr.toNat) ∧
        (r = 0x022 → Gets u x d 2 fun _ => x.g.traparm.toNat) ∧
        (r = 0x100 → Gets u x d 2 fun _ => (s.nslots - s.slotsHeld) * 2 ^ 32 + s.nslots)) ∧
    Faults (.csrr c r d) (fun _ x => r = 0x100 ∧ x.g.world ≠ 1024) 2 (fun _ _ => 0) (fun _ _ => 0) ∧
    CompletesIf (.csrw c r a) (fun _ _ => True) []
      (fun s x => { x.g with traparm := (x.reg64 s (lowLane x.m) a 0).setWidth 2 }) (fun _ x => x.wp) (fun _ _ _ => True)

/-! ### Control flow -/

/-- R305 to R308: nop, bra, brx, call, ret, meet and yield complete. nop only goes on; bra and call go to the relative
target, and call writes the next address to its link pair; brx and ret go to each lane's own register target; meet
writes the meeting register; yield loads the yield counter. A relative target below the code base, or a register
target off the instruction grid, raises ALIGN and moves no lane; LANES of the latter names the lanes whose own target is
off the grid (log 26). -/
def Obligations.ControlFlow : Prop :=
  ∀ (c : Ctl) (off : BitVec 40) (d a : Dst) (dl : BitVec 12),
    CompletesIf (.nop c) (fun _ _ => True) [] (fun _ x => x.g) (fun _ x => x.wp) (fun _ _ _ => True) ∧
    (∀ s x, Runs s (.bra c off) x → (x.ln.rc.kbase : Int) ≤ x.pc.toNat + 12 * off.toInt →
      ∃ u, exec (.bra c off) s = .next u ∧ Jumped s u x [] fun _ => BitVec.ofInt 64 (x.pc.toNat + 12 * off.toInt)) ∧
    (∀ s x, Runs s (.call c d off) x → (x.ln.rc.kbase : Int) ≤ x.pc.toNat + 12 * off.toInt →
      ∃ u, exec (.call c d off) s = .next u ∧
        Jumped s u x (useD 2 d) (fun _ => BitVec.ofInt 64 (x.pc.toNat + 12 * off.toInt)) ∧
        Gets u x d 2 fun _ => (x.pc + 12).toNat) ∧
    (∀ i, i = Instr.brx c a ∨ i = Instr.ret c a → ∀ s x, Runs s i x →
      (∀ l ∈ maskLanes x.m, onGrid x.ln.rc.kbase (x.reg64 s l a 0).toNat = true) →
      ∃ u, exec i s = .next u ∧ Jumped s u x [] fun l => x.reg64 s l a 0) ∧
    Faults (.bra c off) (fun _ x => (x.pc.toNat : Int) + 12 * off.toInt < x.ln.rc.kbase) 6
      (fun _ x => (BitVec.ofInt 64 ((x.pc.toNat : Int) + 12 * off.toInt)).toNat) (fun _ _ => 0) ∧
    (∀ i, i = Instr.brx c a ∨ i = Instr.ret c a → ∀ s x l, Runs s i x → x.g.pend = none →
      let bad := fun (l : Nat) => !onGrid x.ln.rc.kbase (x.reg64 s l a 0).toNat
      (maskLanes x.m).find? bad = some l → (x.wp.lane l).task = none →
      ∃ u, exec i s = .next u ∧ Stops s u x (x.flt 6 (x.failing bad) (x.reg64 s l a 0).toNat 0)) ∧
    (∀ s x, Runs s (.meet c off) x → ∃ u wp, exec (.meet c off) s = .next u ∧ u = { s with warps := u.warps } ∧
      u.warps.find x.w = some wp ∧ (∀ w, w ≠ x.w → u.warps.find w = s.warps.find w) ∧
      wp = { x.wp with lanes := wp.lanes } ∧
      ∀ l, l < x.wp.lanes.length →
        (wp.lane l).pc = (if inMask x.act l then (x.wp.lane l).pc + 12 else (x.wp.lane l).pc) ∧
        (wp.lane l).v = (x.wp.lane l).v ∧ (wp.lane l).g = (x.wp.lane l).g ∧
        ((wp.lane l).mr = (if inMask x.m l then BitVec.ofInt 64 (x.pc.toNat + 12 * off.toInt) else (x.wp.lane l).mr) ∨
          (wp.lane l).mr = 0)) ∧
    CompletesIf (.yield c dl) (fun _ _ => True) [] (fun _ x => x.g)
      (fun _ x => { x.wp with yield := 8 * dl.toNat, stopped := x.wp.stopped || x.g.preempt }) (fun _ _ _ => True)

/-! ### Scratchpad -/

/-- R149, R173, R179, R180: ldsp, stsp, feget, feset and feclr complete. Scratchpad loads, stores and full-empty
instructions of lanes whose offsets pass the checks. A load with .fe whose granules are not all full waits; a store
with .fe and feset are release points, which wait for the warp's loads in flight too (log 6). Log 84: stsp stores a
uniform data register once for each lane of M. Log 26: LANES of the ALIGN fault names the lanes that fail the check. -/
def Obligations.Scratchpad : Prop :=
  ∀ (c : Ctl) (t : Ty) (n : Cnt) (fe clr : Bool) (d : Dst) (a : Src) (off : BitVec 20),
    let ok := fun (k : Nat) (s : State) (x : Iss) => ∀ l ∈ maskLanes x.m, x.spBad (x.spOff s l a off) k k = false
    let near := fun (s : State) (x : Iss) => ∀ l ∈ maskLanes x.m, x.spOff s l a off < 2 ^ 19
    let grans := fun (s : State) (x : Iss) => (maskLanes x.m).map fun l => x.spPlace (x.spOff s l a off) / 16
    let full := fun (s : State) (x : Iss) => ∀ k ∈ grans s x, x.g.fe.getD k false = true
    let bits := fun (s : State) (x : Iss) (b : Bool) => { x.g with fe := feSets x.g.fe (grans s x) b }
    CompletesIf (.ldsp c t n fe clr d a off) (fun s x => ok (accSize t n) s x ∧ (fe = true → full s x))
      (useD (accRegs t n) d) (fun s x => if clr then bits s x false else x.g) (fun _ x => x.wp)
      (fun s x u => (fe = true → Acquired u x) ∧ Gets u x d (accRegs t n) fun l =>
        let v := leNat ((upTo (x.spPlace (x.spOff s l a off)) (accSize t n)).map fun k => x.g.spad.getD k 0)
        if accRegs t n = 1 then tyExt t v else v) ∧
    Blocks (.ldsp c t n true clr d a off) .fe [] (fun s x => ok (accSize t n) s x ∧ ¬full s x) ∧
    CompletesIf (.stsp c t n fe d a off)
      (fun s x => ok (accSize t n) s x ∧ near s x ∧ (fe = true → x.wp.drained = true)) []
      (fun s x =>
        { x.g with
          spad := (maskLanes x.m).foldl (fun m l => spWrite m (x.spPlace (x.spOff s l a off))
            (x.storeBytes s l d (accRegs t n) (accSize t n))) x.g.spad
          fe := if fe then feSets x.g.fe (grans s x) true else x.g.fe })
      (fun _ x => x.wp) (fun _ _ _ => True) ∧
    CompletesIf (.feget c d a off) (ok 1) (useD 1 d) (fun _ x => x.g) (fun _ x => x.wp)
      (fun s x u => Gets u x d 1 fun l =>
        if x.g.fe.getD (x.spPlace (x.spOff s l a off) / 16) false then 1 else 0) ∧
    CompletesIf (.feset c a off) (fun s x => ok 1 s x ∧ near s x ∧ x.wp.drained = true) []
      (fun s x => bits s x true) (fun _ x => x.wp) (fun _ _ _ => True) ∧
    Blocks (.feset c a off) .drain [] (fun s x => ok 1 s x ∧ x.wp.drained = false) ∧
    CompletesIf (.feclr c a off) (fun s x => ok 1 s x ∧ near s x) [] (fun s x => bits s x false) (fun _ x => x.wp)
      (fun _ _ _ => True) ∧
    (∀ s x l, Runs s (.ldsp c t n fe clr d a off) x → x.g.pend = none →
      let bad (l : Nat) : Bool := x.spBad (x.spOff s l a off) (accSize t n) (accSize t n)
      (maskLanes x.m).find? bad = some l → (x.wp.lane l).task = none →
      ∃ u, exec (.ldsp c t n fe clr d a off) s = .next u ∧
        Stops s u x (x.flt 6 (x.failing bad) (x.spOff s l a off) 0))

/-! ### Queues and counters -/

/-- R239 to R244: tqpush, tqpop, tqtry, tqallow, cntsig and cntwait complete. tqpush, tqpop, tqtry and tqallow on a
queue with slots; pushes wait for an allowance and pops for an entry, both until the accesses of their warp are done
(pops: log 76; the loads in flight among them, for cntsig too: log 6), and a push acquires as a pop does (log 76); a queue
without slots raises QUEUE_QUOTA with its number. R236 to R238: cntsig sets or adds to a
counter of its world, and so satisfies the waits for no more than the new value; cntwait goes on where the counter has
reached its value and waits otherwise; an index outside the world's range raises QUEUE_QUOTA. -/
def Obligations.QueuesAndCounters : Prop :=
  (∀ (c : Ctl) (q : BitVec 5) (gs : BitVec 3) (d : Dst),
    let set := fun (x : Iss) (t : TileQ) => { x.g with tqs := x.g.tqs.put q.toNat t }
    let handle := fun (x : Iss) (e : Word × Nat) => if x.g.pair && e.2 != x.wp.tier then e.1 ^^^ 0x80000 else e.1
    CompletesIf (.tqpush c q d)
      (fun _ x => (x.g.tq q).slots ≠ 0 ∧ x.wp.drained = true ∧ 0 < (x.g.tq q).allow) []
      (fun s x => set x { x.g.tq q with
        content := (x.g.tq q).content ++ [(x.reg s (lowLane x.m) d 0, x.wp.tier)], allow := (x.g.tq q).allow - 1 })
      (fun _ x => x.wp) (fun _ x u => Acquired u x) ∧
    Blocks (.tqpush c q d) .tqpush []
      (fun _ x => (x.g.tq q).slots ≠ 0 ∧ (x.wp.drained = false ∨ (x.g.tq q).allow = 0)) ∧
    (∀ e es, CompletesIf (.tqpop c d q)
      (fun _ x => (x.g.tq q).slots ≠ 0 ∧ x.wp.drained = true ∧ (x.g.tq q).content = e :: es) (useD 1 d)
      (fun _ x => set x { x.g.tq q with content := es, allow := (x.g.tq q).allow + 1 }) (fun _ x => x.wp)
      (fun _ x u => Acquired u x ∧ Gets u x d 1 fun _ => (handle x e).toNat)) ∧
    Blocks (.tqpop c d q) .tqpop []
      (fun _ x => (x.g.tq q).slots ≠ 0 ∧ (x.wp.drained = false ∨ (x.g.tq q).content = [])) ∧
    (∀ e es, CompletesIf (.tqtry c gs d q)
      (fun _ x => (x.g.tq q).slots ≠ 0 ∧ x.wp.drained = true ∧ (x.g.tq q).content = e :: es) (useD 1 d ++ useG gs)
      (fun _ x => set x { x.g.tq q with content := es, allow := (x.g.tq q).allow + 1 }) (fun _ x => x.wp)
      (fun _ x u => Acquired u x ∧ GetsGuard u x gs (fun _ => true) ∧ Gets u x d 1 fun _ => (handle x e).toNat)) ∧
    CompletesIf (.tqtry c gs d q) (fun _ x => (x.g.tq q).slots ≠ 0 ∧ (x.g.tq q).content = []) (useG gs)
      (fun _ x => x.g) (fun _ x => x.wp) (fun _ x u => GetsGuard u x gs fun _ => false) ∧
    Blocks (.tqtry c gs d q) .drain []
      (fun _ x => (x.g.tq q).slots ≠ 0 ∧ x.wp.drained = false ∧ (x.g.tq q).content ≠ []) ∧
    CompletesIf (.tqallow c d q) (fun _ x => (x.g.tq q).slots ≠ 0) (useD 1 d) (fun _ x => x.g) (fun _ x => x.wp)
      (fun _ x u => Gets u x d 1 fun _ => (x.g.tq q).allow) ∧
    (∀ i, i = Instr.tqpush c q d ∨ i = Instr.tqpop c d q ∨ i = Instr.tqtry c gs d q ∨ i = Instr.tqallow c d q →
      Faults i (fun _ x => (x.g.tq q).slots = 0) 12 (fun _ _ => q.toNat) (fun _ _ => 0))) ∧
  (∀ (c : Ctl) (set : Bool) (a b : Dst),
    (∀ s x k, Runs s (.cntsig c set a b) x → x.wp.drained = true →
      s.counterOf x.g.world (x.reg s (lowLane x.m) a 0).toNat = some k →
      let v := (x.reg64 s (lowLane x.m) b 0).toNat
      ∃ u, exec (.cntsig c set a b) s = .next u ∧
        u = { s with warps := u.warps, counters := u.counters, waits := u.waits, entries := u.entries } ∧
        u.counter k = (if set then v else (s.counter k + v) % 2 ^ 64) ∧ (∀ j, j ≠ k → u.counter j = s.counter j) ∧
        (∀ q y, s.waits.find q = some y → y.kind = .counter → y.stat.find 0 = some k → y.stat.getD 1 0 ≤ u.counter k →
          u.waits.find q = some { y with sat := true }) ∧
        ∃ wp, u.warps.find x.w = some wp ∧ Warp.Kept x.wp wp x.act x.m []) ∧
    Blocks (.cntsig c set a b) .drain [] (fun s x => x.wp.drained = false ∧
      s.counterOf x.g.world (x.reg s (lowLane x.m) a 0).toNat ≠ none) ∧
    CompletesIf (.cntwait c a b)
      (fun s x => ∃ k, s.counterOf x.g.world (x.reg s (lowLane x.m) a 0).toNat = some k ∧
        (x.reg64 s (lowLane x.m) b 0).toNat ≤ s.counter k) []
      (fun _ x => x.g) (fun _ x => x.wp) (fun _ x u => Acquired u x) ∧
    (∀ s x k, Runs s (.cntwait c a b) x → s.counterOf x.g.world (x.reg s (lowLane x.m) a 0).toNat = some k →
      s.counter k < (x.reg64 s (lowLane x.m) b 0).toNat →
      ∃ u, exec (.cntwait c a b) s = .next u ∧
        Waits s u x (.cntwait c a b) .counter [(0, k), (1, (x.reg64 s (lowLane x.m) b 0).toNat)]) ∧
    (∀ i, i = Instr.cntsig c set a b ∨ i = Instr.cntwait c a b →
      Faults i (fun s x => s.counterOf x.g.world (x.reg s (lowLane x.m) a 0).toNat = none) 12
        (fun s x => (x.reg s (lowLane x.m) a 0).toNat) (fun _ _ => 0)))

/-! ### Barriers -/

/-- What a warp that arrives leaves where the phase goes on: it has arrived, and the count is one more (R315). -/
def arrivedG (s : State) (x : Iss) (b : Nat) : Group :=
  { x.g with bars := x.g.bars.put b { s.bar x.g b with cnt := (s.bar x.g b).cnt + 1 } }

/-- Barrier b after its phase has ended: no arrivals, and the expectation that was held, if any (R315). -/
def phasedG (s : State) (x : Iss) (b : Nat) : Group :=
  { x.g with bars := x.g.bars.put b ⟨(s.bar x.g b).held.getD (s.bar x.g b).exp, 0, none⟩ }

/-- The arrival of the issuing warp would end the phase. -/
abbrev lastArrival (s : State) (x : Iss) (b : Nat) : Prop := (s.bar x.g b).exp ≤ (s.bar x.g b).cnt + 1 + x.g.xw

/-- R313 to R319: bar, barArrive, barWait, barTest and barset complete. In a warp of a group, bar.arrive and bar
arrive once the warp's accesses (its loads in flight too: log 6) and converting copies (log 123) are done; an arrival that
is not the last counts, and bar then waits; the last one ends the phase, so that every warp that had arrived finds it done. bar.wait and bar.test take a
phase that has ended, without a trap, and clear it; bar.test of a warp that has arrived answers false while the phase
goes on; barset sets the expectation at once or holds it for the next phase. -/
def Obligations.Barriers : Prop :=
  ∀ (c : Ctl) (b : BitVec 4) (g : BitVec 3) (n : Dst),
    let new := fun (x : Iss) => x.wp.isTask = false ∧ x.wp.bar b.toNat = ⟨false, false, .no⟩
    let fresh := fun (s : State) (x : Iss) => new x ∧ x.wp.drained = true ∧ s.converting x = false
    let alone := fun (s : State) (x : Iss) => s.barWaits x.w b.toNat = []
    (∀ s x, Runs s (.barArrive c b) x → fresh s x → ¬lastArrival s x b.toNat →
      ∃ u, exec (.barArrive c b) s = .next u ∧
        Effect s u x [] (arrivedG s x b.toNat) (x.wp.setBar b.toNat ⟨true, false, .no⟩)) ∧
    (∀ s x, Runs s (.barArrive c b) x → fresh s x → lastArrival s x b.toNat → x.g.barCheck = .no →
      ∃ u wp, exec (.barArrive c b) s = .next u ∧ u.groups.find x.wp.gid = some (phasedG s x b.toNat) ∧
        u.warps.find x.w = some wp ∧ wp.bar b.toNat = ⟨false, true, .no⟩ ∧
        (∀ w y, w ≠ x.w → s.warps.find w = some y → y.gid = x.wp.gid → (y.bar b.toNat).arr = true →
          u.warps.find w = some (y.setBar b.toNat ⟨false, true, .no⟩)) ∧
        (∀ w y, w ≠ x.w → s.warps.find w = some y → (y.gid ≠ x.wp.gid ∨ (y.bar b.toNat).arr = false) →
          u.warps.find w = some y) ∧ u = { s with warps := u.warps, groups := u.groups }) ∧
    (∀ s x, Runs s (.bar c b) x → fresh s x → ¬lastArrival s x b.toNat →
      ∃ u wp, exec (.bar c b) s = .next u ∧ u.groups.find x.wp.gid = some (arrivedG s x b.toNat) ∧
        u.waits.find s.nextId = some ⟨x.w, .bar c b, x.m, x.pc, x.clk, .bar, [(0, b.toNat)], false⟩ ∧
        u.warps.find x.w = some wp ∧ wp.bar b.toNat = ⟨true, false, .no⟩ ∧
        ∀ l, l < x.wp.lanes.length → inMask x.m l = true →
          (wp.lane l).wait = some s.nextId ∧ (wp.lane l).pc = (x.wp.lane l).pc) ∧
    (∀ s x, Runs s (.bar c b) x → fresh s x → lastArrival s x b.toNat → x.g.barCheck = .no → alone s x →
      ∃ u wp, exec (.bar c b) s = .next u ∧ u.groups.find x.wp.gid = some (phasedG s x b.toNat) ∧ Acquired u x ∧
        u.warps.find x.w = some wp ∧ wp.bar b.toNat = ⟨false, false, .no⟩ ∧
        ∀ l, l < x.wp.lanes.length →
          (wp.lane l).pc = if inMask x.act l then (x.wp.lane l).pc + 12 else (x.wp.lane l).pc) ∧
    (∀ s x, Runs s (.barWait c b) x → x.wp.isTask = false → x.wp.bar b.toNat = ⟨false, true, .no⟩ → alone s x →
      ∃ u, exec (.barWait c b) s = .next u ∧ Acquired u x ∧
        Effect s u x [] x.g (x.wp.setBar b.toNat ⟨false, false, .no⟩)) ∧
    (∀ i, i = Instr.bar c b ∨ i = Instr.barArrive c b →
      Blocks i .drain [] fun s x => new x ∧ (x.wp.drained = false ∨ s.converting x = true)) ∧
    Blocks (.barWait c b) .bar [(0, b.toNat)]
      (fun _ x => x.wp.isTask = false ∧ x.wp.bar b.toNat = ⟨true, false, .no⟩) ∧
    (∀ s x, Runs s (.barTest c g b) x → x.wp.isTask = false → x.wp.bar b.toNat = ⟨false, true, .no⟩ → alone s x →
      ∃ u, exec (.barTest c g b) s = .next u ∧ Acquired u x ∧ GetsGuard u x g (fun _ => true) ∧
        Effect s u x (useG g) x.g (x.wp.setBar b.toNat ⟨false, false, .no⟩)) ∧
    CompletesIf (.barTest c g b) (fun _ x => x.wp.isTask = false ∧ x.wp.bar b.toNat = ⟨true, false, .no⟩) (useG g)
      (fun _ x => x.g) (fun _ x => x.wp) (fun _ x u => GetsGuard u x g fun _ => false) ∧
    CompletesIf (.barset c b n)
      (fun s x => x.wp.isTask = false ∧ b ≠ 0 ∧ (s.bar x.g b.toNat).cnt = 0 ∧
        x.g.xw < (x.reg s (lowLane x.m) n 0).toNat ∧ (x.reg s (lowLane x.m) n 0).toNat ≤ x.ln.rc.groupw) []
      (fun s x => { x.g with
        bars := x.g.bars.put b.toNat { s.bar x.g b.toNat with exp := (x.reg s (lowLane x.m) n 0).toNat } })
      (fun _ x => x.wp) (fun _ _ _ => True) ∧
    CompletesIf (.barset c b n)
      (fun s x => x.wp.isTask = false ∧ b ≠ 0 ∧ (s.bar x.g b.toNat).cnt ≠ 0 ∧
        0 < (x.reg s (lowLane x.m) n 0).toNat ∧ (x.reg s (lowLane x.m) n 0).toNat ≤ x.ln.rc.groupw) []
      (fun s x => { x.g with
        bars := x.g.bars.put b.toNat { s.bar x.g b.toNat with held := some (x.reg s (lowLane x.m) n 0).toNat } })
      (fun _ x => x.wp) (fun _ _ _ => True) ∧
    (∀ i, i = Instr.bar c b ∨ i = Instr.barArrive c b ∨ i = Instr.barWait c b ∨ i = Instr.barTest c g b ∨
        i = Instr.barset c b n →
      Faults i (fun _ x => x.wp.isTask = true) 1 (fun _ _ => 0) (fun _ _ => 6)) ∧
    Faults (.barset c b n) (fun _ x => x.wp.isTask = false ∧ b = 0) 1 (fun _ _ => 0) (fun _ _ => 11)

/-! ### Tasks -/

/-- R264, R265, R273, R275, R278, R280, R281: fmark, spawn, await, tidx and tstat complete. fmark opens a frame; spawn
with room in the core's store enters one record for each lane with a non-empty range, numbered by the die's Halyard,
and its frame counts the iterations; await of frames that are all done gives the failures and closes them, and waits
otherwise; tidx and tstat read the lane's task and frames. LANES of the faults of fmark, spawn and await names the lanes that
fail (log 26). -/
def Obligations.Tasks : Prop :=
  ∀ (c : Ctl) (f : TFld) (d a b : Dst),
    CompletesIf (.fmark c) (fun _ x => ∀ l ∈ maskLanes x.m, (x.wp.lane l).frames.length < 8) [] (fun _ x => x.g)
      (fun _ x => x.wp.onLanes x.m fun _ ln => { ln with frames := ⟨0, 0, false⟩ :: ln.frames }) (fun _ _ _ => True) ∧
    FaultsIn (.fmark c) (fun x l => decide (8 ≤ (x.wp.lane l).frames.length)) 1 3 ∧
    (∀ s x, Runs s (.spawn c d a b) x → x.wp.drained = true →
      let rs := (maskLanes x.m).map (x.spawnReq s d a b)
      let go := rs.filter fun r => decide (r.lo < r.hi)
      let die := coreDie x.wp.core
      (∀ l ∈ maskLanes x.m, (x.wp.lane l).own ≠ []) → (∀ r ∈ rs, r.bad x.ln.rc.kbase = none) →
      s.recsTaken x.wp.core + go.length ≤ 4096 → s.hseqs.getD die 0 < 2 ^ 32 →
      ∃ u wp, exec (.spawn c d a b) s = .next u ∧
        (u.core x.wp.core).recs = (s.core x.wp.core).recs ++
          go.zipIdx.map (fun p => p.1.toRec x ((s.hseqs.getD die 0 + p.2) % 2 ^ 32)) ∧
        u = { s with warps := u.warps, cores := u.cores, hseqs := u.hseqs } ∧
        u.warps.find x.w = some wp ∧
        ∀ l, l < x.wp.lanes.length → (wp.lane l).v = (x.wp.lane l).v ∧
          (wp.lane l).pc = (if inMask x.act l then (x.wp.lane l).pc + 12 else (x.wp.lane l).pc) ∧
          (inMask x.m l = false → (wp.lane l).frames = (x.wp.lane l).frames) ∧
          (∀ r fr rest, inMask x.m l = true → l < 32 → r = x.spawnReq s d a b l → r.lo < r.hi →
            (x.wp.lane l).frames = fr :: rest →
            (wp.lane l).frames = { fr with count := fr.count + (r.hi - r.lo) } :: rest)) ∧
    FaultsIn (.spawn c d a b) (fun x l => (x.wp.lane l).own.isEmpty) 1 2 ∧
    FaultsIn (.await c d) (fun x l => (x.wp.lane l).own.isEmpty) 1 5 ∧
    (∀ s x i, Runs s (.await c (.v i)) x →
      (∀ l ∈ maskLanes x.m, (x.wp.lane l).own ≠ [] ∧ (x.wp.lane l).frameDone = true) →
      ∃ u wp, exec (.await c (.v i)) s = .next u ∧ Acquired u x ∧ u.warps.find x.w = some wp ∧
        ∀ l fr rest, l < x.wp.lanes.length → inMask x.m l = true → (x.wp.lane l).frames = fr :: rest →
          (wp.lane l).frames = rest ∧ (wp.lane l).v.getD i.toNat 0 = BitVec.ofNat 32 fr.failed ∧
          (∀ j, j ≠ i.toNat → (wp.lane l).v.getD j 0 = (x.wp.lane l).v.getD j 0) ∧
          (inMask x.act l = true → (wp.lane l).pc = (x.wp.lane l).pc + 12)) ∧
    (∀ s x i, Runs s (.await c (.v i)) x →
      (∀ l ∈ maskLanes x.m, (x.wp.lane l).own ≠ [] ∧ (x.wp.lane l).frameDone = false) →
      ∃ u, exec (.await c (.v i)) s = .next u ∧ ∃ wp y, u.warps.find x.w = some wp ∧
        u.waits.find s.nextId = some y ∧ y.kind = .await ∧ y.lanes = x.m ∧
        ∀ l, l < x.wp.lanes.length → inMask x.m l = true →
          (wp.lane l).wait = some s.nextId ∧ (wp.lane l).pc = (x.wp.lane l).pc) ∧
    CompletesIf (.tidx c f d) (fun _ _ => True) (useD 2 d) (fun _ x => x.g) (fun _ x => x.wp)
      (fun _ x u => Gets u x d 2 fun l =>
        match (x.wp.lane l).task, f with
        | none, _ => 0
        | some t, .lo => t.slo
        | some t, .hi => t.shi
        | some t, .arg => t.arg) ∧
    CompletesIf (.tstat c d) (fun _ _ => True) (useD 1 d) (fun _ x => x.g) (fun _ x => x.wp)
      (fun _ x u => Gets u x d 1 fun l => (x.wp.lane l).tstat)

/-- The group of the issue retires (R285): its record says so, none of its warps is left, and its launch counts it. -/
def GroupRetires (u : State) (x : Iss) : Prop :=
  (∃ g, u.groups.find x.wp.gid = some g ∧ g.st = .retired) ∧ (∀ e ∈ u.warps, e.2.gid ≠ x.wp.gid) ∧
    u.launches.find x.g.lid = some { x.ln with retired := x.ln.retired + 1 }

/-- The child iteration of task t is counted off in its parent frame (R266). -/
def ParentCounts (s u : State) (t : Task) : Prop :=
  ∀ old fr, s.warps.find t.parent.w = some old → t.parent.lane < old.lanes.length →
    t.parent.lvl < (old.lane t.parent.lane).frames.length →
    (old.lane t.parent.lane).frames[(old.lane t.parent.lane).frames.length - 1 - t.parent.lvl]? = some fr →
    ∃ new, u.warps.find t.parent.w = some new ∧
      (new.lane t.parent.lane).frames[(old.lane t.parent.lane).frames.length - 1 - t.parent.lvl]? =
        some { fr with count := fr.count - 1 }

/-- R285, R294, R307, R315: exit in lanes M that run no iteration, lowest first, once the warp's accesses (log 6), its
converting copies (log 123) and the lanes' own frames are done. The lanes exit and leave their frames. While another lane
lives, the lanes that are left parked at a meeting value where only lanes of M were missing are released, and no others.
The last lanes end the warp: it gives up its blocks, no longer counts as an arrival, and counts as exited at each barrier,
a phase of which ends where that is enough. Where it is the last warp of its group that has not ended, and the group owns
no record, the group retires. -/
def exitClause (c : Ctl) : Prop :=
  ∀ s x, Runs s (.exit c) x → (∀ l ∈ maskLanes x.m, s.canEnd x.w l x.wp = true ∧ (x.wp.lane l).task = none) →
    let left := fun k => k < x.wp.lanes.length ∧ inMask x.m k = false ∧ (x.wp.lane k).exited = false
    let pc := fun k => if inMask x.act k then (x.wp.lane k).pc + 12 else (x.wp.lane k).pc
    ((∃ k, left k) → ∃ u wp, exec (.exit c) s = .next u ∧ u = { s with warps := u.warps } ∧
      u.warps.find x.w = some wp ∧ (∀ w, w ≠ x.w → u.warps.find w = s.warps.find w) ∧
      (∀ l, l < x.wp.lanes.length → l < 32 →
        (inMask x.m l = true → (wp.lane l).exited = true ∧ (wp.lane l).frames = []) ∧
        (inMask x.m l = false → (wp.lane l).exited = (x.wp.lane l).exited ∧ (wp.lane l).pc = pc l) ∧
        (wp.lane l).v = (x.wp.lane l).v) ∧
      ∀ k, left k → (x.wp.lane k).mr ≠ 0 →
        ((∀ j, left j → (x.wp.lane j).mr = (x.wp.lane k).mr → pc j = (x.wp.lane k).mr) → (wp.lane k).mr = 0) ∧
        (∀ j, left j → (x.wp.lane j).mr = (x.wp.lane k).mr → pc j ≠ (x.wp.lane k).mr →
          (wp.lane k).mr = (x.wp.lane k).mr)) ∧
    ((¬∃ k, left k) → (∀ l ∈ maskLanes x.m, l < x.wp.lanes.length ∧ (x.wp.lane l).exited = false) →
      let arr := fun b => (x.wp.bar b).arr
      let bar := fun b => s.bar x.g b
      let cnt := fun b => if arr b then (bar b).cnt - 1 else (bar b).cnt
      let ends := fun b => (bar b).exp ≤ cnt b + (x.g.xw + 1)
      ((∃ e ∈ s.warps, e.1 ≠ x.w ∧ e.2.gid = x.wp.gid ∧ e.2.over = false) →
        ∃ u wp g, exec (.exit c) s = .next u ∧ u.warps.find x.w = some wp ∧ wp.over = true ∧ wp.held = 0 ∧
          wp.emer = none ∧ wp.saved = 0 ∧ u.groups.find x.wp.gid = some g ∧ g = { x.g with xw := g.xw, bars := g.bars } ∧
          g.xw = x.g.xw + 1 ∧ (∀ h, h ≠ x.wp.gid → u.groups.find h = s.groups.find h) ∧
          (∀ b, b < 16 →
            (ends b → u.bar g b = ⟨(bar b).held.getD (bar b).exp, 0, none⟩) ∧
            (¬ends b → u.bar g b = { bar b with cnt := cnt b })) ∧
          ∀ w y, w ≠ x.w → s.warps.find w = some y → ∃ y', u.warps.find w = some y' ∧ y' = { y with bars := y'.bars } ∧
            ∀ b, b < 16 →
              (y.gid = x.wp.gid → (y.bar b).arr = true → ends b → y'.bar b = ⟨false, true, x.g.barCheck⟩) ∧
              ((y.gid ≠ x.wp.gid ∨ (y.bar b).arr = false ∨ ¬ends b) → y'.bar b = y.bar b)) ∧
      ((s.warps.filter fun e => e.2.gid == x.wp.gid && !e.2.over) = [(x.w, x.wp)] →
        s.ownsRecord x.wp.gid = false → x.g.st = .resident ∨ x.g.st = .stopping →
        ∃ u, exec (.exit c) s = .next u ∧ GroupRetires u x))

/-- R266, R271, R272, R276, R281: tret or exit in one lane l that runs iteration t and may end. An inline run goes on to its
next index, and behind its last one returns to its continuation; the lane of a task warp exits and drops the frames of its
iteration. The parent frame counts the iteration off. A task warp ends with its last lane, and its group retires where
nothing of it is left. -/
def iterationClause (c : Ctl) : Prop :=
  ∀ i s x l t, i = Instr.tret c ∨ i = Instr.exit c → Runs s i x → x.m = oneLane l → l < x.wp.lanes.length → l < 32 →
    x.wp.mayEnd l = true → (x.wp.lane l).exited = false → (x.wp.lane l).task = some t → t.parent.w ≠ x.w →
    let old := x.wp.lane l
    let kept := old.frames.drop (old.frames.length - old.base)
    let left := ∃ k, k < x.wp.lanes.length ∧ k ≠ l ∧ (x.wp.lane k).exited = false
    (t.inl = true → t.it + 1 < t.hi → ∃ u wp, exec i s = .next u ∧ u.warps.find x.w = some wp ∧
      (wp.lane l).task = some { t with it := t.it + 1 } ∧ (wp.lane l).pc = BitVec.ofNat 64 t.entry ∧
      (wp.lane l).mr = 0 ∧ (wp.lane l).frames = kept ∧ ParentCounts s u t) ∧
    (∀ k ks, t.inl = true → ¬t.it + 1 < t.hi → old.conts = k :: ks → k.fail = false →
      ∃ u wp, exec i s = .next u ∧ u.warps.find x.w = some wp ∧ ParentCounts s u t ∧
        (wp.lane l).pc = k.pc ∧ ((wp.lane l).mr = k.mr ∨ (wp.lane l).mr = 0) ∧ (wp.lane l).g = k.g ∧
        (wp.lane l).task = k.task ∧ (wp.lane l).base = k.base ∧ (wp.lane l).conts = ks ∧
        (wp.lane l).frames = kept.map fun f => { f with ran := true }) ∧
    (t.inl = false → left → ∃ u wp, exec i s = .next u ∧ u.warps.find x.w = some wp ∧ ParentCounts s u t ∧
      (wp.lane l).exited = true ∧ (wp.lane l).task = none ∧ (wp.lane l).mr = 0 ∧ (wp.lane l).frames = kept) ∧
    (t.inl = false → ¬left → x.wp.isTask = true →
      (∀ p, s.warps.find t.parent.w = some p → p.gid = x.wp.gid → p.over = false →
        ∃ u, exec i s = .next u ∧ u.warps.find x.w = none ∧ ParentCounts s u t ∧
          u.groups.find x.wp.gid = s.groups.find x.wp.gid) ∧
      ((∀ e ∈ s.warps, e.2.gid = x.wp.gid → e.1 = x.w ∨ e.2.over = true) → s.ownsRecord x.wp.gid = false →
        x.g.st = .resident ∨ x.g.st = .stopping → ∃ u, exec i s = .next u ∧ GroupRetires u x))

/-- R266, R271, R272, R276, R281, R285, R294, R307, R315: exit and tret complete. They end the lanes of M, lowest first
(log 102), once the warp's accesses and the lanes' own frames are done, and with their last lanes end warps, task warps and
groups. A lane that may not end yet waits (R276). tret of lanes that run no iteration raises ILLEGAL with INFO 4, and LANES
names those lanes (log 26). -/
def Obligations.LanesEnd : Prop :=
  ∀ (c : Ctl),
    exitClause c ∧ iterationClause c ∧
    (∀ i s x l, i = Instr.exit c ∨ i = Instr.tret c ∧ (x.wp.lane l).task ≠ none → Runs s i x → x.m = oneLane l →
      l < x.wp.lanes.length → l < 32 → s.canEnd x.w l x.wp = false →
      ∃ u wp, exec i s = .next u ∧
        u.waits.find s.nextId = some ⟨x.w, i, x.m, (x.wp.lane l).pc, x.clk, .ending, [], false⟩ ∧
        u.warps.find x.w = some wp ∧ (wp.lane l).wait = some s.nextId ∧ (wp.lane l).ending = some false ∧
        (wp.lane l).pc = (x.wp.lane l).pc ∧ (wp.lane l).exited = (x.wp.lane l).exited) ∧
    FaultsIn (.tret c) (fun x l => (x.wp.lane l).task.isNone) 1 4

/-! ### Register blocks and vertical FIFOs -/

/-- R298 to R300, R309, R310: ralloc, rfree, rblk, vput, vget and vfree complete. ralloc of a block held does nothing
more; with a free block of the share the warp holds it, and it reads zero in every lane; with none free and the token
taken, or behind a lower warp that waits, it waits; rfree releases a block; rblk tells of them. R302, R311, R312: vput
enters what the lanes of M hold, zero for the other lanes, in a FIFO that leaves its tier, and waits where it is full;
vget takes the oldest entry of a FIFO that reaches its tier, and waits where there is none; vfree counts the free
entries; a group on one core raises ILLEGAL with INFO 7. vget waits for its warp's accesses, too, and vput acquires (log
76); the accesses that both wait for include loads in flight (log 6). -/
def Obligations.BlocksAndFifos : Prop :=
  (∀ (c : Ctl) (n : BitVec 3) (d : Dst),
    let first := fun (s : State) (x : Iss) => ∀ o ∈ s.rallocs x, o.wp.gid = x.wp.gid → x.wp.ident.warp ≤ o.wp.ident.warp
    CompletesIf (.ralloc c n) (fun _ x => x.wp.held.getLsbD n.toNat = true) [] (fun _ x => x.g) (fun _ x => x.wp)
      (fun _ _ _ => True) ∧
    CompletesIf (.ralloc c n)
      (fun s x => x.wp.held.getLsbD n.toNat = false ∧ 0 < s.freeBlocks x.wp.gid x.wp.core x.ln.rc ∧ first s x) []
      (fun _ x => x.g)
      (fun _ x => { x.wp with
        held := x.wp.held ||| BitVec.ofNat 8 (2 ^ n.toNat), lanes := x.wp.lanes.map fun ln => ln.zeroBlock n.toNat })
      (fun _ x u => ∃ wp, u.warps.find x.w = some wp ∧ wp.held.getLsbD n.toNat = true ∧
        ∀ l j, l < x.wp.lanes.length → j < 16 → (wp.lane l).v.getD (128 + 16 * n.toNat + j) 0 = 0) ∧
    Blocks (.ralloc c n) .ralloc [] (fun s x => x.wp.held.getLsbD n.toNat = false ∧
      (s.freeBlocks x.wp.gid x.wp.core x.ln.rc = 0 ∧ (s.core x.wp.core).emer ≠ none ∨
        s.freeBlocks x.wp.gid x.wp.core x.ln.rc ≠ 0 ∧ ¬first s x)) ∧
    CompletesIf (.rfree c n) (fun _ x => x.wp.emer ≠ some n.toNat) [] (fun _ x => x.g)
      (fun _ x => { x.wp with held := x.wp.held &&& ~~~(BitVec.ofNat 8 (2 ^ n.toNat)) }) (fun _ _ _ => True) ∧
    CompletesIf (.rblk c d) (fun _ _ => True) (useD 1 d) (fun _ x => x.g) (fun _ x => x.wp)
      (fun s x u => Gets u x d 1 fun _ => rblkWord x s)) ∧
  (∀ (c : Ctl) (f : BitVec 2) (d : Dst),
    let set := fun (x : Iss) (es : List (List Word)) => { x.g with vfifo := x.g.vfifo.setD f.toNat es [] }
    CompletesIf (.vput c f d)
      (fun _ x => x.g.pair = true ∧ f.toNat / 2 = x.wp.tier ∧ x.wp.drained = true ∧ (x.g.fifo f).length < 16) []
      (fun s x => set x (x.g.fifo f ++ [laneNums.map fun l => if inMask x.m l then x.reg s l d 0 else 0]))
      (fun _ x => x.wp) (fun _ x u => Acquired u x) ∧
    Blocks (.vput c f d) .vput []
      (fun _ x => x.g.pair = true ∧ f.toNat / 2 = x.wp.tier ∧ (x.wp.drained = false ∨ 16 ≤ (x.g.fifo f).length)) ∧
    (∀ e es, CompletesIf (.vget c f d)
      (fun _ x => x.g.pair = true ∧ f.toNat / 2 ≠ x.wp.tier ∧ x.wp.drained = true ∧ x.g.fifo f = e :: es)
      (useD 1 d) (fun _ x => set x es) (fun _ x => x.wp)
      (fun _ x u => Acquired u x ∧ Gets u x d 1 fun l => (e.getD l 0).toNat)) ∧
    Blocks (.vget c f d) .vget []
      (fun _ x => x.g.pair = true ∧ f.toNat / 2 ≠ x.wp.tier ∧ (x.wp.drained = false ∨ x.g.fifo f = [])) ∧
    CompletesIf (.vfree c f d) (fun _ x => x.g.pair = true) (useD 1 d) (fun _ x => x.g) (fun _ x => x.wp)
      (fun _ x u => Gets u x d 1 fun _ => 16 - (x.g.fifo f).length) ∧
    (∀ i, i = Instr.vput c f d ∨ i = Instr.vget c f d ∨ i = Instr.vfree c f d →
      Faults i (fun _ x => x.g.pair = false) 1 (fun _ _ => 0) (fun _ _ => 7)))

/-! ### Waiting on memory, hints, copies and device launches -/

/-- R184, R186 to R188, R169, R170, R350, R386: waita, wake, pfetch and evict complete their issue. waita, once its checks
pass, puts one comparison per lane in flight (log 32) and keeps its lanes asleep (WaitsEnd says how it returns); wake
releases what watches its sectors (where a slice answers with errors, too: log 129); pfetch fills a line, applies its hint
and sets AF of its leaf; evict changes the hint of a line that is present and drops the core's copies of it. An EL hint that
would make a ninth EL line of its set (log 10) stands for EN. The three last wait where a request is held at its sender
(R373, R378). Log 30: pfetch drops a lane in a peer window, and evict raises PAGE_PERM with level 4 there. -/
def Obligations.WaitsAndHints : Prop :=
  ∀ (c : Ctl) (tmo : BitVec 4) (ch : Ch) (d : Dst) (a : Src) (off : BitVec 20) (s : State) (x : Iss) (rs : List LReq),
    let addr := fun l => x.ea s l a off
    let els := fun (t : State) (h : Hit) =>
      ((t.l2.getD (t.setOf h.pa) []).filter fun y => !y.is x.g.world h.pa && y.hint == .el).length
    let hint := fun (t : State) (h : Hit) => if ch = .el ∧ 8 ≤ els t h then Ch.en else ch
    let found := (x.trAll 1 .none false false ((maskLanes x.m).map fun l => (l, addr l)) s).1
    let win := fun l => (s.windowOf x.g.world (addr l)).isSome
    let waits := fun (u : State) (i : Instr) (pa : Nat) =>
      u.waits.find s.nextId = some ⟨x.w, i, x.m, x.pc, x.clk, .drain, [(1, pa), (2, 0)], false⟩
    (Runs s (.waita c tmo d a off) x → Passes s x (maskLanes x.m) 4 .r false addr rs →
      ∃ u q n wp, exec (.waita c tmo d a off) s = .next u ∧ CheckedBytes s u x rs ∧
        u.waits.find q = some ⟨x.w, .waita c tmo d a off, x.m, x.pc, x.clk, .sleep, [], false⟩ ∧
        u.txns.find n = some ⟨x.w, x.wp.core, x.g.world, .load, .waita c tmo d a off, x.m, x.pc,
          rs.map (fun r => r.unit 0 4 (x.storeBytes s r.lane d 1 4)), [], 0, [], [], some q⟩ ∧
        u.warps.find x.w = some wp ∧ ∀ l, l < x.wp.lanes.length → (wp.lane l).v = (x.wp.lane l).v ∧
          (inMask x.m l = true → (wp.lane l).wait = some q ∧ (wp.lane l).pc = (x.wp.lane l).pc)) ∧
    (∀ pa, Runs s (.wake c a off) x → Passes s x (maskLanes x.m) 1 .r false addr rs → x.heldBack s rs = some pa →
      ∃ u, exec (.wake c a off) s = .next u ∧ CheckedBytes s u x rs ∧ waits u (.wake c a off) pa) ∧
    (∀ i pa, i = Instr.pfetch c ch a off ∨ i = Instr.evict c ch a off → Runs s i x → x.heldBack s found = some pa →
      ∃ u, exec i s = .next u ∧ CheckedBytes s u x [] ∧ waits u i pa) ∧
    (Runs s (.wake c a off) x → Passes s x (maskLanes x.m) 1 .r false addr rs → x.heldBack s rs = none →
      ∃ u, exec (.wake c a off) s = .next u ∧ CheckedBytes s u x rs ∧ WentOn u x [] ∧ u.monitors = s.monitors ∧
        ∀ r h m y, r ∈ rs → r.tr = .loc h → m ∈ s.monitors → m.sector = h.pa / 32 → m.world = x.g.world →
          s.waits.find m.q = some y → ∃ y', u.waits.find m.q = some y' ∧ y'.sat = true ∧
            (y.sat = true → y' = y) ∧
            (y.sat = false → ∃ k ∈ s.monitors, k.q = m.q ∧ k.world = x.g.world ∧
              ∀ l ∈ maskLanes k.lanes, y'.stat.find l = some 2)) ∧
    (Runs s (.pfetch c ch a off) x → x.heldBack s found = none →
      ∃ u, exec (.pfetch c ch a off) s = .next u ∧ CheckedBytes s u x found ∧ WentOn u x [] ∧
        ∀ l h s', l < 32 → x.m = oneLane l → x.trLane s (addr l) 1 .none false false = (.loc h, s') → h.sint = none →
          s'.replyErr x.g.world h.pa = none → s'.unscr h.pa = false →
          (bitAt h.leaf.ent 11 = false → h.leaf.addr + 8 ≤ hbmSize →
            (u.hbmNat (s.key x.g.world).key h.leaf.addr 8).testBit 11 = true) ∧
          (∀ y, bitAt h.leaf.ent 11 = true → s'.lineAt x.g.world h.pa = some y →
            u.lineAt x.g.world h.pa = some { y with hint := hintStep y.hint (hint s' h) }) ∧
          (bitAt h.leaf.ent 11 = true → s'.lineAt x.g.world h.pa = none → (s'.l2.getD (s'.setOf h.pa) []).length < 16 →
            u.lineAt x.g.world h.pa = some ⟨x.g.world, h.pa / 128, [], hint s' h⟩)) ∧
    (∀ l, Runs s (.evict c ch a off) x → x.heldBack s found = none → x.g.pend = none →
      (maskLanes x.m).find? win = some l → (x.wp.lane l).task = none →
      ∃ u g, exec (.evict c ch a off) s = .next u ∧ CheckedBytes s u x [] ∧ u.groups.find x.wp.gid = some g ∧
        g.pend = some (s.pendOf x { x.flt 9 (x.failing win) (addr l) 0 with lvl := 4 } none none)) ∧
    (Runs s (.evict c ch a off) x → x.heldBack s found = none → (∀ l ∈ maskLanes x.m, win l = false) →
      ∃ u, exec (.evict c ch a off) s = .next u ∧ CheckedBytes s u x [] ∧ WentOn u x [] ∧
        ∀ l h s', l < 32 → x.m = oneLane l → x.trLane s (addr l) 1 .none false false = (.loc h, s') →
          s'.replyErr x.g.world h.pa = none → u.lineAt x.g.world h.pa = (s'.lineAt x.g.world h.pa).map (fun y =>
            { y with hint := if hint s' h = .en then .en else hintStep y.hint (hint s' h) }) ∧
          ∀ k ∈ [0, 32, 64, 96], (u.core x.wp.core).l1.find (l1Key x.g.world (h.pa / 128 * 128 + k)) = none)

/-- R189, R190, R192, R193: tcopy, tcwait, copyComplete and copyErrorStop complete. tcopy within its limits, with its
pages checked and room in the engine, enters a copy with its tag and goes on; tcwait goes on when no copy that its warp
issued with the tag is in the engine, waits for those that are otherwise, and raises the failure that the tag keeps (a later
one stands in place of an earlier one: log 80), which the fault clears when it is taken. R191, R193, R364: a copy that meets
no error reply completes whole, in one step (log 112): its scratchpad range holds the bytes of its global
range, or the other way round, and nothing else changes there; its granules are full, and its tag counts one less. One
that meets an error reply stops at the first such unit, and its tag keeps the class and the units before it. -/
def Obligations.Copies : Prop :=
  (∀ (c : Ctl) (out shd : Bool) (tag : BitVec 4) (cnv : Cnv) (d a b : Dst),
    let so := fun (s : State) (x : Iss) => (x.reg s (lowLane x.m) d 0).toNat
    let va := fun (s : State) (x : Iss) => (x.reg64 s (lowLane x.m) a 0).toNat
    let n := fun (s : State) (x : Iss) => (x.reg s (lowLane x.m) b 0).toNat
    let i := Instr.tcopy c out shd tag cnv d a b
    let bad := fun (s : State) (x : Iss) => copyBad x cnv (so s x) (va s x) (n s x)
    let told := fun (x : Iss) => x.wp.tags.getD tag.toNat Tag.idle
    let ids := fun (s : State) (x : Iss) =>
      ((s.core x.wp.core).copies.filter fun y => y.w == x.w && y.tag == tag.toNat).map Copy.id
    (∀ s x rs s', Runs s i x → bad s x = none →
      x.trAll 1 (if out then .w else .r) false shd
        ((pagesOf (va s x) (cnvGlobal cnv (n s x))).map fun p => (lowLane x.m, p)) s = (rs, s') →
      worstOf rs = none → heldOf rs = none → x.wp.drained = true → (s.core x.wp.core).copies.length < 32 →
      ∃ u wp id, exec i s = .next u ∧ CheckedBytes s u x rs ∧ u.groups = s.groups ∧
        (u.core x.wp.core).copies = (s.core x.wp.core).copies ++
          [⟨id, x.w, x.wp.gid, x.g.world, out, shd, tag.toNat, cnv, x.spPlace (so s x), va s x, n s x, pageBases rs,
            (rs.filter LReq.sm).map LReq.va, [], 0⟩] ∧
        u.warps.find x.w = some wp ∧
        Warp.Kept
          { x.wp with
            tags := x.wp.tags.setD tag.toNat { told x with out := (told x).out + 1 } Tag.idle
            shd := if shd then x.wp.shd + 1 else x.wp.shd } wp x.act x.m []) ∧
    Faults i (fun s x => (bad s x).isSome = true) 6 (fun s x => (bad s x).getD 0) (fun _ _ => 0) ∧
    CompletesIf (.tcwait c tag) (fun s x => ids s x = [] ∧ (told x).fail = none) [] (fun _ x => x.g) (fun _ x => x.wp)
      (fun _ x u => Acquired u x) ∧
    (∀ s x, Runs s (.tcwait c tag) x → ids s x ≠ [] → ∃ u, exec (.tcwait c tag) s = .next u ∧
      Waits s u x (.tcwait c tag) .tcwait ((ids s x).map fun n => (n, 1))) ∧
    (∀ s x cls off, Runs s (.tcwait c tag) x → ids s x = [] → (told x).fail = some (cls, off) → cls ≤ 14 → StopsGroup x →
      ∃ u, exec (.tcwait c tag) s = .next u ∧
        StopsWith s u x (x.flt cls x.m 0 (tag.toNat * 2 ^ 28 + off)) none (some tag.toNat))) ∧
  (∀ (s : State) (y core : Nat) (c : Copy) (g : Group) (wp : Warp), s.power ≠ .off → s.copyHead y = some (core, c) →
    s.groups.find c.gid = some g → s.warps.find c.w = some wp →
    let told := wp.tags.getD c.tag Tag.idle
    let left := fun (u : State) (t : Tag) => (∀ e ∈ (u.core core).copies, e.id ≠ y) ∧
      ∃ w', u.warps.find c.w = some w' ∧ w'.tags.getD c.tag Tag.idle = t ∧ ∀ k, k ≠ c.tag →
        w'.tags.getD k Tag.idle = wp.tags.getD k Tag.idle
    (s.copyFree core c c.count = true → s.copyFirst c 0 c.count = none →
      (∃ u, exec (.copyComplete y) s = .next u ∧ left u ⟨told.out - 1, told.fail⟩) ∧
      (c.out = false → c.soff % 16 = 0 → ∀ u, exec (.copyComplete y) s = .next u → ∃ g', u.groups.find c.gid = some g' ∧
        (∀ k, c.soff ≤ k → k < c.soff + c.spStep * c.count → g'.fe.getD (k / 16) false = true) ∧
        (∀ k, k < c.soff ∨ c.soff + c.spStep * c.count ≤ k → g'.spad.getD k 0 = g.spad.getD k 0) ∧
        ((∀ k, k < cnvGlobal c.cnv c.n → s.unscr (c.pa k) = false) →
          (∀ i j, i < c.count → j < c.spStep →
            g'.spad.getD (c.soff + c.spStep * i + j) 0 = (s.copyConv c i).1.getD j 0) ∧
          (c.cnv = .no → c.n % 16 = 0 → ∀ k, k < c.n →
            g'.spad.getD (c.soff + k) 0 = s.hbmByte (s.key c.world).key (c.pa k)))) ∧
      (c.out = true → c.cnv = .no → c.n % 16 = 0 → c.va % 16 = 0 → (∀ p ∈ c.pas, p % 4096 = 0) →
        (∀ i j, i < c.n → j < c.n → c.pa i = c.pa j → i = j) →
        ∀ u, exec (.copyComplete y) s = .next u →
          (∀ k, k < c.n → u.hbmByte (s.key c.world).key (c.pa k) = g.spad.getD (c.soff + k) 0) ∧
          ∀ a, s.unscr a = false → (∀ k, k < c.n → c.pa k ≠ a) →
            u.hbmByte (s.key c.world).key a = s.hbmByte (s.key c.world).key a)) ∧
    (∀ i cls, s.copyFirst c 0 c.count = some (i, cls) → s.copyFree core c i = true →
      ∃ u, exec (.copyErrorStop y) s = .next u ∧ left u ⟨told.out - 1, some (cls, c.step * i)⟩))

/-- R262, R263, R249: fslot and klaunch complete. klaunch answers 2 where the world's outstanding entries are at their
quota and 10 where its device launch queue is full; otherwise it answers 0 and admits a launch with a copy of the
record and a priority no higher than its own launch's. It waits for its warp's accesses first, loads in flight among them
(log 6). fslot gives the held format slot. -/
def Obligations.DeviceLaunches : Prop :=
  ∀ (c : Ctl) (n : BitVec 3) (d a : Dst),
    Gives (.fslot c n d) d 4 (fun _ x _ => leNat (x.ln.rc.slots.getD n.toNat [])) ∧
    Blocks (.klaunch c d a) .drain [] (fun _ x => x.wp.drained = false) ∧
    ∀ s x h, Runs s (.klaunch c d a) x → x.wp.drained = true →
      let va := (x.reg64 s (lowLane x.m) a 0).toNat
      let rs := [⟨lowLane x.m, va, .loc h⟩]
      let full := s.outstanding x.g.world = s.quota x.g.world
      let many := s.devQueued x.g.world = 64
      let goes := fun (u : State) (v : Nat) => exec (.klaunch c d a) s = .next u ∧ CheckedBytes s u x rs ∧
        WentOn u x (useD 1 d) ∧ Gets u x d 1 fun _ => v
      Passes s x [lowLane x.m] 256 .r false (fun _ => va) rs →
      (full → ∃ u, goes u 2 ∧ u.launches = s.launches) ∧
      (¬full → many → ∃ u, goes u 10 ∧ u.launches = s.launches) ∧
      (¬full → ¬many → s.replyErr x.g.world h.pa = none → h.sint = none →
        ∃ u bs id, goes u 0 ∧ bs.length = 256 ∧
          u.launches = s.launches.put id
            (Launch.start x.g.world none bs va (min ((bs.getD 23 0).toNat % 8) x.ln.prio) id) ∧
          ∀ k, k < 256 → s.unscr (h.pa + k) = false →
            (h.pa + k < h.leaf.addr ∨ h.leaf.addr + 8 ≤ h.pa + k) →
            bs.getD k 0 = s.hbmByte (s.key x.g.world).key (h.pa + k))

/-! ### The matrix engine -/

/-- R322 to R327, R329, R335 to R340, R342, R344: mma, mmz, accmov, accld, accst, mmstat, tfetch and tunpin complete
their issue: with a tile index in the group's share they enter the engine's queue with the registers and descriptors
that they read at issue, and their lanes wait (log 78; MatrixWork says what the engine then does). A partial quarter, an index outside
the share, an empty format slot and a descriptor with a reserved bit raise their faults. -/
def Obligations.MatrixIssue : Prop :=
  ∀ (c : Ctl) (t : Ty) (rm : Rm) (fs : BitVec 3) (qdm : Qdm) (acc zsk glb shd : Bool) (st : BitVec 2) (d e : BitVec 7)
    (av : BitVec 8) (b : BitVec 6) (r : MmCtr) (a : Dst),
    let tin := fun (x : Iss) (k : BitVec 7) => k.toNat < 8 * x.ln.rc.acc
    let mma := Instr.mma c fs qdm acc zsk st d av b
    let sound := fun (s : State) (x : Iss) => slotEmpty (x.slotBytes fs) = false ∧
      ∀ q ∈ activeQuarters x.m, descBad (mfmt (x.slotBytes fs)).nq (x.desc s qdm b q) = false
    let none_ : State → Iss → List (List Word) := fun _ _ => []
    let noAddr : State → Iss → List Nat := fun _ _ => []
    Enqueues (.mmz c d) (fun _ x => tin x d) none_ noAddr ∧
    Enqueues (.accmov c d e) (fun _ x => tin x d ∧ tin x e) none_ noAddr ∧
    Enqueues (.accld c t glb d a) (fun _ x => tin x d) (fun s x => x.rowVals s t glb a) (fun s x => x.rowAddrs s t glb a) ∧
    Enqueues (.accst c t glb shd rm d a) (fun _ x => tin x d) none_ (fun s x => x.rowAddrs s t glb a) ∧
    Enqueues (.mmstat c r a) (fun _ _ => True) none_ noAddr ∧
    (∀ i, i = Instr.tfetch c b ∨ i = Instr.tunpin c b →
      Enqueues i (fun _ _ => True) none_ fun s x => [x.pinDesc s b]) ∧
    Enqueues mma (fun s x => sound s x ∧ partialQuarter x.m = false ∧ tin x d)
      (fun s x => laneNums.map fun l => if inMask x.m l then
        (upTo 0 8).flatMap fun i => (upTo 0 4).map fun j => x.rv s l (av.toNat + astr st * i + j) else [])
      (fun s x => (upTo 0 4).map fun q => x.desc s qdm b q) ∧
    Faults mma (fun _ x => slotEmpty (x.slotBytes fs) = true) 1 (fun _ _ => 0) (fun _ _ => 13) ∧
    Faults mma (fun s x => slotEmpty (x.slotBytes fs) = false ∧
      ∃ q ∈ activeQuarters x.m, descBad (mfmt (x.slotBytes fs)).nq (x.desc s qdm b q) = true) 1 (fun _ _ => 0)
      (fun _ _ => 14) ∧
    Faults mma (fun s x => sound s x ∧ partialQuarter x.m = true) 5 (fun _ _ => 0) (fun _ _ => 0) ∧
    Faults mma (fun s x => sound s x ∧ partialQuarter x.m = false ∧ ¬tin x d) 6 (fun _ _ => d.toNat) (fun _ _ => 0) ∧
    (∀ i, i = Instr.mmz c d ∨ i = Instr.accmov c d e ∨ i = Instr.accld c t glb d a ∨ i = Instr.accst c t glb shd rm d a →
      Faults i (fun _ x => ¬tin x d) 6 (fun _ _ => d.toNat) (fun _ _ => 0)) ∧
    Faults (.accmov c d e) (fun _ x => tin x d ∧ ¬tin x e) 6 (fun _ _ => e.toNat) (fun _ _ => 0)

/-- The engine of core n is about to do the work of the instruction ins, which entered as op and is issue x (R323). -/
def engineHead (s : State) (n : Nat) (op : MatOp) (y : Wait) (x : Iss) : Prop :=
  s.power ≠ .off ∧ (∃ rest, (s.core n).matq = op :: rest) ∧ s.waits.find op.q = some y ∧ s.issWait op.q = some x ∧
    y.kind = .matrix ∧ s.matReady y op x = true

/-- The instruction that was op has left the engine of core n, and its wait is over. -/
def engineDone (u : State) (n : Nat) (op : MatOp) : Prop :=
  u.waits.find op.q = none ∧ ∀ o ∈ (u.core n).matq, o.q ≠ op.q

/-- Rows of tile d of a tier, between two groups: row r holds row r, for the rows in set; every other tile word is kept. -/
def tileSet (old new : Group) (tier : Nat) (d : BitVec 7) (set : Nat → Prop) (row : Nat → List Word) : Prop :=
  (∀ r n, set r → r < 32 → n < 16 → new.tiles.getD (tileKey tier d r n) 0 = (row r).getD n 0) ∧
  ∀ k, (∀ r n, set r → r < 32 → n < 16 → k ≠ tileKey tier d r n) → new.tiles.getD k 0 = old.tiles.getD k 0

/-- R104, R327, R328: column n of the B tile of descriptor d, where byte gives the bytes at the offsets or addresses that
the descriptor names. -/
def bColumn (byte : Nat → Byte) (f : MFmt) (d n : Nat) : List BEl :=
  let num := fun a w => leNat ((List.range w).map fun i => byte (a + i))
  (List.range f.k).map fun k =>
    if f.nq then
      let base := if descSp d then d % 2 ^ 20 else d % 2 ^ 51 * 64
      let nb := if descSp d then d / 2 ^ 43 % 2 ^ 8 + 1 else 256
      let blk := d / 2 ^ 51 % 2 ^ 8 + n * f.k / 64 + k / 64
      let code := (byte (base + 64 + nb + 32 * blk + k % 64 / 2)).toNat
      nqEl (if k % 2 = 0 then code % 16 else code / 16) (byte (base + 64 + blk)).toNat (num base 4)
    else
      let base := if descSp d then d % 2 ^ 20 else d % 2 ^ 50 * 128
      let pitch := if d / 2 ^ 50 % 2 ^ 12 = 0 then 128 else d / 2 ^ 50 % 2 ^ 12 * 128
      let w := fmtBits f.b / 8
      denseEl f.b (num (base + n * pitch + w * k) w)

/-- R323, R326 to R330, R332, R335 to R337, R339 to R342: matrixPortComplete, mmz, accmov, accld, accst, mmstat, tfetch,
tunpin and mma complete. The event of the matrix port does the work of the instruction at the head, from the registers that
it read at issue (log 78), and completes it: mmz zeroes a tile, accmov copies one, accld and accst move its rows to and from
the registers (.f32 bit for bit: log 105), mmstat reads a counter, tfetch takes a pin entry (none for a descriptor of the
scratchpad; its group's oldest where none is free; it waits where its group has none), tunpin gives its own back, and mma
replaces the rows of its active quarters. The instruction then leaves the engine. Log 79: an mma reads B, from the scratchpad
and from global memory, and writes its tile in one event. Each aligned word of a pinned descriptor may be any that the pin has
kept (R341), and a word of another is that of memory. accld of global memory starts its reads and stays, and completes when
they have returned (MemoryEvents); accst of global memory sends one write for each word, each in the store count. -/
def Obligations.MatrixWork : Prop :=
  ∀ (core : Nat) (s : State) (op : MatOp) (y : Wait) (x : Iss), engineHead s core op y x →
    let runs := fun (u : State) (g : Group) => exec (.matrixPortComplete core) s = .next u ∧ engineDone u core op ∧
      u.groups.find x.wp.gid = some g
    let tier := x.wp.tier
    let pins := fun (u : State) => (u.core x.wp.core).pins
    let desc := op.addrs.getD 0 0
    let mine := fun (p : Pin) => p.names x.g.world x.wp.gid desc
    (∀ c d, y.ins = .mmz c d → ∃ u g, runs u g ∧ tileSet x.g g tier d (fun _ => True) fun _ => List.replicate 16 0) ∧
    (∀ c d a, y.ins = .accmov c d a →
      ∃ u g, runs u g ∧ tileSet x.g g tier d (fun _ => True) fun r => x.g.tileRow tier a r) ∧
    (∀ c t glb d a, y.ins = .accld c t glb d a → glb = false ∨ op.vals ≠ [] →
      ∃ u g, runs u g ∧ tileSet x.g g tier d (fun r => inMask x.m r = true) fun r =>
        rowOf t ((op.vals.getD r []).flatMap fun w => leBytes 4 w.toNat)) ∧
    (∀ c t shd rm d i, y.ins = .accst c t false shd rm d (.v i) →
      ∃ u g, runs u g ∧ g.tiles = x.g.tiles ∧
        g.gflags = x.g.gflags ||| (maskLanes x.m).foldl
          (fun f l => f ||| (rowOut t rm (x.g.tileRow tier d l)).2) 0 ∧
        Gets u x (.v i) (rowRegs t) fun l => leNat (rowOut t rm (x.g.tileRow tier d l)).1) ∧
    (∀ c t d a rs s1, y.ins = .accld c t true d a → op.vals = [] →
      x.trAll (rowBytes t) .r false false ((maskLanes x.m).map fun l => (l, op.addrs.getD l 0)) s = (rs, s1) →
      worstOf rs = none → heldOf rs = none →
      ∃ u n wp, exec (.matrixPortComplete core) s = .next u ∧ CheckedBytes s u x rs ∧
        u.txns.find n = some ⟨x.w, x.wp.core, x.g.world, .load, y.ins, x.m, x.pc,
          rs.flatMap (fun r => r.units (rowBytes t) 4 []), [], 0, [], [], some op.q⟩ ∧
        u.waits.find op.q = some { y with stat := [(3, 0)] } ∧ (u.core core).matq = (s.core core).matq ∧
        u.warps.find x.w = some wp ∧ wp.loads = x.wp.loads + 1) ∧
    (∀ c t shd rm d a rs s1, y.ins = .accst c t true shd rm d a →
      x.trAll (rowBytes t) .w false shd ((maskLanes x.m).map fun l => (l, op.addrs.getD l 0)) s = (rs, s1) →
      worstOf rs = none → heldOf rs = none →
      let us := rs.flatMap fun r => r.units (rowBytes t) 4 (rowOut t rm (x.g.tileRow tier d r.lane)).1
      ∃ u g n wp, runs u g ∧ CheckedBytes s u x rs ∧ g.tiles = x.g.tiles ∧
        g.gflags = x.g.gflags ||| (maskLanes x.m).foldl
          (fun f l => f ||| (rowOut t rm (x.g.tileRow tier d l)).2) 0 ∧
        u.txns.find n =
          some ⟨x.w, x.wp.core, x.g.world, .store, y.ins, x.m, x.pc, us, [], us.length, [], [], none⟩ ∧
        u.warps.find x.w = some wp ∧ wp.stores = x.wp.stores + us.length) ∧
    (∀ c r d, y.ins = .mmstat c r d → ∃ u g, runs u g ∧ g = x.g ∧ Gets u x d 1 fun _ => mmCounter r x s) ∧
    (∀ c b, y.ins = .tfetch c b →
      (descSp desc = true → ∃ u g, runs u g ∧ g = x.g ∧ pins u = pins s) ∧
      (descSp desc = false → x.pinWay s desc = none →
        let others := fun (ps : List Pin) => (ps.filter fun p => !mine p).map fun p => { p with old := [] }
        let room := (∃ p ∈ pins s, mine p = true ∧ p.held = true) ∨ (s.core x.wp.core).pinsHeld < 16
        let own := ∃ p ∈ pins s, p.gid = x.wp.gid ∧ p.held = true
        (room → ∃ u g, runs u g ∧ g = x.g ∧ (∃ p ∈ pins u, mine p = true ∧ p.held = true) ∧
          others (pins u) = others (pins s)) ∧
        (¬room → own → ∃ u g, runs u g ∧ g = x.g ∧ (∃ p ∈ pins u, mine p = true ∧ p.held = true) ∧
          others (pins u) = others (dropOldest x.wp.gid (pins s))) ∧
        (¬room → ¬own → ∃ u, exec (.matrixPortComplete core) s = .next u ∧ pins u = pins s ∧
          u.waits.find op.q = some { y with kind := .tfetch, since := x.clk, stat := [(5, desc)] }))) ∧
    (∀ c b, y.ins = .tunpin c b → ∃ u g, runs u g ∧ g = x.g ∧ pins u = (pins s).filter fun p => !mine p) ∧
    (∀ c fs qdm acc zsk st d a b rs s1, y.ins = .mma c fs qdm acc zsk st d a b →
      let f := mfmt (x.slotBytes fs)
      let of := fun q => op.addrs.getD q 0
      let ds := ((activeQuarters x.m).map of).eraseDups
      let key := (s.key x.g.world).key
      (∀ q ∈ activeQuarters x.m, x.descAlign f.nq f.k (of q) = none) →
      x.trAll 1 .r false false ((ds.flatMap fun e => descPages f.nq f.k e).map fun p => (lowLane x.m, p)) s = (rs, s1) →
      (∀ r ∈ rs, ∃ h, r.tr = .loc h ∧ h.sint = none ∧ s.replyErr x.g.world h.pa = none ∧
        s.away (coreDie x.wp.core) h.pa = false ∧ s.unscr h.pa = false ∧
        ∀ r' ∈ rs, ∀ h', r'.tr = .loc h' →
          h.pa / 4096 ≠ h'.leaf.addr / 4096 ∧ h.pa / 4096 ≠ (h'.leaf.addr + 7) / 4096) →
      ∃ u g, ∃ word : Nat → Nat → List Byte, runs u g ∧
        (∀ e k, (∃ r ∈ rs, r.va / 4096 = k / 1024) →
          word e k = (List.range 4).map (fun i => s.hbmByte key (paOf rs (4 * k) + i)) ∨
          ∃ n ∈ s.cores, ∃ p ∈ n.2.pins, p.names x.g.world x.wp.gid e = true ∧ (k, word e k) ∈ p.old) ∧
        tileSet x.g g tier d (fun r => r / 8 ∈ activeQuarters x.m) fun r =>
          let e := of (r / 8)
          let byte := fun i => if descSp e then x.g.spad.getD (x.spPlace i) 0 else (word e (i / 4)).getD (i % 4) 0
          (mmaRow s1 f acc zsk (x.g.tileRow tier d r) r (rowA f.a (op.vals.getD r []))
            ((upTo 0 16).map fun n => bColumn byte f e n)).1)

/-! ### Pages and units -/

/-- R355, R356, R366, R367: publish of assigned pairs, once the warp's accesses are done, flips their selectors and
raises the world's epoch in one step; a number that is not assigned, or out of range, raises its fault and flips
nothing. sfetch starts the fetch of an ABSENT tile, sevict the departure of a RESIDENT one, and sstat reads a tile; a
lane outside Sinter pages, or whose translation fails (log 111), reads 0. publish and sevict wait for their warp's accesses,
loads in flight among them (log 6). Each of the four completes; R373, R378: a request, or a walk for one, that is held at its
sender makes the last three wait. -/
def Obligations.Pages : Prop :=
  ∀ (c : Ctl) (d a b : Dst),
    let p := fun (s : State) (x : Iss) => (x.reg s (lowLane x.m) a 0).toNat
    let n := fun (s : State) (x : Iss) => (x.reg s (lowLane x.m) b 0).toNat
    let mine := fun (s : State) (x : Iss) => ∀ k, p s x ≤ k → k < p s x + n s x → s.pairOf x.g.world k = true
    let quiet := fun (x : Iss) => x.wp.drained = true ∧ x.wp.shd = 0
    let found := fun (s : State) (x : Iss) =>
      (x.trAll 1 .none false false ((maskLanes x.m).map fun l => (l, (x.reg64 s l a 0).toNat)) s).1
    let held := fun (s : State) (x : Iss) => x.heldBack s (found s x)
    let tile := fun (s : State) (x : Iss) (l r t : Nat) (y : STile) => l < 32 ∧ x.m = oneLane l ∧
      (found s x).map LReq.tile = [some (r, t)] ∧ ∃ g, s.regions[r]? = some g ∧ g.tiles[t]? = some y
    let now := fun (u : State) (r t : Nat) (y : STile) => ∃ g, u.regions[r]? = some g ∧ g.tiles[t]? = some y
    (∀ s x, Runs s (.publish c a b) x → p s x + n s x ≤ 4096 → mine s x → quiet x →
      ∃ u, exec (.publish c a b) s = .next u ∧ WentOn u x [] ∧
        u = { s with warps := u.warps, pubTab := u.pubTab, epochs := u.epochs } ∧
        (∀ k y, s.pubTab.find k = some y → u.pubTab.find k =
          some (if p s x ≤ k ∧ k < p s x + n s x then { y with sel := !y.sel } else y)) ∧
        u.epochs.getD x.g.world 0 = s.epochs.getD x.g.world 0 + (if n s x = 0 then 0 else 1) ∧
        ∀ w, w ≠ x.g.world → u.epochs.getD w 0 = s.epochs.getD w 0) ∧
    Blocks (.publish c a b) .drain [] (fun s x => p s x + n s x ≤ 4096 ∧ mine s x ∧ ¬quiet x) ∧
    Faults (.publish c a b) (fun s x => 4096 < p s x + n s x) 6 (fun s x => p s x) (fun _ _ => 0) ∧
    (∀ k, Faults (.publish c a b) (fun s x => p s x + n s x ≤ 4096 ∧ p s x ≤ k ∧ k < p s x + n s x ∧
      s.pairOf x.g.world k = false ∧ ∀ j, p s x ≤ j → j < k → s.pairOf x.g.world j = true) 9 (fun _ _ => k)
      (fun _ _ => 0)) ∧
    (∀ s x, Runs s (.sfetch c a) x → held s x = none →
      ∃ u, exec (.sfetch c a) s = .next u ∧ WentOn u x [] ∧ CheckedBytes s u x [] ∧
        ∀ l r t y, tile s x l r t y → now u r t
          (if y.st = .absent then { y with st := .arriving }
           else if y.st = .leaving then { y with refetch := true } else y)) ∧
    (∀ s x, Runs s (.sevict c a) x → x.wp.drained = true → held s x = none →
      ∃ u, exec (.sevict c a) s = .next u ∧ WentOn u x [] ∧ CheckedBytes s u x [] ∧
        ∀ l r t y, tile s x l r t y → now u r t (if y.st = .resident then { y with st := .leaving } else y)) ∧
    Blocks (.sevict c a) .drain [] (fun _ x => x.wp.drained = false) ∧
    (∀ s x, Runs s (.sstat c d a) x → held s x = none →
      ∃ u, exec (.sstat c d a) s = .next u ∧ WentOn u x (useD 1 d) ∧ CheckedBytes s u x [] ∧ u.regions = s.regions ∧
        (∀ l r t y g, tile s x l r t y → s.regions[r]? = some g → Gets u x d 1 fun _ =>
          2 ^ 31 + y.st.code * 2 ^ 29 + (if y.sat then 2 ^ 28 else 0) + (if y.inv then 2 ^ 27 else 0) +
            y.log.length % 512 * 2 ^ 18 + y.cap % 512 * 2 ^ 9 + g.num % 16) ∧
        ∀ l, l < 32 → x.m = oneLane l → (found s x).map LReq.tile = [none] → Gets u x d 1 fun _ => 0) ∧
    ∀ s x pa i, i ∈ [Instr.sfetch c a, .sevict c a, .sstat c d a] → Runs s i x →
      (i = .sevict c a → x.wp.drained = true) → held s x = some pa → ∃ u, exec i s = .next u ∧
        u.waits.find s.nextId = some ⟨x.w, i, x.m, x.pc, x.clk, .drain, [(1, pa), (2, 0)], false⟩

/-- R410 to R416: rflv, bstat and wrec (a record as of the last tick) read and complete; boost waits for its decision,
and a count of ticks outside 1 to 4,095 raises ALIGN; pgate.on gates a quiet upper core, asks for the gate of one that
is not, stays asked for where it was, and is refused where the core rests, drains or holds another world; a core that wakes is
asked for again, by the group that asked first; pgate.off opens what was asked for or gated. -/
def Obligations.Units : Prop :=
  ∀ (c : Ctl) (lvl : BitVec 2) (k : WKind) (d a : Dst),
    let up := fun (x : Iss) => 2 * coreCol x.wp.core + 1
    let barred := fun (s : State) (x : Iss) => (∃ t r, (s.core (up x)).rest = .resting t r) ∨
      (s.core (up x)).drain = true ∨ s.otherWorld x.g.world (up x) = true
    let unit := fun (s : State) (x : Iss) => (x.reg s (lowLane x.m) a 0).toNat
    let gates := fun (i : Instr) (s : State) (x : Iss) (v : Nat) (g : Gate) => ∃ u, exec i s = .next u ∧
      WentOn u x (useD 1 d) ∧ Gets u x d 1 (fun _ => v) ∧ u.core (up x) = { s.core (up x) with gate := g } ∧
      (∀ n, n ≠ up x → u.core n = s.core n) ∧ SameBytes s u
    Gives (.rflv c d) d 1 (fun s x _ => ((s.partOf x.g.world).map fun p => p.reef).getD 0) ∧
    Gives (.bstat c d) d 2 (fun s x _ =>
      min (((s.partOf x.g.world).map fun p => p.lbr).getD 0 / 256) (2 ^ 40 - 1) * 2 ^ 24 +
        ((x.g.grant.map fun g => g.left).getD 0) % 4096 * 2 ^ 5 +
        ((x.g.grant.map fun g => if g.left = 0 then 0 else g.lvl).getD 0) % 4 * 2 ^ 3 + x.g.lastBoost % 8) ∧
    Gives (.wrec c k d a) d 2 (fun s x _ =>
      if 816 < unit s x ∨ unit s x < 640 ∧ x.g.world ≠ 1024 ∧
          s.corePart (unit s x % 320) ≠ s.worldPart x.g.world then 2 ^ 64 - 1
      else match k with
        | .bsu => (s.lastWear (unit s x)).bsu
        | .hsu => (s.lastWear (unit s x)).hsu
        | .esu => (s.lastWear (unit s x)).esu) ∧
    (∀ v, 0 < v → v ≤ 4095 → Blocks (.boost c lvl d a) .boost [(0, v)] (fun s x => unit s x = v)) ∧
    Faults (.boost c lvl d a) (fun s x => unit s x = 0 ∨ 4095 < unit s x) 6 unit (fun _ _ => 0) ∧
    (∀ s x, Runs s (.pgateOn c d) x →
      (barred s x → gates (.pgateOn c d) s x 3 (s.core (up x)).gate) ∧
      (∀ g r, ¬barred s x → (s.core (up x)).gate = .gated g r →
        gates (.pgateOn c d) s x 1 (.gated g r)) ∧
      (∀ g, ¬barred s x → (s.core (up x)).gate = .pending g →
        if s.quiet (up x) then gates (.pgateOn c d) s x 1 (.gated g 0) else gates (.pgateOn c d) s x 0 (.pending g)) ∧
      (∀ t g, ¬barred s x → (s.core (up x)).gate = .waking t g →
        gates (.pgateOn c d) s x 0 (.waking t (some (g.getD x.wp.gid)))) ∧
      (¬barred s x → (s.core (up x)).gate = .open → s.quiet (up x) = true →
        gates (.pgateOn c d) s x 1 (.gated x.wp.gid 0)) ∧
      (¬barred s x → (s.core (up x)).gate = .open → s.quiet (up x) = false →
        gates (.pgateOn c d) s x 0 (.pending x.wp.gid))) ∧
    (∀ s x, Runs s (.pgateOff c d) x →
      ((s.core (up x)).gate = .open → gates (.pgateOff c d) s x 2 .open) ∧
      (∀ g, (s.core (up x)).gate = .pending g → gates (.pgateOff c d) s x 2 .open) ∧
      (∀ t g, (s.core (up x)).gate = .waking t g → gates (.pgateOff c d) s x 2 (.waking t none)) ∧
      (∀ g r, (s.core (up x)).gate = .gated g r →
        gates (.pgateOff c d) s x 2 (.waking (s.core (up x)).clk none)))

/-! ### Events of memory accesses -/

/-- R152, R157 to R159, R168, R175 to R177, R181, R182: loadDataReturn, writeUnitPerformed, atomicElementApplied,
storeAcknowledged and errorReply complete. The units of a load in one 32-byte sector take the bytes at its home slice
together, and the last of them writes the registers and ends the load, or gives an accld its rows; those of a store write
their bytes and no others, a higher lane over a lower one; the lanes that name an atomic element are applied to it in one
step; the acknowledgement of a store lowers the store count; an error reply stops the group with the lanes that were
performed, its LANES those of M (log 26), and keeps the access for a resume under its number (log 29). R181: the value that
an atomic element of an integer type leaves. -/
def Obligations.MemoryEvents : Prop :=
  (∀ (s : State) (x u : Nat) (t : Txn) (a : Acc), s.power ≠ .off → (s.core t.core).gate = .open → a.port = none →
    let key := (s.key t.world).key
    let us := t.with a
    let same := fun (v : State) (lo n : Nat) => ∀ b, b < lo ∨ lo + n ≤ b → v.hbmByte key b = s.hbmByte key b
    let fresh := ∀ b ∈ us, b.pa % 32 + b.n ≤ 32 ∧
      (b.mt = 1 ∨ (s.core t.core).l1.find (l1Key t.world b.pa) = none)
    let got := t.got ++ us.map fun b => { b with data := s.hbmBytes key b.pa b.n }
    (s.unitNow x u .load = some (t, a) → t.q = none → fresh → (t.done us).units ≠ [] →
      ∃ v, exec (.loadDataReturn x u) s = .next v ∧ SameBytes s v ∧ v.warps = s.warps ∧
        v.txns.find x = some { t.done us with got := got }) ∧
    (∀ c ty ch n i b off wp, s.unitNow x u .load = some (t, a) → t.q = none → fresh → (t.done us).units = [] →
      t.ins = .ld c ty ch n (.v i) b off → s.warps.find t.w = some wp →
      ∃ v wp', exec (.loadDataReturn x u) s = .next v ∧ SameBytes s v ∧ v.txns.find x = none ∧
        v.warps.find t.w = some wp' ∧ wp'.loads = wp.loads - 1 ∧ (∀ h ∈ wp'.score, h.tx ≠ some x) ∧
        ∀ l j, l < wp.lanes.length → inMask t.m l = true → j < accRegs ty n →
          (wp'.lane l).v.getD (i.toNat + j) 0 = BitVec.ofNat 32
            ((if accRegs ty n = 1 then tyExt ty (gotVal got l) else gotVal got l) / 2 ^ (32 * j))) ∧
    (∀ c ty glb d b q, s.unitNow x u .load = some (t, a) → t.q = some q → fresh → (t.done us).units = [] →
      t.ins = .accld c ty glb d b →
      ∃ v, exec (.loadDataReturn x u) s = .next v ∧ SameBytes s v ∧ v.txns.find x = none ∧
        ∀ o ∈ (v.core t.core).matq, o.q = q → ∀ l j, l < 32 → j < 16 →
          (o.vals.getD l []).getD j 0 = BitVec.ofNat 32 (gotVal got l / 2 ^ (32 * j))) ∧
    (s.unitNow x u .store = some (t, a) → (∀ b ∈ us, b.pa % 32 + b.data.length ≤ 32) →
      let out := fun (k : Nat) (b : Acc) => k < b.pa ∨ b.pa + b.data.length ≤ k
      ∃ v, exec (.writeUnitPerformed x u) s = .next v ∧ v.warps = s.warps ∧ v.hostMem = s.hostMem ∧
        v.txns.find x = some (t.done us) ∧
        (∀ k, (∀ b ∈ us, out k b) → v.hbmByte key k = s.hbmByte key k) ∧
        ∀ pre b post j, us = pre ++ b :: post → j < b.data.length → (∀ d ∈ post, out (b.pa + j) d) →
          v.hbmByte key (b.pa + j) = b.data.getD j 0) ∧
    (s.unitNow x u .atomic = some (t, a) → s.elemOk x t a = true → a.pa % 32 + a.n ≤ 32 →
      let r := applyLanes (aopOf t.ins).1 (aopOf t.ins).2 (s.hbmNat key a.pa a.n) (t.units.filter a.same)
      ∃ v, exec (.atomicElementApplied x u) s = .next v ∧ v.hostMem = s.hostMem ∧ same v a.pa a.n ∧
        (∀ j, j < a.n → v.hbmByte key (a.pa + j) = (leBytes a.n r.2.1).getD j 0) ∧
        (t.owed ≠ 0 → v.txns.find x = some (r.2.2.foldl (fun t e => t.report e.1 e.2)
          { t with units := t.units.filter fun b => !a.same b }))) ∧
    (∀ wp, s.txns.find x = some t → t.units = [] → 0 < t.owed → s.warps.find t.w = some wp →
      ∃ v wp', exec (.storeAcknowledged x) s = .next v ∧ SameBytes s v ∧ v.txns.find x = none ∧
        v.warps.find t.w = some wp' ∧ wp'.stores = wp.stores - t.owed ∧
        ∀ l, (wp'.lane l).v = (wp.lane l).v ∧ (wp'.lane l).pc = (wp.lane l).pc) ∧
    (∀ y code k va, s.txns.find x = some t → t.kind = .load → t.q = none → s.allFailed x t = true →
      s.worstUnit t t.units = some (code, k, va) → code % 32 ≤ 14 → s.issOf t = some y → y.g.pend = none →
      (∃ l ∈ maskLanes t.takers, (y.wp.lane l).task = none) →
      ∃ v g, exec (.errorReply x) s = .next v ∧ SameBytes s v ∧ v.groups.find y.wp.gid = some g ∧
        g = { y.g with
          gflags := g.gflags, st := if y.g.st = .resident then .stopping else y.g.st
          pend := some (s.pendOf y { y.flt (code % 32) t.takers va 0 with perf := perfMask t, lvl := code / 32 }
            none none) } ∧
        ((∀ e ∈ s.txns, e.2.kind ≠ .atomic) → g.gflags = y.g.gflags) ∧
        (t.anew = false → v.txns.find x = some { t with
            units := (t.got ++ t.units).map (fun b => { b with data := [], err := none })
            got := [], owed := if t.owed = 0 then 0 else t.units.length, flags := [] } ∧
          ∃ wp, v.warps.find t.w = some wp ∧ x ∈ wp.redo))) ∧
  (∀ (t : Ty) (old x y : Nat), t ∈ [Ty.i32, .n32, .i64, .n64, .b32, .b64] →
    old < 2 ^ t.bits → x < 2 ^ t.bits → y < 2 ^ t.bits →
    let bv := fun (v : Nat) => BitVec.ofNat t.bits v
    let gives := fun (op : Aop) (v : BitVec t.bits) => applyOp op t old x = Res.of v.toNat
    gives .add (bv old + bv x) ∧
    gives .and (bv old &&& bv x) ∧ gives .or (bv old ||| bv x) ∧ gives .xor (bv old ^^^ bv x) ∧
    gives .min (if tyLt t (bv x) (bv old) then bv x else bv old) ∧
    gives .max (if tyLt t (bv old) (bv x) then bv x else bv old) ∧
    gives .inc (if bv x ≤ bv old then 0 else bv old + 1) ∧
    gives .dec (if bv old = 0 ∨ bv x < bv old then bv x else bv old - 1) ∧
    gives .exch (bv x) ∧
    applyOp .cas t old (x + y * 2 ^ t.bits) = Res.of (if old = x then y else old))

/-- R209, R345, R347, R352, R364: pageWalk, firstTouchScrub and backgroundScrub complete. A walk leaves its leaf in the
die's cache, and touches no warp, no group and no byte of a scrubbed granule (the accessed and dirty bits are set by
accesses: LoadsAndStores); a granule is scrubbed to zeros at its first touch, or in the background, where it reads 0 under
every key (log 33), and no byte outside it changes. -/
def Obligations.WalksAndScrubs : Prop :=
  ∀ (s : State), s.power ≠ .off →
    (∀ die world va wr, ∃ u, exec (.pageWalk die world va wr) s = .next u ∧ u.warps = s.warps ∧ u.groups = s.groups ∧
      (∀ a, s.unscr a = false → u.hbmByte (s.key world).key a = s.hbmByte (s.key world).key a) ∧
      ∀ l s', va < 2 ^ 57 → s.walk die world va = (.leaf l, s') →
        ∃ t ∈ u.tcache, t.die = die ∧ t.world = world ∧ t.lvl = l.lvl ∧ t.vpn = vpnOf va l.lvl ∧ t.ent = l.ent) ∧
    (∀ g w, s.toucher g = some w → s.unscrubbed.getD g false = true →
      ∃ u, exec (.firstTouchScrub g) s = .next u ∧ u.unscrubbed.getD g false = false ∧
        (∀ a, a / 4096 = g → u.hbmByte (s.key w).key a = 0) ∧
        ∀ key a, a / 4096 ≠ g → u.hbmByte key a = s.hbmByte key a) ∧
    (∀ e rest, s.unscrubbed = e :: rest →
      ∃ u, exec .backgroundScrub s = .next u ∧ u.unscrubbed.getD e.1 false = false ∧
        (∀ key a, a / 4096 = e.1 → u.hbmByte key a = 0) ∧
        ∀ key a, a / 4096 ≠ e.1 → u.hbmByte key a = s.hbmByte key a)

/-! ### Events that end waits -/

/-- R117, R168, R180, R184, R185, R192, R237, R241, R295, R299, R302, R317, R340: feLoadComplete, feTimeout,
waitaRelease, waitaTimeout, waitaFullReturn, tcwaitReturn, tqPushTakesEffect, tqPopTakesEffect, cntwaitSatisfied,
barComplete, rallocGrant, vputTakesEffect, vgetTakesEffect, tfetchEntryGranted, tfetchTimeout, storeCountDrained and
watchdog complete. Each waiting instruction goes on with its effect when its event comes: a full-empty load with all
granules full, waita with its statuses, tcwait, the tile queues, a satisfied counter wait, a barrier whose phase has
ended, ralloc, the vertical FIFOs, tfetch and a release point. A full-empty load that has waited 2^22 cycles, and a
warp whose yield counter has run out, stop their group. Logs: a waita lane that the comparison found CHANGED or FULL keeps
that status (75), and its timeout counts from the end of its comparisons (128); ADDR of FE_TIMEOUT is 0 (114); a push and a
put acquire as a pop and a get do (76); what waits for its warp's accesses waits for loads in flight too (6). -/
def Obligations.WaitsEnd : Prop :=
  ∀ (s : State) (q : Nat) (y : Wait) (x : Iss),
    let alone := x.g.pend = none ∧ ∃ l ∈ maskLanes x.m, (x.wp.lane l).task = none
    let stops := fun (u : State) (f : FRec) => u.groups.find x.wp.gid = some
      { x.g with st := if x.g.st = .resident then .stopping else x.g.st, pend := some (s.pendOf x f none none) }
    let after := fun (i : Instr) (us : List Use) (g : Group) (post : State → Prop) =>
      ∃ u, exec i s = .next u ∧ Resumed u q x us ∧ u.groups.find x.wp.gid = some g ∧ post u
    let all : State → Prop := fun _ => True
    (s.power ≠ .off → s.iss Ctl.plain = some x → x.q = none → x.m ≠ 0 → alone →
      ∃ u, exec .watchdog s = .next u ∧ Stops s u x (x.flt 14 x.m 0 0)) ∧
    (Wakes s q y x →
    (∀ c t n fe clr d a off, y.kind = .fe → y.ins = .ldsp c t n fe clr d a off →
      (∀ l ∈ maskLanes x.m, x.spBad (x.spOff s l a off) (accSize t n) (accSize t n) = false) →
      x.allFull (x.offs s a off) = true →
      after (.feLoadComplete q) (useD (accRegs t n) d)
        (if clr then { x.g with fe := feSets x.g.fe ((maskLanes x.m).map fun l => x.granule (x.spOff s l a off)) false }
         else x.g) fun u => Gets u x d (accRegs t n) fun l => x.spVal t n (x.spOff s l a off)) ∧
    (y.kind = .fe → feOk s y x = false → 2 ^ 22 ≤ x.clk - y.since → alone →
      ∃ u, exec (.feTimeout q) s = .next u ∧ u.waits.find q = none ∧ stops u (x.flt 13 x.m 0 0)) ∧
    (∀ c tmo d a off, y.kind = .sleep → s.compared q = true → y.ins = .waita c tmo d a off → x.m ≠ 0 →
      after (.waitaRelease q) (useD 1 d) x.g (fun u => Gets u x d 1 (fun l => y.stat.getD l 5) ∧
        ∀ m ∈ u.monitors, m.q ≠ q) ∧
      (y.sat = false → (∀ e ∈ y.stat, e.2 ≠ 4) → tmoCycles tmo ≤ x.clk - y.since →
        after (.waitaTimeout q) (useD 1 d) x.g fun u => Gets u x d 1 (fun l => y.stat.getD l 3) ∧
          ∀ m ∈ u.monitors, m.q ≠ q) ∧
      ((∃ e ∈ y.stat, e.2 = 4) →
        after (.waitaFullReturn q) (useD 1 d) x.g fun u => Gets u x d 1 (fun l => y.stat.getD l 5) ∧
          ∀ m ∈ u.monitors, m.q ≠ q)) ∧
    (∀ c tag, y.kind = .tcwait → y.ins = .tcwait c tag →
      (∀ k ∈ (s.core x.wp.core).copies, k.w = x.w → k.tag = tag.toNat → y.stat.find k.id = none) →
      (x.wp.tags.getD tag.toNat Tag.idle).fail = none →
      after (.tcwaitReturn q) [] x.g fun u => Acquired u x) ∧
    (∀ c n d, y.kind = .tqpush → y.ins = .tqpush c n d → (x.g.tq n).slots ≠ 0 → x.wp.drained = true →
      0 < (x.g.tq n).allow → after (.tqPushTakesEffect q) []
        { x.g with tqs := x.g.tqs.put n.toNat { x.g.tq n with
          content := (x.g.tq n).content ++ [(x.reg s (lowLane x.m) d 0, x.wp.tier)], allow := (x.g.tq n).allow - 1 } }
        fun u => Acquired u x) ∧
    (∀ c d n e es, y.kind = .tqpop → y.ins = .tqpop c d n → (x.g.tq n).slots ≠ 0 → x.wp.drained = true →
      (x.g.tq n).content = e :: es →
      after (.tqPopTakesEffect q) (useD 1 d)
        { x.g with tqs := x.g.tqs.put n.toNat { x.g.tq n with content := es, allow := (x.g.tq n).allow + 1 } }
        fun u => Acquired u x ∧ Gets u x d 1 fun _ =>
          (if x.g.pair && e.2 != x.wp.tier then e.1 ^^^ 0x80000 else e.1).toNat) ∧
    (∀ c a b, y.kind = .counter → y.ins = .cntwait c a b → y.sat = true →
      (s.counterOf x.g.world (x.reg s (lowLane x.m) a 0).toNat).isSome = true →
      after (.cntwaitSatisfied q) [] x.g fun u => Acquired u x) ∧
    (∀ c b, y.kind = .bar → y.ins = .barWait c b → y.stat = [(0, b.toNat)] → x.wp.isTask = false →
      (x.wp.bar b.toNat).done = true → (x.wp.bar b.toNat).trp = .no → s.barWaits x.w b.toNat = [q] →
      after (.barComplete q) [] x.g fun u => Acquired u x ∧ ∃ wp, u.warps.find x.w = some wp ∧
        (wp.bar b.toNat).done = false) ∧
    (∀ c n, y.ins = .ralloc c n → rallocOk s y x = true → x.wp.held.getLsbD n.toNat = false →
      ∃ u wp, exec (.rallocGrant q) s = .next u ∧ u.waits.find q = none ∧ u.warps.find x.w = some wp ∧
        wp.held = x.wp.held ||| BitVec.ofNat 8 (2 ^ n.toNat) ∧
        ∀ l, l < x.wp.lanes.length → inMask x.m l = true → (x.wp.lane l).wait = some q →
          (wp.lane l).wait = none ∧ (wp.lane l).pc = (x.wp.lane l).pc + 12) ∧
    (∀ c f d, y.kind = .vput → y.ins = .vput c f d → x.g.pair = true → f.toNat / 2 = x.wp.tier → x.wp.drained = true →
      (x.g.fifo f).length < 16 → after (.vputTakesEffect q) []
        { x.g with vfifo := (x.g.vfifo.setD f.toNat
            (x.g.fifo f ++ [laneNums.map fun l => if inMask x.m l then x.reg s l d 0 else 0]) []) }
        fun u => Acquired u x) ∧
    (∀ c f d e es, y.kind = .vget → y.ins = .vget c f d → x.g.pair = true → f.toNat / 2 ≠ x.wp.tier →
      x.wp.drained = true → x.g.fifo f = e :: es → after (.vgetTakesEffect q) (useD 1 d)
        { x.g with vfifo := x.g.vfifo.setD f.toNat es [] }
        fun u => Acquired u x ∧ Gets u x d 1 fun l => (e.getD l 0).toNat) ∧
    (∀ d, y.kind = .tfetch → y.stat = [(5, d)] →
      let mine := fun (p : Pin) => p.names x.g.world x.wp.gid d
      let pins := fun (u : State) => (u.core x.wp.core).pins
      let others := fun (ps : List Pin) => (ps.filter fun p => !mine p).map fun p => { p with old := [] }
      let pin := fun (u : State) (held : Bool) => (∃ p ∈ pins u, mine p = true ∧ p.held = held) ∧
        others (pins u) = others (pins s)
      x.pinWay s d = none →
      ((s.core x.wp.core).pinsHeld < 16 → after (.tfetchEntryGranted q) [] x.g fun u => pin u true) ∧
      (4096 ≤ x.clk - y.since ∨ x.g.preempt = true → (∀ p ∈ pins s, mine p = true → p.held = false) →
        after (.tfetchTimeout q) [] x.g fun u => pin u false)) ∧
    (∀ c a off, y.kind = .drain → y.stat = [] → y.ins = .feset c a off → x.wp.drained = true →
      (∀ l ∈ maskLanes x.m, x.spBad (x.spOff s l a off) 1 1 = false ∧ x.spOff s l a off < 2 ^ 19) →
      after (.storeCountDrained q) []
        { x.g with fe := feSets x.g.fe ((maskLanes x.m).map fun l => x.granule (x.spOff s l a off)) true } all))

/-- R266, R274, R275, R281: await, awaitReturn, awaitHelp, blockRelease, blockRestore and variableLatencyResult
complete. await returns in a lane whose innermost frame is done; a lane that has waited 4,096 cycles helps with a
record of the frame it awaits; a warp idle as long gives up its dynamic blocks, with their contents in the block save
area of its core (R441; the place in it is the model's choice, log 81), and gets them back when it can go on. The event of a
result of variable latency only frees the scoreboard: its value stands in the register since the issue (log 7). -/
def Obligations.LanesWait : Prop :=
  ∀ (s : State) (q l : Nat) (y : Wait) (wp : Warp), s.power ≠ .off → l < wp.lanes.length →
    (∀ c i fr rest, s.laneWaits q l = some (y, wp) → (s.core wp.core).gate = .open → y.kind = .await →
      y.ins = .await c (.v i) → wp.saved = 0 → (wp.lane l).frames = fr :: rest → fr.count = 0 →
      ∃ u wp', exec (.awaitReturn q l) s = .next u ∧ u.warps.find y.w = some wp' ∧
        (wp'.lane l).frames = rest ∧ (wp'.lane l).v.getD i.toNat 0 = BitVec.ofNat 32 fr.failed ∧
        (wp'.lane l).wait = none ∧ (wp'.lane l).pc = (wp.lane l).pc + 12 ∧
        ∀ k, k ≠ l → k < wp.lanes.length → (wp'.lane k).v = (wp.lane k).v ∧ (wp'.lane k).pc = (wp.lane k).pc ∧
          (wp'.lane k).frames = (wp.lane k).frames) ∧
    (∀ r, s.helps q l = some (y, wp, r) → (s.core wp.core).gate = .open → (wp.lane l).exited = false →
      ∃ u wp', exec (.awaitHelp q l) s = .next u ∧ u.warps.find y.w = some wp' ∧
        r ∈ (s.core wp.core).recs ∧
        (u.core wp.core).recs = (s.core wp.core).recs.erase r ∧
        (wp'.lane l).task = some r.inlineTask ∧ (wp'.lane l).pc = BitVec.ofNat 64 r.entry ∧ (wp'.lane l).mr = 0 ∧
        (wp'.lane l).wait = none ∧ (wp'.lane l).frames = (wp.lane l).frames ∧
        (wp'.lane l).conts = ⟨(wp.lane l).pc, (wp.lane l).mr, (wp.lane l).g, (wp.lane l).task, (wp.lane l).base,
          (wp.lane l).ending == some true, true⟩ :: (wp.lane l).conts) ∧
    (∀ w g, s.warps.find w = some wp → s.groups.find wp.gid = some g → s.runs w = true → s.longIdle wp = true →
      s.stirs wp = false → wp.score = [] → wp.freeable ≠ 0 →
      let b := wp.freeable
      ∃ u wp', exec (.blockRelease w) s = .next u ∧
        u = { s with warps := u.warps, mem := u.mem, secKey := u.secKey } ∧ u.warps.find w = some wp' ∧
        wp'.held = wp.held &&& ~~~b ∧ wp'.saved = wp.saved ||| b ∧
        (∀ k i, k < wp.lanes.length → (wp'.lane k).v.getD i 0 =
          if 128 ≤ i ∧ b.getLsbD ((i - 128) / 16) = true then 0 else (wp.lane k).v.getD i 0) ∧
        ∀ k i, k < 32 → i < 128 → b.getLsbD (i / 16) = true →
          u.hbmNat (s.key g.world).key (s.areaAt wp k i) 4 = ((wp.lane k).v.getD (128 + i) 0).toNat) ∧
    (∀ w g, s.warps.find w = some wp → s.groups.find wp.gid = some g → wp.saved ≠ 0 →
      s.idle wp = false ∨ s.stirs wp = true →
      blockCount wp.saved ≤ s.freeBlocks wp.gid wp.core (((s.launches.find g.lid).map fun x => x.rc).getD LRec.blank) →
      ∃ u wp', exec (.blockRestore w) s = .next u ∧ u = { s with warps := u.warps } ∧ u.warps.find w = some wp' ∧
        wp'.held = wp.held ||| wp.saved ∧ wp'.saved = 0 ∧
        ∀ k i, k < wp.lanes.length → k < 32 → (wp'.lane k).v.getD i 0 =
          if 128 ≤ i ∧ wp.saved.getLsbD ((i - 128) / 16) = true then
            BitVec.ofNat 32 (s.hbmNat (s.key g.world).key (s.areaAt wp k (i - 128)) 4)
          else (wp.lane k).v.getD i 0) ∧
    (∀ w h, s.warps.find w = some wp → wp.score.find? (fun h => h.tx.isNone) = some h →
      ∃ u wp', exec (.variableLatencyResult w) s = .next u ∧ u = { s with warps := u.warps } ∧
        u.warps.find w = some wp' ∧ wp' = { wp with score := wp.score.erase h })

/-! ### Groups -/

/-- The event of a fault record of a group, as its source posts it (R220, R221). -/
def recordOf (s : State) (gr : Group) (ln : Launch) (slot extra : Nat) (f : FRec) : Event :=
  { faultEvent gr.core gr ln slot extra f with seq := s.nextSeq gr.core, time := s.time }

/-- R208, R220 to R224, R256, R259, R261, R264, R283, R284, R296: groupPlacement, preEmptionRequest, groupSave,
groupStop, deferredSave, groupResume and restoreComplete complete. A group is placed as dispatch says, asked to stop,
saved to a free slot with its registers, tiles, queues, barriers and records, stopped by a fault with its record
posted (a post-retire instruction retires then, R206; its source is the lower core of a pair: log 101), ended by WATCHDOG,
resumed on a core of its own, and resident again. A group that is to be saved while no slot can be taken runs on, its waits
not frozen (log 130). -/
def Obligations.Groups : Prop :=
  ∀ (s : State) (g n : Nat) (gr : Group) (ln : Launch), s.power ≠ .off →
    let found := s.groups.find g = some gr ∧ s.launches.find gr.lid = some ln
    let still := ∀ e ∈ s.waits, s.isOf g e.2.w = false
    let slot := s.takeSlot gr.world = some n ∧ s.groupQuiet g = true ∧ s.slotUp n = true
    let into := fun (u : State) (k : Group) => u.groups.find g = some k ∧ k.gflags = gr.gflags ∧ k.spad = gr.spad ∧
      k.fe = gr.fe ∧ k.tiles = gr.tiles ∧ k.tqs = gr.tqs ∧ k.bars = gr.bars ∧ k.vfifo = gr.vfifo ∧ k.preempt = false
    let regs := fun (u : State) (past : Nat → Nat → Bool) (meets : Bool) => ∀ w wp, s.warps.find w = some wp → wp.gid = g →
      ∃ wp', u.warps.find w = some wp' ∧ wp'.k = wp.k ∧ wp'.ka = wp.ka ∧ wp'.held = wp.held ∧ wp'.yield = wp.yield ∧
        ∀ l, l < wp.lanes.length → (wp.saved = 0 → (wp'.lane l).v = (wp.lane l).v) ∧ (wp'.lane l).g = (wp.lane l).g ∧
          (wp'.lane l).pc = (if past w l then (wp.lane l).pc + 12 else (wp.lane l).pc) ∧
          ((wp'.lane l).mr = (wp.lane l).mr ∨ meets = true ∧ (wp'.lane l).mr = 0)
    let kept := fun (u : State) => regs u (fun _ _ => false) false
    let taken := fun (u : State) (p : Pend) => regs u (fun w l => w == p.w && inMask p.act l) true
    let holds := fun (u : State) (st : SlState) => u.slots.find n = some ⟨st, gr.world, some g, s.recsOf g⟩
    (∀ lid c x, State.candOf s.cands lid = some c → c.ng = .fresh → s.mayPlace s.cands c = true →
      s.launches.find c.lid = some x →
      ∃ u k, exec (.groupPlacement lid) s = .next u ∧ u.groups.find s.nextId = some k ∧ k.st = .resident ∧
        k.lid = c.lid ∧ k.core = c.core ∧ k.num = c.x.next ∧ k.gflags = 0 ∧ k.traparm = c.x.rc.arm ∧ k.spad = [] ∧
        k.tiles = [] ∧ k.warps.length = c.x.rc.groupw ∧
        (∀ w ∈ k.warps, ∃ wp, u.warps.find w = some wp ∧ wp.gid = s.nextId ∧ wp.k = [] ∧ wp.ka = [0, 0, 0, 0] ∧
          wp.lanes = List.replicate 32 (Lane.start (BitVec.ofNat 64 c.x.rc.entry)) ∧ wp.yield = 8 * c.x.rc.yield) ∧
        u.launches.find c.lid =
          some { x with
            next := x.next + 1, claim := none, st := if x.next + 1 = x.rc.total then .draining else x.st }) ∧
    (∀ lid m, found → gr.st = .resident → s.cstate gr.world ≠ .departing → s.victimOf g = some (lid, m) →
      ∃ u, exec (.preEmptionRequest g) s = .next u ∧
        u.groups.find g = some { gr with st := .stopping, preempt := true } ∧
        u.launches.find lid = (s.launches.find lid).map (fun x => { x with claim := some m }) ∧
        ∀ j, j ≠ g → u.groups.find j = s.groups.find j) ∧
    (found → gr.st = .stopping → gr.preempt = true → gr.pend = none → s.allStopped g = true → slot →
      ∃ u k, exec (.groupSave g) s = .next u ∧ into u k ∧ k.st = .saved ∧ k.slot = some n ∧ holds u .held ∧
        (still → kept u)) ∧
    (found → gr.st = .stopping → gr.preempt = true → gr.pend = none → s.allAtStops g = true →
      s.takeSlot gr.world = none → s.staysStopped gr.world = false →
      ∃ u, exec (.groupSave g) s = .next u ∧ u = { s with warps := u.warps } ∧ ∀ w wp, s.warps.find w = some wp →
        u.warps.find w = some (if wp.gid = g then { wp with stopped := false } else wp)) ∧
    (∀ p, found → gr.pend = some p → gr.inPlace = false → slot →
      (p.f.cls ≠ 14 → ∃ u k, exec (.groupStop g) s = .next u ∧ into u k ∧ k.st = .stopped ∧ k.slot = some n ∧
        k.frec = some p.f ∧ holds u .held ∧ (still → taken u p) ∧ u.evq = s.evq ++ [recordOf s gr ln n 0 p.f]) ∧
      (p.f.cls = 14 → ∃ u k, exec (.groupStop g) s = .next u ∧ into u k ∧ k.st = .ended ∧ k.slot = some n ∧
        holds u .ended ∧ u.evq = s.evq ++ [recordOf s gr ln n 64 p.f])) ∧
    (∀ p, found → gr.pend = some p → gr.inPlace = false → s.groupQuiet g = true → s.takeSlot gr.world = none →
      (p.f.cls ≠ 14 → ∃ u k, exec (.groupStop g) s = .next u ∧ into u k ∧ k.st = .stopped ∧ k.inPlace = true ∧
        k.frec = some p.f ∧ (still → taken u p) ∧ u.evq = s.evq ++ [recordOf s gr ln 0xffff 0 p.f]) ∧
      (p.f.cls = 14 → ∃ u k, exec (.groupStop g) s = .next u ∧ into u k ∧ k.st = .ended ∧ k.slot = none ∧
        (∀ w wp, u.warps.find w = some wp → wp.gid ≠ g) ∧ u.evq = s.evq ++ [recordOf s gr ln 0xffff 64 p.f])) ∧
    (∀ f, found → gr.inPlace = true → gr.frec = some f → slot →
      ∃ u k, exec (.deferredSave g) s = .next u ∧ into u k ∧ k.st = .stopped ∧ k.inPlace = false ∧ k.slot = some n ∧
        holds u .held ∧ (still → kept u) ∧ u.evq = s.evq ++ [recordOf s gr ln n 32 f]) ∧
    (∀ c, found → s.cands.find? (fun c => c.ng == .saved g) = some c → s.mayPlace s.cands c = true →
      ∃ u k, exec (.groupResume g) s = .next u ∧ u.groups.find g = some k ∧ k.st = .resuming ∧ k.core = c.core ∧
        k.ready = false ∧ k.spad = gr.spad ∧ k.gflags = gr.gflags ∧ kept u ∧
        ∀ m sl, gr.slot = some m → s.slots.find m = some sl → u.slots.find m = some { sl with st := .resuming }) ∧
    (found → gr.st = .resuming → s.walkHeld g = false → gr.preempt = false → s.cstate gr.world ≠ .error → gr.slot = some n →
      ∃ u, exec (.restoreComplete g) s = .next u ∧
        u.groups.find g = some { gr with st := .resident, slot := none, frec := none, mmc := [] } ∧
        u.slots.find n = none ∧ (u.core gr.core).recs =
          (s.core gr.core).recs ++ ((s.slots.find n).map fun k => k.recs).getD [])

/-- R213, R219, R220, R267 to R271: askForWork, halyardServe and eventPost complete. A core asks for work; the die's
Halyard serves the first request that it can with the record of R268, and a record of at most 32 iterations starts
whole as a task warp; a source posts its oldest event for a ring, which takes it in its next slot. -/
def Obligations.WorkAndEvents : Prop :=
  ∀ (s : State), s.power ≠ .off →
    let ended := fun (u : State) (e : Event) => ∀ lid, e.ends = some lid → u.launches.find lid =
      (s.launches.find lid).map fun x => { x with retired := x.retired + 1, ended := x.ended + 1 }
    (∀ core lid, s.canAsk core lid = true → (core, lid) ∉ s.asks →
      (∀ e ∈ s.launches, s.canAsk core e.1 = false ∨ (core, e.1) ∈ s.asks ∨ s.asksFirst lid e.1 = true) →
      exec (.askForWork core lid) s = .next { s with asks := s.asks ++ [(core, lid)] }) ∧
    (∀ die a n r gid g, s.asks.find? (s.served die) = some a → s.serveRec die a.2 = some (n, r) →
      s.hostFor a.1 a.2 = some (gid, g) → r.lo < r.hi → r.hi ≤ r.lo + 32 →
      ∃ u wp, exec (.halyardServe die) s = .next u ∧ u.asks = s.asks.erase a ∧
        (u.core n).recs = (s.core n).recs.erase r ∧ u.warps.find s.nextId = some wp ∧ wp.gid = gid ∧
        wp.isTask = true ∧ wp.core = a.1 ∧ wp.ident = r.ident ∧ wp.lanes.length = 32 ∧
        ∀ l, l < 32 → (wp.lane l).task =
            (if l < r.hi - r.lo then some ⟨r.lo + l, r.hi, r.slo, r.shi, r.arg, r.entry, r.parent, false⟩ else none) ∧
          (wp.lane l).exited = decide (r.hi - r.lo ≤ l) ∧
          (l < r.hi - r.lo → (wp.lane l).pc = BitVec.ofNat 64 r.entry)) ∧
    (∀ src e, s.evq.find? (fun e => e.src == src && e.ring == 1024) = some e → s.heq.en = true → s.hostUp = true →
      (s.heq.tail + 2 ^ 32 - s.heq.head) % 2 ^ 32 ≠ 2 ^ s.heq.log2n →
      let at_ := s.heq.base + 64 * (s.heq.tail % 2 ^ s.heq.log2n)
      ∃ u, exec (.eventPost src 1024) s = .next u ∧ u.evq = s.evq.erase e ∧
        u.heq = { s.heq with tail := (s.heq.tail + 1) % 2 ^ 32 } ∧ u.outs = s.outs ++ [.msix 1024 s.heq.vec] ∧
        (∀ j, j < 64 → memByte u.hostMem (at_ + j) = e.bytes.getD j 0) ∧
        (∀ a, a < at_ ∨ at_ + 64 ≤ a → memByte u.hostMem a = memByte s.hostMem a) ∧ ended u e) ∧
    (∀ src fn e c, fn ≠ 1024 → s.evq.find? (fun e => e.src == src && e.ring == fn) = some e →
      s.ctxs.find fn = some c → (s.postCtx fn c e).isSome = true →
      ∃ u, exec (.eventPost src fn) s = .next u ∧ u.evq = s.evq.erase e ∧
        u.ctxs.find fn = some { c with
          eqtail := (c.eqtail + 1) % 2 ^ 32
          eqpages := updNth (fun p => p.marked true) (64 * (c.eqtail % 2 ^ c.eqlog2) / 4096) c.eqpages } ∧ ended u e)

/-! ### Launches, queues and the host -/

/-- R167, R229 to R234, R237, R252 to R255: launchStart, launchCompletion, copyEntry, copyEntryComplete,
counterSignalEntry and counterWaitEntry complete. A launch that may start and passes its checks claims its rectangle,
and one that fails them completes with its status; a launch whose groups have all retired completes; copies, counter
signals and counter waits of the submission queues start and complete. A completion ends its launch also where a write of
the engine is lost (log 36), and a copy entry makes all its units in one step (log 135). -/
def Obligations.Launches : Prop :=
  ∀ (s : State), s.power = .on →
    let leaves := fun (u : State) (e : Nat) (k : Entry) => u.entries.find e = none ∨
      u.entries.find e = some { k with st := .ended } ∧ ∃ l ∈ u.late, l.ends = some e
    (∀ lid x s', s.launches.find lid = some x → x.st = .waiting → s.mayStart lid x = true →
      (∀ r, (s.startChecking lid x).checkLaunch lid x = (.pass r, s') →
        ∃ u bs, exec (.launchStart lid) s = .next u ∧ u.launches.find lid = some
          { x with
            st := .dispatching, copy := bs, rc := r, claimed := rectCols r.rect, prio := if x.entry.isSome then r.prio else x.prio }) ∧
      (∀ code detail, (s.startChecking lid x).checkLaunch lid x = (.fail code detail, s') →
        exec (.launchStart lid) s = .next (s'.launchDone lid code detail) ∧
          (s'.launchDone lid code detail).launches.find lid = none)) ∧
    (∀ lid x s', s.launches.find lid = some x → x.st = .draining → x.retired = x.rc.total →
      ((s.writeBack x.world).onLaunch lid fun x => { x with st := .completing }).wordsReady x = (true, s') →
      let t := if x.rc.sigaddr = 0 then s' else s'.engineWrite x.world x.rc.sigaddr (leBytes 8 x.rc.sigval)
      let u := if x.ended = 0 then t.launchDone lid 1 0 else t.launchDone lid 6 x.ended
      exec (.launchCompletion lid) s = .next u ∧ u.launches.find lid = none ∧
        ∀ e k, x.entry = some e → s.entries.find e = some k → leaves u e k) ∧
    (∀ e k, s.entries.find e = some k →
      let started := { s with entries := s.entries.upd e fun k => { k with st := .started } }
      (k.kind = 2 → s.canStart e k = true → exec (.copyEntry e) s = .next started) ∧
      (∀ s' s'' m, k.kind = 2 → k.st = .started → s.cstate k.world = .running →
        s.writeReady k.world k.status = (true, s') →
        (s'.entryUnits k.world k.a k.b k.c (k.c / 16) k.moved = (.done, m, s'') →
          let u := (s''.writeBack k.world).completeEntry e 1 m
          exec (.copyEntryComplete e) s = .next u ∧ leaves u e k) ∧
        (s'.entryUnits k.world k.a k.b k.c (k.c / 16) k.moved = (.failed, m, s'') →
          let u := (s''.writeBack k.world).completeEntry e 6 m
          exec (.copyEntryComplete e) s = .next u ∧ leaves u e k)) ∧
      (∀ n, k.kind = 3 → s.canStart e k = true → s.earlier e k = [] → s.counterOf k.world k.a = some n →
        ∃ u, exec (.counterSignalEntry e) s = .next u ∧
          u.counter n = (if k.set then k.b else (s.counter n + k.b) % 2 ^ 64) ∧
          ∀ j, j ≠ n → u.counter j = s.counter j) ∧
      (∀ n, k.kind = 4 → k.st = .started → s.counterOf k.world k.a = some n →
        (k.sat = true ∨ k.b ≤ s.counter n → (started.writeReady k.world k.status).1 = true →
          ∃ u, exec (.counterWaitEntry e) s = .next u ∧ leaves u e k) ∧
        (k.sat = false → s.counter n < k.b → exec (.counterWaitEntry e) s = .next started)))

/-- R166, R209, R213, R219, R228, R230, R382, R383: eqheadWrite, gcqtailWrite, heqheadWrite, gcqcfgWrite, heqcfgWrite,
registerWrite, notifyRegisterWrite, mailboxWrite and mailboxRead complete. The host writes heads, tails,
configurations and bases of the rings, the notify registers of the submission queues, and words of an aperture, and
reads them back, and the registers too; a value out of a ring's range changes nothing, and a tail too far ahead is an
error of its queue. A notify write with d = 0 clears NERR by its bit 32 (log 134), a base is kept as written (log 87), and
a read of the registers is always answered, with zeros where no register lies (log 90). -/
def Obligations.HostAccesses : Prop :=
  ∀ (s : State) (fn v : Nat), s.hostOk = true →
    let w := v % 2 ^ 32
    let d := (w + 2 ^ 32 - s.gcq.tail) % 2 ^ 32
    (∀ c, s.ctxs.find fn = some c → c.st ≠ .departing →
      exec (.eqheadWrite fn v) s = .next
        (if (c.eqtail + 2 ^ 32 - w) % 2 ^ 32 ≤ 2 ^ c.eqlog2 then s.onCtx fn fun c => { c with eqhead := w } else s)) ∧
    exec (.gcqtailWrite v) s = .next
      (if 2 ^ s.gcq.log2n - (s.gcq.tail + 2 ^ 32 - s.gcq.head) % 2 ^ 32 < d then s
       else { s with gcq := { s.gcq with tail := w } }) ∧
    exec (.heqheadWrite v) s = .next
      (if (s.heq.tail + 2 ^ 32 - w) % 2 ^ 32 ≤ 2 ^ s.heq.log2n then { s with heq := { s.heq with head := w } } else s) ∧
    (∀ r r', (s.gcq = r → exec (.gcqcfgWrite v) s = .next { s with gcq := r' } →
        (bitAt v 31 = false → r'.en = false) ∧
        (bitAt v 31 = true → r.en = false → 4 ≤ v % 32 → v % 32 ≤ 12 →
          r' = ⟨r.base, true, fieldOf v 16 12, v % 32, 0, 0⟩) ∧
        (r.en = true → bitAt v 31 = true → r' = { r with vec := fieldOf v 16 12 })) ∧
      (s.heq = r → exec (.heqcfgWrite v) s = .next { s with heq := r' } →
        (bitAt v 31 = false → r'.en = false) ∧
        (bitAt v 31 = true → r.en = false → 6 ≤ v % 32 → v % 32 ≤ 16 →
          r' = ⟨r.base, true, fieldOf v 16 12, v % 32, 0, 0⟩))) ∧
    (∃ r, exec (.gcqcfgWrite v) s = .next { s with gcq := r }) ∧ (∃ r, exec (.heqcfgWrite v) s = .next { s with heq := r }) ∧
    exec (.registerWrite 0x900 v) s = .next
      { s with gcq := if s.gcq.en then s.gcq else { s.gcq with base := v % 2 ^ 64 } } ∧
    exec (.registerWrite 0x920 v) s = .next
      { s with heq := if s.heq.en then s.heq else { s.heq with base := v % 2 ^ 64 } } ∧
    (∀ off, off ≠ 0x900 → off ≠ 0x920 → exec (.registerWrite off v) s = .next s) ∧
    (∀ c, s.mbox = [] → s.ctxs.find fn = some c → c.st ≠ .free → c.st ≠ .departing →
      (∀ q k, c.sqs.find q = some k →
        let far := (w + 2 ^ 32 - k.tail) % 2 ^ 32
        let now := fun (u : State) (k' : SubQ) => ∃ c', u.ctxs.find fn = some c' ∧ c'.sqs.find q = some k'
        (far = 0 → ∃ u, exec (.notifyRegisterWrite fn q v) s = .next u ∧
          now u { k with nerr := k.nerr && !bitAt v 32 }) ∧
        (far ≠ 0 → 2 ^ k.log2n - s.queueOut fn q < far → ∃ u, exec (.notifyRegisterWrite fn q v) s = .next u ∧
          now u { k with nerr := true } ∧ u.entries = s.entries) ∧
        (far ≠ 0 → far ≤ 2 ^ k.log2n - s.queueOut fn q → s.ringAway fn k k.tail far = false →
          ∃ u ps, exec (.notifyRegisterWrite fn q v) s = .next u ∧
            now u { k with tail := w, nerr := k.nerr && !bitAt v 32, pages := ps })) ∧
      (∀ off pa s', off + 4 ≤ 2 ^ 36 → (c.abase + off) % 4 = 0 → pa % 32 ≤ 28 →
        (∀ bs, bs.length = 4 → s.engineAt fn (c.abase + off) .w = (.ok pa, s') →
          ∃ u, exec (.mailboxWrite fn off bs) s = .next u ∧
            ∀ j, j < 4 → u.hbmByte (s.key fn).key (pa + j) = BitVec.ofNat 8 (bs.getD j 0)) ∧
        (∀ tag, s.engineAt fn (c.abase + off) .r = (.ok pa, s') → s'.unscr pa = false →
          ∃ u, exec (.mailboxRead (.aperture fn) off 4 tag) s = .next u ∧
            u.outs = s'.outs ++ [.readData fn tag ((upTo pa 4).map (s'.hbmByte (s.key fn).key))]))) ∧
    (∀ off len tag, s.mbox = [] → len ≤ 4096 → exec (.mailboxRead (.regs fn) off len tag) s = .next
      { s with outs := s.outs ++ [.readData fn tag ((upTo off len).map (s.regByte fn))] }) ∧
    let cfg := fun (r : Gcq) => (if r.en then 2 ^ 31 else 0) + r.vec * 2 ^ 16 + r.log2n
    [0x900, 0x908, 0x910, 0x918, 0x920, 0x928, 0x930, 0x938, 0x940].map (s.reg 1024) =
      [s.gcq.base, cfg s.gcq, s.gcq.tail, s.gcq.head, s.heq.base, cfg s.heq, s.heq.head, s.heq.tail, 0] ∧
    ∀ c, fn < 1024 → s.ctxs.find fn = some c → s.reg fn 0xf00 = c.eqhead ∧ s.reg fn 0xf08 = c.eqtail ∧
      ∀ q k, q < 16 → c.sqs.find q = some k → s.reg fn (0x1000 + 8 * q) = (if k.nerr then 2 ^ 32 else 0) + k.tail

/-! ### Commands -/

/-- Command k is c, of this code, and may start now (R215). -/
def cmdStarts (s : State) (k : Nat) (c : Cmd) (code : Nat) : Prop :=
  s.running = true ∧ s.cmds.find k = some c ∧ c.code = code ∧ s.cmdReady k c = true

/-- The fields of an entry that every command checks: flags, the reserved byte, COMPL and the operands from n on (R214). -/
def cmdSound (c : Cmd) (n : Nat) : Prop :=
  c.flags < 4 ∧ c.rsv = 0 ∧ c.compl % 32 = 0 ∧ ∀ j, n ≤ j → j < 6 → c.arg j = 0

/-- The state with command k started. -/
def begun (s : State) (k : Nat) : State := { s with cmds := s.cmds.upd k fun c => { c with st := .started } }

/-- The state with command k started, and its block of bytes bs read from the host (R214, R218). -/
def loaded (s : State) (k : Nat) (bs : List Byte) : State :=
  { begun s k with cmds := (begun s k).cmds.upd k fun c => { c with blk := some bs } }

/-- Command k, which was c, has ended with a status, its DETAIL and its VALUE (R215, R216). -/
def cmdEnded (u : State) (k : Nat) (c : Cmd) (status detail value : Nat) : Prop :=
  u.cmds.find k = some { c with st := .ended, status := status, detail := detail, value := value }

/-- R213 to R217, R401, R409: commandTake, partition, pshare, bwshare, lifeset, caldsize, wearlog, transport and
commandComplete complete. A command is taken from the ring; one with a bad flag ends with status 2 and the offset of
the flags, and has no effect; partitions, shares, targets, the slot store, the wear log and the transport flag change
as their commands say; a command that has ended leaves its record and its vector with the host. The rails of the clusters
that hold a group stay as they are, and BADSTATE where the search finds none for the others is the model's (log 20). -/
def Obligations.CommandRing : Prop :=
  ∀ (s : State) (k : Nat) (c : Cmd),
    (s.running = true → s.gcq.en = true → s.gcq.head ≠ s.gcq.tail → s.hostUp = true →
      ∃ u, exec .commandTake s = .next u ∧ u.gcq = { s.gcq with head := (s.gcq.head + 1) % 2 ^ 32 } ∧
        u.cmds.find s.nextId = some (Cmd.ofBytes s.gcq.head
          (memBytes s.hostMem (s.gcq.base + 64 * (s.gcq.head % 2 ^ s.gcq.log2n)) 64))) ∧
    (∀ i code, (i, code) ∈ [(Instr.partition k, 0x01), (.pshare k, 0x02), (.bwshare k, 0x03), (.lifeset k, 0x04),
        (.caldsize k, 0x05), (.configure k, 0x10), (.lock k, 0x11), (.start k, 0x12), (.suspend k, 0x13),
        (.resume k, 0x14), (.stop k, 0x15), (.key k, 0x16), (.resumeSlot k, 0x20), (.discardSlot k, 0x21),
        (.tlbinv k, 0x30), (.pairs k, 0x31), (.sregion k, 0x32), (.scrub k, 0x33), (.peermap k, 0x34),
        (.warmreset k, 0x40), (.linkretrain k, 0x41), (.peerreset k, 0x42), (.wearlog k, 0x50), (.transport k, 0x51)] →
      cmdStarts s k c code → 4 ≤ c.flags → exec i s = .next (s.endCmd k 2 2 0) ∧ cmdEnded (s.endCmd k 2 2 0) k c 2 2 0) ∧
    (cmdStarts s k c 0x01 → cmdSound c 3 → c.arg 0 ≤ 19 → c.arg 1 ≠ 0 → c.arg 1 < 2 ^ 40 → c.arg 2 ≠ 0 → c.arg 2 ≤ 255 →
      let mask := BitVec.ofNat 40 (c.arg 1)
      let old := (s.parts.find (c.arg 0)).getD Part.start
      let parts := s.parts.put (c.arg 0) { old with mask := mask, weight := c.arg 2 }
      (∀ e ∈ s.parts, e.1 ≠ c.arg 0 → e.2.mask &&& mask = 0) → mask &&& ~~~s.clusterOk = 0 →
      (∀ cl ∈ clusters (old.mask &&& ~~~mask), s.busyCluster cl = false) →
      (∀ rails, s.railsFor parts = some rails → ∃ u, exec (.partition k) s = .next u ∧ u.parts = s.reckonAll parts 0 ∧
        u.rails = rails ∧ cmdEnded u k c 1 0 0) ∧
      (s.railsFor parts = none → ∃ u, exec (.partition k) s = .next u ∧ u.parts = s.parts ∧ cmdEnded u k c 3 0 0)) ∧
    (∀ rails, cmdStarts s k c 0x01 → cmdSound c 3 → c.arg 0 ≤ 19 → c.arg 1 = 0 → c.arg 2 = 0 →
      (∀ cl ∈ clusters ((s.parts.find (c.arg 0)).getD Part.start).mask, s.busyCluster cl = false) →
      (∀ e ∈ s.ctxs, e.2.st ≠ .free → e.2.part ≠ c.arg 0) → s.railsFor (s.parts.del (c.arg 0)) = some rails →
      ∃ u, exec (.partition k) s = .next u ∧ u.parts = s.reckonAll (s.parts.del (c.arg 0)) 0 ∧ u.rails = rails ∧
        cmdEnded u k c 1 0 0) ∧
    (∀ p, s.parts.find (c.arg 0) = some p → c.arg 0 ≤ 19 →
      let shares := s.parts.put (c.arg 0) { p with share := c.arg 1 }
      let bands := s.parts.put (c.arg 0) { p with bw := p.bw.put (c.arg 1) (c.arg 2) }
      (∀ rails, cmdStarts s k c 0x02 → cmdSound c 2 → c.arg 1 ≤ 2400 →
        shares.foldl (fun a e => a + e.2.share) 0 ≤ 2400 → s.railsFor shares = some rails →
        ∃ u, exec (.pshare k) s = .next u ∧ u.parts = s.reckonAll shares 0 ∧ u.rails = rails ∧ cmdEnded u k c 1 0 0) ∧
      (cmdStarts s k c 0x03 → cmdSound c 3 → c.arg 1 ≤ 7 → c.arg 2 ≤ 3200 →
        bands.foldl (fun a e => a + e.2.bw.getD (c.arg 1) 0) 0 ≤ 3200 →
        ∃ u, exec (.bwshare k) s = .next u ∧ u.parts = bands ∧ cmdEnded u k c 1 0 0) ∧
      (cmdStarts s k c 0x04 → cmdSound c 2 → c.arg 1 ≠ 0 → c.arg 1 ≤ 2 ^ 20 →
        ∃ u, exec (.lifeset k) s = .next u ∧ u.parts = s.parts.put (c.arg 0) { p with hours := c.arg 1 } ∧
          cmdEnded u k c 1 0 (256 * 2200000000000 / (c.arg 1 * 3600000)))) ∧
    (cmdStarts s k c 0x05 → cmdSound c 1 → c.arg 0 ∈ [1024, 2048, 3072, 4096] →
      (∀ e ∈ s.ctxs, e.2.st = .free) → s.slotsHeld = 0 →
      ∃ u, exec (.caldsize k) s = .next u ∧ u.nslots = c.arg 0 ∧ cmdEnded u k c 1 0 0 ∧ u.mem = s.mem) ∧
    (cmdStarts s k c 0x50 → cmdSound c 4 → c.arg 0 % 64 = 0 → c.arg 1 = 0 → c.arg 3 ≠ 0 → c.arg 3 ≤ 65536 →
      s.hostUp = true →
      ∃ u, exec (.wearlog k) s = .next u ∧ cmdEnded u k c 1 0 (s.wlogNext % 65536) ∧
        (∀ j i, j < c.arg 3 → i < 32 → memByte u.hostMem (c.arg 0 + 32 * j + i) =
          ((s.wlog.getD ((c.arg 2 + j) % 65536) ⟨0, 0, 0, 0, 0, 0, 0⟩).bytes).getD i 0) ∧
        ∀ a, a < c.arg 0 ∨ c.arg 0 + 32 * c.arg 3 ≤ a → memByte u.hostMem a = memByte s.hostMem a) ∧
    (cmdStarts s k c 0x51 → cmdSound c 0 →
      ∃ u, exec (.transport k) s = .next u ∧ u.transport = true ∧ cmdEnded u k c 1 0 0) ∧
    (s.power ≠ .off → s.hostUp = true → s.cmds.find k = some c → c.compl % 32 = 0 →
      let told := fun (d : Cmd) => ∃ u, exec (.commandComplete k) s = .next u ∧ u.cmds.find k = none ∧
        (∀ j, j < 32 → memByte u.hostMem (c.compl + j) = (leBytes 4 d.status ++ leBytes 4 c.tag ++ leBytes 8 d.detail ++
          leBytes 8 d.value ++ leBytes 8 s.time).getD j 0) ∧
        (∀ a, a < c.compl ∨ c.compl + 32 ≤ a → memByte u.hostMem a = memByte s.hostMem a) ∧
        u.outs = if bitAt c.flags 0 then s.outs ++ [.msix 1024 s.gcq.vec] else s.outs
      (c.st = .ended → told c) ∧
      (∀ v, c.st = .started → s.cmdDone c = some v → told { c with status := 1, value := v }) ∧
      (s.cmdReady k c = true → c.code ∉ cmdCodes → told { c with status := 2, detail := 0 }))

/-- Step 3 of the departure of a context: its key slot is revoked, or keeps its key while status words are owed under it
(R209, R235; log 132). -/
def departs (s u : State) (fn : Nat) : Prop :=
  ((s.key fn).st ≠ .valid ∨ (∀ l ∈ u.late, l.world ≠ fn) → (u.key fn).st = .revoked) ∧
  ((s.key fn).st = .valid → (∃ l ∈ u.late, l.world = fn) → u.key fn = s.key fn)

/-- R196, R197, R200, R201, R209, R217, R218, R222, R353, R355, R357, R364, R372, R377, R385, R387: lock, start,
resume, suspend, stop, key, configure, resumeSlot, discardSlot, tlbinv, pairs, sregion, scrub, peermap, warmreset,
linkretrain and peerreset complete. The commands on contexts, keys, slots, translations, page pairs, regions,
scrubbing, peer windows, dies and links complete with their effect in the states that allow them, and end with status
3 in the others; a block in host memory is read once, at the start. SUSPEND shows SUSPENDED at its start (log 86),
CONFIGURE walks under the new root (log 40), a second WARMRESET or PEERRESET ends with status 3 (log 94), and the key slot
of a context that departs is revoked once the status words owed to it are written (log 132). -/
def Obligations.CommandEffects : Prop :=
  ∀ (s : State) (k : Nat) (c : Cmd),
    let fn := c.arg 0
    let host := fun (n : Nat) => memBytes s.hostMem (c.arg 1) n
    let does := fun (i : Instr) (post : State → Prop) => ∃ u, exec i s = .next u ∧ post u
    let ok := fun (i : Instr) (value : Nat) (post : State → Prop) =>
      does i fun u => cmdEnded u k c 1 0 value ∧ post u
    let read := fun (i : Instr) (n value : Nat) (post : State → Prop) =>
      does i fun u => cmdEnded u k { c with blk := some (host n) } 1 0 value ∧ post u
    let reads := c.blk = none ∧ s.hostUp = true
    let moved := fun (u : State) (old new : CState) => u.cstate fn = new ∧ u.evq = s.evq ++
      [{ stateEvent fn old.code new.code with seq := s.nextSeq 0xf00, time := s.time }]
    (∀ i code old new, (i, code, old, new) ∈ [(Instr.lock k, 0x11, CState.configured, CState.locked),
        (.start k, 0x12, .locked, .running), (.resume k, 0x14, .suspended, .running)] →
      cmdStarts s k c code → cmdSound c 1 → fn ≤ 1023 →
      (s.cstate fn = old → ok i 0 fun u => moved u old new) ∧
      (s.cstate fn ≠ old → exec i s = .next ((begun s k).endCmd k 3 0 0))) ∧
    (cmdStarts s k c 0x13 → cmdSound c 1 → fn ≤ 1023 → s.cstate fn = .running →
      does (.suspend k) fun u => u.cstate fn = .suspended ∧ u.cmds.find k = some { c with
        st := .started, track := (s.groups.filter fun e => e.2.world == fn && e.2.onCores).map fun e => e.1 }) ∧
    (cmdStarts s k c 0x15 → cmdSound c 1 → fn ≤ 1023 → s.cstate fn ≠ .free → s.cstate fn ≠ .departing →
      does (.stop k) fun u => u.cstate fn = .departing ∧ departs s u fn ∧ ∀ e ∈ u.groups, e.2.world ≠ fn) ∧
    (∀ qs ps, cmdStarts s k c 0x10 → cmdSound c 2 → fn ≤ 1023 → c.arg 1 % 64 = 0 → reads →
      let bs := host 256
      let t := loaded s k bs
      firstBad (t.blockLimits bs) = none → (s.cstate fn = .free ∨ s.cstate fn = .configured) → t.blockFits fn bs = true →
      (t.underRoot fn (recField bs 8 8)).blockQueues fn bs = .ok qs →
      (t.underRoot fn (recField bs 8 8)).pagesOf fn (recField bs 16 8) (64 * 2 ^ recField bs 1 1) .w = .ok ps →
      (∀ e ∈ s.entries, e.2.world ≠ fn) → (∀ e ∈ s.launches, e.2.world ≠ fn) → (∀ l ∈ s.late, l.world ≠ fn) →
      read (.configure k) 256 0 fun u => moved u (s.cstate fn) .configured ∧ ∃ x, u.ctxs.find fn = some x ∧
        x.part = recField bs 0 1 ∧ x.root = recField bs 8 8 ∧ x.eqbase = recField bs 16 8 ∧ x.eqlog2 = recField bs 1 1 ∧
        x.eqvec = recField bs 2 2 ∧ x.qs = recField bs 4 4 ∧ x.cbase = recField bs 24 4 ∧ x.ccount = recField bs 28 4 ∧
        x.allot = recField bs 32 2 ∧ x.abase = recField bs 40 8 ∧ x.sqs = qs ∧ x.eqpages = ps ∧ x.eqhead = 0 ∧
        x.eqtail = 0 ∧ x.prot = false) ∧
    (cmdStarts s k c 0x16 → cmdSound c 2 → fn ≤ 1023 → c.arg 1 % 64 = 0 → reads → s.keyOpen fn = true →
      (∀ x, s.ctxs.find fn = some x → x.prot = false) →
      read (.key k) 64 0 fun u => u.key fn = ⟨.valid, leNat (host 64)⟩ ∧ ∀ w, w ≠ fn → u.key w = s.key w) ∧
    (∀ y, s.slots.find (c.arg 1) = some y → y.world = fn → fn ≤ 1023 →
      (∀ g gr, y.gid = some g → s.groups.find g = some gr → y.st = .held →
        (cmdStarts s k c 0x20 → cmdSound c 2 →
          ok (.resumeSlot k) 0 fun u => u.groups.find g = some { gr with ready := true }) ∧
        (cmdStarts s k c 0x21 → cmdSound c 2 → ok (.discardSlot k) 0 fun u => u.slots.find (c.arg 1) = none ∧
          u.groups.find g = some { gr with
            st := .ended, inPlace := false, pend := none, slot := none, grant := none, preempt := false }))) ∧
    (cmdStarts s k c 0x30 → cmdSound c 3 → fn ≤ 1024 → c.arg 1 % 4096 = 0 → c.arg 2 % 4096 = 0 →
      does (.tlbinv k) fun u => (∀ t ∈ u.tcache, t.world = fn → t.covers (c.arg 1) (c.arg 2) = false) ∧
        (∀ t ∈ s.tcache, t.world ≠ fn → t ∈ u.tcache) ∧
        ∃ ids, u.cmds.find k = some { c with st := .started, track := ids } ∧
          (∀ j, j ≠ k → u.cmds.find j = s.cmds.find j) ∧
          (∀ e ∈ s.txns, e.2.world = fn → s.isKept e.1 e.2 = false →
            (∃ a ∈ e.2.units, a.port = none ∧ (c.arg 2 = 0 ∨ meetRange a.va a.n (c.arg 1) (c.arg 2) = true)) → e.1 ∈ ids) ∧
          ∀ e ∈ s.cores, ∀ y ∈ e.2.copies, y.world = fn →
            c.arg 2 = 0 ∨ meetRange y.va (cnvGlobal y.cnv y.n) (c.arg 1) (c.arg 2) = true → y.id ∈ ids) ∧
    (cmdStarts s k c 0x31 → cmdSound c 3 → fn ≤ 1024 → c.arg 1 < 4096 → c.arg 2 ≠ 0 → c.arg 1 + c.arg 2 ≤ 4096 →
      s.fixedCtx fn = false → (∀ p, c.arg 1 ≤ p → p < c.arg 1 + c.arg 2 → s.pubTab.find p = none) →
      ok (.pairs k) 0 fun u => ∀ p, u.pubTab.find p =
        if c.arg 1 ≤ p ∧ p < c.arg 1 + c.arg 2 then some ⟨fn, false⟩ else s.pubTab.find p) ∧
    (∀ caps t, cmdStarts s k c 0x32 → cmdSound c 2 → fn ≤ 1024 → c.arg 1 % 64 = 0 → reads →
      let bs := host 64
      let num := (t.regions.filter fun r => r.world == fn).length
      firstBad (regionLimits bs) = none →
      (loaded s k bs).readCaps fn (recField bs 32 8) (recField bs 8 4) = (.bytes caps, t) → (∀ b ∈ caps, b.toNat ≤ 63) →
      recField bs 40 24 = 0 → t.fixedCtx fn = false → t.regionBusy fn bs = false →
      read (.sregion k) 64 num fun u => u.regions = t.regions ++ [⟨fn, num, recField bs 0 8, recField bs 16 8,
        recField bs 24 8, caps.map fun b => ⟨.absent, 4 * (b.toNat + 1), [], 0, false, false, false⟩⟩]) ∧
    (cmdStarts s k c 0x33 → cmdSound c 2 → c.arg 0 % 4096 = 0 → c.arg 1 % 4096 = 0 →
      s.badFrame (c.arg 0) (c.arg 1) = false → ok (.scrub k) 0 fun u => ∀ g, u.unscrubbed.getD g false =
        if c.arg 0 / 4096 ≤ g ∧ g < (c.arg 0 + c.arg 1) / 4096 then true else s.unscrubbed.getD g false) ∧
    (cmdStarts s k c 0x34 → cmdSound c 3 → fn ≤ 1024 → c.arg 1 % 32 = 0 → c.arg 2 ≤ 8 → reads → s.fixedCtx fn = false →
      let bs := host (32 * c.arg 2)
      let ws := (upTo 0 (c.arg 2)).map (windowOfBytes bs)
      firstBad ((upTo 0 (c.arg 2)).flatMap (windowLimits bs)) = none → windowsMeet ws = false →
      (∀ v ∈ ws, ∀ r ∈ s.regions, r.world = fn → meetRange v.vbase v.size r.vbase (65536 * r.tiles.length) = false) →
      read (.peermap k) (32 * c.arg 2) 0 fun u => ∃ x, u.ctxs.find fn = some x ∧ x.windows = ws) ∧
    (cmdStarts s k c 0x40 → cmdSound c 1 → fn ≤ 3 →
      (s.warm = [] → (∀ n, n < 8 → n ∉ dieLinks fn → s.link n = .active) →
        does (.warmreset k) fun u => u.warm.find fn = some ⟨1, 0, false⟩ ∧ u.cmds = (begun s k).cmds) ∧
      (s.warm ≠ [] → exec (.warmreset k) s = .next ((begun s k).endCmd k 3 0 0))) ∧
    (∀ n, cmdStarts s k c 0x41 → cmdSound c 1 → linkOf fn = some n →
      (s.link n = .active → does (.linkretrain k) fun u => u.link n = .retraining ∧ u.evq = s.evq) ∧
      (s.link n ≠ .active → exec (.linkretrain k) s = .next ((begun s k).endCmd k 3 0 0))) ∧
    (cmdStarts s k c 0x42 → cmdSound c 1 → fn ≤ 7 →
      (s.link (portLink fn) = .down → does (.peerreset k) fun u => u.link (portLink fn) = .resetting) ∧
      (s.link (portLink fn) = .active ∨ s.link (portLink fn) = .retraining →
        does (.peerreset k) fun u => u.link (portLink fn) = .quiescing) ∧
      (s.link (portLink fn) = .quiescing ∨ s.link (portLink fn) = .resetting →
        exec (.peerreset k) s = .next ((begun s k).endCmd k 3 0 0)))

/-! ### Messages and the life of contexts -/

/-- R196, R197, R200, R202, R204: lockInterfaceRequest, startInterfaceRequest, stopInterfaceRequest,
getDeviceInterfaceReport, getDeviceInterfaceState, getVersion, getCapabilities, negotiateAlgorithms, getDigests,
getCertificate, challenge, getMeasurements, keyExchange, finish, heartbeat, keyUpdate, endSession,
vendorDefinedRequest and unsupportedRequest complete. A request that the protocols support, in the state that allows
it, is answered and has its effect, and any other is answered with an error and changes nothing. The interface
messages lock, start and stop a context and tell its state, the session messages open and close sessions,
GET_MEASUREMENTS tells the digests of the blocks and their signatures (log 22), and a vendor-defined request installs
a world key or the key of an IDE stream. A context that stops keeps its key slot while status words are owed under it (log 132). What the
manual leaves to the protocols' documents is the model's (log 70). -/
def Obligations.Messages : Prop :=
  ∀ (s : State) (ses fn key code : Nat), s.listens = true →
    let sp := s.spdm
    let st := s.cstate fn
    let inSes := sp.sessions.find ses = some true
    let replies := fun (i : Instr) (m : Msg) (ok : Prop) (post : State → List Nat → Prop) =>
      (ok → ∃ u vals o, exec i s = .next u ∧ u.outs = o ++ [.answer m vals] ∧ post u vals) ∧
      (¬ok → exec i s = .next { s with outs := s.outs ++ [.errorAnswer m] })
    let only := fun (sp' : Spdm) (u : State) (_ : List Nat) =>
      u = { s with spdm := sp', outs := u.outs, freeCtr := u.freeCtr }
    let moved := fun (u : State) (new : CState) => u.cstate fn = new ∧ u.evq = s.evq ++
      [{ stateEvent fn st.code new.code with seq := s.nextSeq 0xf00, time := s.time }]
    let fixed := st = .locked ∨ st = .running ∨ st = .suspended
    let dig := fun (i : Nat) => if i = 5 then Config.shake (s.measured.getD fn [])
      else (s.meas.find i).getD (Config.shake (s.content i))
    replies (.lockInterfaceRequest ses fn) .lockInterface (inSes ∧ st = .configured) (fun u _ => moved u .locked ∧
      (∃ c, u.ctxs.find fn = some c ∧ c.prot = true) ∧ u.measured.getD fn [] = u.config fn) ∧
    replies (.startInterfaceRequest ses fn) .startInterface (inSes ∧ st = .locked) (fun u _ => moved u .running) ∧
    replies (.stopInterfaceRequest ses fn) .stopInterface (inSes ∧ st ≠ .free ∧ st ≠ .departing) (fun u _ =>
      u.cstate fn = .departing ∧ departs s u fn ∧ ∀ e ∈ u.groups, e.2.world ≠ fn) ∧
    replies (.getDeviceInterfaceReport ses fn) .interfaceReport (inSes ∧ fixed) (only sp) ∧
    replies (.getDeviceInterfaceState ses fn) .interfaceState (inSes ∧ fn ≤ 1023) (fun u vals => only sp u vals ∧
      ∀ c n, s.ctxs.find fn = some c → c.prot = true →
        (c.st, n) ∈ [(CState.locked, 1), (.running, 2), (.suspended, 2), (.error, 3)] → vals = [n]) ∧
    replies .getVersion .version True (only { sp with version := true, caps := false, algos := false }) ∧
    replies .getCapabilities .capabilities (sp.version = true) (only { sp with caps := true }) ∧
    replies .negotiateAlgorithms .algorithms (sp.caps = true) (only { sp with algos := true }) ∧
    replies .getDigests .digests (sp.algos = true) (only sp) ∧
    replies .getCertificate .certificate (sp.algos = true) (only sp) ∧
    replies .challenge .challenge (sp.algos = true) (only sp) ∧
    replies (.getMeasurements fn) .measurements (sp.algos = true) (fun u vals => only sp u vals ∧
      vals = (upTo 1 6).flatMap fun i => [dig i, Config.sign (dig i)]) ∧
    replies .keyExchange .keyExchange (sp.algos = true ∧ ∃ n, n < 8 ∧ sp.sessions.find n = none) (fun u vals =>
      ∃ n, n < 8 ∧ sp.sessions.find n = none ∧ vals.head? = some n ∧
        only { sp with sessions := sp.sessions.put n false } u vals) ∧
    replies (.finish ses) .finish (sp.sessions.find ses = some false)
      (only { sp with sessions := sp.sessions.put ses true }) ∧
    replies (.heartbeat ses) .heartbeat inSes (only sp) ∧
    replies (.keyUpdate ses) .keyUpdate inSes (only sp) ∧
    replies (.endSession ses) .endSession inSes (only { sp with sessions := sp.sessions.del ses }) ∧
    replies (.vendorDefinedRequest ses (.world fn) key) .vendor (inSes ∧ s.keyByTsm fn = true) (fun u _ =>
      u = { s with keys := s.keys.put fn ⟨.valid, key % 2 ^ 512⟩, outs := u.outs, freeCtr := u.freeCtr }) ∧
    (∀ n fns, replies (.vendorDefinedRequest ses (.stream n fns) key) .vendor (inSes ∧ n < 64) (fun u _ =>
      u.ide.find n = some ⟨fns, key⟩ ∧ (∀ m, m ≠ n → u.ide.find m = s.ide.find m) ∧
        ∀ f ∈ s.streamErrs n fns, u.cstate f = .error)) ∧
    exec (.unsupportedRequest code) s = .next { s with outs := s.outs ++ [.errorAnswer (.other code)] }

/-- R196 to R198, R201, R209, R211, R212, R384: ideIntegrityFailure, uncorrectableMemoryError, configurationViolation,
keyRevocation, endOfClearingSequence, hostLinkDown and hotReset complete. An error condition moves a context that is
LOCKED, RUNNING or SUSPENDED to ERROR and posts its event; a revoked key slot loses its key, and its lines and sectors
leave every cache. The end of the clearing sequence frees the context, its counters, slots and regions, and marks its
granules unscrubbed, once the status words owed under its key are written (log 132). A host link-down departs protected
contexts and moves the others to ERROR; a hot reset departs them all and drops sessions and commands. -/
def Obligations.ContextEvents : Prop :=
  ∀ (s : State) (fn : Nat), s.power ≠ .off →
    let st := s.cstate fn
    let errs := st = .locked ∨ st = .running ∨ st = .suspended
    let posted := fun (old new : CState) => { stateEvent fn old.code new.code with seq := s.nextSeq 0xf00, time := s.time }
    let inError := fun (u : State) => u.cstate fn = .error ∧ (∀ w, w ≠ fn → u.cstate w = s.cstate w) ∧
      ∃ es, u.evq = s.evq ++ posted st .error :: es
    let fails := fun (i : Instr) (ok : Prop) => (ok → errs → ∃ u, exec i s = .next u ∧ inError u ∧
        ((s.key fn).st = .valid → ∀ g gr, u.groups.find g = some gr → gr.world = fn → gr.st ≠ .resident)) ∧
      (¬(ok ∧ errs) → exec i s = .next s)
    (∀ n key, s.ide.find n = some ⟨[fn], key⟩ → fails (.ideIntegrityFailure n) True) ∧
    (∀ n d, s.ide.find n = some d → fn ∈ d.fns → errs → ∃ u, exec (.ideIntegrityFailure n) s = .next u ∧
      u.cstate fn = .error) ∧
    (∀ n, s.ide.find n = none → exec (.ideIntegrityFailure n) s = .next s) ∧
    fails (.uncorrectableMemoryError fn) True ∧
    fails (.configurationViolation fn) (∃ c, s.ctxs.find fn = some c ∧ c.prot = true) ∧
    ((s.key fn).st = .revoked → exec (.keyRevocation fn) s = .next s) ∧
    (fn ≤ 1024 → (s.key fn).st ≠ .revoked → ∃ u, exec (.keyRevocation fn) s = .next u ∧ (errs → inError u) ∧
      u.key fn = ⟨.revoked, 0⟩ ∧ (∀ w, w ≠ fn → u.key w = s.key w) ∧ (∀ e ∈ u.l2, ∀ y ∈ e.2, y.world ≠ fn) ∧
      ∀ n, (∀ e ∈ (u.core n).l1, e.1 % 2048 ≠ fn) ∧ (∀ y ∈ (u.core n).ic, y.world ≠ fn) ∧
        ∀ p ∈ (u.core n).pins, p.world ≠ fn) ∧
    (st ≠ .departing → exec (.endOfClearingSequence fn) s = .next s) ∧
    (∀ c, s.ctxs.find fn = some c → c.depart ≠ 0 → exec (.endOfClearingSequence fn) s = .next s) ∧
    (∀ c, s.ctxs.find fn = some c → c.st = .departing → c.depart = 0 → ∃ u, exec (.endOfClearingSequence fn) s = .next u ∧
      u.ctxs.find fn = none ∧ u.key fn = ⟨.empty, 0⟩ ∧
      (∀ w, w ≠ fn → u.ctxs.find w = s.ctxs.find w ∧ u.key w = s.key w) ∧
      u.evq = s.evq ++ [posted .departing .free] ∧
      (∀ n, u.counter n = if c.cbase ≤ n ∧ n < c.cbase + c.ccount then 0 else s.counter n) ∧
      (∀ e ∈ u.slots, e.2.world ≠ fn) ∧ (∀ r ∈ u.regions, r.world ≠ fn) ∧ (∀ t ∈ u.tcache, t.world ≠ fn) ∧
      ∀ g, u.unscrubbed.getD g false = (decide (g ∈ c.grans) || s.unscrubbed.getD g false)) ∧
    (s.link hostLink ≠ .down → ∃ u, exec .hostLinkDown s = .next u ∧ u.link hostLink = .down ∧
      (fn ∈ s.protectedFns → u.cstate fn = .departing ∧ (u.key fn).st = .revoked) ∧
      (fn ∉ s.protectedFns → u.cstate fn = if errs then .error else st)) ∧
    (∃ u, exec .hotReset s = .next u ∧ u.link hostLink = .resetting ∧
      u.gcq = Gcq.reset ∧ u.heq = Gcq.reset ∧ u.cmds = [] ∧ u.spdm = ⟨false, false, false, []⟩ ∧ u.ide = [] ∧
      (u.key 1024).st = .empty ∧
      (fn < 1024 → st ≠ .free → u.cstate fn = .departing ∧ (st ≠ .departing → (u.key fn).st = .revoked)))

/-! ### Links, dies and peers -/

/-- Link n has moved to a state, and every world that hears of it has its LINK event, but for a retrain's begin and its
success (R372, R376). -/
def linkMoved (s u : State) (n : Nat) (new : LkState) : Prop :=
  u.link n = new ∧ (∀ m, m ≠ n → u.link m = s.link m) ∧
    ∃ es, u.evq = s.evq ++ es ∧ es.map (fun e => (e.ring, e.src, e.kind, e.info)) =
      if (s.link n, new) ∈ [(LkState.active, LkState.retraining), (.retraining, .active)] then []
      else (s.linkWorlds n).map fun w => (w, linkSource n, 4, new.code + 256 * (s.link n).code)

/-- The one started command of a code about an object has ended with a status, a DETAIL and a VALUE (R215). -/
def endedBy (s u : State) (code arg status detail value : Nat) : Prop :=
  ∀ k c, s.cmds.find k = some c → c.code = code → c.st = .started → c.arg 0 = arg →
    (∀ e ∈ s.cmds, e.2.code = code → e.2.st = .started → e.2.arg 0 = arg → e.1 = k) → cmdEnded u k c status detail value

/-- The session of a peer port has ended: every unit of an access to it has failed with LINK_UNAVAILABLE, but for accesses
kept for a resume, and the numbers of the next session begin anew (R176, R387). -/
def portFailed (s u : State) (p : Nat) : Prop :=
  (∀ x, u.txns.find x = (s.txns.find x).map fun t =>
    if s.isKept x t then t
    else { t with units := t.units.map fun a => if a.port = some p then { a with err := some 11 } else a }) ∧
  u.farSeen.find p = none

/-- R371 to R374, R376, R387: linkTrainingSuccess, linkTrainingFailure, retrainTrigger, retrainSuccess,
retrainFailure, quiesceComplete and peerSessionEnd complete. Links move between their states by training, retrains and
quiesces, their events are posted, and the commands that wait for them end; a die that no path joins to the hub is
isolated, also while a warm reset still saves its groups, where a RETRAINING link joins its ends (log 119); a quiesced peer
port is reset, and its session ends there or 100 ms after the port went down. A DOWN host link or port trains to ACTIVE
(log 121). -/
def Obligations.Links : Prop :=
  ∀ (s : State) (n : Nat), s.power ≠ .off →
    (n ≤ 16 → s.link n = .resetting → s.resetDie n = none →
      ∃ u, exec (.linkTrainingSuccess n) s = .next u ∧ linkMoved s u n .active ∧
        (8 < n → endedBy s u 0x42 (n - 9) 1 0 1)) ∧
    (n ≤ 16 → s.running = false ∨ 8 ≤ n ∧ s.resetDie n = none → s.link n = .down →
      ∃ u, exec (.linkTrainingSuccess n) s = .next u ∧ linkMoved s u n .active) ∧
    (s.link n = .resetting → s.resetDie n = none →
      ∃ u, exec (.linkTrainingFailure n) s = .next u ∧ linkMoved s u n .down ∧ (8 < n → endedBy s u 0x42 (n - 9) 1 0 0)) ∧
    (∀ d w, s.link n = .resetting → s.resetDie n = some (d, w) →
      exec (.linkTrainingSuccess n) s = .next s ∧
      ∃ u, exec (.linkTrainingFailure n) s = .next u ∧ u = { s with warm := u.warm } ∧
        u.warm.find d = some { w with bad := if w.bad = 0 then 7 else w.bad }) ∧
    (s.link n = .active → ∃ u, exec (.retrainTrigger n) s = .next u ∧ linkMoved s u n .retraining) ∧
    (s.link n ≠ .active → exec (.retrainTrigger n) s = .next s) ∧
    (s.link n = .retraining →
      (∃ u, exec (.retrainSuccess n) s = .next u ∧ linkMoved s u n .active ∧ endedBy s u 0x41 (linkSource n) 1 0 1) ∧
      (8 < n → ∃ u, exec (.retrainFailure n) s = .next u ∧ linkMoved s u n .down ∧
        endedBy s u 0x41 (linkSource n) 1 0 0) ∧
      (n ≤ 8 → ∃ u, exec (.retrainFailure n) s = .next u ∧ u.link n = .down) ∧
      (∀ d, n < 8 → d < 4 → s.running = true → d ∉ (s.moveLink n .down).joinedDies → d ∉ s.dead →
        s.warm.find d = none ∨ (∃ w, s.warm.find d = some w ∧ w.step = 1) →
        ∃ u, exec (.retrainFailure n) s = .next u ∧ u.warm.find d = some ⟨4, 0, true⟩ ∧
          ∀ m ∈ dieLinks d, u.link m = .down)) ∧
    (8 < n → s.link n = .quiescing →
      ∃ u, exec (.quiesceComplete n) s = .next u ∧ u.link n = .resetting ∧ portFailed s u (n - 9)) ∧
    (n < 8 → s.link (portLink n) = .down ∨ s.link (portLink n) = .resetting → s.portDown.getD n 0 + 100000 ≤ s.time →
      ∃ u, exec (.peerSessionEnd n) s = .next u ∧ u = { s with txns := u.txns, farSeen := u.farSeen } ∧
        portFailed s u n) ∧
    (s.link (portLink n) ≠ .down → s.link (portLink n) ≠ .resetting → exec (.peerSessionEnd n) s = .next s)

/-- R15, R374, R377 to R381: warmResetQuiesce, warmResetWriteBack, warmResetErrorReplies, warmResetDieReset,
warmResetSelfTest, warmResetTraining and reAdmission complete. With no group left on the die its links quiesce (or go
down with a die that is cut off by it) and every core drops its sectors and holds; its lines are written back; its
links go down; its caches and translations are lost and its links are reset; the self-test replaces columns and slices
that fail by spares, or leaves them out; the links train, but for one that another die in reset holds (log 94), and the die
is admitted again, or it stays out and the command fails with the step. The spare that is taken, with records of zeros, is
log 21, and DETAIL 6 for a dead die is log 118. -/
def Obligations.WarmReset : Prop :=
  ∀ (s : State) (d : Nat) (w : Warm), s.power ≠ .off → s.warm.find d = some w →
    let on := fun (step : Nat) (i : Instr) (post : State → Prop) =>
      (w.step = step → ∃ u, exec i s = .next u ∧ post u) ∧ (w.step ≠ step → exec i s = .next s)
    let at_ := fun (u : State) (step : Nat) => u.warm.find d = some { w with step := step }
    let links := fun (u : State) (f : Nat → LkState) => ∀ n ∈ dieLinks d, u.link n = f n
    (s.onDie d = [] → on 1 (.warmResetQuiesce d) fun u => at_ u 2 ∧
      (∀ n ∈ dieLinks d, s.link n = .active ∨ s.link n = .retraining →
        ((∃ e, e < 4 ∧ e ≠ d ∧ n ∈ dieLinks e ∧ s.warm.find e = none ∧ u.warm.find e = some ⟨4, 0, true⟩) →
          u.link n = .down) ∧
        ((∀ e, e ≠ d → n ∈ dieLinks e → u.warm.find e = s.warm.find e) → u.link n = .quiescing)) ∧
      (∀ n, (∀ e ∈ (u.core n).l1, paDie (e.1 / 2048 * 32) ≠ d) ∧
        ∀ p ∈ (u.core n).pins, ∀ l ∈ p.lines, paDie (l * 128) ≠ d) ∧
      ∀ m ∈ u.monitors, m.slice / 40 ≠ d) ∧
    (s.onDie d ≠ [] → exec (.warmResetQuiesce d) s = .next s) ∧
    on 2 (.warmResetWriteBack d) (fun u => at_ u 3 ∧ (∀ e ∈ u.l2, ∀ y ∈ e.2, paDie (y.line * 128) ≠ d) ∧
      u = { s with warm := u.warm, l2 := u.l2 }) ∧
    on 3 (.warmResetErrorReplies d) (fun u => at_ u 4 ∧ links u fun _ => .down) ∧
    on 4 (.warmResetDieReset d) (fun u => at_ u 5 ∧
      (links u fun n => if s.link n = .down ∧ s.deadEnd d n = false then .resetting else s.link n) ∧
      (∀ t ∈ u.tcache, t.die ≠ d) ∧ (∀ e ∈ u.l2, ∀ y ∈ e.2, paDie (y.line * 128) ≠ d) ∧
      (∀ n, coreDie n = d → (u.core n).l1 = [] ∧ (u.core n).ic = [] ∧ (u.core n).pins = []) ∧
      (w.iso = false → u.mem = s.mem)) ∧
    on 5 (.warmResetSelfTest d [] []) (fun u => u = { s with warm := u.warm } ∧ at_ u 6) ∧
    (∀ c, c < 160 → colDie c = d →
      let spares := s.spares.getD d 0
      (0 < spares → d < s.spares.length → ∀ cs ss, (cs, ss) ∈ [([c], []), ([], [c])] →
        on 5 (.warmResetSelfTest d cs ss) (fun u => at_ u 6 ∧ u.spares.getD d 0 = spares - 1 ∧
          u.colSpare.find c = some (4 - spares) ∧ ∀ k ∈ colUnits c, u.wear k = ⟨0, 0, 0, 0⟩)) ∧
      (spares = 0 → on 5 (.warmResetSelfTest d [c] []) (fun u => at_ u 6 ∧ c ∈ u.colBad ∧
          u.clusterOk.getLsbD (colCluster c) = false) ∧
        on 5 (.warmResetSelfTest d [] [c]) (fun u => u.warm.find d = some ⟨6, 6, w.iso⟩))) ∧
    (w.bad = 0 → d ∉ s.dead → on 6 (.warmResetTraining d) fun u => at_ u 7 ∧
      links u fun n => if s.link n = .resetting ∧ ((otherDie d n).bind s.warm.find).isNone then .active else s.link n) ∧
    (w.bad ≠ 0 ∨ d ∈ s.dead → on 6 (.warmResetTraining d) fun u => d ∈ u.dead ∧ u.warm.find d = none ∧
      (links u fun _ => .down) ∧ endedBy s u 0x40 d 5 (if w.bad = 0 then 6 else w.bad) 0) ∧
    on 7 (.reAdmission d) (fun u => u.warm.find d = none ∧ endedBy s u 0x40 d 1 0 0)

/-- R359, R360, R386, R387: remoteAccess and peerAcknowledgement complete. A peer's request over an ACTIVE port, of
one aligned unit under a number that its port has not had applied, is performed for its world at the address, and
answered; one that fails the checks is answered with its class, and a write to an ABSENT tile goes into its log. A
write that comes again under its number is acknowledged, and no more. An acknowledgement of a peer removes the unit
that it performed from its access, or fails it. What a peer answers, and which numbers a port has had, is log 122. -/
def Obligations.Peers : Prop :=
  ∀ (s : State) (port seq world va x : Nat) (bytes : List Nat),
    let n := bytes.length
    let arrives := fun (op : RemOp) => exec (.remoteAccess ⟨port, seq⟩ world va op bytes) s
    let key := fun (u : State) => (u.key world).key
    (s.running = true → s.farq = [] → port < 8 → world ≤ 1023 → s.link (portLink port) = .active →
      n ∈ [1, 2, 4, 8, 16] → va % n = 0 →
      (∀ s' pa, s.engineAt world va .r = (.ok pa, s') → s'.unscr pa = false →
        ∃ u, arrives .rd = .next u ∧
          u.outs = s'.outs ++ [.peerData port ((upTo pa n).map (s'.hbmByte (key s')))] ∧ u.mem = s'.mem) ∧
      (seq ∈ s.farSeen.getD port [] →
        exec (.remoteAccess ⟨port, seq⟩ world va .wr bytes) s = .next { s with outs := s.outs ++ [.peerData port []] }) ∧
      (seq ∉ s.farSeen.getD port [] →
        (∀ s' pa, s.engineAt world va .w = (.ok pa, s') → pa % n = 0 → ∃ u, arrives .wr = .next u ∧
          u.outs = s'.outs ++ [.peerData port []] ∧ seq ∈ u.farSeen.getD port [] ∧
          (∀ j, j < n → u.hbmByte (key s) (pa + j) = BitVec.ofNat 8 (bytes.getD j 0)) ∧
          ∀ a, s'.unscr a = false → a < pa ∨ pa + n ≤ a → u.hbmByte (key s) a = s'.hbmByte (key s) a) ∧
        (∀ s' pa op t, n = t.bits / 8 → n ≠ 16 → s.engineAt world va .a = (.ok pa, s') → pa % n = 0 →
          s'.unscr pa = false →
          let old := leNat ((upTo pa n).map (s'.hbmByte (key s)))
          ∃ u, arrives (.red op t) = .next u ∧ u.outs = s'.outs ++ [.peerData port []] ∧
            seq ∈ u.farSeen.getD port [] ∧
            ∀ j, j < n → u.hbmByte (key s) (pa + j) =
              (leBytes n (applyOp op t old (leNat (toBytes bytes))).val).getD j 0) ∧
        (∀ s' r k y l s2 y', s.engineAt world va .w = (.tile, s') → s.tileAt world va = some (r, k, y) →
          y.st = .absent → s.walk hubDie world va = (.leaf l, s2) →
          y.appends [storeEntry va (toBytes bytes)] = (y', n) →
          ∃ u, arrives .wr = .next u ∧ u.outs = s.outs ++ [.peerData port []] ∧
            (u.tileOf r k).map (fun e => e.2) = some y')) ∧
      (∀ s' k, s.engineAt world va .r = (.bad k, s') ∨ s.engineAt world va .r = (.err k, s') →
        ∃ u, arrives .rd = .next u ∧ u = { s' with outs := s'.outs ++ [.peerError port k] }) ∧
      (∀ s', s.engineAt world va .r = (.held, s') → ∃ u, arrives .rd = .next u ∧
        u = { s' with farq := s'.farq ++ [⟨port, seq, world, va, .rd, bytes⟩] })) ∧
    (∀ t u a, s.power ≠ .off → s.txns.find x = some t → s.farUnit x t = some (u, a) → t.kind ≠ .load →
      match s.farErr with
      | some k => ∃ v, exec (.peerAcknowledgement x) s = .next v ∧ v.txns.find x = some (t.fail u k)
      | none =>
        (2 ≤ t.units.length → ∃ v t', exec (.peerAcknowledgement x) s = .next v ∧ v.txns.find x = some t' ∧
          t'.units = dropNth u t.units ∧ t'.owed = t.owed) ∧
        (t.units.length = 1 → 0 < t.owed → (s.core t.core).gate = .open → ∀ wp, s.warps.find t.w = some wp →
          ∃ v w', exec (.peerAcknowledgement x) s = .next v ∧ v.txns.find x = none ∧ v.warps.find t.w = some w' ∧
            w'.stores = wp.stores - t.owed))

/-! ### Sinter tiles -/

/-- R356 to R361, R363, R364: logAppend, tileFetchComplete, tileFetchFailure, tileEvictionComplete and
tileEvictionFailure complete. A unit of a store or reduction to an ABSENT tile is appended to its log while the log
has room, and is performed; where an entry of it does not fit the tile is fetched, and what is left of the unit waits.
A fetch copies the backing store into the frames and applies the log (said for a log of no entry and of one); an
eviction copies the frames, whose leaves get their accessed bits, to the backing store and empties the log. A fetch that
fails leaves the tile ABSENT with its log, an eviction that fails leaves it RESIDENT. Host memory holds a tile's bytes as plaintext (log 115), and the log
stands in the state as a list (log 116). -/
def Obligations.SinterTiles : Prop :=
  ∀ (s : State) (r n : Nat) (g : Region) (y : STile), s.power ≠ .off → s.tileOf r n = some (g, y) →
    let fs := s.frames g n
    let back := g.backing + 65536 * n
    let key := (s.key g.world).key
    let tile := fun (u : State) (t : STile) => (u.tileOf r n).map (fun e => e.2) = some t
    let apart := fs.Pairwise fun a b => ∀ p, a = some p → b ≠ some p
    (∀ x k t a, s.txns.find x = some t → t.units[k]? = some a → s.tileAt t.world a.va = some (r, n, y) → a.sm = true →
      logs t.ins = true → y.st = .absent → a.err = none → s.isKept x t = false → s.inOrder x t a = true →
      s.firstIn t k r n = true → s.replyErr t.world a.pa = none → s.away (coreDie t.core) a.pa = false →
      (∀ y' m, y.appends (logEntries t a) = (y', m) →
        ∃ u, exec (.logAppend x k) s = .next u ∧ u.mem = s.mem ∧ tile u (if m = a.n then y' else y'.forced) ∧
          u.txns.find x = some { t with
            units := if m = a.n then dropNth k t.units else updNth (fun a => a.rest m) k t.units }) ∧
      (t.kind = .store → a.data.length = a.n → y.log.length < y.cap → ∃ u, exec (.logAppend x k) s = .next u ∧
        tile u { y with
          log := y.log ++ [⟨0, 2, a.data.length, a.va % 65536, y.seq, leNat a.data⟩], seq := (y.seq + 1) % 2 ^ 32 })) ∧
    (y.st = .arriving →
      (s.tileRuns g n = true → ∃ u t, exec (.tileFetchComplete r n) s = .next u.pump ∧ tile u t ∧ t.st = .resident ∧
        t.log = [] ∧
        (apart → y.log = [] → ∀ i pa j, fs[i]? = some (some pa) → j < 4096 →
          u.hbmByte key (pa + j) = memByte s.hostMem (back + 4096 * i + j)) ∧
        (apart → ∀ e f, y.log = [e] → e.size ∈ [1, 2, 4, 8] → e.off % e.size = 0 → fs[e.off / 4096]? = some (some f) →
          let old := leNat (memBytes s.hostMem (back + e.off) e.size)
          ∀ j, j < e.size → u.hbmByte key (f + e.off % 4096 + j) = (leBytes e.size (e.apply old).val).getD j 0)) ∧
      (s.tileRuns g n = false → exec (.tileFetchComplete r n) s = .next s) ∧
      (∀ k, s.tileFails g n = some k → ∃ u, exec (.tileFetchFailure r n) s = .next u.pump ∧
        tile u { y with st := .absent, refetch := false }) ∧
      (s.tileFails g n = none → exec (.tileFetchFailure r n) s = .next s)) ∧
    (y.st = .leaving →
      (s.tileRuns g n = true → ∃ u t, exec (.tileEvictionComplete r n) s = .next u.pump ∧ tile u t ∧ t.log = [] ∧
        t.seq = 0 ∧ (t.st = if y.refetch = true ∨ s.tileWanted r n = true then .arriving else .absent) ∧
        (∀ i pa j, fs[i]? = some (some pa) → s.unscr pa = false → j < 4096 →
          (∀ h, .ok h ∈ s.tilePages g n → h.sint.isSome = true →
            bitAt h.leaf.ent 11 = true ∨ pa + j < h.leaf.addr ∨ h.leaf.addr + 8 ≤ pa + j) →
          memByte u.hostMem (back + 4096 * i + j) = s.hbmByte key (pa + j)) ∧
        ∀ a, a < back ∨ back + 65536 ≤ a → memByte u.hostMem a = memByte s.hostMem a) ∧
      (∀ k, s.tileFails g n = some k → ∃ u, exec (.tileEvictionFailure r n) s = .next u.pump ∧
        tile u { y with st := .resident, refetch := false } ∧ u.mem = s.mem ∧ u.hostMem = s.hostMem) ∧
      (s.tileFails g n = none → exec (.tileEvictionFailure r n) s = .next s))

/-! ### Wear, boost and power -/

/-- R15, R390 to R401: tick, restEnd, spareCallUp, grantExpiry, boostDecision and nvmRecordWrite complete. A
millisecond adds to the record of each powered unit what it accrues, keeps each partition's budget below 2^63, and
gives the cores the levels of the grants that run; a rest takes its recovery off, and the core is eligible, unless it
is marked again; a drained column is mapped to a spare; a decided boost request is answered with its code, and code 0
gives the grant and takes its cost off the budget; once per second the records go to NVM. A tick passes what is left of its
millisecond (log 104); which spare is taken, with records of zeros, is log 21, and the digest of block 4 log 22. -/
def Obligations.WearAndBoost : Prop :=
  ∀ (s : State), s.power ≠ .off →
    let logged := fun (u : State) (kind unit : Nat) => ∃ e, u.wlog.find (s.wlogNext % 65536) = some e ∧ e.kind = kind ∧
      e.unit = unit ∧ e.time = s.time
    (∀ es, s.running = true → ∃ m u : State, exec (.tick es) s = .next u ∧ u = m.tickCores.tickDone.tickChecks.tickGrants ∧
      (∀ k, 320 ≤ k ∨ (u.core k).drain = false → u.lastWear k = m.wear k) ∧ m.time = (s.time / 1000 + 1) * 1000 ∧ u.time = m.time ∧
      (∀ k, k < 817 → s.poweredUnit k = false → m.wear k = s.wear k) ∧
      (∀ k, k < 817 → s.poweredUnit k = true → m.wear k = (s.wear k).add
        (accrual (s.unitLevel k) (tempPoint (reading es s.temps k)) (s.activity es k))) ∧
      (∀ p k, s.parts.find p = some k → ∃ k', m.parts.find p = some k' ∧
        k'.lbr = s.newLbr (s.accruals es) k ∧ k'.lbr < 2 ^ 63 ∧ k'.est = k.est ∧ k'.mask = k.mask) ∧
      ∀ n c, u.cores.find n = some c → c.level = u.levelOf n ∧ c.cycles = 0 ∧ c.issues = 0 ∧ c.busy = 0) ∧
    (∀ core r, (s.core core).rest = .resting 0 r →
      let w := s.wear core
      let gain := min (256 * r / 10) ((w.bsu - w.base) / 4)
      ∃ u, exec (.restEnd core) s = .next u ∧ logged u 5 core ∧
        u.wear core = { w with bsu := w.bsu - gain, base := w.bsu - gain } ∧ u.lastWear core = u.wear core ∧
        (∀ k, k ≠ core → u.wear k = s.wear k ∧ u.lastWear k = s.lastWear k) ∧
        let marked := ∃ pn p, s.corePart core = some pn ∧ s.parts.find pn = some p ∧
          102 * medianOf (p.cores.map fun n => (u.wear n).bsu) < 100 * (u.wear core).bsu ∧
          ∃ k ∈ p.cores, k ≠ core ∧ s.coreIn k = true
        (¬marked → (u.core core).rest = .no) ∧
        (marked → (u.core core).rest = if s.onCoreGroups core = [] then .resting 20 0 else .marked)) ∧
    (∀ col unit v, (s.core (2 * col)).drain = true → s.onCoreGroups (2 * col) = [] →
      s.onCoreGroups (2 * col + 1) = [] → s.warm.find (colDie col) = none → colDie col < s.spares.length →
      0 < s.spares.getD (colDie col) 0 → s.calls.find col = some (unit, v) →
      ∃ u, exec (.spareCallUp col) s = .next u ∧ u.spares.getD (colDie col) 0 = s.spares.getD (colDie col) 0 - 1 ∧
        u.colSpare.find col = some (4 - s.spares.getD (colDie col) 0) ∧ logged u 4 unit ∧
        (∀ k ∈ colUnits col, u.wear k = ⟨0, 0, 0, 0⟩) ∧
        u.calls.find col = none ∧ ∀ n, n = 2 * col ∨ n = 2 * col + 1 → (u.core n).drain = false ∧
          ((s.core n).drain = true → (u.core n).rest = .no)) ∧
    (∀ g gr k, s.groups.find g = some gr → gr.grant = some k →
      (k.left = 0 → ∃ u, exec (.grantExpiry g) s = .next u ∧ u = { s with groups := u.groups } ∧
        u.groups.find g = some { gr with grant := none }) ∧
      (k.left ≠ 0 → exec (.grantExpiry g) s = .next s)) ∧
    (∀ q y x c lvl d a pn p, Wakes s q y x → y.ins = .boost c lvl d a → s.waitPart y = some pn →
      s.parts.find pn = some p → (∀ e ∈ s.waits, e.2.kind = .boost → s.waitPart e.2 = some pn → q ≤ e.1) →
      let ticks := y.stat.getD 0 0
      let cost := s.boostCost x.g lvl.toNat ticks
      ∃ u g' code, exec (.boostDecision q) s = .next u ∧ Resumed u q x (useD 1 d) ∧ Gets u x d 1 (fun _ => code) ∧
        u.groups.find x.wp.gid = some g' ∧ code = s.boostCode x.g pn p lvl.toNat ticks ∧
        g' = { x.g with lastBoost := code + 1, grant := if code = 0 then some ⟨lvl.toNat, ticks, true⟩ else x.g.grant } ∧
        u.parts.find pn = some { p with lbr := if code = 0 then p.lbr - cost else p.lbr } ∧
        logged u (if code = 0 then 2 else 3) 0xffff) ∧
    (s.running = true → s.time % 1000000 = 0 → s.nvmAt ≠ s.time →
      ∃ u, exec .nvmRecordWrite s = .next u ∧ u.nvmUnits = s.units ∧ u.nvmAt = s.time ∧ u.units = s.units ∧
        (∀ e ∈ s.parts, (∀ f ∈ s.parts, f.1 = e.1 → f = e) → u.nvmLbr.getD e.1 0 = e.2.lbr) ∧
        u.meas.find 4 = some (Config.shake (u.content 4)) ∧ u.wlogNext = s.wlogNext + s.parts.length)

/-- R7, R16, R17, R204, R393, R399, R403 to R409, R414: powerEstimate, forcedClockSkipping, hbmDerating,
hotZoneThrottle, throttleEscalation, throttleEnd, gateApply, gateWake, wakeComplete, supplyDroop, powerFailWarning,
powerFailClear, holdUpExpiry, powerOn, selfTestEnd, shockSensor and firmwareUpdate complete. Estimates pass a
microsecond, the last of a millisecond together with its tick (log 104), and set loans and reef levels; forced clock
skipping follows how long a partition has been at level 3; a stack's cap follows its temperature; hot zones throttle, by
energies that are free (log 74), and end; gates of upper cores close, open and wake; a power-fail warning ends grants, an
expiry loses HBM and turns the device off (what outlasts it is log 120), power on begins the self-test, and its end lets
the device run. The image that an update brings is free (log 22). -/
def Obligations.PowerAndHeat : Prop :=
  ∀ (s : State), s.power ≠ .off →
    (∀ es, s.running = true → s.estDone = true → exec (.powerEstimate es) s = .next s) ∧
    (∀ es, s.running = true → s.estDone = false →
      let ps := es.foldl (fun t e => t.upd e.1 fun p => { p with est := e.2 }) s.parts
      let last := (s.time + 1) % 1000 = 0
      ∃ u, exec (.powerEstimate es) s = .next u ∧ u = { s with
          time := if last then s.time else s.time + 1, estDone := decide last, parts := u.parts, freeCtr := u.freeCtr } ∧
        ∀ n p, ps.find n = some p → ∃ loan p', u.parts.find n = some p' ∧
          let level := reefLevel p.est (1000 * p.share + loan)
          p' = { p with
            borrow := loan, reef := level, at3 := if level = 3 then p.at3 + 1 else 0
            below3 := if level = 3 then 0 else p.below3 + 1 } ∧
          (p.est ≤ 1000 * p.share → loan = 0) ∧
          (1000 * p.share < p.est → borrowShares ps ≠ 0 → loan = lent ps * p.share / borrowShares ps)) ∧
    (∀ n p, s.parts.find n = some p → ∃ u p', exec (.forcedClockSkipping n) s = .next u ∧ u = { s with parts := u.parts } ∧
      u.parts.find n = some p' ∧ p' = { p with skip := p'.skip } ∧ (p.reef = 3 → 20 ≤ p.at3 → p'.skip = 2) ∧
      (p.reef = 3 → 10 ≤ p.at3 → p.at3 < 20 → p.skip = 0 → p'.skip = 1) ∧ (p.reef ≠ 3 → 10 ≤ p.below3 → p'.skip = 0)) ∧
    (∀ stack temp, stack < 8 →
      let cap := if 95 ≤ temp then 50 else if 85 ≤ temp then 75 else 100
      (s.derates.getD stack 100 = cap → exec (.hbmDerating stack temp) s = .next s) ∧
      ∃ u, exec (.hbmDerating stack temp) s = .next u ∧ u.derates.getD stack 100 = cap ∧
        u = { s with derates := u.derates, evq := u.evq, seqs := u.seqs } ∧
        (cap ≠ 100 → s.derates.getD stack 100 ≠ 100 → u.evq = s.evq) ∧
        ∀ k, k ≠ stack → u.derates.getD k 100 = s.derates.getD k 100) ∧
    (∀ core, core < 320 →
      (95 ≤ s.temps.getD core 0 → s.zoneOf (coreCol core) = none → ∃ u z, exec (.hotZoneThrottle core) s = .next u ∧
        u.zoneOf (coreCol core) = some z ∧ z = ⟨coreCol core, z.parts, s.time⟩ ∧
        z.parts = (s.zoneNext (coreCol core) []).toList) ∧
      (s.temps.getD core 0 < 95 → exec (.hotZoneThrottle core) s = .next s) ∧
      (∀ z, s.zoneOf (coreCol core) = some z →
        (z.since + 1000 ≤ s.time → 95 ≤ s.zoneTemp (coreCol core) → ∃ u z', exec (.throttleEscalation core) s = .next u ∧
          u.zoneOf (coreCol core) = some z' ∧ z'.since = s.time ∧
          z'.parts = z.parts ++ (s.zoneNext (coreCol core) z.parts).toList) ∧
        (s.zoneTemp (coreCol core) < 90 → ∃ u, exec (.throttleEnd core) s = .next u ∧ u = { s with zones := u.zones } ∧
          u.zoneOf (coreCol core) = none) ∧
        (90 ≤ s.zoneTemp (coreCol core) → exec (.throttleEnd core) s = .next s))) ∧
    (∀ col,
      let n := 2 * col + 1
      let gate := fun (i : Instr) (g : Gate) => ∃ u, exec i s = .next u ∧ (u.core n).gate = g ∧
        ∀ k, k ≠ n → u.core k = s.core k
      (∀ g, (s.core n).gate = .pending g → s.quiet n = true → gate (.gateApply col) (.gated g 0)) ∧
      (∀ g r, (s.core n).gate = .gated g r →
        (s.quiet n = false → gate (.gateWake col) (.waking (s.core n).clk none)) ∧
        (s.quiet n = true → exec (.gateWake col) s = .next s)) ∧
      (∀ t next, (s.core n).gate = .waking t next →
        (t + 2048 ≤ (s.core n).clk → gate (.wakeComplete col) (match next with
          | some g => .pending g
          | none => .open)) ∧
        ((s.core n).clk < t + 2048 → exec (.wakeComplete col) s = .next s))) ∧
    (∀ core, exec (.supplyDroop core) s = .next s) ∧
    (s.power = .on → ∃ u, exec .powerFailWarning s = .next u ∧ u.power = .failing ∧ u.nvmUnits = u.units ∧
      ∀ g gr, u.groups.find g = some gr → gr.grant = none) ∧
    (s.power = .failing → exec .powerFailClear s = .next { s with power := .on } ∧
      ∃ u, exec .holdUpExpiry s = .next u ∧ u.power = .off ∧ u.mem = [] ∧ u.groups = [] ∧ u.warps = [] ∧ u.ctxs = [] ∧
        u.hostMem = s.hostMem ∧ u.nvmUnits = s.endRests.endGates.units ∧
        ((∀ n, (s.core n).rest = .no ∧ (s.core n).gate = .open) → u.nvmUnits = s.units ∧ u.wlog = s.wlog) ∧
        u.spares = s.spares ∧ u.colSpare = s.colSpare ∧ u.clusterOk = s.clusterOk) ∧
    exec .powerOn s = .next s ∧
    (∀ t : State, t.power = .off → ∃ u, exec .powerOn t = .next u ∧ u.power = .selfTest ∧ u.groups = [] ∧
      u.units = t.nvmUnits ∧ u.ticked = t.nvmUnits ∧ u.spares = t.spares ∧ u.hostMem = t.hostMem) ∧
    (s.power = .selfTest →
      (∃ u, exec (.selfTestEnd [] []) s = .next u ∧ u.power = .on ∧ u.transport = false ∧ u.colBad = s.colBad ∧
        u.clusterOk = s.clusterOk ∧ u.spares = s.spares ∧ u.slices = [allSlices, allSlices, allSlices, allSlices] ∧
        u.meas.find 6 = some (Config.shake (u.content 6))) ∧
      (∀ c, c < 160 → s.spares.getD (colDie c) 0 = 0 → ∃ u, exec (.selfTestEnd [c] []) s = .next u ∧ u.power = .on ∧
        c ∈ u.colBad ∧ u.clusterOk.getLsbD (colCluster c) = false)) ∧
    exec .shockSensor s = .next { s with transport := true } ∧
    match s.signedImage with
    | none => exec .firmwareUpdate s = .next s
    | some (block, image) => (block = 1 ∨ block = 2) ∧
      (s.running = true → ∃ u, exec .firmwareUpdate s = .next u ∧
        u = { s with images := u.images, meas := u.meas } ∧ u.images.find block = some image ∧
        u.meas.find block = some (Config.shake [image]))

/-! ### Words, steps and reset -/

/-- R30, R31, R53, R79 to R87: twelve bytes written out from the tables, and the instructions that they stand for; and
words that are no instruction: opcode 0, a set reserved bit, and a reserved code. -/
def Obligations.DecodedWords : Prop :=
  let reads := fun (bs : List Byte) (i : Instr) => decodeBytes bs = .ok (i, [])
  reads [0xfb, 0xff, 0xff, 0xff, 0xff, 0, 0, 0, 0, 0x08, 0x68, 0xc0]
    (.bra { Ctl.plain with gn := true, gi := 2, gap := 1 } (-5)) ∧
  reads [0x40, 0, 0x20, 0, 0, 0x08, 0, 0, 0x57, 0, 0x04, 0x60]
    (.ld { Ctl.plain with gi := 1 } .b32 .el .x4 (.v 8) (.v 2) 0x40) ∧
  reads [0, 0, 0, 0, 0, 0, 0, 0x70, 0, 0, 0x1c, 0xe0] (.trap Ctl.plain 7) ∧
  reads [0x02, 0, 0x10, 0, 0, 0x04, 0, 0x30, 0x40, 0, 0x9d, 0x2c]
    (.fma { Ctl.plain with stall := 4 } .f32 .rz (.v 4) (.v 1) (.v 2) (.v 3)) ∧
  reads [0x08, 0, 0x20, 0, 0, 0x06, 0, 0x40, 0x70, 0, 0x1c, 0x62] (.atom Ctl.plain .f32 .add .rel (.v 6) (.v 2) 8) ∧
  reads [0x04, 0, 0x14, 0, 0, 0, 0, 0, 0, 0, 0x1c, 0x82] (.tqpush Ctl.plain 1 (.k 4)) ∧
  reads [0x04, 0, 0x04, 0x02, 0, 0x05, 0, 0, 0x46, 0, 0x1c, 0xa0]
    (.mma Ctl.plain 2 .all true true 0 5 32 4) ∧
  reads [0x10, 0, 0x20, 0, 0, 0x20, 0, 0x60, 0x51, 0, 0xdc, 0x60]
    (.ldsp Ctl.plain .b32 .x4 true true (.v 32) (.v 2) 16) ∧
  decodeBytes (List.replicate 12 0) = .error .unassignedOpcode ∧
  decodeBytes [0xfb, 0xff, 0xff, 0xff, 0xff, 0, 0, 0x10, 0, 0x08, 0x68, 0xc0] = .error .reservedBits ∧
  decodeBytes [0x40, 0, 0x20, 0, 0, 0x08, 0, 0, 0xf7, 0, 0x04, 0x60] = .error .reservedCode

/-- R31, R53, R87: an instruction occupies 12 consecutive bytes, the lowest bits of its word at the lowest address;
decoding gives back every well-formed instruction, whatever follows its bytes, and every word that decodes is the one
word of its instruction, which is well formed. -/
def Obligations.DecodeEncode : Prop :=
  (∀ i w, encode i = some w → ∃ bs, encodeBytes i = some bs ∧ bs.length = 12 ∧
    ∀ k, k < 12 → bs.getD k 0 = w.extractLsb' (8 * k) 8) ∧
  (∀ i, WellFormed i → (ctlOf i).isSome = true → ∃ w, encode i = some w ∧ decodeWord w = .ok i) ∧
  (∀ i bs rest, WellFormed i → encodeBytes i = some bs → decodeBytes (bs ++ rest) = .ok (i, rest)) ∧
  (∀ w i, decodeWord w = .ok i → WellFormed i ∧ encode i = some w)

/-- R32, R54, R205, R286 to R290, R295, R349: in the model's order of moves (log 3), a step whose turn it is for a
quadrant runs the instruction that the bytes at the issuing group's PC decode to (as the core's instruction cache
holds them, or memory: log 34), or raises ILLEGAL for bytes that are no instruction, and then settles and ends the
turn. A word may lie in two pages, each of which is translated; a fetch that fails raises its class and level with the
PC, and one that a die holds back changes nothing but what its walk did. The group on the second port runs in the next
step; where the yield counter stood at zero the instruction has only the fault of higher priority that it meets, or else
WATCHDOG is raised; a step on an event runs it. -/
def Obligations.StepRunsDecoded : Prop :=
  ∀ (s : State),
    let runs := fun (s1 : State) (n : Nat) (u : Cur) (out : Host.Outcome State Fault Refusal) =>
      let core := s1.warpCore u.w
      let world := s1.worldOf u.w
      let pc := u.pc.toNat
      let code := fun (t : State) (va : Nat) => t.codeAt (coreDie core) world va
      let first := code { s1 with freeCtr := u.draw } pc
      let left := 4096 - pc % 4096
      let fetched := fun (t : State) => { t with freeCtr := max s1.freeCtr t.freeCtr + 1 }
      let does := fun (bs : List Byte) (t : State) =>
        (∀ i, decodeBytes bs = .ok (i, []) →
          (u.late = false → out = onNext (exec i (fetched t)) fun v => v.afterIssue n) ∧
          (∀ v, u.late = true → exec i (fetched t) = .next v → out = onNext
            (if faultedAbove (fetched t) v u.w = true then .next v else exec .watchdog (fetched t)) fun v => v.afterIssue n)) ∧
        (∀ e, decodeBytes bs = .error e → out = .next (((fetched t).badWord 1 0 0).afterIssue n))
      let fails := fun (f : Fetched) (t : State) =>
        (∀ cls lvl, f = .bad cls lvl → out = .next (((fetched t).badWord cls lvl pc).afterIssue n)) ∧
        (f = .held → out = .next ((fetched t).afterIssue n))
      (∀ f t, first = (.error f, t) → fails f t) ∧
      (∀ pa s2 s3 bs, 12 ≤ left → first = (.ok pa, s2) → s2.codeBytes core world pa 12 = (bs, s3) →
        ((∀ l ∈ (s2.core core).ic, l.world = world → l.bytes = s2.hbmBytes (s2.key world).key (32 * l.line) 32) →
          bs = s2.hbmBytes (s2.key world).key pa 12) ∧ does bs s3) ∧
      (∀ pa s2, left < 12 → first = (.ok pa, s2) →
        (∀ f t, code s2 (pc + left) = (.error f, t) → fails f t) ∧
        (∀ pb s3 s4 s5 as bs, code s2 (pc + left) = (.ok pb, s3) → s3.codeBytes core world pa left = (as, s4) →
          s4.codeBytes core world pb (12 - left) = (bs, s5) → does (as ++ bs) s5))
    (∀ n rest r u s1, s.second = none → s.agenda = .issue n :: rest → s.power ≠ .off →
      State.selectWarp { s with agenda := rest } n (s.core n).quad = some r →
      s1 = State.opportunity { s with agenda := rest } n r → s1.cur = some u → runs s1 n u (step s)) ∧
    (∀ u, s.second = some u → runs { s with second := none, cur := some u } (s.warpCore u.w) u (step s)) ∧
    (∀ i rest, s.second = none → s.agenda = .ev i :: rest →
      step s = onNext (exec i { s with agenda := rest }) State.settled)

/-- R32, R34, R54, R140, R292: a word whose effective mask is empty retires, its active lanes advance, and it does
nothing else (a lane whose guard STRICT mode finds not ready stands in the mask, R39); the uniform destinations of mov, bcast, vote and redw
receive their value for an empty mask. -/
def Obligations.EmptyMask : Prop :=
  ∀ (i : Instr) (c : Ctl) (s : State) (x : Iss), ctlOf i = some c → s.iss c = some x → x.q = none → x.m = 0 →
    let keeps := fun (us : List Use) (post : Warp → Prop) =>
      ∃ u wp, exec i s = .next u ∧ Retired s u x us 0 ∧ u.warps.find x.w = some wp ∧ post wp
    let once := fun (d : Dst) (n v : Nat) => match d with
      | .v _ => keeps [] fun _ => True
      | .k r => keeps (useD n d) fun wp => ∀ j, j < n → wp.k.getD (r.toNat + j) 0 = BitVec.ofNat 32 (v / 2 ^ (32 * j))
    (∀ t d a, i = .mov c t d a → once d t.regs 0) ∧
    (∀ d a b, i = .bcast c d a b → once d 1 0) ∧
    (∀ m d g, i = .vote c m d g → once d 1 0) ∧
    (∀ op t d a, i = .redw c op t d a → once d t.regs (emptyRed op t)) ∧
    ((∀ t d a, i ≠ .mov c t d a) → (∀ d a b, i ≠ .bcast c d a b) → (∀ m d g, i ≠ .vote c m d g) →
      (∀ op t d a, i ≠ .redw c op t d a) → keeps [] fun _ => True)

/-- Between two steps no group issues, and every warp of a group with a pending pre-emption request that stands at a stop
point has stopped (R296), unless no slot can be taken and the group runs on (R224; log 130). -/
def restInv (s : State) : Prop :=
  s.atRest ∧ ∀ g gr, s.groups.find g = some gr → gr.preempt = true → s.staysStopped gr.world = true →
    ∀ e ∈ s.warps, e.2.gid = g → s.stands e.2 = true → e.2.stopped = true

/-- R296: every step keeps restInv: between two steps (log 3) no group issues, and every warp of a group with a
pending pre-emption request that stands at a stop point has stopped, unless the group runs on for want of a slot (R224; log
130). -/
def Obligations.StepKeepsRest : Prop := ∀ s t : State, restInv s → step s = .next t → restInv t

/-- Every step keeps both memories in their canonical form, so that equal memories are equal data (logs 1 and 2). -/
def Obligations.StepKeepsMemory : Prop := ∀ s t : State, s.memOk → step s = .next t → t.memOk

/-- R17, R196, R213, R372, R408, R409, R441: after reset the device is in its self-test, every context is FREE, every
link is DOWN, the hypervisor's rings are disabled, the slot store holds 4,096 slots, nothing is resident, and the
invariants of StepKeepsRest and StepKeepsMemory hold. That every key slot is EMPTY with key 0 and every counter 0 is the
model's choice (log 18). -/
def Obligations.ResetState : Prop :=
  let s := State.reset
  restInv s ∧ s.memOk ∧ s.power = .selfTest ∧ (∀ fn, s.cstate fn = .free) ∧ (∀ n, s.link n = .down) ∧
    s.gcq.en = false ∧ s.heq.en = false ∧ s.nslots = 4096 ∧ s.groups = [] ∧ s.warps = [] ∧ s.launches = [] ∧
    s.cmds = [] ∧ s.entries = [] ∧ (∀ w, s.key w = ⟨.empty, 0⟩) ∧ (∀ k, s.counter k = 0) ∧
    ∀ core, (s.core core).gate = .open ∧ (s.core core).rest = .no
end

