-- ==== Sys2Proof/Laws/Tbl.lean ====
section
/-!
SUPPORT. Reading a sparse table after a change of it, and the canonical form that setD keeps.
-/

namespace Sys2Proof

theorem Tbl.find_put {α : Type} (t : Tbl α) (k j : Nat) (x : α) :
    Tbl.find (Tbl.put t k x) j = if j = k then some x else Tbl.find t j := by
  induction t with
  | nil => simp [Tbl.put, Tbl.find, eq_comm]
  | cons e t ih =>
    obtain ⟨i, y⟩ := e
    simp only [Tbl.put]
    split
    · rename_i h
      simp only [Tbl.find]
      by_cases h1 : k = j
      · simp [h1]
      · simp [h1, Ne.symm h1]
    · split
      · rename_i h1 h2
        subst h2
        simp only [Tbl.find]
        by_cases h3 : k = j
        · simp [h3]
        · simp [h3, Ne.symm h3]
      · rename_i h1 h2
        simp only [Tbl.find, ih]
        by_cases h3 : i = j
        · subst h3
          simp [Ne.symm h2]
        · simp [h3]

theorem Tbl.find_del {α : Type} (t : Tbl α) (k j : Nat) :
    Tbl.find (Tbl.del t k) j = if j = k then none else Tbl.find t j := by
  induction t with
  | nil => simp [Tbl.del, Tbl.find]
  | cons e t ih =>
    obtain ⟨i, y⟩ := e
    simp only [Tbl.del]
    split
    · rename_i h
      subst h
      rw [ih]
      simp only [Tbl.find]
      by_cases h3 : j = i
      · simp [h3]
      · simp [h3, Ne.symm h3]
    · rename_i h
      simp only [Tbl.find, ih]
      by_cases h3 : i = j
      · subst h3
        simp [h]
      · simp [h3]

theorem Tbl.find_upd {α : Type} (t : Tbl α) (k j : Nat) (f : α → α) :
    Tbl.find (Tbl.upd t k f) j = if j = k then (Tbl.find t j).map f else Tbl.find t j := by
  induction t with
  | nil => simp [Tbl.upd, Tbl.find]
  | cons e t ih =>
    obtain ⟨i, y⟩ := e
    simp only [Tbl.upd]
    split
    · rename_i h
      subst h
      simp only [Tbl.find]
      by_cases h3 : i = j
      · simp [h3]
      · simp [h3, Ne.symm h3]
    · rename_i h
      simp only [Tbl.find, ih]
      by_cases h3 : i = j
      · subst h3
        simp [h]
      · simp [h3]

theorem Tbl.upd_upd {α : Type} (t : Tbl α) (k : Nat) (f g : α → α) :
    Tbl.upd (Tbl.upd t k f) k g = Tbl.upd t k fun x => g (f x) := by
  induction t with
  | nil => rfl
  | cons e t ih =>
    obtain ⟨j, y⟩ := e
    simp only [Tbl.upd]
    split
    · rename_i h
      subst h
      simp [Tbl.upd]
    · rename_i h
      simp only [Tbl.upd]
      rw [if_neg h, ih]

theorem Tbl.find_upd_self {α : Type} (t : Tbl α) (k : Nat) (f : α → α) :
    Tbl.find (Tbl.upd t k f) k = (Tbl.find t k).map f := by
  simp [Tbl.find_upd]

theorem Tbl.find_upd_ne {α : Type} (t : Tbl α) (k j : Nat) (f : α → α) (h : j ≠ k) :
    Tbl.find (Tbl.upd t k f) j = Tbl.find t j := by
  simp [Tbl.find_upd, h]

theorem Tbl.getD_put {α : Type} (t : Tbl α) (k j : Nat) (x d : α) :
    Tbl.getD (Tbl.put t k x) j d = if j = k then x else Tbl.getD t j d := by
  simp only [Tbl.getD, Tbl.find_put]
  by_cases h : j = k <;> simp [h]

/-- A read after a write of a table that lists no default. -/
theorem Tbl.getD_setD {α : Type} [DecidableEq α] (t : Tbl α) (k j : Nat) (x d : α) :
    Tbl.getD (Tbl.setD t k x d) j d = if j = k then x else Tbl.getD t j d := by
  unfold Tbl.setD
  split
  · rename_i h
    simp only [Tbl.getD, Tbl.find_del]
    by_cases h2 : j = k <;> simp [h2, h]
  · exact Tbl.getD_put t k j x d

/-! ### The canonical form -/

/-- Every key is above a bound. -/
def Tbl.above {α : Type} (b : Nat) (t : Tbl α) : Prop := ∀ e ∈ t, b < e.1

theorem Tbl.sorted_cons {α : Type} (k : Nat) (x : α) (t : Tbl α) :
    Tbl.sorted ((k, x) :: t) = true ↔ Tbl.above k t ∧ Tbl.sorted t = true := by
  induction t generalizing k x with
  | nil => simp [Tbl.sorted, Tbl.above]
  | cons e t ih =>
    obtain ⟨j, y⟩ := e
    simp only [Tbl.sorted, Bool.and_eq_true, decide_eq_true_eq]
    constructor
    · rintro ⟨h1, h2⟩
      refine ⟨?_, h2⟩
      intro e he
      rcases List.mem_cons.mp he with rfl | he
      · exact h1
      · exact Nat.lt_trans h1 (((ih j y).mp h2).1 e he)
    · rintro ⟨h1, h2⟩
      exact ⟨h1 (j, y) (List.mem_cons_self ..), h2⟩

theorem Tbl.mem_put {α : Type} (t : Tbl α) (k : Nat) (x : α) (e : Nat × α) (h : e ∈ Tbl.put t k x) :
    e = (k, x) ∨ e ∈ t := by
  induction t with
  | nil => simpa [Tbl.put] using h
  | cons p t ih =>
    obtain ⟨j, y⟩ := p
    simp only [Tbl.put] at h
    split at h
    · rcases List.mem_cons.mp h with h | h
      · exact .inl h
      · exact .inr h
    · split at h
      · rcases List.mem_cons.mp h with h | h
        · exact .inl h
        · exact .inr (List.mem_cons_of_mem _ h)
      · rcases List.mem_cons.mp h with h | h
        · exact .inr (h ▸ List.mem_cons_self ..)
        · rcases ih h with h | h
          · exact .inl h
          · exact .inr (List.mem_cons_of_mem _ h)

theorem Tbl.mem_del {α : Type} (t : Tbl α) (k : Nat) (e : Nat × α) (h : e ∈ Tbl.del t k) : e ∈ t := by
  induction t with
  | nil => simp [Tbl.del] at h
  | cons p t ih =>
    obtain ⟨j, y⟩ := p
    simp only [Tbl.del] at h
    split at h
    · exact List.mem_cons_of_mem _ (ih h)
    · rcases List.mem_cons.mp h with h | h
      · exact h ▸ List.mem_cons_self ..
      · exact List.mem_cons_of_mem _ (ih h)

theorem Tbl.sorted_put {α : Type} (t : Tbl α) (k : Nat) (x : α) (h : Tbl.sorted t = true) :
    Tbl.sorted (Tbl.put t k x) = true := by
  induction t with
  | nil => rfl
  | cons p t ih =>
    obtain ⟨j, y⟩ := p
    obtain ⟨ha, hs⟩ := (Tbl.sorted_cons j y t).mp h
    simp only [Tbl.put]
    split
    · rename_i hk
      refine (Tbl.sorted_cons _ _ _).mpr ⟨fun e he => ?_, h⟩
      rcases List.mem_cons.mp he with rfl | he
      · exact hk
      · exact Nat.lt_trans hk (ha e he)
    · split
      · rename_i hk
        subst hk
        exact (Tbl.sorted_cons _ _ _).mpr ⟨ha, hs⟩
      · rename_i h1 h2
        refine (Tbl.sorted_cons _ _ _).mpr ⟨fun e he => ?_, ih hs⟩
        rcases Tbl.mem_put t k x e he with rfl | he
        · simp only; omega
        · exact ha e he

theorem Tbl.sorted_del {α : Type} (t : Tbl α) (k : Nat) (h : Tbl.sorted t = true) :
    Tbl.sorted (Tbl.del t k) = true := by
  induction t with
  | nil => rfl
  | cons p t ih =>
    obtain ⟨j, y⟩ := p
    obtain ⟨ha, hs⟩ := (Tbl.sorted_cons j y t).mp h
    simp only [Tbl.del]
    split
    · exact ih hs
    · exact (Tbl.sorted_cons _ _ _).mpr ⟨fun e he => ha e (Tbl.mem_del t k e he), ih hs⟩

/-- A write keeps the canonical form: rising keys, no listed default. -/
theorem Tbl.canonical_setD {α : Type} [DecidableEq α] (t : Tbl α) (k : Nat) (x d : α)
    (h : Tbl.sorted t = true ∧ Tbl.tight t d = true) :
    Tbl.sorted (Tbl.setD t k x d) = true ∧ Tbl.tight (Tbl.setD t k x d) d = true := by
  obtain ⟨hs, ht⟩ := h
  unfold Tbl.tight at ht ⊢
  simp only [List.all_eq_true, decide_eq_true_eq] at ht ⊢
  unfold Tbl.setD
  split
  · exact ⟨Tbl.sorted_del t k hs, fun e he => ht e (Tbl.mem_del t k e he)⟩
  · rename_i hx
    refine ⟨Tbl.sorted_put t k x hs, fun e he => ?_⟩
    rcases Tbl.mem_put t k x e he with rfl | he
    · exact hx
    · exact ht e he

end Sys2Proof
end

