-- ==== Sys2Proof/Laws/Ops.lean ====
section
/-!
SUPPORT. What the operations on lanes, warps, groups and memory do, each said once.
-/

namespace Sys2Proof.Machine

/-! ### Lists -/

theorem mapFrom_length {α : Type} (f : Nat → α → α) (i : Nat) (xs : List α) : (mapFrom f i xs).length = xs.length := by
  induction xs generalizing i with
  | nil => rfl
  | cons x xs ih => simp [mapFrom, ih]

theorem mapFrom_getD {α : Type} (f : Nat → α → α) (i : Nat) (xs : List α) (l : Nat) (d : α) (h : l < xs.length) :
    (mapFrom f i xs).getD l d = f (i + l) (xs.getD l d) := by
  induction xs generalizing i l with
  | nil => simp at h
  | cons x xs ih =>
    cases l with
    | zero => simp [mapFrom]
    | succ l =>
      have := ih (i + 1) l (by simpa using h)
      simp only [mapFrom, List.getD_cons_succ, this]
      congr 1
      omega

theorem updNth_length {α : Type} (f : α → α) (n : Nat) (xs : List α) : (updNth f n xs).length = xs.length := by
  induction xs generalizing n with
  | nil => cases n <;> rfl
  | cons x xs ih => cases n <;> simp [updNth, ih]

theorem updNth_getD {α : Type} (f : α → α) (n : Nat) (xs : List α) (l : Nat) (d : α) (h : l < xs.length) :
    (updNth f n xs).getD l d = if l = n then f (xs.getD l d) else xs.getD l d := by
  induction xs generalizing n l with
  | nil => simp at h
  | cons x xs ih =>
    cases n with
    | zero => cases l <;> simp [updNth]
    | succ n =>
      cases l with
      | zero => simp [updNth]
      | succ l =>
        have := ih n l (by simpa using h)
        simpa [updNth] using this

/-! ### Lanes of a warp -/

theorem Warp.onLanes_size (w : Warp) (m : Mask) (f : Nat → Lane → Lane) :
    (w.onLanes m f).lanes.length = w.lanes.length := mapFrom_length ..

theorem Warp.onLanes_lane (w : Warp) (m : Mask) (f : Nat → Lane → Lane) (l : Nat) (h : l < w.lanes.length) :
    (w.onLanes m f).lane l = if inMask m l then f l (w.lane l) else w.lane l := by
  unfold Warp.onLanes Warp.lane
  simp only
  rw [mapFrom_getD _ _ _ _ _ h, Nat.zero_add]

theorem Warp.onLanes_rest (w : Warp) (m : Mask) (f : Nat → Lane → Lane) :
    w.onLanes m f = { w with lanes := (w.onLanes m f).lanes } := rfl

/-! ### Warps and groups of a state -/

theorem State.onWarp_find (s : State) (w j : Nat) (f : Warp → Warp) :
    (s.onWarp w f).warps.find j = if j = w then (s.warps.find j).map f else s.warps.find j :=
  Tbl.find_upd ..

theorem State.onGroup_find (s : State) (g j : Nat) (f : Group → Group) :
    (s.onGroup g f).groups.find j = if j = g then (s.groups.find j).map f else s.groups.find j :=
  Tbl.find_upd ..

/-! ### Registers -/

theorem Lane.setV_get (ln : Lane) (i j : Nat) (x : Word) :
    (ln.setV i x).v.getD j 0 = if j = i then x else ln.v.getD j 0 := Tbl.getD_setD ..

theorem Lane.setVs_get (ln : Lane) (i n x j : Nat) :
    (Lane.setVs ln i n x).v.getD j 0 =
      if i ≤ j ∧ j < i + n then BitVec.ofNat 32 (x / 2 ^ (32 * (j - i))) else ln.v.getD j 0 := by
  induction n generalizing ln i x with
  | zero => simp [Lane.setVs] <;> omega
  | succ n ih =>
    simp only [Lane.setVs, ih, Lane.setV_get]
    by_cases h1 : i + 1 ≤ j ∧ j < i + 1 + n
    · have h2 : i ≤ j ∧ j < i + (n + 1) := by omega
      rw [if_pos h1, if_pos h2, Nat.div_div_eq_div_mul, ← Nat.pow_add]
      congr 3
      omega
    · rw [if_neg h1]
      by_cases h3 : j = i
      · subst h3
        simp
      · have h2 : ¬(i ≤ j ∧ j < i + (n + 1)) := by omega
        rw [if_neg h3, if_neg h2]

theorem Lane.setVs_rest (ln : Lane) (i n x : Nat) :
    Lane.setVs ln i n x = { ln with v := (Lane.setVs ln i n x).v } := by
  induction n generalizing ln i x with
  | zero => rfl
  | succ n ih =>
    simp only [Lane.setVs]
    rw [ih]
    rfl

theorem Warp.setKs_get (w : Warp) (i n x j : Nat) :
    (Warp.setKs w i n x).k.getD j 0 =
      if i ≤ j ∧ j < i + n then BitVec.ofNat 32 (x / 2 ^ (32 * (j - i))) else w.k.getD j 0 := by
  induction n generalizing w i x with
  | zero => simp [Warp.setKs] <;> omega
  | succ n ih =>
    have hk (y : Word) : (w.setK i y).k.getD j 0 = if j = i then y else w.k.getD j 0 := Tbl.getD_setD ..
    simp only [Warp.setKs, ih, hk]
    by_cases h1 : i + 1 ≤ j ∧ j < i + 1 + n
    · have h2 : i ≤ j ∧ j < i + (n + 1) := by omega
      rw [if_pos h1, if_pos h2, Nat.div_div_eq_div_mul, ← Nat.pow_add]
      congr 3
      omega
    · rw [if_neg h1]
      by_cases h3 : j = i
      · subst h3
        simp
      · have h2 : ¬(i ≤ j ∧ j < i + (n + 1)) := by omega
        rw [if_neg h3, if_neg h2]

theorem Warp.setKs_rest (w : Warp) (i n x : Nat) : Warp.setKs w i n x = { w with k := (Warp.setKs w i n x).k } := by
  induction n generalizing w i x with
  | zero => rfl
  | succ n ih =>
    simp only [Warp.setKs]
    rw [ih]
    rfl

theorem Lane.noteV_rest (ln : Lane) (clk ready reg n : Nat) :
    Lane.noteV ln clk ready reg n = { ln with haz := (Lane.noteV ln clk ready reg n).haz } := by
  induction n generalizing reg with
  | zero => rfl
  | succ n ih =>
    simp only [Lane.noteV]
    rw [ih]

theorem Lane.noteG_rest (ln : Lane) (clk ready : Nat) (g : BitVec 3) :
    Lane.noteG ln clk ready g = { ln with haz := (Lane.noteG ln clk ready g).haz } := by
  unfold Lane.noteG
  split <;> rfl

theorem Warp.noteK_rest (w : Warp) (clk ready reg n : Nat) :
    Warp.noteK w clk ready reg n = { w with uhaz := (Warp.noteK w clk ready reg n).uhaz } := by
  induction n generalizing reg with
  | zero => rfl
  | succ n ih =>
    simp only [Warp.noteK]
    rw [ih]

theorem Lane.setG_rest (ln : Lane) (g : BitVec 3) (b : Bool) : ln.setG g b = { ln with g := (ln.setG g b).g } := by
  unfold Lane.setG
  split <;> rfl

theorem Lane.setG_get (ln : Lane) (g : BitVec 3) (b : Bool) (n : Nat) (hn : n < 7) :
    (ln.setG g b).g.getLsbD n = if n = g.toNat then b else ln.g.getLsbD n := by
  unfold Lane.setG
  have hone : ∀ h : BitVec 3, h ≠ 7 → (BitVec.ofNat 7 (2 ^ h.toNat)).getLsbD n = decide (n = h.toNat) := by
    intro h hh
    have : ∀ h : BitVec 3, ∀ n : Fin 7, h ≠ 7 →
        (BitVec.ofNat 7 (2 ^ h.toNat)).getLsbD n = decide ((n : Nat) = h.toNat) := by decide
    exact this h ⟨n, hn⟩ hh
  split
  · rename_i h
    subst h
    have : n ≠ (7 : BitVec 3).toNat := by simp; omega
    rw [if_neg this]
  · rename_i h
    cases b
    · simp only [Bool.false_eq_true, if_false, BitVec.getLsbD_and, BitVec.getLsbD_not, hone g h]
      by_cases h2 : n = g.toNat <;> simp [h2, hn]
    · simp only [if_true, BitVec.getLsbD_or, hone g h]
      by_cases h2 : n = g.toNat <;> simp [h2]

/-! ### Retiring -/

/-- What settling a warp does to a lane: its meeting register is kept or released (R294). -/
theorem Warp.settle_lane (w : Warp) (l : Nat) (h : l < w.lanes.length) :
    w.settle.lane l = w.lane l ∨ w.settle.lane l = { w.lane l with mr := 0 } := by
  unfold Warp.settle
  split
  · unfold Warp.lane
    simp only
    rw [List.getD_eq_getElem?_getD, List.getElem?_map, List.getD_eq_getElem?_getD, List.getElem?_eq_getElem h]
    simp only [Option.map_some, Option.getD_some]
    split
    · exact .inr rfl
    · exact .inl rfl
  · exact .inl rfl

theorem Warp.settle_rest (w : Warp) : w.settle = { w with lanes := w.settle.lanes } := by
  unfold Warp.settle
  split <;> rfl

theorem Warp.settle_size (w : Warp) : w.settle.lanes.length = w.lanes.length := by
  unfold Warp.settle
  split <;> simp

/-! ### Memory -/

theorem memByte_memSet (m : Memory) (a k : Nat) (b : Byte) :
    memByte (memSet m a b) k = if k = a then b else memByte m k := Tbl.getD_setD ..

theorem memSet_wf (m : Memory) (a : Nat) (b : Byte) (h : memWf m = true) : memWf (memSet m a b) = true := by
  unfold memWf memSet at *
  simp only [Bool.and_eq_true] at *
  exact Tbl.canonical_setD m a b 0 h

theorem memSets_wf (m : Memory) (a : Nat) (bs : List Byte) (h : memWf m = true) : memWf (memSets m a bs) = true := by
  induction bs generalizing m a with
  | nil => exact h
  | cons b bs ih => exact ih _ _ (memSet_wf m a b h)

theorem memByte_memSets (m : Memory) (a k : Nat) (bs : List Byte) :
    memByte (memSets m a bs) k = if a ≤ k ∧ k < a + bs.length then bs.getD (k - a) 0 else memByte m k := by
  induction bs generalizing m a with
  | nil => simp [memSets] <;> omega
  | cons b bs ih =>
    simp only [memSets, ih, memByte_memSet, List.length_cons]
    by_cases h1 : a + 1 ≤ k ∧ k < a + 1 + bs.length
    · have h2 : a ≤ k ∧ k < a + (bs.length + 1) := by omega
      rw [if_pos h1, if_pos h2]
      have : k - a = k - (a + 1) + 1 := by omega
      rw [this, List.getD_cons_succ]
    · rw [if_neg h1]
      by_cases h3 : k = a
      · subst h3
        simp
      · have h2 : ¬(a ≤ k ∧ k < a + (bs.length + 1)) := by omega
        rw [if_neg h3, if_neg h2]

theorem State.hbmMerge_wf (s : State) (key pa : Nat) (bs : List Byte) (h : memWf s.mem = true) :
    memWf (s.hbmMerge key pa bs).mem = true := by
  unfold State.hbmMerge State.sectorMem
  apply memSets_wf
  split
  · exact h
  · split
    · exact h
    · exact memSets_wf _ _ _ h

theorem State.hbmWrite_wf (s : State) (key pa : Nat) (bs : List Byte) (h : memWf s.mem = true) :
    memWf (s.hbmWrite key pa bs).mem = true := by
  induction bs generalizing s pa with
  | nil => exact h
  | cons b bs ih => exact ih _ _ (State.hbmMerge_wf s key pa [b] h)

theorem length_upTo (i n : Nat) : (upTo i n).length = n := by
  induction n generalizing i with
  | zero => rfl
  | succ n ih => simp [upTo, ih]

theorem upTo_getElem? (i n j : Nat) : (upTo i n)[j]? = if j < n then some (i + j) else none := by
  induction n generalizing i j with
  | zero => simp [upTo]
  | succ n ih =>
    cases j with
    | zero => simp [upTo]
    | succ j =>
      simp only [upTo, List.getElem?_cons_succ, ih]
      by_cases h : j < n
      · simp [h]; omega
      · simp [h]

theorem State.hbmBytes_getD (s : State) (key pa n j : Nat) (h : j < n) :
    (s.hbmBytes key pa n).getD j 0 = s.hbmByte key (pa + j) := by
  unfold State.hbmBytes
  rw [List.getD_eq_getElem?_getD, List.getElem?_map, upTo_getElem?, if_pos h]
  rfl

theorem State.hbmBytes_length (s : State) (key pa n : Nat) : (s.hbmBytes key pa n).length = n := by
  simp [State.hbmBytes, length_upTo]

/-- Bytes of a sector hold what they read as under the key once the sector is made plain for it. -/
theorem State.sectorMem_same (s : State) (key k : Nat) :
    memByte (s.sectorMem key (k / 32)) k = s.hbmByte key k := by
  unfold State.sectorMem State.hbmByte
  cases hf : s.secKey.find (k / 32) with
  | none => rfl
  | some j =>
    simp only
    by_cases hj : j = key
    · simp [hj]
    · rw [if_neg hj, if_neg hj, memByte_memSets, State.hbmBytes_length]
      rw [if_pos (by omega), State.hbmBytes_getD _ _ _ _ _ (by omega)]
      have he : k / 32 * 32 + (k - k / 32 * 32) = k := by omega
      rw [he]
      unfold State.hbmByte
      rw [hf]
      simp [hj]

/-- Bytes outside the sector are as they were. -/
theorem State.sectorMem_other (s : State) (key sec k : Nat) (h : k / 32 ≠ sec) :
    memByte (s.sectorMem key sec) k = memByte s.mem k := by
  unfold State.sectorMem
  split
  · rfl
  · split
    · rfl
    · rw [memByte_memSets, State.hbmBytes_length, if_neg (by omega)]

/-- Bytes that two memories agree on. -/
theorem memBytes_congr (m m' : Memory) (a n : Nat) (h : ∀ j, a ≤ j → j < a + n → memByte m j = memByte m' j) :
    memBytes m a n = memBytes m' a n := by
  unfold memBytes
  apply List.map_congr_left
  intro j hj
  obtain ⟨i, hi⟩ := List.mem_iff_getElem?.mp hj
  rw [upTo_getElem?] at hi
  split at hi
  · simp only [Option.some.injEq] at hi
    exact h j (by omega) (by omega)
  · simp at hi

/-- A byte merged into its sector: it reads back under the key, and every other byte reads under that key as before. -/
theorem State.hbmMerge_byte (s : State) (key pa : Nat) (b : Byte) (k : Nat) :
    (s.hbmMerge key pa [b]).hbmByte key k = if k = pa then b else s.hbmByte key k := by
  have hset : ∀ m : Memory, ∀ j, memByte (memSets m pa [b]) j = if j = pa then b else memByte m j := by
    intro m j
    exact memByte_memSet ..
  by_cases hs : k / 32 = pa / 32
  · unfold State.hbmByte State.hbmMerge
    simp only [Tbl.find_put, hs, if_true, hset]
    by_cases hk : k = pa
    · simp [hk]
    · rw [if_neg hk, if_neg hk, ← hs]
      exact State.sectorMem_same s key k
  · have hk : k ≠ pa := fun h => hs (by rw [h])
    have hm : ∀ j, j / 32 = k / 32 →
        memByte (memSets (s.sectorMem key (pa / 32)) pa [b]) j = memByte s.mem j := by
      intro j hj
      rw [hset, if_neg (fun h => hs (by rw [← hj, h])), State.sectorMem_other _ _ _ _ (by rw [hj]; exact hs)]
    rw [if_neg hk]
    unfold State.hbmByte State.hbmMerge
    simp only [Tbl.find_put]
    rw [if_neg hs]
    cases hf : s.secKey.find (k / 32) with
    | none => exact hm k rfl
    | some i =>
      simp only
      by_cases hi : i = key
      · rw [if_pos hi, if_pos hi]
        exact hm k rfl
      · rw [if_neg hi, if_neg hi, memBytes_congr _ s.mem _ _ (fun j h1 h2 => hm j (by omega))]

/-- Bytes written under a key read back under it, and every other byte reads under that key as before. -/
theorem State.hbmWrite_byte (s : State) (key pa : Nat) (bs : List Byte) (k : Nat) :
    (s.hbmWrite key pa bs).hbmByte key k =
      if pa ≤ k ∧ k < pa + bs.length then bs.getD (k - pa) 0 else s.hbmByte key k := by
  induction bs generalizing s pa with
  | nil => simp [State.hbmWrite] <;> omega
  | cons b bs ih =>
    simp only [State.hbmWrite, ih, State.hbmMerge_byte, List.length_cons]
    by_cases h1 : pa + 1 ≤ k ∧ k < pa + 1 + bs.length
    · have h2 : pa ≤ k ∧ k < pa + (bs.length + 1) := by omega
      rw [if_pos h1, if_pos h2]
      have : k - pa = k - (pa + 1) + 1 := by omega
      rw [this, List.getD_cons_succ]
    · rw [if_neg h1]
      by_cases h3 : k = pa
      · subst h3
        simp
      · have h2 : ¬(pa ≤ k ∧ k < pa + (bs.length + 1)) := by omega
        rw [if_neg h3, if_neg h2]

end Sys2Proof.Machine
end

