-- ==== Sys2Proof/Laws/Lane.lean ====
section
/-!
SUPPORT. What the shared operations of lane instructions do: issuing a word, writing registers and guards, retiring.
-/

namespace Sys2Proof.Machine

/-! ### Issuing -/

/-- What an issue names. -/
theorem State.iss_finds (s : State) (c : Ctl) (x : Iss) (h : s.iss c = some x) :
    s.warps.find x.w = some x.wp ∧ s.groups.find x.wp.gid = some x.g ∧ s.launches.find x.g.lid = some x.ln := by
  unfold State.iss at h
  split at h
  · cases h
  · split at h
    · cases h
    · split at h
      · cases h
      · split at h
        · cases h
        · simp only [Option.some.injEq] at h
          subst h
          exact ⟨by assumption, by assumption, by assumption⟩

/-- A word that runs and that no check of its own stops has its effect. -/
theorem issueWord_runs (i : Instr) (s : State) (x : Iss) (empty : Iss → State → State) (pre : Iss → State → Option FRec)
    (body : Iss → State → State) (h : Runs s i x) (hp : pre x s = none) :
    issueWord i s empty pre body = .next (body x s) := by
  obtain ⟨_, ⟨c, hc, hi, hk⟩, _, hm⟩ := h
  unfold issueWord
  rw [hc]
  simp only
  rw [hi]
  simp only
  rw [if_neg hm, hp]
  simp only
  rw [hk]

/-! ### Lanes and warps that keep all but some registers -/

theorem Lane.Kept.refl (ln : Lane) (us : List Use) : Lane.Kept ln ln us where
  rest := rfl
  regs _ _ := rfl
  guards _ _ _ := rfl
  random _ := rfl
  meeting := .inl rfl

theorem Lane.Kept.trans {a b e : Lane} {us : List Use} (h : Lane.Kept a b us) (k : Lane.Kept b e us) :
    Lane.Kept a e us where
  rest := by rw [k.rest, h.rest]
  regs i hi := (k.regs i hi).trans (h.regs i hi)
  guards n hn hi := (k.guards n hn hi).trans (h.guards n hn hi)
  random hr := (k.random hr).trans (h.random hr)
  meeting := by
    rcases k.meeting with hk | hk
    · rcases h.meeting with hh | hh
      · exact .inl (hk.trans hh)
      · exact .inr (hk.trans hh)
    · exact .inr hk

theorem covers_mono {us vs : List Use} {r : Nat} (h : covers us r) (hs : ∀ u ∈ us, u ∈ vs) : covers vs r := by
  obtain ⟨u, hu, hr⟩ := h
  exact ⟨u, hs u hu, hr⟩

/-- The warp of an issue after some of its registers were written, before it retires. -/
structure Wrote (s u : State) (x : Iss) (us : List Use) (fl : BitVec 3) : Prop where
  rest : u = { s with warps := u.warps, groups := u.groups }
  warp : ∃ wp, u.warps.find x.w = some wp ∧ Warp.Kept x.wp wp 0 x.m us
  warps : ∀ w, w ≠ x.w → u.warps.find w = s.warps.find w
  group : u.groups.find x.wp.gid = some { x.g with gflags := x.g.gflags ||| fl }
  groups : ∀ g, g ≠ x.wp.gid → u.groups.find g = s.groups.find g

theorem Warp.Kept.refl (w : Warp) (m : Mask) (us : List Use) : Warp.Kept w w 0 m us where
  size := rfl
  rest := rfl
  lanes _ _ := Lane.Kept.refl ..
  pcs l _ := by simp [inMask]
  uniform _ _ := rfl
  accs _ _ := rfl

theorem Wrote.start {s : State} {i : Instr} {x : Iss} (us : List Use) (h : Runs s i x) : Wrote s s x us 0 := by
  obtain ⟨_, ⟨c, hc, hi, hk⟩, _, hm⟩ := h
  obtain ⟨hw, hg, -⟩ := State.iss_finds s c x hi
  exact
    { rest := rfl
      warp := ⟨_, hw, Warp.Kept.refl ..⟩
      warps := fun _ _ => rfl
      group := by rw [hg]; simp
      groups := fun _ _ => rfl }

/-- Changing the lanes of M within us. -/
theorem Wrote.onLanes {s u : State} {x : Iss} {us : List Use} {fl : BitVec 3} (f : Nat → Lane → Lane)
    (h : Wrote s u x us fl) (hf : ∀ l ln, Lane.Kept ln (f l ln) us ∧ (f l ln).pc = ln.pc) :
    Wrote s (u.onLanes x.w x.m f) x us fl := by
  obtain ⟨wp, hw, hk⟩ := h.warp
  refine
    { rest := by rw [h.rest]; rfl
      warp := ⟨wp.onLanes x.m f, ?_, ?_⟩
      warps := fun w hne => ?_
      group := h.group
      groups := h.groups }
  · show (u.onWarp x.w fun wp => wp.onLanes x.m f).warps.find x.w = _
    rw [State.onWarp_find, if_pos rfl, hw]
    rfl
  · refine
      { size := (Warp.onLanes_size ..).trans hk.size
        rest := ?_
        lanes := fun l hl => ?_
        pcs := fun l hl => ?_
        uniform := hk.uniform
        accs := hk.accs }
    · rw [Warp.onLanes_rest, hk.rest]
    · rw [Warp.onLanes_lane _ _ _ _ (by rw [hk.size]; exact hl)]
      have h1 := hk.lanes l hl
      cases hm : inMask x.m l
      · simpa [hm] using h1
      · rw [hm] at h1
        simp only [if_true] at h1 ⊢
        exact h1.trans (hf l _).1
    · rw [Warp.onLanes_lane _ _ _ _ (by rw [hk.size]; exact hl)]
      have h1 := hk.pcs l hl
      cases hm : inMask x.m l
      · simpa [hm] using h1
      · simp only [if_true, (hf l _).2]
        exact h1
  · show (u.onWarp x.w fun wp => wp.onLanes x.m f).warps.find w = _
    rw [State.onWarp_find, if_neg hne]
    exact h.warps w hne

/-- Changing uniform registers, accumulators and notes of the warp within us. -/
theorem Wrote.onWarp {s u : State} {x : Iss} {us : List Use} {fl : BitVec 3} (f : Warp → Warp)
    (h : Wrote s u x us fl)
    (hr : ∀ wp, f wp = { wp with k := (f wp).k, uhaz := (f wp).uhaz, ka := (f wp).ka, score := (f wp).score })
    (hu : ∀ wp i, ¬covers us (512 + i) → (f wp).k.getD i 0 = wp.k.getD i 0)
    (ha : ∀ wp q, ¬covers us (1024 + q) → (f wp).ka.getD q 0 = wp.ka.getD q 0) :
    Wrote s (u.onWarp x.w f) x us fl := by
  obtain ⟨wp, hw, hk⟩ := h.warp
  have hl : ∀ wp, (f wp).lanes = wp.lanes := fun wp => by rw [hr wp]
  refine
    { rest := by rw [h.rest]; rfl
      warp := ⟨f wp, ?_, ?_⟩
      warps := fun w hne => ?_
      group := h.group
      groups := h.groups }
  · rw [State.onWarp_find, if_pos rfl, hw]
    rfl
  · refine
      { size := by rw [hl]; exact hk.size
        rest := ?_
        lanes := fun l h2 => ?_
        pcs := fun l h2 => ?_
        uniform := fun i hi => (hu wp i hi).trans (hk.uniform i hi)
        accs := fun q hq => (ha wp q hq).trans (hk.accs q hq) }
    · rw [hr wp, hk.rest]
    · have : (f wp).lane l = wp.lane l := by unfold Warp.lane; rw [hl]
      rw [this]
      exact hk.lanes l h2
    · have : (f wp).lane l = wp.lane l := by unfold Warp.lane; rw [hl]
      rw [this]
      exact hk.pcs l h2
  · rw [State.onWarp_find, if_neg hne]
    exact h.warps w hne

/-- Adding flags. -/
theorem Wrote.orFlags {s u : State} {x : Iss} {us : List Use} {fl : BitVec 3} (f : BitVec 3) (h : Wrote s u x us fl) :
    Wrote s (u.orFlags x.wp.gid f) x us (fl ||| f) := by
  refine
    { rest := by rw [h.rest]; rfl
      warp := h.warp
      warps := h.warps
      group := ?_
      groups := fun g hne => ?_ }
  · show (u.onGroup x.wp.gid _).groups.find x.wp.gid = _
    rw [State.onGroup_find, if_pos rfl, h.group]
    simp [BitVec.or_assoc]
  · show (u.onGroup x.wp.gid _).groups.find g = _
    rw [State.onGroup_find, if_neg hne]
    exact h.groups g hne

theorem SameBytes.of_rest {s u : State} (ws : Tbl Warp) (gs : Tbl Group) (h : u = { s with warps := ws, groups := gs }) :
    SameBytes s u := by
  subst h
  exact ⟨fun _ _ => rfl, fun _ => rfl⟩

/-- What retiring a fresh issue does. -/
theorem Wrote.retire {s u : State} {x : Iss} {us : List Use} {fl : BitVec 3} (hq : x.q = none)
    (h : Wrote s u x us fl) : Retired s (u.retire x) x us fl := by
  obtain ⟨wp, hw, hk⟩ := h.warp
  have he : u.retire x = u.onWarp x.w fun wp => (wp.onLanes x.act fun _ ln => { ln with pc := ln.pc + 12 }).settle := by
    unfold State.retire
    rw [hq]
    simp only [State.settle, State.onLanes, State.onWarp, Tbl.upd_upd]
  have hrest : u.retire x = { s with warps := (u.retire x).warps, groups := (u.retire x).groups } := by
    rw [he, h.rest]
    rfl
  have hg : (u.retire x).groups = u.groups := by rw [he]; rfl
  refine
    { rest := hrest
      warp := ⟨(wp.onLanes x.act fun _ ln => { ln with pc := ln.pc + 12 }).settle, ?_, ?_⟩
      warps := fun w hne => ?_
      group := by rw [hg]; exact h.group
      groups := fun g hne => by rw [hg]; exact h.groups g hne
      bytes := SameBytes.of_rest _ _ hrest }
  · rw [he, State.onWarp_find, if_pos rfl, hw]
    rfl
  · have hs : ∀ l, l < x.wp.lanes.length → l < (wp.onLanes x.act fun _ ln => { ln with pc := ln.pc + 12 }).lanes.length :=
      fun l hl => by rw [Warp.onLanes_size, hk.size]; exact hl
    have hlane : ∀ l, l < x.wp.lanes.length →
        (wp.onLanes x.act fun _ ln => { ln with pc := ln.pc + 12 }).lane l =
          if inMask x.act l then { wp.lane l with pc := (wp.lane l).pc + 12 } else wp.lane l :=
      fun l hl => Warp.onLanes_lane _ _ _ _ (by rw [hk.size]; exact hl)
    have hset := fun l hl => Warp.settle_lane (wp.onLanes x.act fun _ ln => { ln with pc := ln.pc + 12 }) l (hs l hl)
    have hpc0 : ∀ l, l < x.wp.lanes.length → (wp.lane l).pc = (x.wp.lane l).pc := fun l hl => by
      simpa [inMask] using hk.pcs l hl
    refine
      { size := by rw [Warp.settle_size, Warp.onLanes_size]; exact hk.size
        rest := ?_
        lanes := fun l hl => ?_
        pcs := fun l hl => ?_
        uniform := ?_
        accs := ?_ }
    · rw [Warp.settle_rest, Warp.onLanes_rest, hk.rest]
    · have h1 := hk.lanes l hl
      have h2 : Lane.Kept (x.wp.lane l) ((wp.onLanes x.act fun _ ln => { ln with pc := ln.pc + 12 }).lane l)
          (if inMask x.m l then us else []) := by
        rw [hlane l hl]
        cases inMask x.act l
        · exact h1
        · exact
            { rest := by rw [if_pos rfl, h1.rest]
              regs := h1.regs
              guards := h1.guards
              random := h1.random
              meeting := h1.meeting }
      rcases hset l hl with h3 | h3
      · rw [h3]; exact h2
      · rw [h3]
        exact
          { rest := by rw [h2.rest]
            regs := h2.regs
            guards := h2.guards
            random := h2.random
            meeting := .inr rfl }
    · have h2 : ((wp.onLanes x.act fun _ ln => { ln with pc := ln.pc + 12 }).lane l).pc =
          if inMask x.act l then (x.wp.lane l).pc + 12 else (x.wp.lane l).pc := by
        rw [hlane l hl, ← hpc0 l hl]
        cases inMask x.act l <;> rfl
      rcases hset l hl with h3 | h3 <;> rw [h3] <;> exact h2
    · intro i hi
      rw [Warp.settle_rest]
      exact hk.uniform i hi
    · intro q hi
      rw [Warp.settle_rest]
      exact hk.accs q hi
  · rw [he, State.onWarp_find, if_neg hne]
    exact h.warps w hne

/-- Retiring a fresh issue changes no register. -/
theorem State.retire_warp (u : State) (x : Iss) (hq : x.q = none) (wp : Warp) (hw : u.warps.find x.w = some wp) :
    ∃ wp', (u.retire x).warps.find x.w = some wp' ∧ wp'.k = wp.k ∧ wp'.ka = wp.ka ∧
      ∀ l, l < wp.lanes.length → (wp'.lane l).v = (wp.lane l).v ∧ (wp'.lane l).g = (wp.lane l).g ∧
        (wp'.lane l).rng = (wp.lane l).rng := by
  unfold State.retire
  rw [hq]
  simp only [State.settle, State.onLanes]
  refine ⟨(wp.onLanes x.act fun _ ln => { ln with pc := ln.pc + 12 }).settle, ?_, ?_, ?_, ?_⟩
  · rw [State.onWarp_find, if_pos rfl, State.onWarp_find, if_pos rfl, hw]
    rfl
  · rw [Warp.settle_rest]; rfl
  · rw [Warp.settle_rest]; rfl
  · intro l hl
    have h2 := Warp.onLanes_lane wp x.act (fun _ ln => { ln with pc := ln.pc + 12 }) l hl
    rcases Warp.settle_lane (wp.onLanes x.act fun _ ln => { ln with pc := ln.pc + 12 }) l
      (by rw [Warp.onLanes_size]; exact hl) with h3 | h3 <;> rw [h3, h2] <;> cases inMask x.act l <;> exact ⟨rfl, rfl, rfl⟩

/-- Retiring a fresh issue from any state: only the warp's lanes change, by their advance and released meetings. -/
theorem State.retire_kept (u : State) (x : Iss) (hq : x.q = none) (wp : Warp) (hw : u.warps.find x.w = some wp) (m : Mask) :
    u.retire x = { u with warps := (u.retire x).warps } ∧
    (∃ wp', (u.retire x).warps.find x.w = some wp' ∧ Warp.Kept wp wp' x.act m [] ∧
      wp' = { wp with lanes := wp'.lanes }) ∧
    ∀ w, w ≠ x.w → (u.retire x).warps.find w = u.warps.find w := by
  have he : u.retire x = u.onWarp x.w fun wp => (wp.onLanes x.act fun _ ln => { ln with pc := ln.pc + 12 }).settle := by
    unfold State.retire
    rw [hq]
    simp only [State.settle, State.onLanes, State.onWarp, Tbl.upd_upd]
  refine ⟨by rw [he]; rfl, ⟨(wp.onLanes x.act fun _ ln => { ln with pc := ln.pc + 12 }).settle, ?_, ?_, ?_⟩, ?_⟩
  · rw [he, State.onWarp_find, if_pos rfl, hw]
    rfl
  · have hlane : ∀ l, l < wp.lanes.length →
        (wp.onLanes x.act fun _ ln => { ln with pc := ln.pc + 12 }).lane l =
          if inMask x.act l then { wp.lane l with pc := (wp.lane l).pc + 12 } else wp.lane l :=
      fun l hl => Warp.onLanes_lane _ _ _ _ hl
    have hset := fun l (hl : l < wp.lanes.length) =>
      Warp.settle_lane (wp.onLanes x.act fun _ ln => { ln with pc := ln.pc + 12 }) l (by rw [Warp.onLanes_size]; exact hl)
    have hus : ∀ l : Nat, (if inMask m l then ([] : List Use) else []) = [] := fun l => by split <;> rfl
    refine
      { size := by rw [Warp.settle_size, Warp.onLanes_size]
        rest := ?_
        lanes := fun l hl => ?_
        pcs := fun l hl => ?_
        uniform := fun _ _ => by rw [Warp.settle_rest]; rfl
        accs := fun _ _ => by rw [Warp.settle_rest]; rfl }
    · rw [Warp.settle_rest, Warp.onLanes_rest]
    · rw [hus]
      have h2 : Lane.Kept (wp.lane l) ((wp.onLanes x.act fun _ ln => { ln with pc := ln.pc + 12 }).lane l) [] := by
        rw [hlane l hl]
        cases inMask x.act l
        · exact Lane.Kept.refl ..
        · exact ⟨rfl, fun _ _ => rfl, fun _ _ _ => rfl, fun _ => rfl, .inl rfl⟩
      rcases hset l hl with h3 | h3
      · rw [h3]; exact h2
      · rw [h3]
        exact
          { rest := by rw [h2.rest]
            regs := h2.regs
            guards := h2.guards
            random := h2.random
            meeting := .inr rfl }
    · have h2 : ((wp.onLanes x.act fun _ ln => { ln with pc := ln.pc + 12 }).lane l).pc =
          if inMask x.act l then (wp.lane l).pc + 12 else (wp.lane l).pc := by
        rw [hlane l hl]
        cases inMask x.act l <;> rfl
      rcases hset l hl with h3 | h3 <;> rw [h3] <;> exact h2
  · rw [Warp.settle_rest, Warp.onLanes_rest]
  · intro w hne
    rw [he, State.onWarp_find, if_neg hne]

/-! ### The shared effects -/

theorem not_covers_of_range {us : List Use} {i n r : Nat} (hu : ⟨i, n⟩ ∈ us) (h : ¬covers us r) : ¬(i ≤ r ∧ r < i + n) :=
  fun hr => h ⟨_, hu, hr⟩

/-- Writing lane registers within us. -/
theorem Lane.setVs_kept (ln : Lane) (i n x : Nat) (us : List Use) (hu : (⟨i, n⟩ : Use) ∈ us) :
    Lane.Kept ln (Lane.setVs ln i n x) us ∧ (Lane.setVs ln i n x).pc = ln.pc := by
  have hr := Lane.setVs_rest ln i n x
  refine ⟨{ rest := ?_, regs := fun j hj => ?_, guards := ?_, random := ?_, meeting := ?_ }, ?_⟩
  · rw [hr]
  · rw [Lane.setVs_get, if_neg (not_covers_of_range hu hj)]
  · intro n _ _; rw [hr]
  · intro _; rw [hr]
  · rw [hr]; exact .inl rfl
  · rw [hr]

theorem Lane.noteV_kept (ln : Lane) (clk ready reg n : Nat) (us : List Use) :
    Lane.Kept ln (Lane.noteV ln clk ready reg n) us ∧ (Lane.noteV ln clk ready reg n).pc = ln.pc := by
  have hr := Lane.noteV_rest ln clk ready reg n
  refine ⟨{ rest := ?_, regs := fun j hj => ?_, guards := ?_, random := ?_, meeting := ?_ }, ?_⟩
  all_goals rw [hr]
  · intro n _ _; rfl
  · intro _; rfl
  · exact .inl rfl

theorem Lane.noteG_kept (ln : Lane) (clk ready : Nat) (g : BitVec 3) (us : List Use) :
    Lane.Kept ln (Lane.noteG ln clk ready g) us ∧ (Lane.noteG ln clk ready g).pc = ln.pc := by
  have hr := Lane.noteG_rest ln clk ready g
  refine ⟨{ rest := ?_, regs := fun j hj => ?_, guards := ?_, random := ?_, meeting := ?_ }, ?_⟩
  all_goals rw [hr]
  · intro n _ _; rfl
  · intro _; rfl
  · exact .inl rfl

theorem Lane.setG_kept (ln : Lane) (g : BitVec 3) (b : Bool) (us : List Use) (hu : ∀ u ∈ useG g, u ∈ us) :
    Lane.Kept ln (ln.setG g b) us ∧ (ln.setG g b).pc = ln.pc := by
  have hr := Lane.setG_rest ln g b
  refine ⟨{ rest := ?_, regs := fun j hj => ?_, guards := fun n hn hc => ?_, random := ?_, meeting := ?_ }, ?_⟩
  · rw [hr]
  · rw [hr]
  · rw [Lane.setG_get _ _ _ _ hn]
    have : n ≠ g.toNat := by
      intro he
      apply hc
      have h7 : g ≠ 7 := by
        intro h
        subst h
        simp at he
        omega
      refine ⟨⟨256 + g.toNat, 1⟩, hu _ ?_, ?_, ?_⟩
      · unfold useG; rw [if_neg h7]; exact List.mem_singleton.mpr rfl
      · simp only; omega
      · simp only; omega
    rw [if_neg this]
  · rw [hr]; intro _; rfl
  · rw [hr]; exact .inl rfl
  · rw [hr]

/-- Noting a coming write changes no register. -/
theorem Wrote.note {s u : State} {x : Iss} {us : List Use} {fl : BitVec 3} (lat : Lat) (d : Dst) (n : Nat)
    (h : Wrote s u x us fl) : Wrote s (u.note x lat d n) x us fl := by
  unfold State.note
  split
  · unfold State.noteD
    cases d with
    | v i => exact h.onLanes _ fun _ ln => Lane.noteV_kept ..
    | k i =>
      refine h.onWarp _ (fun wp => ?_) (fun wp i _ => ?_) (fun wp q _ => ?_)
      · rw [Warp.noteK_rest]
      · rw [Warp.noteK_rest]
      · rw [Warp.noteK_rest]
  · unfold State.holdD
    exact h.onWarp _ (fun wp => rfl) (fun wp i _ => rfl) (fun wp q _ => rfl)

theorem useD_v (n : Nat) (i : BitVec 8) (us : List Use) (hu : ∀ u ∈ useD n (.v i), u ∈ us) : (⟨i.toNat, n⟩ : Use) ∈ us :=
  hu _ (List.mem_singleton.mpr rfl)

theorem useD_k (n : Nat) (i : BitVec 6) (us : List Use) (hu : ∀ u ∈ useD n (.k i), u ∈ us) :
    (⟨512 + i.toNat, n⟩ : Use) ∈ us :=
  hu _ (List.mem_singleton.mpr rfl)

/-- Writing uniform registers within us. -/
theorem Wrote.setKs {s u : State} {x : Iss} {us : List Use} {fl : BitVec 3} (i : BitVec 6) (n y : Nat)
    (hu : (⟨512 + i.toNat, n⟩ : Use) ∈ us) (h : Wrote s u x us fl) :
    Wrote s (u.onWarp x.w fun wp => wp.setKs i.toNat n y) x us fl := by
  refine h.onWarp _ (fun wp => ?_) (fun wp j hj => ?_) (fun wp q _ => ?_)
  · rw [Warp.setKs_rest]
  · have := not_covers_of_range hu hj
    rw [Warp.setKs_get, if_neg (by omega)]
  · rw [Warp.setKs_rest]

/-- A word with a lane effect: it retires, and its results are in its destination. -/
theorem laneEffect_spec (i : Instr) (lat : Lat) (d : Dst) (n : Nat) (f : Iss → State → Nat → Res) (us : List Use)
    (hu : ∀ u ∈ useD n d, u ∈ us) (s u : State) (x : Iss) (fl : BitVec 3) (h : Runs s i x) (hw : Wrote s u x us fl) :
    Retired s (laneEffect lat d n f x u) x us (fl ||| x.flagsOf (f x u)) ∧
      Gets (laneEffect lat d n f x u) x d n fun l => (f x u l).val := by
  have h0 := Wrote.note lat d n hw
  obtain ⟨wp0, hf0, hk0⟩ := h0.warp
  cases d with
  | v i =>
    have hv := useD_v n i us hu
    have h1 := h0.onLanes (fun l ln => ln.setVs i.toNat n (f x u l).val) fun l ln => Lane.setVs_kept ln _ _ _ us hv
    refine ⟨(h1.orFlags (x.flagsOf (f x u))).retire h.fresh, ?_⟩
    obtain ⟨wp, hf, -, -, hl⟩ := State.retire_warp
      (((u.note x lat (.v i) n).onLanes x.w x.m fun l ln => ln.setVs i.toNat n (f x u l).val).orFlags x.wp.gid
        (x.flagsOf (f x u))) x h.fresh (wp0.onLanes x.m fun l ln => ln.setVs i.toNat n (f x u l).val) (by
        show (State.onWarp _ x.w _).warps.find x.w = _
        rw [State.onWarp_find, if_pos rfl, hf0]
        rfl)
    refine ⟨wp, hf, fun l j hlt hm hj => ?_⟩
    have hlt' : l < wp0.lanes.length := by rw [hk0.size]; exact hlt
    rw [(hl l (by rw [Warp.onLanes_size]; exact hlt')).1, Warp.onLanes_lane _ _ _ _ hlt', if_pos hm, Lane.setVs_get,
      if_pos (by omega)]
    congr 3
    omega
  | k i =>
    have hv := useD_k n i us hu
    have h1 := h0.setKs i n (f x u (lowLane x.m)).val hv
    refine ⟨(h1.orFlags (x.flagsOf (f x u))).retire h.fresh, ?_⟩
    obtain ⟨wp, hf, hk, -, -⟩ := State.retire_warp
      (((u.note x lat (.k i) n).onWarp x.w fun wp => wp.setKs i.toNat n (f x u (lowLane x.m)).val).orFlags x.wp.gid
        (x.flagsOf (f x u))) x h.fresh (wp0.setKs i.toNat n (f x u (lowLane x.m)).val) (by
        show (State.onWarp _ x.w _).warps.find x.w = _
        rw [State.onWarp_find, if_pos rfl, hf0]
        rfl)
    refine ⟨wp, hf, fun j hj => ?_⟩
    rw [hk, Warp.setKs_get, if_pos (by omega)]
    congr 3
    omega

/-- A lane instruction completes with the results of its lanes. -/
theorem execLane_gives (i : Instr) (lat : Lat) (d : Dst) (n : Nat) (f : Iss → State → Nat → Res)
    (he : ∀ s, exec i s = execLane i lat d n f s) : GivesRes i d n fun s x l => f x s l := by
  intro s x h
  refine ⟨laneEffect lat d n f x s, ?_, ?_⟩
  · rw [he]
    exact issueWord_runs i s x noEmpty noPre _ h rfl
  · have := laneEffect_spec i lat d n f (useD n d) (fun _ h => h) s s x 0 h (Wrote.start _ h)
    simpa using this

/-- A lane instruction whose results set no flag. -/
theorem execLane_gives_of (i : Instr) (lat : Lat) (d : Dst) (n : Nat) (f : Iss → State → Nat → Res)
    (r : State → Iss → Nat → Nat) (he : ∀ s, exec i s = execLane i lat d n f s)
    (hr : ∀ s x l, f x s l = Res.of (r s x l)) : Gives i d n r := by
  intro s x h
  obtain ⟨u, h1, h2, h3⟩ := execLane_gives i lat d n f he s x h
  have hz : x.flagsOf (f x s) = 0 := by
    unfold Iss.flagsOf
    generalize maskLanes x.m = ls
    have : ∀ a : BitVec 3, ls.foldl (fun a l => a ||| (f x s l).fl) a = a := by
      induction ls with
      | nil => intro a; rfl
      | cons l ls ih =>
        intro a
        rw [List.foldl_cons, hr, ih]
        simp [Res.of]
    exact this 0
  have hv : (fun l => (f x s l).val) = r s x := by
    funext l
    rw [hr]
    rfl
  simp only [hz] at h2
  simp only [hv] at h3
  exact ⟨u, h1, h2, h3⟩

/-- A word that writes a guard: it retires, and the guard of the lanes of M holds the results. -/
theorem execGuard_gives (i : Instr) (lat : Nat) (g : BitVec 3) (f : Iss → State → Nat → Bool)
    (r : State → Iss → Nat → Bool) (he : ∀ s, exec i s = execGuard i lat g f s) (hr : ∀ s x l, f x s l = r s x l) :
    GivesGuard i g r := by
  intro s x h
  refine ⟨guardEffect lat g f x s, ?_, ?_⟩
  · rw [he]
    exact issueWord_runs i s x noEmpty noPre _ h rfl
  · have h0 : Wrote s (s.onLanes x.w x.m fun _ ln => ln.noteG x.clk (x.clk + 1 + lat) g) x (useG g) 0 :=
      (Wrote.start _ h).onLanes _ fun _ ln => Lane.noteG_kept ..
    have h1 := h0.onLanes (fun l ln => ln.setG g (f x s l)) fun l ln => Lane.setG_kept ln g _ _ fun _ h => h
    obtain ⟨wp0, hf0, hk0⟩ := h0.warp
    refine ⟨h1.retire h.fresh, ?_⟩
    obtain ⟨wp, hf, -, -, hl⟩ := State.retire_warp
      ((s.onLanes x.w x.m fun _ ln => ln.noteG x.clk (x.clk + 1 + lat) g).onLanes x.w x.m fun l ln => ln.setG g (f x s l))
      x h.fresh (wp0.onLanes x.m fun l ln => ln.setG g (f x s l)) (by
        show (State.onWarp _ x.w _).warps.find x.w = _
        rw [State.onWarp_find, if_pos rfl, hf0]
        rfl)
    refine ⟨wp, hf, fun l hlt hm hg => ?_⟩
    have hlt' : l < wp0.lanes.length := by rw [hk0.size]; exact hlt
    have hn : g.toNat < 7 := by
      have h1 := g.isLt
      have h2 : g.toNat ≠ 7 := fun h => hg (BitVec.eq_of_toNat_eq h)
      omega
    rw [(hl l (by rw [Warp.onLanes_size]; exact hlt')).2.1, Warp.onLanes_lane _ _ _ _ hlt', if_pos hm,
      Lane.setG_get _ _ _ _ hn, if_pos rfl, hr]

/-- One value for a destination: written once to a uniform register, or in every lane of M. -/
theorem Wrote.putD {s u : State} {x : Iss} {us : List Use} {fl : BitVec 3} (d : Dst) (n y : Nat)
    (hu : ∀ v ∈ useD n d, v ∈ us) (h : Wrote s u x us fl) : Wrote s (u.putD x.w x.m d n y) x us fl := by
  cases d with
  | v i => exact h.onLanes _ fun _ ln => Lane.setVs_kept ln _ _ _ us (useD_v n i us hu)
  | k i => exact h.setKs i n y (useD_k n i us hu)

/-- What a destination holds after one value was written and its instruction retired. -/
theorem Wrote.putD_gets {s u : State} {x : Iss} {us : List Use} {fl : BitVec 3} (d : Dst) (n y : Nat) (f : BitVec 3)
    (hq : x.q = none) (h : Wrote s u x us fl) :
    Gets (((u.putD x.w x.m d n y).orFlags x.wp.gid f).retire x) x d n fun _ => y := by
  obtain ⟨wp0, hf0, hk0⟩ := h.warp
  cases d with
  | v i =>
    obtain ⟨wp, hf, -, -, hl⟩ := State.retire_warp ((u.putD x.w x.m (.v i) n y).orFlags x.wp.gid f) x hq
      (wp0.onLanes x.m fun _ ln => ln.setVs i.toNat n y) (by
        show (State.onWarp _ x.w _).warps.find x.w = _
        rw [State.onWarp_find, if_pos rfl, hf0]
        rfl)
    refine ⟨wp, hf, fun l j hlt hm hj => ?_⟩
    have hlt' : l < wp0.lanes.length := by rw [hk0.size]; exact hlt
    rw [(hl l (by rw [Warp.onLanes_size]; exact hlt')).1, Warp.onLanes_lane _ _ _ _ hlt', if_pos hm, Lane.setVs_get,
      if_pos (by omega)]
    congr 3
    omega
  | k i =>
    obtain ⟨wp, hf, hk, -, -⟩ := State.retire_warp ((u.putD x.w x.m (.k i) n y).orFlags x.wp.gid f) x hq
      (wp0.setKs i.toNat n y) (by
        show (State.onWarp _ x.w _).warps.find x.w = _
        rw [State.onWarp_find, if_pos rfl, hf0]
        rfl)
    refine ⟨wp, hf, fun j hj => ?_⟩
    rw [hk, Warp.setKs_get, if_pos (by omega)]
    congr 3
    omega

/-- A word with one value: it retires, and its destination holds the value. -/
theorem oneEffect_gives (i : Instr) (lat : Lat) (d : Dst) (n : Nat) (f : Iss → State → Res) (empty : Iss → State → State)
    (he : ∀ s, exec i s = issueWord i s empty noPre (oneEffect lat d n f) ) :
    Completes i (useD n d) (fun s x => (f x s).fl) fun s x u => Gets u x d n fun _ => (f x s).val := by
  intro s x h
  refine ⟨oneEffect lat d n f x s, ?_, ?_, ?_⟩
  · rw [he]
    exact issueWord_runs i s x empty noPre _ h rfl
  · have h0 := Wrote.note lat d n (Wrote.start (useD n d) h)
    have h1 := ((h0.putD d n (f x s).val fun _ h => h).orFlags (f x s).fl).retire h.fresh
    have hz : (0 : BitVec 3) ||| (f x s).fl = (f x s).fl := by simp
    rw [hz] at h1
    exact h1
  · have h0 := Wrote.note lat d n (Wrote.start (useD n d) h)
    exact h0.putD_gets d n (f x s).val (f x s).fl h.fresh

/-- A word with one value that sets no flag. -/
theorem oneEffect_gives_of (i : Instr) (lat : Lat) (d : Dst) (n : Nat) (f : Iss → State → Res)
    (empty : Iss → State → State) (r : State → Iss → Nat → Nat)
    (he : ∀ s, exec i s = issueWord i s empty noPre (oneEffect lat d n f)) (hr : ∀ s x l, f x s = Res.of (r s x l)) :
    Gives i d n r := by
  intro s x h
  obtain ⟨u, h1, h2, h3⟩ := oneEffect_gives i lat d n f empty he s x h
  have hz : (f x s).fl = 0 := by rw [hr s x 0]; rfl
  have hv : (fun _ : Nat => (f x s).val) = r s x := by
    funext l
    rw [hr s x l]
    rfl
  simp only [hz] at h2
  simp only [hv] at h3
  exact ⟨u, h1, h2, h3⟩

end Sys2Proof.Machine
end

