-- ==== Sys2Proof/Laws/Translate.lean ====
section
/-!
SUPPORT. What translating an address may change: cached entries, L2 lines, the free-value counter, and granules scrubbed on
the way.
-/

namespace Sys2Proof.Machine

/-- u follows from s by walks for a world: no more than cached entries, L2 lines, the free-value counter and the contents
of unscrubbed granules has changed. -/
structure Walked (world : Nat) (s u : State) : Prop where
  rest : u = { s with
    tcache := u.tcache, freeCtr := u.freeCtr, mem := u.mem, secKey := u.secKey, unscrubbed := u.unscrubbed, l2 := u.l2 }
  clean : ∀ a, s.unscr a = false → u.unscr a = false
  bytes : ∀ a, s.unscr a = false → u.hbmByte (s.key world).key a = s.hbmByte (s.key world).key a

theorem Walked.refl (world : Nat) (s : State) : Walked world s s := ⟨rfl, fun _ h => h, fun _ _ => rfl⟩

theorem Walked.trans {world : Nat} {s u v : State} (h : Walked world s u) (k : Walked world u v) : Walked world s v where
  rest := by rw [k.rest, h.rest]
  clean a ha := k.clean a (h.clean a ha)
  bytes a ha := by
    have hk : u.key world = s.key world := by rw [h.rest]; rfl
    have := k.bytes a (h.clean a ha)
    rw [hk] at this
    exact this.trans (h.bytes a ha)

/-- Changing cached entries, L2 lines and the free-value counter. -/
theorem Walked.quick (world : Nat) (s : State) (tc : List TEnt) (n : Nat) (ls : Tbl (List Line)) :
    Walked world s { s with tcache := tc, freeCtr := n, l2 := ls } := ⟨rfl, fun _ h => h, fun _ _ => rfl⟩

theorem Walked.used (world : Nat) (s : State) : Walked world s s.used := Walked.quick world s s.tcache _ s.l2

theorem State.touchL2_walked (s : State) (w world pa n : Nat) (base ch : Ch) :
    Walked w s (s.touchL2 world pa n base ch) := Walked.quick w s s.tcache s.freeCtr _

theorem putAll_find (t : Tbl Nat) (key : Nat) (ns : List Nat) (k : Nat) (h : k ∉ ns) :
    (ns.foldl (fun t n => t.put n key) t).find k = t.find k := by
  induction ns generalizing t with
  | nil => rfl
  | cons n ns ih =>
    simp only [List.mem_cons, not_or] at h
    rw [List.foldl_cons, ih _ h.2, Tbl.find_put, if_neg h.1]

theorem mem_upTo (i n j : Nat) (h : j ∈ upTo i n) : i ≤ j ∧ j < i + n := by
  obtain ⟨k, hk⟩ := List.mem_iff_getElem?.mp h
  rw [upTo_getElem?] at hk
  split at hk
  · simp only [Option.some.injEq] at hk
    omega
  · simp at hk

/-- Scrubbing a granule leaves every other granule alone. -/
theorem State.scrubNow_byte (s : State) (key k g a : Nat) (h : granOf a ≠ g) :
    (s.scrubNow key g).hbmByte k a = s.hbmByte k a := by
  unfold granOf at h
  have hs : ∀ m : Memory, ∀ j, j / 4096 ≠ g →
      memByte (memSets m (g * 4096) (List.replicate 4096 0)) j = memByte m j := by
    intro m j hj
    rw [memByte_memSets, List.length_replicate, if_neg (by omega)]
  unfold State.hbmByte State.scrubNow
  simp only
  rw [putAll_find _ _ _ _ (fun hm => by have := mem_upTo _ _ _ hm; omega)]
  cases hf : s.secKey.find (a / 32) with
  | none => exact hs _ _ h
  | some i =>
    simp only
    split
    · exact hs _ _ h
    · rw [memBytes_congr _ s.mem _ _ fun j h1 h2 => hs _ _ (by omega)]

theorem State.mem_rest (s u : State) (m : Memory) (k : Tbl Nat) (b : Tbl Bool)
    (h : u = { s with mem := m, secKey := k, unscrubbed := b }) :
    u = { s with
      tcache := u.tcache, freeCtr := u.freeCtr, mem := u.mem, secKey := u.secKey, unscrubbed := u.unscrubbed
      l2 := u.l2 } := by
  subst h
  rfl

theorem State.scrubFirst_walked (s : State) (world pa : Nat) : Walked world s (s.scrubFirst world pa) := by
  unfold State.scrubFirst
  split
  · rename_i hu
    refine ⟨?_, fun a ha => ?_, fun a ha => ?_⟩
    · exact State.mem_rest s _ _ _ _ rfl
    · unfold State.unscr State.scrubNow at *
      simp only [Tbl.getD, Tbl.find_del]
      by_cases hg : granOf a = granOf pa
      · simp [hg]
      · rw [if_neg hg]
        exact ha
    · refine State.scrubNow_byte _ _ _ _ _ fun hg => ?_
      unfold State.unscr at *
      rw [hg] at ha
      rw [ha] at hu
      cases hu
  · exact Walked.refl ..

theorem State.cache_walked (s : State) (w die world lvl vpn e addr : Nat) :
    Walked w s (s.cache die world lvl vpn e addr) := by
  unfold State.cache
  simp only
  split
  · exact Walked.refl ..
  · exact Walked.quick w s _ s.freeCtr s.l2

theorem State.pickOne_walked (s : State) (w now : Nat) (old : List Nat) : Walked w s (s.pickOne now old).2 := by
  unfold State.pickOne
  simp only
  split
  · exact Walked.refl ..
  · exact Walked.used ..

theorem State.walkRead_walked (s : State) (die world lvl vpn pa : Nat) :
    Walked world s (s.walkRead die world lvl vpn pa).2 := by
  unfold State.walkRead
  exact ((State.scrubFirst_walked s world pa).trans (State.touchL2_walked ..)).trans (State.pickOne_walked ..)

theorem State.installGroup_walked (s : State) (w die world va : Nat) (l : TLeaf) :
    Walked w s (s.installGroup die world va l) := by
  unfold State.installGroup
  split
  · simp only
    split
    · generalize upTo 0 16 = ns
      have : ∀ ns : List Nat, ∀ f : State → Nat → State, (∀ s i, Walked w s (f s i)) → ∀ s, Walked w s (ns.foldl f s) := by
        intro ns f hf
        induction ns with
        | nil => intro s; exact Walked.refl ..
        | cons n ns ih => intro s; exact (hf s n).trans (ih _)
      exact this ns _ (fun s i => State.cache_walked ..) s
    · exact Walked.refl ..
  · exact Walked.refl ..

theorem walkGo_walked (die world va n table : Nat) (s : State) : Walked world s (walkGo die world va n table s).2 := by
  induction n generalizing table s with
  | zero => exact Walked.refl ..
  | succ n ih =>
    unfold walkGo
    simp only
    have hr := State.walkRead_walked s die world n (vpnOf va n) (table + 8 * (vpnOf va n % 512))
    have keep := fun s : State => State.cache_walked s world die world n (vpnOf va n)
    split
    · exact Walked.refl ..
    · split
      · exact Walked.refl ..
      · split
        · exact hr
        · split
          · exact hr
          · split
            · split
              · exact hr
              · exact (hr.trans (keep ..)).trans (State.installGroup_walked ..)
            · split
              · exact hr
              · exact (hr.trans (keep ..)).trans (ih ..)

theorem State.walk_walked (s : State) (die world va : Nat) : Walked world s (s.walk die world va).2 := by
  unfold State.walk
  split
  · exact Walked.refl ..
  · simp only
    split
    · exact walkGo_walked ..
    · split
      · exact (walkGo_walked ..).trans (Walked.used ..)
      · exact Walked.used ..

theorem State.pairLeaf_walked (s : State) (die world va : Nat) (l : TLeaf) (need : Perm) (shd : Bool) :
    Walked world s (s.pairLeaf die world va l need shd).2 := by
  unfold State.pairLeaf
  simp only
  split
  · exact Walked.refl ..
  · split
    · exact Walked.refl ..
    · split
      · exact Walked.refl ..
      generalize frameOf l.ent / 4096 * 16 = da
      have h1 := State.walkRead_walked s die world 8 (da / 16) da
      generalize s.walkRead die world 8 (da / 16) da = r1 at *
      obtain ⟨d0, s1⟩ := r1
      have h2 := State.walkRead_walked s1 die world 9 (da / 16) (da + 8)
      simp only
      generalize s1.walkRead die world 9 (da / 16) (da + 8) = r2 at *
      obtain ⟨d1, s2⟩ := r2
      have h3 := h1.trans h2
      simp only at h3 ⊢
      split
      · exact h3
      · split
        · exact h3
        · have h4 := (h3.trans (State.cache_walked s2 world die world 8 (da / 16) d0 da)).trans
            (State.cache_walked _ world die world 9 (da / 16) d1 (da + 8))
          split
          · exact h4
          · split <;> exact h4

theorem State.xlate_walked (s : State) (die world va : Nat) (need : Perm) (shd : Bool) :
    Walked world s (s.xlate die world va need shd).2 := by
  unfold State.xlate
  split
  · exact Walked.refl ..
  · have hw := State.walk_walked s die world va
    split
    · rename_i h
      rw [h] at hw
      exact hw
    · rename_i h
      rw [h] at hw
      exact hw
    · rename_i h
      rw [h] at hw
      split
      · exact hw.trans (State.pairLeaf_walked ..)
      · simp only
        split
        · split
          · exact hw
          · split <;> exact hw
        · split <;> exact hw

theorem Iss.trLane_walked (x : Iss) (s : State) (va align : Nat) (need : Perm) (winOk shd : Bool) :
    Walked x.g.world s (x.trLane s va align need winOk shd).2 := by
  unfold Iss.trLane
  split
  · exact Walked.refl ..
  · split
    · exact Walked.refl ..
    · have hx := State.xlate_walked s (coreDie x.wp.core) x.g.world va need shd
      split <;> (rename_i h; rw [h] at hx; exact hx)

/-- Checking the accesses of lanes changes no more than walks do. -/
theorem Iss.trAll_walked (x : Iss) (align : Nat) (need : Perm) (winOk shd : Bool) (ls : List (Nat × Nat)) (s : State) :
    Walked x.g.world s (x.trAll align need winOk shd ls s).2 := by
  induction ls generalizing s with
  | nil => exact Walked.refl ..
  | cons p ls ih =>
    obtain ⟨l, va⟩ := p
    exact (Iss.trLane_walked x s va align need winOk shd).trans (ih _)

end Sys2Proof.Machine
end

