-- ==== Sys2Proof/Laws/Access.lean ====
section
/-!
SUPPORT. Starting an access: what the checks of R174 and the marks of translated leaves change.
-/

namespace Sys2Proof.Machine

/-- u follows from s by the marks of checked accesses of a world. -/
structure Marked (world : Nat) (s u : State) (rs : List LReq) : Prop where
  rest : u = { s with
    tcache := u.tcache, freeCtr := u.freeCtr, mem := u.mem, secKey := u.secKey, unscrubbed := u.unscrubbed
    cores := u.cores, l2 := u.l2 }
  clean : ∀ a, s.unscr a = false → u.unscr a = false
  bytes : ∀ a, s.unscr a = false →
    (∀ r ∈ rs, ∀ h, r.tr = .loc h → a < h.leaf.addr ∨ h.leaf.addr + 8 ≤ a) →
    u.hbmByte (s.key world).key a = s.hbmByte (s.key world).key a

theorem Marked.refl (world : Nat) (s : State) (rs : List LReq) : Marked world s s rs :=
  ⟨rfl, fun _ h => h, fun _ _ _ => rfl⟩

theorem Marked.trans {world : Nat} {s u v : State} {rs : List LReq} (h : Marked world s u rs) (k : Marked world u v rs) :
    Marked world s v rs where
  rest := by rw [k.rest, h.rest]
  clean a ha := k.clean a (h.clean a ha)
  bytes a ha hr := by
    have hk : u.key world = s.key world := by rw [h.rest]; rfl
    have := k.bytes a (h.clean a ha) hr
    rw [hk] at this
    exact this.trans (h.bytes a ha hr)

theorem Walked.marked {world : Nat} {s u : State} (h : Walked world s u) (rs : List LReq) : Marked world s u rs where
  rest := by rw [h.rest]
  clean := h.clean
  bytes a ha _ := h.bytes a ha

theorem State.hbmWrite_rest (s : State) (key pa : Nat) (bs : List Byte) :
    s.hbmWrite key pa bs = { s with mem := (s.hbmWrite key pa bs).mem, secKey := (s.hbmWrite key pa bs).secKey } := by
  induction bs generalizing s pa with
  | nil => rfl
  | cons b bs ih =>
    simp only [State.hbmWrite]
    rw [ih]
    rfl

theorem leBytes_length (n x : Nat) : (leBytes n x).length = n := by
  induction n generalizing x with
  | zero => rfl
  | succ n ih => simp [leBytes, ih]

theorem State.mem_rest2 (s u : State) (m : Memory) (k : Tbl Nat) (tc : List TEnt) (ls : Tbl (List Line))
    (h : u = { s with mem := m, secKey := k, tcache := tc, l2 := ls }) :
    u = { s with
      tcache := u.tcache, freeCtr := u.freeCtr, mem := u.mem, secKey := u.secKey, unscrubbed := u.unscrubbed
      cores := u.cores, l2 := u.l2 } := by
  subst h
  rfl

theorem State.hbmWrite_marked (s : State) (world pa : Nat) (bs : List Byte) (tc : List TEnt) (ls : Tbl (List Line))
    (rs : List LReq)
    (hd : ∀ a, (∀ r ∈ rs, ∀ h, r.tr = .loc h → a < h.leaf.addr ∨ h.leaf.addr + 8 ≤ a) → a < pa ∨ pa + bs.length ≤ a) :
    Marked world s { s.hbmWrite (s.key world).key pa bs with tcache := tc, l2 := ls } rs := by
  have hr := State.hbmWrite_rest s (s.key world).key pa bs
  have hu : (s.hbmWrite (s.key world).key pa bs).unscrubbed = s.unscrubbed := by rw [hr]
  refine ⟨State.mem_rest2 s _ _ _ tc ls (by rw [hr]), fun a h => ?_, fun a _ hb => ?_⟩
  · unfold State.unscr at *
    simp only
    rw [hu]
    exact h
  · have hw := State.hbmWrite_byte s (s.key world).key pa bs a
    have h3 := hd a hb
    rw [if_neg (by omega)] at hw
    exact hw

theorem State.setAD_marked (s : State) (die world va : Nat) (r : LReq) (h : Hit) (wr : Bool) (rs : List LReq)
    (hr : r ∈ rs) (ht : r.tr = .loc h) : Marked world s (s.setAD die world va h.leaf wr) rs := by
  unfold State.setAD
  simp only
  split
  · exact Marked.refl ..
  · refine ((State.scrubFirst_walked s world h.leaf.addr).marked rs).trans
      (State.hbmWrite_marked (s.scrubFirst world h.leaf.addr) world _ _ _ _ rs fun a hb => ?_)
    rw [leBytes_length]
    exact hb r hr h ht

theorem State.seeEpoch_marked (s : State) (core world : Nat) (ep : Option Nat) (rs : List LReq) :
    Marked world s (s.seeEpoch core world ep) rs := by
  unfold State.seeEpoch
  split
  · exact Marked.refl ..
  · split
    · exact ⟨rfl, fun _ h => h, fun _ _ _ => rfl⟩
    · exact Marked.refl ..

theorem Iss.noteHits_marked (x : Iss) (wr : Bool) (all rs : List LReq) (s : State) (h : ∀ r ∈ rs, r ∈ all) :
    Marked x.g.world s (x.noteHits wr rs s) all := by
  induction rs generalizing s with
  | nil => exact Marked.refl ..
  | cons r rs ih =>
    have ih' := fun s => ih s fun r hr => h r (List.mem_cons_of_mem _ hr)
    unfold Iss.noteHits
    split
    · rename_i hit ht
      exact ((State.setAD_marked s _ _ _ r hit wr all (h r (List.mem_cons_self ..)) ht).trans
        (State.seeEpoch_marked ..)).trans (ih' _)
    · exact ih' s

/-- Passed checks go on from a marked state. -/
theorem Iss.checked_passes (x : Iss) (i : Instr) (s : State) (ls : List Nat) (align : Nat) (need : Perm) (winOk wr : Bool)
    (f : Nat → Nat) (go : List LReq → State → State) (rs : List LReq) (h : Passes s x ls align need winOk f rs) :
    ∃ v, x.checked i s ls align need winOk false wr f go = go rs v ∧ Marked x.g.world s v rs := by
  obtain ⟨h1, h2, h3⟩ := h
  have hw := Iss.trAll_walked x align need winOk false (ls.map fun l => (l, f l)) s
  unfold Iss.checked
  generalize x.trAll align need winOk false (ls.map fun l => (l, f l)) s = p at *
  obtain ⟨r1, s1⟩ := p
  simp only at h1 hw ⊢
  subst h1
  rw [h3, h2]
  exact ⟨_, rfl, (hw.marked r1).trans (Iss.noteHits_marked x wr r1 r1 s1 fun _ h => h)⟩

theorem State.launchTxn_eq (s : State) (x : Iss) (i : Instr) (kind : TxKind) (units : List Acc) (owed : Nat)
    (q : Option Nat) :
    s.launchTxn x i kind units owed q =
      (s.nextId,
        { s with
          nextId := s.nextId + 1
          txns := s.txns.put s.nextId ⟨x.w, x.wp.core, x.g.world, kind, i, x.m, x.pc, units, [], owed, [], [], q⟩
          warps := s.warps.upd x.w fun wp =>
            { wp with stores := wp.stores + owed, loads := if owed = 0 then wp.loads + 1 else wp.loads } }) := rfl

theorem State.forceTiles_rest (s : State) (w : Nat) (us : List Acc) :
    s.forceTiles w us = { s with regions := (s.forceTiles w us).regions } := by
  unfold State.forceTiles
  induction us generalizing s with
  | nil => rfl
  | cons a us ih =>
    rw [List.foldl_cons, ih]
    split
    · unfold State.forceTile
      split
      · split <;> rfl
      · rfl
    · rfl

/-- An access put in flight from a marked state, then retired. -/
theorem Started.of_retire {s v u0 : State} {i : Instr} {x : Iss} {rs : List LReq} {kind : TxKind}
    {units : List Acc} {owed : Nat} (sc : List Hold) (h : Runs s i x) (hm : Marked x.g.world s v rs)
    (hrest : u0 = { v with
      warps := u0.warps, txns := u0.txns, nextId := u0.nextId, regions := u0.regions, outs := u0.outs
      peerSeq := u0.peerSeq })
    (htx : u0.txns = v.txns.put v.nextId ⟨x.w, x.wp.core, x.g.world, kind, i, x.m, x.pc, units, [], owed, [], [], none⟩)
    (hid : u0.nextId = v.nextId + 1)
    (hw : u0.warps = v.warps.upd x.w fun wp =>
      { wp with
        stores := wp.stores + owed, loads := if owed = 0 then wp.loads + 1 else wp.loads, score := wp.score ++ sc }) :
    Started s (u0.retire x) x rs i kind units owed := by
  obtain ⟨_, ⟨c, hc, hi, hk⟩, hq, hmm⟩ := h
  obtain ⟨hfw, hg, -⟩ := State.iss_finds s c x hi
  have hvw : v.warps = s.warps := by rw [hm.rest]
  have hf : u0.warps.find x.w = some
      { x.wp with
        stores := x.wp.stores + owed, loads := if owed = 0 then x.wp.loads + 1 else x.wp.loads
        score := x.wp.score ++ sc } := by
    rw [hw, Tbl.find_upd, if_pos rfl, hvw, hfw]
    rfl
  obtain ⟨hr, ⟨wp', h1, h2, h3⟩, h4⟩ := State.retire_kept u0 x hq _ hf x.m
  have e1 : (u0.retire x).mem = v.mem := by rw [hr, hrest]
  have e2 : (u0.retire x).secKey = v.secKey := by rw [hr, hrest]
  refine
    { bytes := ?_, host := ?_, rest := ?_, txn := ?_, ident := ?_, warp := ⟨wp', h1, ?_, ?_, ?_⟩, warps := ?_ }
  · intro a ha hb
    have := hm.bytes a ha hb
    rw [← this]
    unfold State.hbmByte
    rw [e1, e2]
  · rw [hr, hrest, hm.rest]
  · rw [hr, hrest, hm.rest]
  · rw [hr]
    show u0.txns = _
    rw [htx, hm.rest]
  · rw [hr]
    show u0.nextId = _
    rw [hid, hm.rest]
  · exact
      { size := h2.size, rest := by rw [h3], lanes := h2.lanes, pcs := h2.pcs, uniform := h2.uniform, accs := h2.accs }
  · rw [h3]
  · rw [h3]
    show (if owed = 0 then x.wp.loads + 1 else x.wp.loads) = _
    split <;> rfl
  · intro w hne
    rw [h4 w hne, hw, Tbl.find_upd, if_neg hne, hvw]

end Sys2Proof.Machine
end

