-- ==== Sys2Proof/Laws/State.lean ====
section
/-!
SUPPORT. What each update of the state leaves and gives, field by field: one lemma per field and update, true by
unfolding, so that no later proof unfolds a record update.
-/

namespace Sys2Proof.Machine

set_option Elab.async false

/-! ### A core -/

@[simp] theorem State.onCore_agenda (s : State) (n : Nat) (f : Core → Core) : (s.onCore n f).agenda = s.agenda := rfl
@[simp] theorem State.onCore_cur (s : State) (n : Nat) (f : Core → Core) : (s.onCore n f).cur = s.cur := rfl
@[simp] theorem State.onCore_second (s : State) (n : Nat) (f : Core → Core) : (s.onCore n f).second = s.second := rfl
@[simp] theorem State.onCore_turn (s : State) (n : Nat) (f : Core → Core) : (s.onCore n f).turn = s.turn := rfl
@[simp] theorem State.onCore_freeCtr (s : State) (n : Nat) (f : Core → Core) : (s.onCore n f).freeCtr = s.freeCtr := rfl
@[simp] theorem State.onCore_nextId (s : State) (n : Nat) (f : Core → Core) : (s.onCore n f).nextId = s.nextId := rfl
@[simp] theorem State.onCore_cores (s : State) (n : Nat) (f : Core → Core) :
    (s.onCore n f).cores = s.cores.put n (f (s.core n)) := rfl
@[simp] theorem State.onCore_groups (s : State) (n : Nat) (f : Core → Core) : (s.onCore n f).groups = s.groups := rfl
@[simp] theorem State.onCore_warps (s : State) (n : Nat) (f : Core → Core) : (s.onCore n f).warps = s.warps := rfl
@[simp] theorem State.onCore_waits (s : State) (n : Nat) (f : Core → Core) : (s.onCore n f).waits = s.waits := rfl
@[simp] theorem State.onCore_launches (s : State) (n : Nat) (f : Core → Core) : (s.onCore n f).launches = s.launches := rfl
@[simp] theorem State.onCore_mem (s : State) (n : Nat) (f : Core → Core) : (s.onCore n f).mem = s.mem := rfl
@[simp] theorem State.onCore_secKey (s : State) (n : Nat) (f : Core → Core) : (s.onCore n f).secKey = s.secKey := rfl
@[simp] theorem State.onCore_l2 (s : State) (n : Nat) (f : Core → Core) : (s.onCore n f).l2 = s.l2 := rfl
@[simp] theorem State.onCore_slices (s : State) (n : Nat) (f : Core → Core) : (s.onCore n f).slices = s.slices := rfl
@[simp] theorem State.onCore_tcache (s : State) (n : Nat) (f : Core → Core) : (s.onCore n f).tcache = s.tcache := rfl
@[simp] theorem State.onCore_unscrubbed (s : State) (n : Nat) (f : Core → Core) :
    (s.onCore n f).unscrubbed = s.unscrubbed := rfl
@[simp] theorem State.onCore_txns (s : State) (n : Nat) (f : Core → Core) : (s.onCore n f).txns = s.txns := rfl
@[simp] theorem State.onCore_monitors (s : State) (n : Nat) (f : Core → Core) : (s.onCore n f).monitors = s.monitors := rfl
@[simp] theorem State.onCore_pubTab (s : State) (n : Nat) (f : Core → Core) : (s.onCore n f).pubTab = s.pubTab := rfl
@[simp] theorem State.onCore_epochs (s : State) (n : Nat) (f : Core → Core) : (s.onCore n f).epochs = s.epochs := rfl
@[simp] theorem State.onCore_regions (s : State) (n : Nat) (f : Core → Core) : (s.onCore n f).regions = s.regions := rfl
@[simp] theorem State.onCore_ctxs (s : State) (n : Nat) (f : Core → Core) : (s.onCore n f).ctxs = s.ctxs := rfl
@[simp] theorem State.onCore_keys (s : State) (n : Nat) (f : Core → Core) : (s.onCore n f).keys = s.keys := rfl
@[simp] theorem State.onCore_entries (s : State) (n : Nat) (f : Core → Core) : (s.onCore n f).entries = s.entries := rfl
@[simp] theorem State.onCore_counters (s : State) (n : Nat) (f : Core → Core) : (s.onCore n f).counters = s.counters := rfl
@[simp] theorem State.onCore_nslots (s : State) (n : Nat) (f : Core → Core) : (s.onCore n f).nslots = s.nslots := rfl
@[simp] theorem State.onCore_slots (s : State) (n : Nat) (f : Core → Core) : (s.onCore n f).slots = s.slots := rfl
@[simp] theorem State.onCore_evq (s : State) (n : Nat) (f : Core → Core) : (s.onCore n f).evq = s.evq := rfl
@[simp] theorem State.onCore_seqs (s : State) (n : Nat) (f : Core → Core) : (s.onCore n f).seqs = s.seqs := rfl
@[simp] theorem State.onCore_time (s : State) (n : Nat) (f : Core → Core) : (s.onCore n f).time = s.time := rfl
@[simp] theorem State.onCore_estDone (s : State) (n : Nat) (f : Core → Core) : (s.onCore n f).estDone = s.estDone := rfl
@[simp] theorem State.onCore_gcq (s : State) (n : Nat) (f : Core → Core) : (s.onCore n f).gcq = s.gcq := rfl
@[simp] theorem State.onCore_heq (s : State) (n : Nat) (f : Core → Core) : (s.onCore n f).heq = s.heq := rfl
@[simp] theorem State.onCore_cmds (s : State) (n : Nat) (f : Core → Core) : (s.onCore n f).cmds = s.cmds := rfl
@[simp] theorem State.onCore_hostMem (s : State) (n : Nat) (f : Core → Core) : (s.onCore n f).hostMem = s.hostMem := rfl
@[simp] theorem State.onCore_outs (s : State) (n : Nat) (f : Core → Core) : (s.onCore n f).outs = s.outs := rfl
@[simp] theorem State.onCore_parts (s : State) (n : Nat) (f : Core → Core) : (s.onCore n f).parts = s.parts := rfl
@[simp] theorem State.onCore_rails (s : State) (n : Nat) (f : Core → Core) : (s.onCore n f).rails = s.rails := rfl
@[simp] theorem State.onCore_clusterOk (s : State) (n : Nat) (f : Core → Core) :
    (s.onCore n f).clusterOk = s.clusterOk := rfl
@[simp] theorem State.onCore_spares (s : State) (n : Nat) (f : Core → Core) : (s.onCore n f).spares = s.spares := rfl
@[simp] theorem State.onCore_colSpare (s : State) (n : Nat) (f : Core → Core) : (s.onCore n f).colSpare = s.colSpare := rfl
@[simp] theorem State.onCore_colBad (s : State) (n : Nat) (f : Core → Core) : (s.onCore n f).colBad = s.colBad := rfl
@[simp] theorem State.onCore_units (s : State) (n : Nat) (f : Core → Core) : (s.onCore n f).units = s.units := rfl
@[simp] theorem State.onCore_ticked (s : State) (n : Nat) (f : Core → Core) : (s.onCore n f).ticked = s.ticked := rfl
@[simp] theorem State.onCore_nospare (s : State) (n : Nat) (f : Core → Core) : (s.onCore n f).nospare = s.nospare := rfl
@[simp] theorem State.onCore_calls (s : State) (n : Nat) (f : Core → Core) : (s.onCore n f).calls = s.calls := rfl
@[simp] theorem State.onCore_temps (s : State) (n : Nat) (f : Core → Core) : (s.onCore n f).temps = s.temps := rfl
@[simp] theorem State.onCore_wlog (s : State) (n : Nat) (f : Core → Core) : (s.onCore n f).wlog = s.wlog := rfl
@[simp] theorem State.onCore_wlogNext (s : State) (n : Nat) (f : Core → Core) : (s.onCore n f).wlogNext = s.wlogNext := rfl
@[simp] theorem State.onCore_nvmUnits (s : State) (n : Nat) (f : Core → Core) : (s.onCore n f).nvmUnits = s.nvmUnits := rfl
@[simp] theorem State.onCore_nvmLbr (s : State) (n : Nat) (f : Core → Core) : (s.onCore n f).nvmLbr = s.nvmLbr := rfl
@[simp] theorem State.onCore_nvmAt (s : State) (n : Nat) (f : Core → Core) : (s.onCore n f).nvmAt = s.nvmAt := rfl
@[simp] theorem State.onCore_transport (s : State) (n : Nat) (f : Core → Core) :
    (s.onCore n f).transport = s.transport := rfl
@[simp] theorem State.onCore_links (s : State) (n : Nat) (f : Core → Core) : (s.onCore n f).links = s.links := rfl
@[simp] theorem State.onCore_warm (s : State) (n : Nat) (f : Core → Core) : (s.onCore n f).warm = s.warm := rfl
@[simp] theorem State.onCore_dead (s : State) (n : Nat) (f : Core → Core) : (s.onCore n f).dead = s.dead := rfl
@[simp] theorem State.onCore_portDown (s : State) (n : Nat) (f : Core → Core) : (s.onCore n f).portDown = s.portDown := rfl
@[simp] theorem State.onCore_portMark (s : State) (n : Nat) (f : Core → Core) : (s.onCore n f).portMark = s.portMark := rfl
@[simp] theorem State.onCore_peerSeq (s : State) (n : Nat) (f : Core → Core) : (s.onCore n f).peerSeq = s.peerSeq := rfl
@[simp] theorem State.onCore_farSeen (s : State) (n : Nat) (f : Core → Core) : (s.onCore n f).farSeen = s.farSeen := rfl
@[simp] theorem State.onCore_derates (s : State) (n : Nat) (f : Core → Core) : (s.onCore n f).derates = s.derates := rfl
@[simp] theorem State.onCore_zones (s : State) (n : Nat) (f : Core → Core) : (s.onCore n f).zones = s.zones := rfl
@[simp] theorem State.onCore_power (s : State) (n : Nat) (f : Core → Core) : (s.onCore n f).power = s.power := rfl
@[simp] theorem State.onCore_spdm (s : State) (n : Nat) (f : Core → Core) : (s.onCore n f).spdm = s.spdm := rfl
@[simp] theorem State.onCore_ide (s : State) (n : Nat) (f : Core → Core) : (s.onCore n f).ide = s.ide := rfl
@[simp] theorem State.onCore_images (s : State) (n : Nat) (f : Core → Core) : (s.onCore n f).images = s.images := rfl
@[simp] theorem State.onCore_tested (s : State) (n : Nat) (f : Core → Core) : (s.onCore n f).tested = s.tested := rfl
@[simp] theorem State.onCore_meas (s : State) (n : Nat) (f : Core → Core) : (s.onCore n f).meas = s.meas := rfl
@[simp] theorem State.onCore_measured (s : State) (n : Nat) (f : Core → Core) : (s.onCore n f).measured = s.measured := rfl
@[simp] theorem State.onCore_rr (s : State) (n : Nat) (f : Core → Core) : (s.onCore n f).rr = s.rr := rfl
@[simp] theorem State.onCore_asks (s : State) (n : Nat) (f : Core → Core) : (s.onCore n f).asks = s.asks := rfl
@[simp] theorem State.onCore_late (s : State) (n : Nat) (f : Core → Core) : (s.onCore n f).late = s.late := rfl
@[simp] theorem State.onCore_mbox (s : State) (n : Nat) (f : Core → Core) : (s.onCore n f).mbox = s.mbox := rfl
@[simp] theorem State.onCore_mbRun (s : State) (n : Nat) (f : Core → Core) : (s.onCore n f).mbRun = s.mbRun := rfl
@[simp] theorem State.onCore_farq (s : State) (n : Nat) (f : Core → Core) : (s.onCore n f).farq = s.farq := rfl
@[simp] theorem State.onCore_hseqs (s : State) (n : Nat) (f : Core → Core) : (s.onCore n f).hseqs = s.hseqs := rfl

/-! ### A warp -/

@[simp] theorem State.onWarp_agenda (s : State) (w : Nat) (f : Warp → Warp) : (s.onWarp w f).agenda = s.agenda := rfl
@[simp] theorem State.onWarp_cur (s : State) (w : Nat) (f : Warp → Warp) : (s.onWarp w f).cur = s.cur := rfl
@[simp] theorem State.onWarp_second (s : State) (w : Nat) (f : Warp → Warp) : (s.onWarp w f).second = s.second := rfl
@[simp] theorem State.onWarp_turn (s : State) (w : Nat) (f : Warp → Warp) : (s.onWarp w f).turn = s.turn := rfl
@[simp] theorem State.onWarp_freeCtr (s : State) (w : Nat) (f : Warp → Warp) : (s.onWarp w f).freeCtr = s.freeCtr := rfl
@[simp] theorem State.onWarp_nextId (s : State) (w : Nat) (f : Warp → Warp) : (s.onWarp w f).nextId = s.nextId := rfl
@[simp] theorem State.onWarp_cores (s : State) (w : Nat) (f : Warp → Warp) : (s.onWarp w f).cores = s.cores := rfl
@[simp] theorem State.onWarp_groups (s : State) (w : Nat) (f : Warp → Warp) : (s.onWarp w f).groups = s.groups := rfl
@[simp] theorem State.onWarp_warps (s : State) (w : Nat) (f : Warp → Warp) : (s.onWarp w f).warps = s.warps.upd w f := rfl
@[simp] theorem State.onWarp_waits (s : State) (w : Nat) (f : Warp → Warp) : (s.onWarp w f).waits = s.waits := rfl
@[simp] theorem State.onWarp_launches (s : State) (w : Nat) (f : Warp → Warp) : (s.onWarp w f).launches = s.launches := rfl
@[simp] theorem State.onWarp_mem (s : State) (w : Nat) (f : Warp → Warp) : (s.onWarp w f).mem = s.mem := rfl
@[simp] theorem State.onWarp_secKey (s : State) (w : Nat) (f : Warp → Warp) : (s.onWarp w f).secKey = s.secKey := rfl
@[simp] theorem State.onWarp_l2 (s : State) (w : Nat) (f : Warp → Warp) : (s.onWarp w f).l2 = s.l2 := rfl
@[simp] theorem State.onWarp_slices (s : State) (w : Nat) (f : Warp → Warp) : (s.onWarp w f).slices = s.slices := rfl
@[simp] theorem State.onWarp_tcache (s : State) (w : Nat) (f : Warp → Warp) : (s.onWarp w f).tcache = s.tcache := rfl
@[simp] theorem State.onWarp_unscrubbed (s : State) (w : Nat) (f : Warp → Warp) :
    (s.onWarp w f).unscrubbed = s.unscrubbed := rfl
@[simp] theorem State.onWarp_txns (s : State) (w : Nat) (f : Warp → Warp) : (s.onWarp w f).txns = s.txns := rfl
@[simp] theorem State.onWarp_monitors (s : State) (w : Nat) (f : Warp → Warp) : (s.onWarp w f).monitors = s.monitors := rfl
@[simp] theorem State.onWarp_pubTab (s : State) (w : Nat) (f : Warp → Warp) : (s.onWarp w f).pubTab = s.pubTab := rfl
@[simp] theorem State.onWarp_epochs (s : State) (w : Nat) (f : Warp → Warp) : (s.onWarp w f).epochs = s.epochs := rfl
@[simp] theorem State.onWarp_regions (s : State) (w : Nat) (f : Warp → Warp) : (s.onWarp w f).regions = s.regions := rfl
@[simp] theorem State.onWarp_ctxs (s : State) (w : Nat) (f : Warp → Warp) : (s.onWarp w f).ctxs = s.ctxs := rfl
@[simp] theorem State.onWarp_keys (s : State) (w : Nat) (f : Warp → Warp) : (s.onWarp w f).keys = s.keys := rfl
@[simp] theorem State.onWarp_entries (s : State) (w : Nat) (f : Warp → Warp) : (s.onWarp w f).entries = s.entries := rfl
@[simp] theorem State.onWarp_counters (s : State) (w : Nat) (f : Warp → Warp) : (s.onWarp w f).counters = s.counters := rfl
@[simp] theorem State.onWarp_nslots (s : State) (w : Nat) (f : Warp → Warp) : (s.onWarp w f).nslots = s.nslots := rfl
@[simp] theorem State.onWarp_slots (s : State) (w : Nat) (f : Warp → Warp) : (s.onWarp w f).slots = s.slots := rfl
@[simp] theorem State.onWarp_evq (s : State) (w : Nat) (f : Warp → Warp) : (s.onWarp w f).evq = s.evq := rfl
@[simp] theorem State.onWarp_seqs (s : State) (w : Nat) (f : Warp → Warp) : (s.onWarp w f).seqs = s.seqs := rfl
@[simp] theorem State.onWarp_time (s : State) (w : Nat) (f : Warp → Warp) : (s.onWarp w f).time = s.time := rfl
@[simp] theorem State.onWarp_estDone (s : State) (w : Nat) (f : Warp → Warp) : (s.onWarp w f).estDone = s.estDone := rfl
@[simp] theorem State.onWarp_gcq (s : State) (w : Nat) (f : Warp → Warp) : (s.onWarp w f).gcq = s.gcq := rfl
@[simp] theorem State.onWarp_heq (s : State) (w : Nat) (f : Warp → Warp) : (s.onWarp w f).heq = s.heq := rfl
@[simp] theorem State.onWarp_cmds (s : State) (w : Nat) (f : Warp → Warp) : (s.onWarp w f).cmds = s.cmds := rfl
@[simp] theorem State.onWarp_hostMem (s : State) (w : Nat) (f : Warp → Warp) : (s.onWarp w f).hostMem = s.hostMem := rfl
@[simp] theorem State.onWarp_outs (s : State) (w : Nat) (f : Warp → Warp) : (s.onWarp w f).outs = s.outs := rfl
@[simp] theorem State.onWarp_parts (s : State) (w : Nat) (f : Warp → Warp) : (s.onWarp w f).parts = s.parts := rfl
@[simp] theorem State.onWarp_rails (s : State) (w : Nat) (f : Warp → Warp) : (s.onWarp w f).rails = s.rails := rfl
@[simp] theorem State.onWarp_clusterOk (s : State) (w : Nat) (f : Warp → Warp) :
    (s.onWarp w f).clusterOk = s.clusterOk := rfl
@[simp] theorem State.onWarp_spares (s : State) (w : Nat) (f : Warp → Warp) : (s.onWarp w f).spares = s.spares := rfl
@[simp] theorem State.onWarp_colSpare (s : State) (w : Nat) (f : Warp → Warp) : (s.onWarp w f).colSpare = s.colSpare := rfl
@[simp] theorem State.onWarp_colBad (s : State) (w : Nat) (f : Warp → Warp) : (s.onWarp w f).colBad = s.colBad := rfl
@[simp] theorem State.onWarp_units (s : State) (w : Nat) (f : Warp → Warp) : (s.onWarp w f).units = s.units := rfl
@[simp] theorem State.onWarp_ticked (s : State) (w : Nat) (f : Warp → Warp) : (s.onWarp w f).ticked = s.ticked := rfl
@[simp] theorem State.onWarp_nospare (s : State) (w : Nat) (f : Warp → Warp) : (s.onWarp w f).nospare = s.nospare := rfl
@[simp] theorem State.onWarp_calls (s : State) (w : Nat) (f : Warp → Warp) : (s.onWarp w f).calls = s.calls := rfl
@[simp] theorem State.onWarp_temps (s : State) (w : Nat) (f : Warp → Warp) : (s.onWarp w f).temps = s.temps := rfl
@[simp] theorem State.onWarp_wlog (s : State) (w : Nat) (f : Warp → Warp) : (s.onWarp w f).wlog = s.wlog := rfl
@[simp] theorem State.onWarp_wlogNext (s : State) (w : Nat) (f : Warp → Warp) : (s.onWarp w f).wlogNext = s.wlogNext := rfl
@[simp] theorem State.onWarp_nvmUnits (s : State) (w : Nat) (f : Warp → Warp) : (s.onWarp w f).nvmUnits = s.nvmUnits := rfl
@[simp] theorem State.onWarp_nvmLbr (s : State) (w : Nat) (f : Warp → Warp) : (s.onWarp w f).nvmLbr = s.nvmLbr := rfl
@[simp] theorem State.onWarp_nvmAt (s : State) (w : Nat) (f : Warp → Warp) : (s.onWarp w f).nvmAt = s.nvmAt := rfl
@[simp] theorem State.onWarp_transport (s : State) (w : Nat) (f : Warp → Warp) :
    (s.onWarp w f).transport = s.transport := rfl
@[simp] theorem State.onWarp_links (s : State) (w : Nat) (f : Warp → Warp) : (s.onWarp w f).links = s.links := rfl
@[simp] theorem State.onWarp_warm (s : State) (w : Nat) (f : Warp → Warp) : (s.onWarp w f).warm = s.warm := rfl
@[simp] theorem State.onWarp_dead (s : State) (w : Nat) (f : Warp → Warp) : (s.onWarp w f).dead = s.dead := rfl
@[simp] theorem State.onWarp_portDown (s : State) (w : Nat) (f : Warp → Warp) : (s.onWarp w f).portDown = s.portDown := rfl
@[simp] theorem State.onWarp_portMark (s : State) (w : Nat) (f : Warp → Warp) : (s.onWarp w f).portMark = s.portMark := rfl
@[simp] theorem State.onWarp_peerSeq (s : State) (w : Nat) (f : Warp → Warp) : (s.onWarp w f).peerSeq = s.peerSeq := rfl
@[simp] theorem State.onWarp_farSeen (s : State) (w : Nat) (f : Warp → Warp) : (s.onWarp w f).farSeen = s.farSeen := rfl
@[simp] theorem State.onWarp_derates (s : State) (w : Nat) (f : Warp → Warp) : (s.onWarp w f).derates = s.derates := rfl
@[simp] theorem State.onWarp_zones (s : State) (w : Nat) (f : Warp → Warp) : (s.onWarp w f).zones = s.zones := rfl
@[simp] theorem State.onWarp_power (s : State) (w : Nat) (f : Warp → Warp) : (s.onWarp w f).power = s.power := rfl
@[simp] theorem State.onWarp_spdm (s : State) (w : Nat) (f : Warp → Warp) : (s.onWarp w f).spdm = s.spdm := rfl
@[simp] theorem State.onWarp_ide (s : State) (w : Nat) (f : Warp → Warp) : (s.onWarp w f).ide = s.ide := rfl
@[simp] theorem State.onWarp_images (s : State) (w : Nat) (f : Warp → Warp) : (s.onWarp w f).images = s.images := rfl
@[simp] theorem State.onWarp_tested (s : State) (w : Nat) (f : Warp → Warp) : (s.onWarp w f).tested = s.tested := rfl
@[simp] theorem State.onWarp_meas (s : State) (w : Nat) (f : Warp → Warp) : (s.onWarp w f).meas = s.meas := rfl
@[simp] theorem State.onWarp_measured (s : State) (w : Nat) (f : Warp → Warp) : (s.onWarp w f).measured = s.measured := rfl
@[simp] theorem State.onWarp_rr (s : State) (w : Nat) (f : Warp → Warp) : (s.onWarp w f).rr = s.rr := rfl
@[simp] theorem State.onWarp_asks (s : State) (w : Nat) (f : Warp → Warp) : (s.onWarp w f).asks = s.asks := rfl
@[simp] theorem State.onWarp_late (s : State) (w : Nat) (f : Warp → Warp) : (s.onWarp w f).late = s.late := rfl
@[simp] theorem State.onWarp_mbox (s : State) (w : Nat) (f : Warp → Warp) : (s.onWarp w f).mbox = s.mbox := rfl
@[simp] theorem State.onWarp_mbRun (s : State) (w : Nat) (f : Warp → Warp) : (s.onWarp w f).mbRun = s.mbRun := rfl
@[simp] theorem State.onWarp_farq (s : State) (w : Nat) (f : Warp → Warp) : (s.onWarp w f).farq = s.farq := rfl
@[simp] theorem State.onWarp_hseqs (s : State) (w : Nat) (f : Warp → Warp) : (s.onWarp w f).hseqs = s.hseqs := rfl

/-! ### A group -/

@[simp] theorem State.onGroup_agenda (s : State) (g : Nat) (f : Group → Group) : (s.onGroup g f).agenda = s.agenda := rfl
@[simp] theorem State.onGroup_cur (s : State) (g : Nat) (f : Group → Group) : (s.onGroup g f).cur = s.cur := rfl
@[simp] theorem State.onGroup_second (s : State) (g : Nat) (f : Group → Group) : (s.onGroup g f).second = s.second := rfl
@[simp] theorem State.onGroup_turn (s : State) (g : Nat) (f : Group → Group) : (s.onGroup g f).turn = s.turn := rfl
@[simp] theorem State.onGroup_freeCtr (s : State) (g : Nat) (f : Group → Group) : (s.onGroup g f).freeCtr = s.freeCtr := rfl
@[simp] theorem State.onGroup_nextId (s : State) (g : Nat) (f : Group → Group) : (s.onGroup g f).nextId = s.nextId := rfl
@[simp] theorem State.onGroup_cores (s : State) (g : Nat) (f : Group → Group) : (s.onGroup g f).cores = s.cores := rfl
@[simp] theorem State.onGroup_groups (s : State) (g : Nat) (f : Group → Group) :
    (s.onGroup g f).groups = s.groups.upd g f := rfl
@[simp] theorem State.onGroup_warps (s : State) (g : Nat) (f : Group → Group) : (s.onGroup g f).warps = s.warps := rfl
@[simp] theorem State.onGroup_waits (s : State) (g : Nat) (f : Group → Group) : (s.onGroup g f).waits = s.waits := rfl
@[simp] theorem State.onGroup_launches (s : State) (g : Nat) (f : Group → Group) :
    (s.onGroup g f).launches = s.launches := rfl
@[simp] theorem State.onGroup_mem (s : State) (g : Nat) (f : Group → Group) : (s.onGroup g f).mem = s.mem := rfl
@[simp] theorem State.onGroup_secKey (s : State) (g : Nat) (f : Group → Group) : (s.onGroup g f).secKey = s.secKey := rfl
@[simp] theorem State.onGroup_l2 (s : State) (g : Nat) (f : Group → Group) : (s.onGroup g f).l2 = s.l2 := rfl
@[simp] theorem State.onGroup_slices (s : State) (g : Nat) (f : Group → Group) : (s.onGroup g f).slices = s.slices := rfl
@[simp] theorem State.onGroup_tcache (s : State) (g : Nat) (f : Group → Group) : (s.onGroup g f).tcache = s.tcache := rfl
@[simp] theorem State.onGroup_unscrubbed (s : State) (g : Nat) (f : Group → Group) :
    (s.onGroup g f).unscrubbed = s.unscrubbed := rfl
@[simp] theorem State.onGroup_txns (s : State) (g : Nat) (f : Group → Group) : (s.onGroup g f).txns = s.txns := rfl
@[simp] theorem State.onGroup_monitors (s : State) (g : Nat) (f : Group → Group) :
    (s.onGroup g f).monitors = s.monitors := rfl
@[simp] theorem State.onGroup_pubTab (s : State) (g : Nat) (f : Group → Group) : (s.onGroup g f).pubTab = s.pubTab := rfl
@[simp] theorem State.onGroup_epochs (s : State) (g : Nat) (f : Group → Group) : (s.onGroup g f).epochs = s.epochs := rfl
@[simp] theorem State.onGroup_regions (s : State) (g : Nat) (f : Group → Group) : (s.onGroup g f).regions = s.regions := rfl
@[simp] theorem State.onGroup_ctxs (s : State) (g : Nat) (f : Group → Group) : (s.onGroup g f).ctxs = s.ctxs := rfl
@[simp] theorem State.onGroup_keys (s : State) (g : Nat) (f : Group → Group) : (s.onGroup g f).keys = s.keys := rfl
@[simp] theorem State.onGroup_entries (s : State) (g : Nat) (f : Group → Group) : (s.onGroup g f).entries = s.entries := rfl
@[simp] theorem State.onGroup_counters (s : State) (g : Nat) (f : Group → Group) :
    (s.onGroup g f).counters = s.counters := rfl
@[simp] theorem State.onGroup_nslots (s : State) (g : Nat) (f : Group → Group) : (s.onGroup g f).nslots = s.nslots := rfl
@[simp] theorem State.onGroup_slots (s : State) (g : Nat) (f : Group → Group) : (s.onGroup g f).slots = s.slots := rfl
@[simp] theorem State.onGroup_evq (s : State) (g : Nat) (f : Group → Group) : (s.onGroup g f).evq = s.evq := rfl
@[simp] theorem State.onGroup_seqs (s : State) (g : Nat) (f : Group → Group) : (s.onGroup g f).seqs = s.seqs := rfl
@[simp] theorem State.onGroup_time (s : State) (g : Nat) (f : Group → Group) : (s.onGroup g f).time = s.time := rfl
@[simp] theorem State.onGroup_estDone (s : State) (g : Nat) (f : Group → Group) : (s.onGroup g f).estDone = s.estDone := rfl
@[simp] theorem State.onGroup_gcq (s : State) (g : Nat) (f : Group → Group) : (s.onGroup g f).gcq = s.gcq := rfl
@[simp] theorem State.onGroup_heq (s : State) (g : Nat) (f : Group → Group) : (s.onGroup g f).heq = s.heq := rfl
@[simp] theorem State.onGroup_cmds (s : State) (g : Nat) (f : Group → Group) : (s.onGroup g f).cmds = s.cmds := rfl
@[simp] theorem State.onGroup_hostMem (s : State) (g : Nat) (f : Group → Group) : (s.onGroup g f).hostMem = s.hostMem := rfl
@[simp] theorem State.onGroup_outs (s : State) (g : Nat) (f : Group → Group) : (s.onGroup g f).outs = s.outs := rfl
@[simp] theorem State.onGroup_parts (s : State) (g : Nat) (f : Group → Group) : (s.onGroup g f).parts = s.parts := rfl
@[simp] theorem State.onGroup_rails (s : State) (g : Nat) (f : Group → Group) : (s.onGroup g f).rails = s.rails := rfl
@[simp] theorem State.onGroup_clusterOk (s : State) (g : Nat) (f : Group → Group) :
    (s.onGroup g f).clusterOk = s.clusterOk := rfl
@[simp] theorem State.onGroup_spares (s : State) (g : Nat) (f : Group → Group) : (s.onGroup g f).spares = s.spares := rfl
@[simp] theorem State.onGroup_colSpare (s : State) (g : Nat) (f : Group → Group) :
    (s.onGroup g f).colSpare = s.colSpare := rfl
@[simp] theorem State.onGroup_colBad (s : State) (g : Nat) (f : Group → Group) : (s.onGroup g f).colBad = s.colBad := rfl
@[simp] theorem State.onGroup_units (s : State) (g : Nat) (f : Group → Group) : (s.onGroup g f).units = s.units := rfl
@[simp] theorem State.onGroup_ticked (s : State) (g : Nat) (f : Group → Group) : (s.onGroup g f).ticked = s.ticked := rfl
@[simp] theorem State.onGroup_nospare (s : State) (g : Nat) (f : Group → Group) : (s.onGroup g f).nospare = s.nospare := rfl
@[simp] theorem State.onGroup_calls (s : State) (g : Nat) (f : Group → Group) : (s.onGroup g f).calls = s.calls := rfl
@[simp] theorem State.onGroup_temps (s : State) (g : Nat) (f : Group → Group) : (s.onGroup g f).temps = s.temps := rfl
@[simp] theorem State.onGroup_wlog (s : State) (g : Nat) (f : Group → Group) : (s.onGroup g f).wlog = s.wlog := rfl
@[simp] theorem State.onGroup_wlogNext (s : State) (g : Nat) (f : Group → Group) :
    (s.onGroup g f).wlogNext = s.wlogNext := rfl
@[simp] theorem State.onGroup_nvmUnits (s : State) (g : Nat) (f : Group → Group) :
    (s.onGroup g f).nvmUnits = s.nvmUnits := rfl
@[simp] theorem State.onGroup_nvmLbr (s : State) (g : Nat) (f : Group → Group) : (s.onGroup g f).nvmLbr = s.nvmLbr := rfl
@[simp] theorem State.onGroup_nvmAt (s : State) (g : Nat) (f : Group → Group) : (s.onGroup g f).nvmAt = s.nvmAt := rfl
@[simp] theorem State.onGroup_transport (s : State) (g : Nat) (f : Group → Group) :
    (s.onGroup g f).transport = s.transport := rfl
@[simp] theorem State.onGroup_links (s : State) (g : Nat) (f : Group → Group) : (s.onGroup g f).links = s.links := rfl
@[simp] theorem State.onGroup_warm (s : State) (g : Nat) (f : Group → Group) : (s.onGroup g f).warm = s.warm := rfl
@[simp] theorem State.onGroup_dead (s : State) (g : Nat) (f : Group → Group) : (s.onGroup g f).dead = s.dead := rfl
@[simp] theorem State.onGroup_portDown (s : State) (g : Nat) (f : Group → Group) :
    (s.onGroup g f).portDown = s.portDown := rfl
@[simp] theorem State.onGroup_portMark (s : State) (g : Nat) (f : Group → Group) :
    (s.onGroup g f).portMark = s.portMark := rfl
@[simp] theorem State.onGroup_peerSeq (s : State) (g : Nat) (f : Group → Group) : (s.onGroup g f).peerSeq = s.peerSeq := rfl
@[simp] theorem State.onGroup_farSeen (s : State) (g : Nat) (f : Group → Group) : (s.onGroup g f).farSeen = s.farSeen := rfl
@[simp] theorem State.onGroup_derates (s : State) (g : Nat) (f : Group → Group) : (s.onGroup g f).derates = s.derates := rfl
@[simp] theorem State.onGroup_zones (s : State) (g : Nat) (f : Group → Group) : (s.onGroup g f).zones = s.zones := rfl
@[simp] theorem State.onGroup_power (s : State) (g : Nat) (f : Group → Group) : (s.onGroup g f).power = s.power := rfl
@[simp] theorem State.onGroup_spdm (s : State) (g : Nat) (f : Group → Group) : (s.onGroup g f).spdm = s.spdm := rfl
@[simp] theorem State.onGroup_ide (s : State) (g : Nat) (f : Group → Group) : (s.onGroup g f).ide = s.ide := rfl
@[simp] theorem State.onGroup_images (s : State) (g : Nat) (f : Group → Group) : (s.onGroup g f).images = s.images := rfl
@[simp] theorem State.onGroup_tested (s : State) (g : Nat) (f : Group → Group) : (s.onGroup g f).tested = s.tested := rfl
@[simp] theorem State.onGroup_meas (s : State) (g : Nat) (f : Group → Group) : (s.onGroup g f).meas = s.meas := rfl
@[simp] theorem State.onGroup_measured (s : State) (g : Nat) (f : Group → Group) :
    (s.onGroup g f).measured = s.measured := rfl
@[simp] theorem State.onGroup_rr (s : State) (g : Nat) (f : Group → Group) : (s.onGroup g f).rr = s.rr := rfl
@[simp] theorem State.onGroup_asks (s : State) (g : Nat) (f : Group → Group) : (s.onGroup g f).asks = s.asks := rfl
@[simp] theorem State.onGroup_late (s : State) (g : Nat) (f : Group → Group) : (s.onGroup g f).late = s.late := rfl
@[simp] theorem State.onGroup_mbox (s : State) (g : Nat) (f : Group → Group) : (s.onGroup g f).mbox = s.mbox := rfl
@[simp] theorem State.onGroup_mbRun (s : State) (g : Nat) (f : Group → Group) : (s.onGroup g f).mbRun = s.mbRun := rfl
@[simp] theorem State.onGroup_farq (s : State) (g : Nat) (f : Group → Group) : (s.onGroup g f).farq = s.farq := rfl
@[simp] theorem State.onGroup_hseqs (s : State) (g : Nat) (f : Group → Group) : (s.onGroup g f).hseqs = s.hseqs := rfl

/-! ### A launch -/

@[simp] theorem State.onLaunch_agenda (s : State) (x : Nat) (f : Launch → Launch) :
    (s.onLaunch x f).agenda = s.agenda := rfl
@[simp] theorem State.onLaunch_cur (s : State) (x : Nat) (f : Launch → Launch) : (s.onLaunch x f).cur = s.cur := rfl
@[simp] theorem State.onLaunch_second (s : State) (x : Nat) (f : Launch → Launch) :
    (s.onLaunch x f).second = s.second := rfl
@[simp] theorem State.onLaunch_turn (s : State) (x : Nat) (f : Launch → Launch) : (s.onLaunch x f).turn = s.turn := rfl
@[simp] theorem State.onLaunch_freeCtr (s : State) (x : Nat) (f : Launch → Launch) :
    (s.onLaunch x f).freeCtr = s.freeCtr := rfl
@[simp] theorem State.onLaunch_nextId (s : State) (x : Nat) (f : Launch → Launch) :
    (s.onLaunch x f).nextId = s.nextId := rfl
@[simp] theorem State.onLaunch_cores (s : State) (x : Nat) (f : Launch → Launch) : (s.onLaunch x f).cores = s.cores := rfl
@[simp] theorem State.onLaunch_groups (s : State) (x : Nat) (f : Launch → Launch) :
    (s.onLaunch x f).groups = s.groups := rfl
@[simp] theorem State.onLaunch_warps (s : State) (x : Nat) (f : Launch → Launch) : (s.onLaunch x f).warps = s.warps := rfl
@[simp] theorem State.onLaunch_waits (s : State) (x : Nat) (f : Launch → Launch) : (s.onLaunch x f).waits = s.waits := rfl
@[simp] theorem State.onLaunch_launches (s : State) (x : Nat) (f : Launch → Launch) :
    (s.onLaunch x f).launches = s.launches.upd x f := rfl
@[simp] theorem State.onLaunch_mem (s : State) (x : Nat) (f : Launch → Launch) : (s.onLaunch x f).mem = s.mem := rfl
@[simp] theorem State.onLaunch_secKey (s : State) (x : Nat) (f : Launch → Launch) :
    (s.onLaunch x f).secKey = s.secKey := rfl
@[simp] theorem State.onLaunch_l2 (s : State) (x : Nat) (f : Launch → Launch) : (s.onLaunch x f).l2 = s.l2 := rfl
@[simp] theorem State.onLaunch_slices (s : State) (x : Nat) (f : Launch → Launch) :
    (s.onLaunch x f).slices = s.slices := rfl
@[simp] theorem State.onLaunch_tcache (s : State) (x : Nat) (f : Launch → Launch) :
    (s.onLaunch x f).tcache = s.tcache := rfl
@[simp] theorem State.onLaunch_unscrubbed (s : State) (x : Nat) (f : Launch → Launch) :
    (s.onLaunch x f).unscrubbed = s.unscrubbed := rfl
@[simp] theorem State.onLaunch_txns (s : State) (x : Nat) (f : Launch → Launch) : (s.onLaunch x f).txns = s.txns := rfl
@[simp] theorem State.onLaunch_monitors (s : State) (x : Nat) (f : Launch → Launch) :
    (s.onLaunch x f).monitors = s.monitors := rfl
@[simp] theorem State.onLaunch_pubTab (s : State) (x : Nat) (f : Launch → Launch) :
    (s.onLaunch x f).pubTab = s.pubTab := rfl
@[simp] theorem State.onLaunch_epochs (s : State) (x : Nat) (f : Launch → Launch) :
    (s.onLaunch x f).epochs = s.epochs := rfl
@[simp] theorem State.onLaunch_regions (s : State) (x : Nat) (f : Launch → Launch) :
    (s.onLaunch x f).regions = s.regions := rfl
@[simp] theorem State.onLaunch_ctxs (s : State) (x : Nat) (f : Launch → Launch) : (s.onLaunch x f).ctxs = s.ctxs := rfl
@[simp] theorem State.onLaunch_keys (s : State) (x : Nat) (f : Launch → Launch) : (s.onLaunch x f).keys = s.keys := rfl
@[simp] theorem State.onLaunch_entries (s : State) (x : Nat) (f : Launch → Launch) :
    (s.onLaunch x f).entries = s.entries := rfl
@[simp] theorem State.onLaunch_counters (s : State) (x : Nat) (f : Launch → Launch) :
    (s.onLaunch x f).counters = s.counters := rfl
@[simp] theorem State.onLaunch_nslots (s : State) (x : Nat) (f : Launch → Launch) :
    (s.onLaunch x f).nslots = s.nslots := rfl
@[simp] theorem State.onLaunch_slots (s : State) (x : Nat) (f : Launch → Launch) : (s.onLaunch x f).slots = s.slots := rfl
@[simp] theorem State.onLaunch_evq (s : State) (x : Nat) (f : Launch → Launch) : (s.onLaunch x f).evq = s.evq := rfl
@[simp] theorem State.onLaunch_seqs (s : State) (x : Nat) (f : Launch → Launch) : (s.onLaunch x f).seqs = s.seqs := rfl
@[simp] theorem State.onLaunch_time (s : State) (x : Nat) (f : Launch → Launch) : (s.onLaunch x f).time = s.time := rfl
@[simp] theorem State.onLaunch_estDone (s : State) (x : Nat) (f : Launch → Launch) :
    (s.onLaunch x f).estDone = s.estDone := rfl
@[simp] theorem State.onLaunch_gcq (s : State) (x : Nat) (f : Launch → Launch) : (s.onLaunch x f).gcq = s.gcq := rfl
@[simp] theorem State.onLaunch_heq (s : State) (x : Nat) (f : Launch → Launch) : (s.onLaunch x f).heq = s.heq := rfl
@[simp] theorem State.onLaunch_cmds (s : State) (x : Nat) (f : Launch → Launch) : (s.onLaunch x f).cmds = s.cmds := rfl
@[simp] theorem State.onLaunch_hostMem (s : State) (x : Nat) (f : Launch → Launch) :
    (s.onLaunch x f).hostMem = s.hostMem := rfl
@[simp] theorem State.onLaunch_outs (s : State) (x : Nat) (f : Launch → Launch) : (s.onLaunch x f).outs = s.outs := rfl
@[simp] theorem State.onLaunch_parts (s : State) (x : Nat) (f : Launch → Launch) : (s.onLaunch x f).parts = s.parts := rfl
@[simp] theorem State.onLaunch_rails (s : State) (x : Nat) (f : Launch → Launch) : (s.onLaunch x f).rails = s.rails := rfl
@[simp] theorem State.onLaunch_clusterOk (s : State) (x : Nat) (f : Launch → Launch) :
    (s.onLaunch x f).clusterOk = s.clusterOk := rfl
@[simp] theorem State.onLaunch_spares (s : State) (x : Nat) (f : Launch → Launch) :
    (s.onLaunch x f).spares = s.spares := rfl
@[simp] theorem State.onLaunch_colSpare (s : State) (x : Nat) (f : Launch → Launch) :
    (s.onLaunch x f).colSpare = s.colSpare := rfl
@[simp] theorem State.onLaunch_colBad (s : State) (x : Nat) (f : Launch → Launch) :
    (s.onLaunch x f).colBad = s.colBad := rfl
@[simp] theorem State.onLaunch_units (s : State) (x : Nat) (f : Launch → Launch) : (s.onLaunch x f).units = s.units := rfl
@[simp] theorem State.onLaunch_ticked (s : State) (x : Nat) (f : Launch → Launch) :
    (s.onLaunch x f).ticked = s.ticked := rfl
@[simp] theorem State.onLaunch_nospare (s : State) (x : Nat) (f : Launch → Launch) :
    (s.onLaunch x f).nospare = s.nospare := rfl
@[simp] theorem State.onLaunch_calls (s : State) (x : Nat) (f : Launch → Launch) : (s.onLaunch x f).calls = s.calls := rfl
@[simp] theorem State.onLaunch_temps (s : State) (x : Nat) (f : Launch → Launch) : (s.onLaunch x f).temps = s.temps := rfl
@[simp] theorem State.onLaunch_wlog (s : State) (x : Nat) (f : Launch → Launch) : (s.onLaunch x f).wlog = s.wlog := rfl
@[simp] theorem State.onLaunch_wlogNext (s : State) (x : Nat) (f : Launch → Launch) :
    (s.onLaunch x f).wlogNext = s.wlogNext := rfl
@[simp] theorem State.onLaunch_nvmUnits (s : State) (x : Nat) (f : Launch → Launch) :
    (s.onLaunch x f).nvmUnits = s.nvmUnits := rfl
@[simp] theorem State.onLaunch_nvmLbr (s : State) (x : Nat) (f : Launch → Launch) :
    (s.onLaunch x f).nvmLbr = s.nvmLbr := rfl
@[simp] theorem State.onLaunch_nvmAt (s : State) (x : Nat) (f : Launch → Launch) : (s.onLaunch x f).nvmAt = s.nvmAt := rfl
@[simp] theorem State.onLaunch_transport (s : State) (x : Nat) (f : Launch → Launch) :
    (s.onLaunch x f).transport = s.transport := rfl
@[simp] theorem State.onLaunch_links (s : State) (x : Nat) (f : Launch → Launch) : (s.onLaunch x f).links = s.links := rfl
@[simp] theorem State.onLaunch_warm (s : State) (x : Nat) (f : Launch → Launch) : (s.onLaunch x f).warm = s.warm := rfl
@[simp] theorem State.onLaunch_dead (s : State) (x : Nat) (f : Launch → Launch) : (s.onLaunch x f).dead = s.dead := rfl
@[simp] theorem State.onLaunch_portDown (s : State) (x : Nat) (f : Launch → Launch) :
    (s.onLaunch x f).portDown = s.portDown := rfl
@[simp] theorem State.onLaunch_portMark (s : State) (x : Nat) (f : Launch → Launch) :
    (s.onLaunch x f).portMark = s.portMark := rfl
@[simp] theorem State.onLaunch_peerSeq (s : State) (x : Nat) (f : Launch → Launch) :
    (s.onLaunch x f).peerSeq = s.peerSeq := rfl
@[simp] theorem State.onLaunch_farSeen (s : State) (x : Nat) (f : Launch → Launch) :
    (s.onLaunch x f).farSeen = s.farSeen := rfl
@[simp] theorem State.onLaunch_derates (s : State) (x : Nat) (f : Launch → Launch) :
    (s.onLaunch x f).derates = s.derates := rfl
@[simp] theorem State.onLaunch_zones (s : State) (x : Nat) (f : Launch → Launch) : (s.onLaunch x f).zones = s.zones := rfl
@[simp] theorem State.onLaunch_power (s : State) (x : Nat) (f : Launch → Launch) : (s.onLaunch x f).power = s.power := rfl
@[simp] theorem State.onLaunch_spdm (s : State) (x : Nat) (f : Launch → Launch) : (s.onLaunch x f).spdm = s.spdm := rfl
@[simp] theorem State.onLaunch_ide (s : State) (x : Nat) (f : Launch → Launch) : (s.onLaunch x f).ide = s.ide := rfl
@[simp] theorem State.onLaunch_images (s : State) (x : Nat) (f : Launch → Launch) :
    (s.onLaunch x f).images = s.images := rfl
@[simp] theorem State.onLaunch_tested (s : State) (x : Nat) (f : Launch → Launch) :
    (s.onLaunch x f).tested = s.tested := rfl
@[simp] theorem State.onLaunch_meas (s : State) (x : Nat) (f : Launch → Launch) : (s.onLaunch x f).meas = s.meas := rfl
@[simp] theorem State.onLaunch_measured (s : State) (x : Nat) (f : Launch → Launch) :
    (s.onLaunch x f).measured = s.measured := rfl
@[simp] theorem State.onLaunch_rr (s : State) (x : Nat) (f : Launch → Launch) : (s.onLaunch x f).rr = s.rr := rfl
@[simp] theorem State.onLaunch_asks (s : State) (x : Nat) (f : Launch → Launch) : (s.onLaunch x f).asks = s.asks := rfl
@[simp] theorem State.onLaunch_late (s : State) (x : Nat) (f : Launch → Launch) : (s.onLaunch x f).late = s.late := rfl
@[simp] theorem State.onLaunch_mbox (s : State) (x : Nat) (f : Launch → Launch) : (s.onLaunch x f).mbox = s.mbox := rfl
@[simp] theorem State.onLaunch_mbRun (s : State) (x : Nat) (f : Launch → Launch) : (s.onLaunch x f).mbRun = s.mbRun := rfl
@[simp] theorem State.onLaunch_farq (s : State) (x : Nat) (f : Launch → Launch) : (s.onLaunch x f).farq = s.farq := rfl
@[simp] theorem State.onLaunch_hseqs (s : State) (x : Nat) (f : Launch → Launch) : (s.onLaunch x f).hseqs = s.hseqs := rfl

/-! ### A context -/

@[simp] theorem State.onCtx_agenda (s : State) (n : Nat) (f : Ctx → Ctx) : (s.onCtx n f).agenda = s.agenda := rfl
@[simp] theorem State.onCtx_cur (s : State) (n : Nat) (f : Ctx → Ctx) : (s.onCtx n f).cur = s.cur := rfl
@[simp] theorem State.onCtx_second (s : State) (n : Nat) (f : Ctx → Ctx) : (s.onCtx n f).second = s.second := rfl
@[simp] theorem State.onCtx_turn (s : State) (n : Nat) (f : Ctx → Ctx) : (s.onCtx n f).turn = s.turn := rfl
@[simp] theorem State.onCtx_freeCtr (s : State) (n : Nat) (f : Ctx → Ctx) : (s.onCtx n f).freeCtr = s.freeCtr := rfl
@[simp] theorem State.onCtx_nextId (s : State) (n : Nat) (f : Ctx → Ctx) : (s.onCtx n f).nextId = s.nextId := rfl
@[simp] theorem State.onCtx_cores (s : State) (n : Nat) (f : Ctx → Ctx) : (s.onCtx n f).cores = s.cores := rfl
@[simp] theorem State.onCtx_groups (s : State) (n : Nat) (f : Ctx → Ctx) : (s.onCtx n f).groups = s.groups := rfl
@[simp] theorem State.onCtx_warps (s : State) (n : Nat) (f : Ctx → Ctx) : (s.onCtx n f).warps = s.warps := rfl
@[simp] theorem State.onCtx_waits (s : State) (n : Nat) (f : Ctx → Ctx) : (s.onCtx n f).waits = s.waits := rfl
@[simp] theorem State.onCtx_launches (s : State) (n : Nat) (f : Ctx → Ctx) : (s.onCtx n f).launches = s.launches := rfl
@[simp] theorem State.onCtx_mem (s : State) (n : Nat) (f : Ctx → Ctx) : (s.onCtx n f).mem = s.mem := rfl
@[simp] theorem State.onCtx_secKey (s : State) (n : Nat) (f : Ctx → Ctx) : (s.onCtx n f).secKey = s.secKey := rfl
@[simp] theorem State.onCtx_l2 (s : State) (n : Nat) (f : Ctx → Ctx) : (s.onCtx n f).l2 = s.l2 := rfl
@[simp] theorem State.onCtx_slices (s : State) (n : Nat) (f : Ctx → Ctx) : (s.onCtx n f).slices = s.slices := rfl
@[simp] theorem State.onCtx_tcache (s : State) (n : Nat) (f : Ctx → Ctx) : (s.onCtx n f).tcache = s.tcache := rfl
@[simp] theorem State.onCtx_unscrubbed (s : State) (n : Nat) (f : Ctx → Ctx) :
    (s.onCtx n f).unscrubbed = s.unscrubbed := rfl
@[simp] theorem State.onCtx_txns (s : State) (n : Nat) (f : Ctx → Ctx) : (s.onCtx n f).txns = s.txns := rfl
@[simp] theorem State.onCtx_monitors (s : State) (n : Nat) (f : Ctx → Ctx) : (s.onCtx n f).monitors = s.monitors := rfl
@[simp] theorem State.onCtx_pubTab (s : State) (n : Nat) (f : Ctx → Ctx) : (s.onCtx n f).pubTab = s.pubTab := rfl
@[simp] theorem State.onCtx_epochs (s : State) (n : Nat) (f : Ctx → Ctx) : (s.onCtx n f).epochs = s.epochs := rfl
@[simp] theorem State.onCtx_regions (s : State) (n : Nat) (f : Ctx → Ctx) : (s.onCtx n f).regions = s.regions := rfl
@[simp] theorem State.onCtx_ctxs (s : State) (n : Nat) (f : Ctx → Ctx) : (s.onCtx n f).ctxs = s.ctxs.upd n f := rfl
@[simp] theorem State.onCtx_keys (s : State) (n : Nat) (f : Ctx → Ctx) : (s.onCtx n f).keys = s.keys := rfl
@[simp] theorem State.onCtx_entries (s : State) (n : Nat) (f : Ctx → Ctx) : (s.onCtx n f).entries = s.entries := rfl
@[simp] theorem State.onCtx_counters (s : State) (n : Nat) (f : Ctx → Ctx) : (s.onCtx n f).counters = s.counters := rfl
@[simp] theorem State.onCtx_nslots (s : State) (n : Nat) (f : Ctx → Ctx) : (s.onCtx n f).nslots = s.nslots := rfl
@[simp] theorem State.onCtx_slots (s : State) (n : Nat) (f : Ctx → Ctx) : (s.onCtx n f).slots = s.slots := rfl
@[simp] theorem State.onCtx_evq (s : State) (n : Nat) (f : Ctx → Ctx) : (s.onCtx n f).evq = s.evq := rfl
@[simp] theorem State.onCtx_seqs (s : State) (n : Nat) (f : Ctx → Ctx) : (s.onCtx n f).seqs = s.seqs := rfl
@[simp] theorem State.onCtx_time (s : State) (n : Nat) (f : Ctx → Ctx) : (s.onCtx n f).time = s.time := rfl
@[simp] theorem State.onCtx_estDone (s : State) (n : Nat) (f : Ctx → Ctx) : (s.onCtx n f).estDone = s.estDone := rfl
@[simp] theorem State.onCtx_gcq (s : State) (n : Nat) (f : Ctx → Ctx) : (s.onCtx n f).gcq = s.gcq := rfl
@[simp] theorem State.onCtx_heq (s : State) (n : Nat) (f : Ctx → Ctx) : (s.onCtx n f).heq = s.heq := rfl
@[simp] theorem State.onCtx_cmds (s : State) (n : Nat) (f : Ctx → Ctx) : (s.onCtx n f).cmds = s.cmds := rfl
@[simp] theorem State.onCtx_hostMem (s : State) (n : Nat) (f : Ctx → Ctx) : (s.onCtx n f).hostMem = s.hostMem := rfl
@[simp] theorem State.onCtx_outs (s : State) (n : Nat) (f : Ctx → Ctx) : (s.onCtx n f).outs = s.outs := rfl
@[simp] theorem State.onCtx_parts (s : State) (n : Nat) (f : Ctx → Ctx) : (s.onCtx n f).parts = s.parts := rfl
@[simp] theorem State.onCtx_rails (s : State) (n : Nat) (f : Ctx → Ctx) : (s.onCtx n f).rails = s.rails := rfl
@[simp] theorem State.onCtx_clusterOk (s : State) (n : Nat) (f : Ctx → Ctx) : (s.onCtx n f).clusterOk = s.clusterOk := rfl
@[simp] theorem State.onCtx_spares (s : State) (n : Nat) (f : Ctx → Ctx) : (s.onCtx n f).spares = s.spares := rfl
@[simp] theorem State.onCtx_colSpare (s : State) (n : Nat) (f : Ctx → Ctx) : (s.onCtx n f).colSpare = s.colSpare := rfl
@[simp] theorem State.onCtx_colBad (s : State) (n : Nat) (f : Ctx → Ctx) : (s.onCtx n f).colBad = s.colBad := rfl
@[simp] theorem State.onCtx_units (s : State) (n : Nat) (f : Ctx → Ctx) : (s.onCtx n f).units = s.units := rfl
@[simp] theorem State.onCtx_ticked (s : State) (n : Nat) (f : Ctx → Ctx) : (s.onCtx n f).ticked = s.ticked := rfl
@[simp] theorem State.onCtx_nospare (s : State) (n : Nat) (f : Ctx → Ctx) : (s.onCtx n f).nospare = s.nospare := rfl
@[simp] theorem State.onCtx_calls (s : State) (n : Nat) (f : Ctx → Ctx) : (s.onCtx n f).calls = s.calls := rfl
@[simp] theorem State.onCtx_temps (s : State) (n : Nat) (f : Ctx → Ctx) : (s.onCtx n f).temps = s.temps := rfl
@[simp] theorem State.onCtx_wlog (s : State) (n : Nat) (f : Ctx → Ctx) : (s.onCtx n f).wlog = s.wlog := rfl
@[simp] theorem State.onCtx_wlogNext (s : State) (n : Nat) (f : Ctx → Ctx) : (s.onCtx n f).wlogNext = s.wlogNext := rfl
@[simp] theorem State.onCtx_nvmUnits (s : State) (n : Nat) (f : Ctx → Ctx) : (s.onCtx n f).nvmUnits = s.nvmUnits := rfl
@[simp] theorem State.onCtx_nvmLbr (s : State) (n : Nat) (f : Ctx → Ctx) : (s.onCtx n f).nvmLbr = s.nvmLbr := rfl
@[simp] theorem State.onCtx_nvmAt (s : State) (n : Nat) (f : Ctx → Ctx) : (s.onCtx n f).nvmAt = s.nvmAt := rfl
@[simp] theorem State.onCtx_transport (s : State) (n : Nat) (f : Ctx → Ctx) : (s.onCtx n f).transport = s.transport := rfl
@[simp] theorem State.onCtx_links (s : State) (n : Nat) (f : Ctx → Ctx) : (s.onCtx n f).links = s.links := rfl
@[simp] theorem State.onCtx_warm (s : State) (n : Nat) (f : Ctx → Ctx) : (s.onCtx n f).warm = s.warm := rfl
@[simp] theorem State.onCtx_dead (s : State) (n : Nat) (f : Ctx → Ctx) : (s.onCtx n f).dead = s.dead := rfl
@[simp] theorem State.onCtx_portDown (s : State) (n : Nat) (f : Ctx → Ctx) : (s.onCtx n f).portDown = s.portDown := rfl
@[simp] theorem State.onCtx_portMark (s : State) (n : Nat) (f : Ctx → Ctx) : (s.onCtx n f).portMark = s.portMark := rfl
@[simp] theorem State.onCtx_peerSeq (s : State) (n : Nat) (f : Ctx → Ctx) : (s.onCtx n f).peerSeq = s.peerSeq := rfl
@[simp] theorem State.onCtx_farSeen (s : State) (n : Nat) (f : Ctx → Ctx) : (s.onCtx n f).farSeen = s.farSeen := rfl
@[simp] theorem State.onCtx_derates (s : State) (n : Nat) (f : Ctx → Ctx) : (s.onCtx n f).derates = s.derates := rfl
@[simp] theorem State.onCtx_zones (s : State) (n : Nat) (f : Ctx → Ctx) : (s.onCtx n f).zones = s.zones := rfl
@[simp] theorem State.onCtx_power (s : State) (n : Nat) (f : Ctx → Ctx) : (s.onCtx n f).power = s.power := rfl
@[simp] theorem State.onCtx_spdm (s : State) (n : Nat) (f : Ctx → Ctx) : (s.onCtx n f).spdm = s.spdm := rfl
@[simp] theorem State.onCtx_ide (s : State) (n : Nat) (f : Ctx → Ctx) : (s.onCtx n f).ide = s.ide := rfl
@[simp] theorem State.onCtx_images (s : State) (n : Nat) (f : Ctx → Ctx) : (s.onCtx n f).images = s.images := rfl
@[simp] theorem State.onCtx_tested (s : State) (n : Nat) (f : Ctx → Ctx) : (s.onCtx n f).tested = s.tested := rfl
@[simp] theorem State.onCtx_meas (s : State) (n : Nat) (f : Ctx → Ctx) : (s.onCtx n f).meas = s.meas := rfl
@[simp] theorem State.onCtx_measured (s : State) (n : Nat) (f : Ctx → Ctx) : (s.onCtx n f).measured = s.measured := rfl
@[simp] theorem State.onCtx_rr (s : State) (n : Nat) (f : Ctx → Ctx) : (s.onCtx n f).rr = s.rr := rfl
@[simp] theorem State.onCtx_asks (s : State) (n : Nat) (f : Ctx → Ctx) : (s.onCtx n f).asks = s.asks := rfl
@[simp] theorem State.onCtx_late (s : State) (n : Nat) (f : Ctx → Ctx) : (s.onCtx n f).late = s.late := rfl
@[simp] theorem State.onCtx_mbox (s : State) (n : Nat) (f : Ctx → Ctx) : (s.onCtx n f).mbox = s.mbox := rfl
@[simp] theorem State.onCtx_mbRun (s : State) (n : Nat) (f : Ctx → Ctx) : (s.onCtx n f).mbRun = s.mbRun := rfl
@[simp] theorem State.onCtx_farq (s : State) (n : Nat) (f : Ctx → Ctx) : (s.onCtx n f).farq = s.farq := rfl
@[simp] theorem State.onCtx_hseqs (s : State) (n : Nat) (f : Ctx → Ctx) : (s.onCtx n f).hseqs = s.hseqs := rfl

/-! ### The lanes of a set -/

@[simp] theorem State.onLanes_agenda (s : State) (w : Nat) (m : Mask) (f : Nat → Lane → Lane) :
    (s.onLanes w m f).agenda = s.agenda := rfl
@[simp] theorem State.onLanes_cur (s : State) (w : Nat) (m : Mask) (f : Nat → Lane → Lane) :
    (s.onLanes w m f).cur = s.cur := rfl
@[simp] theorem State.onLanes_second (s : State) (w : Nat) (m : Mask) (f : Nat → Lane → Lane) :
    (s.onLanes w m f).second = s.second := rfl
@[simp] theorem State.onLanes_turn (s : State) (w : Nat) (m : Mask) (f : Nat → Lane → Lane) :
    (s.onLanes w m f).turn = s.turn := rfl
@[simp] theorem State.onLanes_freeCtr (s : State) (w : Nat) (m : Mask) (f : Nat → Lane → Lane) :
    (s.onLanes w m f).freeCtr = s.freeCtr := rfl
@[simp] theorem State.onLanes_nextId (s : State) (w : Nat) (m : Mask) (f : Nat → Lane → Lane) :
    (s.onLanes w m f).nextId = s.nextId := rfl
@[simp] theorem State.onLanes_cores (s : State) (w : Nat) (m : Mask) (f : Nat → Lane → Lane) :
    (s.onLanes w m f).cores = s.cores := rfl
@[simp] theorem State.onLanes_groups (s : State) (w : Nat) (m : Mask) (f : Nat → Lane → Lane) :
    (s.onLanes w m f).groups = s.groups := rfl
@[simp] theorem State.onLanes_warps (s : State) (w : Nat) (m : Mask) (f : Nat → Lane → Lane) :
    (s.onLanes w m f).warps = s.warps.upd w fun wp => wp.onLanes m f := rfl
@[simp] theorem State.onLanes_waits (s : State) (w : Nat) (m : Mask) (f : Nat → Lane → Lane) :
    (s.onLanes w m f).waits = s.waits := rfl
@[simp] theorem State.onLanes_launches (s : State) (w : Nat) (m : Mask) (f : Nat → Lane → Lane) :
    (s.onLanes w m f).launches = s.launches := rfl
@[simp] theorem State.onLanes_mem (s : State) (w : Nat) (m : Mask) (f : Nat → Lane → Lane) :
    (s.onLanes w m f).mem = s.mem := rfl
@[simp] theorem State.onLanes_secKey (s : State) (w : Nat) (m : Mask) (f : Nat → Lane → Lane) :
    (s.onLanes w m f).secKey = s.secKey := rfl
@[simp] theorem State.onLanes_l2 (s : State) (w : Nat) (m : Mask) (f : Nat → Lane → Lane) :
    (s.onLanes w m f).l2 = s.l2 := rfl
@[simp] theorem State.onLanes_slices (s : State) (w : Nat) (m : Mask) (f : Nat → Lane → Lane) :
    (s.onLanes w m f).slices = s.slices := rfl
@[simp] theorem State.onLanes_tcache (s : State) (w : Nat) (m : Mask) (f : Nat → Lane → Lane) :
    (s.onLanes w m f).tcache = s.tcache := rfl
@[simp] theorem State.onLanes_unscrubbed (s : State) (w : Nat) (m : Mask) (f : Nat → Lane → Lane) :
    (s.onLanes w m f).unscrubbed = s.unscrubbed := rfl
@[simp] theorem State.onLanes_txns (s : State) (w : Nat) (m : Mask) (f : Nat → Lane → Lane) :
    (s.onLanes w m f).txns = s.txns := rfl
@[simp] theorem State.onLanes_monitors (s : State) (w : Nat) (m : Mask) (f : Nat → Lane → Lane) :
    (s.onLanes w m f).monitors = s.monitors := rfl
@[simp] theorem State.onLanes_pubTab (s : State) (w : Nat) (m : Mask) (f : Nat → Lane → Lane) :
    (s.onLanes w m f).pubTab = s.pubTab := rfl
@[simp] theorem State.onLanes_epochs (s : State) (w : Nat) (m : Mask) (f : Nat → Lane → Lane) :
    (s.onLanes w m f).epochs = s.epochs := rfl
@[simp] theorem State.onLanes_regions (s : State) (w : Nat) (m : Mask) (f : Nat → Lane → Lane) :
    (s.onLanes w m f).regions = s.regions := rfl
@[simp] theorem State.onLanes_ctxs (s : State) (w : Nat) (m : Mask) (f : Nat → Lane → Lane) :
    (s.onLanes w m f).ctxs = s.ctxs := rfl
@[simp] theorem State.onLanes_keys (s : State) (w : Nat) (m : Mask) (f : Nat → Lane → Lane) :
    (s.onLanes w m f).keys = s.keys := rfl
@[simp] theorem State.onLanes_entries (s : State) (w : Nat) (m : Mask) (f : Nat → Lane → Lane) :
    (s.onLanes w m f).entries = s.entries := rfl
@[simp] theorem State.onLanes_counters (s : State) (w : Nat) (m : Mask) (f : Nat → Lane → Lane) :
    (s.onLanes w m f).counters = s.counters := rfl
@[simp] theorem State.onLanes_nslots (s : State) (w : Nat) (m : Mask) (f : Nat → Lane → Lane) :
    (s.onLanes w m f).nslots = s.nslots := rfl
@[simp] theorem State.onLanes_slots (s : State) (w : Nat) (m : Mask) (f : Nat → Lane → Lane) :
    (s.onLanes w m f).slots = s.slots := rfl
@[simp] theorem State.onLanes_evq (s : State) (w : Nat) (m : Mask) (f : Nat → Lane → Lane) :
    (s.onLanes w m f).evq = s.evq := rfl
@[simp] theorem State.onLanes_seqs (s : State) (w : Nat) (m : Mask) (f : Nat → Lane → Lane) :
    (s.onLanes w m f).seqs = s.seqs := rfl
@[simp] theorem State.onLanes_time (s : State) (w : Nat) (m : Mask) (f : Nat → Lane → Lane) :
    (s.onLanes w m f).time = s.time := rfl
@[simp] theorem State.onLanes_estDone (s : State) (w : Nat) (m : Mask) (f : Nat → Lane → Lane) :
    (s.onLanes w m f).estDone = s.estDone := rfl
@[simp] theorem State.onLanes_gcq (s : State) (w : Nat) (m : Mask) (f : Nat → Lane → Lane) :
    (s.onLanes w m f).gcq = s.gcq := rfl
@[simp] theorem State.onLanes_heq (s : State) (w : Nat) (m : Mask) (f : Nat → Lane → Lane) :
    (s.onLanes w m f).heq = s.heq := rfl
@[simp] theorem State.onLanes_cmds (s : State) (w : Nat) (m : Mask) (f : Nat → Lane → Lane) :
    (s.onLanes w m f).cmds = s.cmds := rfl
@[simp] theorem State.onLanes_hostMem (s : State) (w : Nat) (m : Mask) (f : Nat → Lane → Lane) :
    (s.onLanes w m f).hostMem = s.hostMem := rfl
@[simp] theorem State.onLanes_outs (s : State) (w : Nat) (m : Mask) (f : Nat → Lane → Lane) :
    (s.onLanes w m f).outs = s.outs := rfl
@[simp] theorem State.onLanes_parts (s : State) (w : Nat) (m : Mask) (f : Nat → Lane → Lane) :
    (s.onLanes w m f).parts = s.parts := rfl
@[simp] theorem State.onLanes_rails (s : State) (w : Nat) (m : Mask) (f : Nat → Lane → Lane) :
    (s.onLanes w m f).rails = s.rails := rfl
@[simp] theorem State.onLanes_clusterOk (s : State) (w : Nat) (m : Mask) (f : Nat → Lane → Lane) :
    (s.onLanes w m f).clusterOk = s.clusterOk := rfl
@[simp] theorem State.onLanes_spares (s : State) (w : Nat) (m : Mask) (f : Nat → Lane → Lane) :
    (s.onLanes w m f).spares = s.spares := rfl
@[simp] theorem State.onLanes_colSpare (s : State) (w : Nat) (m : Mask) (f : Nat → Lane → Lane) :
    (s.onLanes w m f).colSpare = s.colSpare := rfl
@[simp] theorem State.onLanes_colBad (s : State) (w : Nat) (m : Mask) (f : Nat → Lane → Lane) :
    (s.onLanes w m f).colBad = s.colBad := rfl
@[simp] theorem State.onLanes_units (s : State) (w : Nat) (m : Mask) (f : Nat → Lane → Lane) :
    (s.onLanes w m f).units = s.units := rfl
@[simp] theorem State.onLanes_ticked (s : State) (w : Nat) (m : Mask) (f : Nat → Lane → Lane) :
    (s.onLanes w m f).ticked = s.ticked := rfl
@[simp] theorem State.onLanes_nospare (s : State) (w : Nat) (m : Mask) (f : Nat → Lane → Lane) :
    (s.onLanes w m f).nospare = s.nospare := rfl
@[simp] theorem State.onLanes_calls (s : State) (w : Nat) (m : Mask) (f : Nat → Lane → Lane) :
    (s.onLanes w m f).calls = s.calls := rfl
@[simp] theorem State.onLanes_temps (s : State) (w : Nat) (m : Mask) (f : Nat → Lane → Lane) :
    (s.onLanes w m f).temps = s.temps := rfl
@[simp] theorem State.onLanes_wlog (s : State) (w : Nat) (m : Mask) (f : Nat → Lane → Lane) :
    (s.onLanes w m f).wlog = s.wlog := rfl
@[simp] theorem State.onLanes_wlogNext (s : State) (w : Nat) (m : Mask) (f : Nat → Lane → Lane) :
    (s.onLanes w m f).wlogNext = s.wlogNext := rfl
@[simp] theorem State.onLanes_nvmUnits (s : State) (w : Nat) (m : Mask) (f : Nat → Lane → Lane) :
    (s.onLanes w m f).nvmUnits = s.nvmUnits := rfl
@[simp] theorem State.onLanes_nvmLbr (s : State) (w : Nat) (m : Mask) (f : Nat → Lane → Lane) :
    (s.onLanes w m f).nvmLbr = s.nvmLbr := rfl
@[simp] theorem State.onLanes_nvmAt (s : State) (w : Nat) (m : Mask) (f : Nat → Lane → Lane) :
    (s.onLanes w m f).nvmAt = s.nvmAt := rfl
@[simp] theorem State.onLanes_transport (s : State) (w : Nat) (m : Mask) (f : Nat → Lane → Lane) :
    (s.onLanes w m f).transport = s.transport := rfl
@[simp] theorem State.onLanes_links (s : State) (w : Nat) (m : Mask) (f : Nat → Lane → Lane) :
    (s.onLanes w m f).links = s.links := rfl
@[simp] theorem State.onLanes_warm (s : State) (w : Nat) (m : Mask) (f : Nat → Lane → Lane) :
    (s.onLanes w m f).warm = s.warm := rfl
@[simp] theorem State.onLanes_dead (s : State) (w : Nat) (m : Mask) (f : Nat → Lane → Lane) :
    (s.onLanes w m f).dead = s.dead := rfl
@[simp] theorem State.onLanes_portDown (s : State) (w : Nat) (m : Mask) (f : Nat → Lane → Lane) :
    (s.onLanes w m f).portDown = s.portDown := rfl
@[simp] theorem State.onLanes_portMark (s : State) (w : Nat) (m : Mask) (f : Nat → Lane → Lane) :
    (s.onLanes w m f).portMark = s.portMark := rfl
@[simp] theorem State.onLanes_peerSeq (s : State) (w : Nat) (m : Mask) (f : Nat → Lane → Lane) :
    (s.onLanes w m f).peerSeq = s.peerSeq := rfl
@[simp] theorem State.onLanes_farSeen (s : State) (w : Nat) (m : Mask) (f : Nat → Lane → Lane) :
    (s.onLanes w m f).farSeen = s.farSeen := rfl
@[simp] theorem State.onLanes_derates (s : State) (w : Nat) (m : Mask) (f : Nat → Lane → Lane) :
    (s.onLanes w m f).derates = s.derates := rfl
@[simp] theorem State.onLanes_zones (s : State) (w : Nat) (m : Mask) (f : Nat → Lane → Lane) :
    (s.onLanes w m f).zones = s.zones := rfl
@[simp] theorem State.onLanes_power (s : State) (w : Nat) (m : Mask) (f : Nat → Lane → Lane) :
    (s.onLanes w m f).power = s.power := rfl
@[simp] theorem State.onLanes_spdm (s : State) (w : Nat) (m : Mask) (f : Nat → Lane → Lane) :
    (s.onLanes w m f).spdm = s.spdm := rfl
@[simp] theorem State.onLanes_ide (s : State) (w : Nat) (m : Mask) (f : Nat → Lane → Lane) :
    (s.onLanes w m f).ide = s.ide := rfl
@[simp] theorem State.onLanes_images (s : State) (w : Nat) (m : Mask) (f : Nat → Lane → Lane) :
    (s.onLanes w m f).images = s.images := rfl
@[simp] theorem State.onLanes_tested (s : State) (w : Nat) (m : Mask) (f : Nat → Lane → Lane) :
    (s.onLanes w m f).tested = s.tested := rfl
@[simp] theorem State.onLanes_meas (s : State) (w : Nat) (m : Mask) (f : Nat → Lane → Lane) :
    (s.onLanes w m f).meas = s.meas := rfl
@[simp] theorem State.onLanes_measured (s : State) (w : Nat) (m : Mask) (f : Nat → Lane → Lane) :
    (s.onLanes w m f).measured = s.measured := rfl
@[simp] theorem State.onLanes_rr (s : State) (w : Nat) (m : Mask) (f : Nat → Lane → Lane) :
    (s.onLanes w m f).rr = s.rr := rfl
@[simp] theorem State.onLanes_asks (s : State) (w : Nat) (m : Mask) (f : Nat → Lane → Lane) :
    (s.onLanes w m f).asks = s.asks := rfl
@[simp] theorem State.onLanes_late (s : State) (w : Nat) (m : Mask) (f : Nat → Lane → Lane) :
    (s.onLanes w m f).late = s.late := rfl
@[simp] theorem State.onLanes_mbox (s : State) (w : Nat) (m : Mask) (f : Nat → Lane → Lane) :
    (s.onLanes w m f).mbox = s.mbox := rfl
@[simp] theorem State.onLanes_mbRun (s : State) (w : Nat) (m : Mask) (f : Nat → Lane → Lane) :
    (s.onLanes w m f).mbRun = s.mbRun := rfl
@[simp] theorem State.onLanes_farq (s : State) (w : Nat) (m : Mask) (f : Nat → Lane → Lane) :
    (s.onLanes w m f).farq = s.farq := rfl
@[simp] theorem State.onLanes_hseqs (s : State) (w : Nat) (m : Mask) (f : Nat → Lane → Lane) :
    (s.onLanes w m f).hseqs = s.hseqs := rfl

/-! ### The free values of a step -/

@[simp] theorem State.used_agenda (s : State) : (s.used).agenda = s.agenda := rfl
@[simp] theorem State.used_cur (s : State) : (s.used).cur = s.cur := rfl
@[simp] theorem State.used_second (s : State) : (s.used).second = s.second := rfl
@[simp] theorem State.used_turn (s : State) : (s.used).turn = s.turn := rfl
@[simp] theorem State.used_freeCtr (s : State) : (s.used).freeCtr = s.freeCtr + 1 := rfl
@[simp] theorem State.used_nextId (s : State) : (s.used).nextId = s.nextId := rfl
@[simp] theorem State.used_cores (s : State) : (s.used).cores = s.cores := rfl
@[simp] theorem State.used_groups (s : State) : (s.used).groups = s.groups := rfl
@[simp] theorem State.used_warps (s : State) : (s.used).warps = s.warps := rfl
@[simp] theorem State.used_waits (s : State) : (s.used).waits = s.waits := rfl
@[simp] theorem State.used_launches (s : State) : (s.used).launches = s.launches := rfl
@[simp] theorem State.used_mem (s : State) : (s.used).mem = s.mem := rfl
@[simp] theorem State.used_secKey (s : State) : (s.used).secKey = s.secKey := rfl
@[simp] theorem State.used_l2 (s : State) : (s.used).l2 = s.l2 := rfl
@[simp] theorem State.used_slices (s : State) : (s.used).slices = s.slices := rfl
@[simp] theorem State.used_tcache (s : State) : (s.used).tcache = s.tcache := rfl
@[simp] theorem State.used_unscrubbed (s : State) : (s.used).unscrubbed = s.unscrubbed := rfl
@[simp] theorem State.used_txns (s : State) : (s.used).txns = s.txns := rfl
@[simp] theorem State.used_monitors (s : State) : (s.used).monitors = s.monitors := rfl
@[simp] theorem State.used_pubTab (s : State) : (s.used).pubTab = s.pubTab := rfl
@[simp] theorem State.used_epochs (s : State) : (s.used).epochs = s.epochs := rfl
@[simp] theorem State.used_regions (s : State) : (s.used).regions = s.regions := rfl
@[simp] theorem State.used_ctxs (s : State) : (s.used).ctxs = s.ctxs := rfl
@[simp] theorem State.used_keys (s : State) : (s.used).keys = s.keys := rfl
@[simp] theorem State.used_entries (s : State) : (s.used).entries = s.entries := rfl
@[simp] theorem State.used_counters (s : State) : (s.used).counters = s.counters := rfl
@[simp] theorem State.used_nslots (s : State) : (s.used).nslots = s.nslots := rfl
@[simp] theorem State.used_slots (s : State) : (s.used).slots = s.slots := rfl
@[simp] theorem State.used_evq (s : State) : (s.used).evq = s.evq := rfl
@[simp] theorem State.used_seqs (s : State) : (s.used).seqs = s.seqs := rfl
@[simp] theorem State.used_time (s : State) : (s.used).time = s.time := rfl
@[simp] theorem State.used_estDone (s : State) : (s.used).estDone = s.estDone := rfl
@[simp] theorem State.used_gcq (s : State) : (s.used).gcq = s.gcq := rfl
@[simp] theorem State.used_heq (s : State) : (s.used).heq = s.heq := rfl
@[simp] theorem State.used_cmds (s : State) : (s.used).cmds = s.cmds := rfl
@[simp] theorem State.used_hostMem (s : State) : (s.used).hostMem = s.hostMem := rfl
@[simp] theorem State.used_outs (s : State) : (s.used).outs = s.outs := rfl
@[simp] theorem State.used_parts (s : State) : (s.used).parts = s.parts := rfl
@[simp] theorem State.used_rails (s : State) : (s.used).rails = s.rails := rfl
@[simp] theorem State.used_clusterOk (s : State) : (s.used).clusterOk = s.clusterOk := rfl
@[simp] theorem State.used_spares (s : State) : (s.used).spares = s.spares := rfl
@[simp] theorem State.used_colSpare (s : State) : (s.used).colSpare = s.colSpare := rfl
@[simp] theorem State.used_colBad (s : State) : (s.used).colBad = s.colBad := rfl
@[simp] theorem State.used_units (s : State) : (s.used).units = s.units := rfl
@[simp] theorem State.used_ticked (s : State) : (s.used).ticked = s.ticked := rfl
@[simp] theorem State.used_nospare (s : State) : (s.used).nospare = s.nospare := rfl
@[simp] theorem State.used_calls (s : State) : (s.used).calls = s.calls := rfl
@[simp] theorem State.used_temps (s : State) : (s.used).temps = s.temps := rfl
@[simp] theorem State.used_wlog (s : State) : (s.used).wlog = s.wlog := rfl
@[simp] theorem State.used_wlogNext (s : State) : (s.used).wlogNext = s.wlogNext := rfl
@[simp] theorem State.used_nvmUnits (s : State) : (s.used).nvmUnits = s.nvmUnits := rfl
@[simp] theorem State.used_nvmLbr (s : State) : (s.used).nvmLbr = s.nvmLbr := rfl
@[simp] theorem State.used_nvmAt (s : State) : (s.used).nvmAt = s.nvmAt := rfl
@[simp] theorem State.used_transport (s : State) : (s.used).transport = s.transport := rfl
@[simp] theorem State.used_links (s : State) : (s.used).links = s.links := rfl
@[simp] theorem State.used_warm (s : State) : (s.used).warm = s.warm := rfl
@[simp] theorem State.used_dead (s : State) : (s.used).dead = s.dead := rfl
@[simp] theorem State.used_portDown (s : State) : (s.used).portDown = s.portDown := rfl
@[simp] theorem State.used_portMark (s : State) : (s.used).portMark = s.portMark := rfl
@[simp] theorem State.used_peerSeq (s : State) : (s.used).peerSeq = s.peerSeq := rfl
@[simp] theorem State.used_farSeen (s : State) : (s.used).farSeen = s.farSeen := rfl
@[simp] theorem State.used_derates (s : State) : (s.used).derates = s.derates := rfl
@[simp] theorem State.used_zones (s : State) : (s.used).zones = s.zones := rfl
@[simp] theorem State.used_power (s : State) : (s.used).power = s.power := rfl
@[simp] theorem State.used_spdm (s : State) : (s.used).spdm = s.spdm := rfl
@[simp] theorem State.used_ide (s : State) : (s.used).ide = s.ide := rfl
@[simp] theorem State.used_images (s : State) : (s.used).images = s.images := rfl
@[simp] theorem State.used_tested (s : State) : (s.used).tested = s.tested := rfl
@[simp] theorem State.used_meas (s : State) : (s.used).meas = s.meas := rfl
@[simp] theorem State.used_measured (s : State) : (s.used).measured = s.measured := rfl
@[simp] theorem State.used_rr (s : State) : (s.used).rr = s.rr := rfl
@[simp] theorem State.used_asks (s : State) : (s.used).asks = s.asks := rfl
@[simp] theorem State.used_late (s : State) : (s.used).late = s.late := rfl
@[simp] theorem State.used_mbox (s : State) : (s.used).mbox = s.mbox := rfl
@[simp] theorem State.used_mbRun (s : State) : (s.used).mbRun = s.mbRun := rfl
@[simp] theorem State.used_farq (s : State) : (s.used).farq = s.farq := rfl
@[simp] theorem State.used_hseqs (s : State) : (s.used).hseqs = s.hseqs := rfl

/-! ### The next identity -/

@[simp] theorem State.newId_snd_agenda (s : State) : (s.newId.2).agenda = s.agenda := rfl
@[simp] theorem State.newId_snd_cur (s : State) : (s.newId.2).cur = s.cur := rfl
@[simp] theorem State.newId_snd_second (s : State) : (s.newId.2).second = s.second := rfl
@[simp] theorem State.newId_snd_turn (s : State) : (s.newId.2).turn = s.turn := rfl
@[simp] theorem State.newId_snd_freeCtr (s : State) : (s.newId.2).freeCtr = s.freeCtr := rfl
@[simp] theorem State.newId_snd_nextId (s : State) : (s.newId.2).nextId = s.nextId + 1 := rfl
@[simp] theorem State.newId_snd_cores (s : State) : (s.newId.2).cores = s.cores := rfl
@[simp] theorem State.newId_snd_groups (s : State) : (s.newId.2).groups = s.groups := rfl
@[simp] theorem State.newId_snd_warps (s : State) : (s.newId.2).warps = s.warps := rfl
@[simp] theorem State.newId_snd_waits (s : State) : (s.newId.2).waits = s.waits := rfl
@[simp] theorem State.newId_snd_launches (s : State) : (s.newId.2).launches = s.launches := rfl
@[simp] theorem State.newId_snd_mem (s : State) : (s.newId.2).mem = s.mem := rfl
@[simp] theorem State.newId_snd_secKey (s : State) : (s.newId.2).secKey = s.secKey := rfl
@[simp] theorem State.newId_snd_l2 (s : State) : (s.newId.2).l2 = s.l2 := rfl
@[simp] theorem State.newId_snd_slices (s : State) : (s.newId.2).slices = s.slices := rfl
@[simp] theorem State.newId_snd_tcache (s : State) : (s.newId.2).tcache = s.tcache := rfl
@[simp] theorem State.newId_snd_unscrubbed (s : State) : (s.newId.2).unscrubbed = s.unscrubbed := rfl
@[simp] theorem State.newId_snd_txns (s : State) : (s.newId.2).txns = s.txns := rfl
@[simp] theorem State.newId_snd_monitors (s : State) : (s.newId.2).monitors = s.monitors := rfl
@[simp] theorem State.newId_snd_pubTab (s : State) : (s.newId.2).pubTab = s.pubTab := rfl
@[simp] theorem State.newId_snd_epochs (s : State) : (s.newId.2).epochs = s.epochs := rfl
@[simp] theorem State.newId_snd_regions (s : State) : (s.newId.2).regions = s.regions := rfl
@[simp] theorem State.newId_snd_ctxs (s : State) : (s.newId.2).ctxs = s.ctxs := rfl
@[simp] theorem State.newId_snd_keys (s : State) : (s.newId.2).keys = s.keys := rfl
@[simp] theorem State.newId_snd_entries (s : State) : (s.newId.2).entries = s.entries := rfl
@[simp] theorem State.newId_snd_counters (s : State) : (s.newId.2).counters = s.counters := rfl
@[simp] theorem State.newId_snd_nslots (s : State) : (s.newId.2).nslots = s.nslots := rfl
@[simp] theorem State.newId_snd_slots (s : State) : (s.newId.2).slots = s.slots := rfl
@[simp] theorem State.newId_snd_evq (s : State) : (s.newId.2).evq = s.evq := rfl
@[simp] theorem State.newId_snd_seqs (s : State) : (s.newId.2).seqs = s.seqs := rfl
@[simp] theorem State.newId_snd_time (s : State) : (s.newId.2).time = s.time := rfl
@[simp] theorem State.newId_snd_estDone (s : State) : (s.newId.2).estDone = s.estDone := rfl
@[simp] theorem State.newId_snd_gcq (s : State) : (s.newId.2).gcq = s.gcq := rfl
@[simp] theorem State.newId_snd_heq (s : State) : (s.newId.2).heq = s.heq := rfl
@[simp] theorem State.newId_snd_cmds (s : State) : (s.newId.2).cmds = s.cmds := rfl
@[simp] theorem State.newId_snd_hostMem (s : State) : (s.newId.2).hostMem = s.hostMem := rfl
@[simp] theorem State.newId_snd_outs (s : State) : (s.newId.2).outs = s.outs := rfl
@[simp] theorem State.newId_snd_parts (s : State) : (s.newId.2).parts = s.parts := rfl
@[simp] theorem State.newId_snd_rails (s : State) : (s.newId.2).rails = s.rails := rfl
@[simp] theorem State.newId_snd_clusterOk (s : State) : (s.newId.2).clusterOk = s.clusterOk := rfl
@[simp] theorem State.newId_snd_spares (s : State) : (s.newId.2).spares = s.spares := rfl
@[simp] theorem State.newId_snd_colSpare (s : State) : (s.newId.2).colSpare = s.colSpare := rfl
@[simp] theorem State.newId_snd_colBad (s : State) : (s.newId.2).colBad = s.colBad := rfl
@[simp] theorem State.newId_snd_units (s : State) : (s.newId.2).units = s.units := rfl
@[simp] theorem State.newId_snd_ticked (s : State) : (s.newId.2).ticked = s.ticked := rfl
@[simp] theorem State.newId_snd_nospare (s : State) : (s.newId.2).nospare = s.nospare := rfl
@[simp] theorem State.newId_snd_calls (s : State) : (s.newId.2).calls = s.calls := rfl
@[simp] theorem State.newId_snd_temps (s : State) : (s.newId.2).temps = s.temps := rfl
@[simp] theorem State.newId_snd_wlog (s : State) : (s.newId.2).wlog = s.wlog := rfl
@[simp] theorem State.newId_snd_wlogNext (s : State) : (s.newId.2).wlogNext = s.wlogNext := rfl
@[simp] theorem State.newId_snd_nvmUnits (s : State) : (s.newId.2).nvmUnits = s.nvmUnits := rfl
@[simp] theorem State.newId_snd_nvmLbr (s : State) : (s.newId.2).nvmLbr = s.nvmLbr := rfl
@[simp] theorem State.newId_snd_nvmAt (s : State) : (s.newId.2).nvmAt = s.nvmAt := rfl
@[simp] theorem State.newId_snd_transport (s : State) : (s.newId.2).transport = s.transport := rfl
@[simp] theorem State.newId_snd_links (s : State) : (s.newId.2).links = s.links := rfl
@[simp] theorem State.newId_snd_warm (s : State) : (s.newId.2).warm = s.warm := rfl
@[simp] theorem State.newId_snd_dead (s : State) : (s.newId.2).dead = s.dead := rfl
@[simp] theorem State.newId_snd_portDown (s : State) : (s.newId.2).portDown = s.portDown := rfl
@[simp] theorem State.newId_snd_portMark (s : State) : (s.newId.2).portMark = s.portMark := rfl
@[simp] theorem State.newId_snd_peerSeq (s : State) : (s.newId.2).peerSeq = s.peerSeq := rfl
@[simp] theorem State.newId_snd_farSeen (s : State) : (s.newId.2).farSeen = s.farSeen := rfl
@[simp] theorem State.newId_snd_derates (s : State) : (s.newId.2).derates = s.derates := rfl
@[simp] theorem State.newId_snd_zones (s : State) : (s.newId.2).zones = s.zones := rfl
@[simp] theorem State.newId_snd_power (s : State) : (s.newId.2).power = s.power := rfl
@[simp] theorem State.newId_snd_spdm (s : State) : (s.newId.2).spdm = s.spdm := rfl
@[simp] theorem State.newId_snd_ide (s : State) : (s.newId.2).ide = s.ide := rfl
@[simp] theorem State.newId_snd_images (s : State) : (s.newId.2).images = s.images := rfl
@[simp] theorem State.newId_snd_tested (s : State) : (s.newId.2).tested = s.tested := rfl
@[simp] theorem State.newId_snd_meas (s : State) : (s.newId.2).meas = s.meas := rfl
@[simp] theorem State.newId_snd_measured (s : State) : (s.newId.2).measured = s.measured := rfl
@[simp] theorem State.newId_snd_rr (s : State) : (s.newId.2).rr = s.rr := rfl
@[simp] theorem State.newId_snd_asks (s : State) : (s.newId.2).asks = s.asks := rfl
@[simp] theorem State.newId_snd_late (s : State) : (s.newId.2).late = s.late := rfl
@[simp] theorem State.newId_snd_mbox (s : State) : (s.newId.2).mbox = s.mbox := rfl
@[simp] theorem State.newId_snd_mbRun (s : State) : (s.newId.2).mbRun = s.mbRun := rfl
@[simp] theorem State.newId_snd_farq (s : State) : (s.newId.2).farq = s.farq := rfl
@[simp] theorem State.newId_snd_hseqs (s : State) : (s.newId.2).hseqs = s.hseqs := rfl

/-! ### A lane register -/

@[simp] theorem Lane.setV_v (ln : Lane) (i : Nat) (x : Word) : (ln.setV i x).v = ln.v.setD i x 0 := rfl
@[simp] theorem Lane.setV_haz (ln : Lane) (i : Nat) (x : Word) : (ln.setV i x).haz = ln.haz := rfl
@[simp] theorem Lane.setV_g (ln : Lane) (i : Nat) (x : Word) : (ln.setV i x).g = ln.g := rfl
@[simp] theorem Lane.setV_pc (ln : Lane) (i : Nat) (x : Word) : (ln.setV i x).pc = ln.pc := rfl
@[simp] theorem Lane.setV_mr (ln : Lane) (i : Nat) (x : Word) : (ln.setV i x).mr = ln.mr := rfl
@[simp] theorem Lane.setV_hs (ln : Lane) (i : Nat) (x : Word) : (ln.setV i x).hs = ln.hs := rfl
@[simp] theorem Lane.setV_epc (ln : Lane) (i : Nat) (x : Word) : (ln.setV i x).epc = ln.epc := rfl
@[simp] theorem Lane.setV_emr (ln : Lane) (i : Nat) (x : Word) : (ln.setV i x).emr = ln.emr := rfl
@[simp] theorem Lane.setV_rng (ln : Lane) (i : Nat) (x : Word) : (ln.setV i x).rng = ln.rng := rfl
@[simp] theorem Lane.setV_exited (ln : Lane) (i : Nat) (x : Word) : (ln.setV i x).exited = ln.exited := rfl
@[simp] theorem Lane.setV_frames (ln : Lane) (i : Nat) (x : Word) : (ln.setV i x).frames = ln.frames := rfl
@[simp] theorem Lane.setV_base (ln : Lane) (i : Nat) (x : Word) : (ln.setV i x).base = ln.base := rfl
@[simp] theorem Lane.setV_task (ln : Lane) (i : Nat) (x : Word) : (ln.setV i x).task = ln.task := rfl
@[simp] theorem Lane.setV_conts (ln : Lane) (i : Nat) (x : Word) : (ln.setV i x).conts = ln.conts := rfl
@[simp] theorem Lane.setV_barUntil (ln : Lane) (i : Nat) (x : Word) : (ln.setV i x).barUntil = ln.barUntil := rfl
@[simp] theorem Lane.setV_starve (ln : Lane) (i : Nat) (x : Word) : (ln.setV i x).starve = ln.starve := rfl
@[simp] theorem Lane.setV_wait (ln : Lane) (i : Nat) (x : Word) : (ln.setV i x).wait = ln.wait := rfl
@[simp] theorem Lane.setV_since (ln : Lane) (i : Nat) (x : Word) : (ln.setV i x).since = ln.since := rfl
@[simp] theorem Lane.setV_helped (ln : Lane) (i : Nat) (x : Word) : (ln.setV i x).helped = ln.helped := rfl
@[simp] theorem Lane.setV_ending (ln : Lane) (i : Nat) (x : Word) : (ln.setV i x).ending = ln.ending := rfl
@[simp] theorem Lane.setV_ra (ln : Lane) (i : Nat) (x : Word) : (ln.setV i x).ra = ln.ra := rfl
@[simp] theorem Lane.setV_rb (ln : Lane) (i : Nat) (x : Word) : (ln.setV i x).rb = ln.rb := rfl

/-! ### A uniform register -/

@[simp] theorem Warp.setK_gid (w : Warp) (i : Nat) (x : Word) : (w.setK i x).gid = w.gid := rfl
@[simp] theorem Warp.setK_isTask (w : Warp) (i : Nat) (x : Word) : (w.setK i x).isTask = w.isTask := rfl
@[simp] theorem Warp.setK_core (w : Warp) (i : Nat) (x : Word) : (w.setK i x).core = w.core := rfl
@[simp] theorem Warp.setK_tier (w : Warp) (i : Nat) (x : Word) : (w.setK i x).tier = w.tier := rfl
@[simp] theorem Warp.setK_place (w : Warp) (i : Nat) (x : Word) : (w.setK i x).place = w.place := rfl
@[simp] theorem Warp.setK_quad (w : Warp) (i : Nat) (x : Word) : (w.setK i x).quad = w.quad := rfl
@[simp] theorem Warp.setK_ident (w : Warp) (i : Nat) (x : Word) : (w.setK i x).ident = w.ident := rfl
@[simp] theorem Warp.setK_k (w : Warp) (i : Nat) (x : Word) : (w.setK i x).k = w.k.setD i x 0 := rfl
@[simp] theorem Warp.setK_uhaz (w : Warp) (i : Nat) (x : Word) : (w.setK i x).uhaz = w.uhaz := rfl
@[simp] theorem Warp.setK_ka (w : Warp) (i : Nat) (x : Word) : (w.setK i x).ka = w.ka := rfl
@[simp] theorem Warp.setK_lanes (w : Warp) (i : Nat) (x : Word) : (w.setK i x).lanes = w.lanes := rfl
@[simp] theorem Warp.setK_yield (w : Warp) (i : Nat) (x : Word) : (w.setK i x).yield = w.yield := rfl
@[simp] theorem Warp.setK_stores (w : Warp) (i : Nat) (x : Word) : (w.setK i x).stores = w.stores := rfl
@[simp] theorem Warp.setK_loads (w : Warp) (i : Nat) (x : Word) : (w.setK i x).loads = w.loads := rfl
@[simp] theorem Warp.setK_shd (w : Warp) (i : Nat) (x : Word) : (w.setK i x).shd = w.shd := rfl
@[simp] theorem Warp.setK_matOut (w : Warp) (i : Nat) (x : Word) : (w.setK i x).matOut = w.matOut := rfl
@[simp] theorem Warp.setK_held (w : Warp) (i : Nat) (x : Word) : (w.setK i x).held = w.held := rfl
@[simp] theorem Warp.setK_emer (w : Warp) (i : Nat) (x : Word) : (w.setK i x).emer = w.emer := rfl
@[simp] theorem Warp.setK_saved (w : Warp) (i : Nat) (x : Word) : (w.setK i x).saved = w.saved := rfl
@[simp] theorem Warp.setK_bars (w : Warp) (i : Nat) (x : Word) : (w.setK i x).bars = w.bars := rfl
@[simp] theorem Warp.setK_tags (w : Warp) (i : Nat) (x : Word) : (w.setK i x).tags = w.tags := rfl
@[simp] theorem Warp.setK_trapcause (w : Warp) (i : Nat) (x : Word) : (w.setK i x).trapcause = w.trapcause := rfl
@[simp] theorem Warp.setK_trapaddr (w : Warp) (i : Nat) (x : Word) : (w.setK i x).trapaddr = w.trapaddr := rfl
@[simp] theorem Warp.setK_score (w : Warp) (i : Nat) (x : Word) : (w.setK i x).score = w.score := rfl
@[simp] theorem Warp.setK_redo (w : Warp) (i : Nat) (x : Word) : (w.setK i x).redo = w.redo := rfl
@[simp] theorem Warp.setK_lastIssue (w : Warp) (i : Nat) (x : Word) : (w.setK i x).lastIssue = w.lastIssue := rfl
@[simp] theorem Warp.setK_gapUntil (w : Warp) (i : Nat) (x : Word) : (w.setK i x).gapUntil = w.gapUntil := rfl
@[simp] theorem Warp.setK_give (w : Warp) (i : Nat) (x : Word) : (w.setK i x).give = w.give := rfl
@[simp] theorem Warp.setK_deferred (w : Warp) (i : Nat) (x : Word) : (w.setK i x).deferred = w.deferred := rfl
@[simp] theorem Warp.setK_stopped (w : Warp) (i : Nat) (x : Word) : (w.setK i x).stopped = w.stopped := rfl
@[simp] theorem Warp.setK_idleSince (w : Warp) (i : Nat) (x : Word) : (w.setK i x).idleSince = w.idleSince := rfl

/-! ### A lane -/

@[simp] theorem Warp.setLane_gid (w : Warp) (l : Nat) (f : Lane → Lane) : (w.setLane l f).gid = w.gid := rfl
@[simp] theorem Warp.setLane_isTask (w : Warp) (l : Nat) (f : Lane → Lane) : (w.setLane l f).isTask = w.isTask := rfl
@[simp] theorem Warp.setLane_core (w : Warp) (l : Nat) (f : Lane → Lane) : (w.setLane l f).core = w.core := rfl
@[simp] theorem Warp.setLane_tier (w : Warp) (l : Nat) (f : Lane → Lane) : (w.setLane l f).tier = w.tier := rfl
@[simp] theorem Warp.setLane_place (w : Warp) (l : Nat) (f : Lane → Lane) : (w.setLane l f).place = w.place := rfl
@[simp] theorem Warp.setLane_quad (w : Warp) (l : Nat) (f : Lane → Lane) : (w.setLane l f).quad = w.quad := rfl
@[simp] theorem Warp.setLane_ident (w : Warp) (l : Nat) (f : Lane → Lane) : (w.setLane l f).ident = w.ident := rfl
@[simp] theorem Warp.setLane_k (w : Warp) (l : Nat) (f : Lane → Lane) : (w.setLane l f).k = w.k := rfl
@[simp] theorem Warp.setLane_uhaz (w : Warp) (l : Nat) (f : Lane → Lane) : (w.setLane l f).uhaz = w.uhaz := rfl
@[simp] theorem Warp.setLane_ka (w : Warp) (l : Nat) (f : Lane → Lane) : (w.setLane l f).ka = w.ka := rfl
@[simp] theorem Warp.setLane_lanes (w : Warp) (l : Nat) (f : Lane → Lane) :
    (w.setLane l f).lanes = updNth f l w.lanes := rfl
@[simp] theorem Warp.setLane_yield (w : Warp) (l : Nat) (f : Lane → Lane) : (w.setLane l f).yield = w.yield := rfl
@[simp] theorem Warp.setLane_stores (w : Warp) (l : Nat) (f : Lane → Lane) : (w.setLane l f).stores = w.stores := rfl
@[simp] theorem Warp.setLane_loads (w : Warp) (l : Nat) (f : Lane → Lane) : (w.setLane l f).loads = w.loads := rfl
@[simp] theorem Warp.setLane_shd (w : Warp) (l : Nat) (f : Lane → Lane) : (w.setLane l f).shd = w.shd := rfl
@[simp] theorem Warp.setLane_matOut (w : Warp) (l : Nat) (f : Lane → Lane) : (w.setLane l f).matOut = w.matOut := rfl
@[simp] theorem Warp.setLane_held (w : Warp) (l : Nat) (f : Lane → Lane) : (w.setLane l f).held = w.held := rfl
@[simp] theorem Warp.setLane_emer (w : Warp) (l : Nat) (f : Lane → Lane) : (w.setLane l f).emer = w.emer := rfl
@[simp] theorem Warp.setLane_saved (w : Warp) (l : Nat) (f : Lane → Lane) : (w.setLane l f).saved = w.saved := rfl
@[simp] theorem Warp.setLane_bars (w : Warp) (l : Nat) (f : Lane → Lane) : (w.setLane l f).bars = w.bars := rfl
@[simp] theorem Warp.setLane_tags (w : Warp) (l : Nat) (f : Lane → Lane) : (w.setLane l f).tags = w.tags := rfl
@[simp] theorem Warp.setLane_trapcause (w : Warp) (l : Nat) (f : Lane → Lane) :
    (w.setLane l f).trapcause = w.trapcause := rfl
@[simp] theorem Warp.setLane_trapaddr (w : Warp) (l : Nat) (f : Lane → Lane) : (w.setLane l f).trapaddr = w.trapaddr := rfl
@[simp] theorem Warp.setLane_score (w : Warp) (l : Nat) (f : Lane → Lane) : (w.setLane l f).score = w.score := rfl
@[simp] theorem Warp.setLane_redo (w : Warp) (l : Nat) (f : Lane → Lane) : (w.setLane l f).redo = w.redo := rfl
@[simp] theorem Warp.setLane_lastIssue (w : Warp) (l : Nat) (f : Lane → Lane) :
    (w.setLane l f).lastIssue = w.lastIssue := rfl
@[simp] theorem Warp.setLane_gapUntil (w : Warp) (l : Nat) (f : Lane → Lane) : (w.setLane l f).gapUntil = w.gapUntil := rfl
@[simp] theorem Warp.setLane_give (w : Warp) (l : Nat) (f : Lane → Lane) : (w.setLane l f).give = w.give := rfl
@[simp] theorem Warp.setLane_deferred (w : Warp) (l : Nat) (f : Lane → Lane) : (w.setLane l f).deferred = w.deferred := rfl
@[simp] theorem Warp.setLane_stopped (w : Warp) (l : Nat) (f : Lane → Lane) : (w.setLane l f).stopped = w.stopped := rfl
@[simp] theorem Warp.setLane_idleSince (w : Warp) (l : Nat) (f : Lane → Lane) :
    (w.setLane l f).idleSince = w.idleSince := rfl

/-! ### The lanes of a set in a warp -/

@[simp] theorem Warp.onLanes_gid (w : Warp) (m : Mask) (f : Nat → Lane → Lane) : (w.onLanes m f).gid = w.gid := rfl
@[simp] theorem Warp.onLanes_isTask (w : Warp) (m : Mask) (f : Nat → Lane → Lane) : (w.onLanes m f).isTask = w.isTask := rfl
@[simp] theorem Warp.onLanes_core (w : Warp) (m : Mask) (f : Nat → Lane → Lane) : (w.onLanes m f).core = w.core := rfl
@[simp] theorem Warp.onLanes_tier (w : Warp) (m : Mask) (f : Nat → Lane → Lane) : (w.onLanes m f).tier = w.tier := rfl
@[simp] theorem Warp.onLanes_place (w : Warp) (m : Mask) (f : Nat → Lane → Lane) : (w.onLanes m f).place = w.place := rfl
@[simp] theorem Warp.onLanes_quad (w : Warp) (m : Mask) (f : Nat → Lane → Lane) : (w.onLanes m f).quad = w.quad := rfl
@[simp] theorem Warp.onLanes_ident (w : Warp) (m : Mask) (f : Nat → Lane → Lane) : (w.onLanes m f).ident = w.ident := rfl
@[simp] theorem Warp.onLanes_k (w : Warp) (m : Mask) (f : Nat → Lane → Lane) : (w.onLanes m f).k = w.k := rfl
@[simp] theorem Warp.onLanes_uhaz (w : Warp) (m : Mask) (f : Nat → Lane → Lane) : (w.onLanes m f).uhaz = w.uhaz := rfl
@[simp] theorem Warp.onLanes_ka (w : Warp) (m : Mask) (f : Nat → Lane → Lane) : (w.onLanes m f).ka = w.ka := rfl
@[simp] theorem Warp.onLanes_lanes (w : Warp) (m : Mask) (f : Nat → Lane → Lane) :
    (w.onLanes m f).lanes = mapFrom (fun l ln => if inMask m l then f l ln else ln) 0 w.lanes := rfl
@[simp] theorem Warp.onLanes_yield (w : Warp) (m : Mask) (f : Nat → Lane → Lane) : (w.onLanes m f).yield = w.yield := rfl
@[simp] theorem Warp.onLanes_stores (w : Warp) (m : Mask) (f : Nat → Lane → Lane) : (w.onLanes m f).stores = w.stores := rfl
@[simp] theorem Warp.onLanes_loads (w : Warp) (m : Mask) (f : Nat → Lane → Lane) : (w.onLanes m f).loads = w.loads := rfl
@[simp] theorem Warp.onLanes_shd (w : Warp) (m : Mask) (f : Nat → Lane → Lane) : (w.onLanes m f).shd = w.shd := rfl
@[simp] theorem Warp.onLanes_matOut (w : Warp) (m : Mask) (f : Nat → Lane → Lane) : (w.onLanes m f).matOut = w.matOut := rfl
@[simp] theorem Warp.onLanes_held (w : Warp) (m : Mask) (f : Nat → Lane → Lane) : (w.onLanes m f).held = w.held := rfl
@[simp] theorem Warp.onLanes_emer (w : Warp) (m : Mask) (f : Nat → Lane → Lane) : (w.onLanes m f).emer = w.emer := rfl
@[simp] theorem Warp.onLanes_saved (w : Warp) (m : Mask) (f : Nat → Lane → Lane) : (w.onLanes m f).saved = w.saved := rfl
@[simp] theorem Warp.onLanes_bars (w : Warp) (m : Mask) (f : Nat → Lane → Lane) : (w.onLanes m f).bars = w.bars := rfl
@[simp] theorem Warp.onLanes_tags (w : Warp) (m : Mask) (f : Nat → Lane → Lane) : (w.onLanes m f).tags = w.tags := rfl
@[simp] theorem Warp.onLanes_trapcause (w : Warp) (m : Mask) (f : Nat → Lane → Lane) :
    (w.onLanes m f).trapcause = w.trapcause := rfl
@[simp] theorem Warp.onLanes_trapaddr (w : Warp) (m : Mask) (f : Nat → Lane → Lane) :
    (w.onLanes m f).trapaddr = w.trapaddr := rfl
@[simp] theorem Warp.onLanes_score (w : Warp) (m : Mask) (f : Nat → Lane → Lane) : (w.onLanes m f).score = w.score := rfl
@[simp] theorem Warp.onLanes_redo (w : Warp) (m : Mask) (f : Nat → Lane → Lane) : (w.onLanes m f).redo = w.redo := rfl
@[simp] theorem Warp.onLanes_lastIssue (w : Warp) (m : Mask) (f : Nat → Lane → Lane) :
    (w.onLanes m f).lastIssue = w.lastIssue := rfl
@[simp] theorem Warp.onLanes_gapUntil (w : Warp) (m : Mask) (f : Nat → Lane → Lane) :
    (w.onLanes m f).gapUntil = w.gapUntil := rfl
@[simp] theorem Warp.onLanes_give (w : Warp) (m : Mask) (f : Nat → Lane → Lane) : (w.onLanes m f).give = w.give := rfl
@[simp] theorem Warp.onLanes_deferred (w : Warp) (m : Mask) (f : Nat → Lane → Lane) :
    (w.onLanes m f).deferred = w.deferred := rfl
@[simp] theorem Warp.onLanes_stopped (w : Warp) (m : Mask) (f : Nat → Lane → Lane) :
    (w.onLanes m f).stopped = w.stopped := rfl
@[simp] theorem Warp.onLanes_idleSince (w : Warp) (m : Mask) (f : Nat → Lane → Lane) :
    (w.onLanes m f).idleSince = w.idleSince := rfl

/-! ### Return from a trap -/

@[simp] theorem rfeLane_v (ln : Lane) : (rfeLane ln).v = ln.v := rfl
@[simp] theorem rfeLane_haz (ln : Lane) : (rfeLane ln).haz = ln.haz := rfl
@[simp] theorem rfeLane_g (ln : Lane) : (rfeLane ln).g = ln.g := rfl
@[simp] theorem rfeLane_pc (ln : Lane) : (rfeLane ln).pc = ln.epc := rfl
@[simp] theorem rfeLane_mr (ln : Lane) : (rfeLane ln).mr = ln.emr := rfl
@[simp] theorem rfeLane_hs (ln : Lane) : (rfeLane ln).hs = false := rfl
@[simp] theorem rfeLane_epc (ln : Lane) : (rfeLane ln).epc = ln.epc := rfl
@[simp] theorem rfeLane_emr (ln : Lane) : (rfeLane ln).emr = ln.emr := rfl
@[simp] theorem rfeLane_rng (ln : Lane) : (rfeLane ln).rng = ln.rng := rfl
@[simp] theorem rfeLane_exited (ln : Lane) : (rfeLane ln).exited = ln.exited := rfl
@[simp] theorem rfeLane_frames (ln : Lane) : (rfeLane ln).frames = ln.frames := rfl
@[simp] theorem rfeLane_base (ln : Lane) : (rfeLane ln).base = ln.base := rfl
@[simp] theorem rfeLane_task (ln : Lane) : (rfeLane ln).task = ln.task := rfl
@[simp] theorem rfeLane_conts (ln : Lane) : (rfeLane ln).conts = ln.conts := rfl
@[simp] theorem rfeLane_barUntil (ln : Lane) : (rfeLane ln).barUntil = ln.barUntil := rfl
@[simp] theorem rfeLane_starve (ln : Lane) : (rfeLane ln).starve = ln.starve := rfl
@[simp] theorem rfeLane_wait (ln : Lane) : (rfeLane ln).wait = ln.wait := rfl
@[simp] theorem rfeLane_since (ln : Lane) : (rfeLane ln).since = ln.since := rfl
@[simp] theorem rfeLane_helped (ln : Lane) : (rfeLane ln).helped = ln.helped := rfl
@[simp] theorem rfeLane_ending (ln : Lane) : (rfeLane ln).ending = ln.ending := rfl
@[simp] theorem rfeLane_ra (ln : Lane) : (rfeLane ln).ra = ln.ra := rfl
@[simp] theorem rfeLane_rb (ln : Lane) : (rfeLane ln).rb = ln.rb := rfl

end Sys2Proof.Machine
end

