-- ==== Sys2Proof/Tests/Slice0.lean ====
section
/-!
SUPPORT. Tests: for every statement a named theorem that meets its hypotheses; words written out from the tables of the
manual, and fields that are no instruction; and single steps whose results the manual gives.
-/

namespace Sys2Proof.Tests

set_option Elab.async false

open Sys2Proof.Machine

/-! ### States to test on -/

/-- Every lane. -/
def all32 : Mask := BitVec.allOnes 32

/-- A warp of 32 lanes of world 0 issues at PC 64 on core 0. -/
def start : State := { State.reset.withFetchWord 96 0 with cur := some ⟨2, all32, 64, none, none, false, 0, false⟩ }

/-- start with the warp changed. -/
def onW (f : Warp → Warp) : State := start.onWarp 2 f

/-- start with the group changed. -/
def onG (f : Group → Group) : State := start.onGroup 1 f

/-- start with the fields of the launch record changed. -/
def onR (f : LRec → LRec) : State := start.onLaunch 0 fun x => { x with rc := f x.rc }

/-- start with every lane changed. -/
def onL (f : Lane → Lane) : State := start.onLanes 2 all32 fun _ ln => f ln

/-- start with lane registers v0, v1, v2 and so on in every lane. -/
def withV (vs : List Nat) : State := onL fun ln => (ln.setVs 0 vs.length) (vs.foldr (fun v n => v + n * 2 ^ 32) 0)

/-- start with uniform registers k0, k1, k2 and so on. -/
def withK (vs : List Nat) : State := onW fun w => (w.setKs 0 vs.length) (vs.foldr (fun v n => v + n * 2 ^ 32) 0)

/-- The plain control fields. -/
abbrev P : Ctl := Ctl.plain

/-- The word i issues in s, and its issue meets p. -/
def runsIf (s : State) (i : Instr) (p : Iss → Bool) : Bool :=
  match ctlOf i with
  | none => false
  | some c =>
    match s.iss c with
    | none => false
    | some x => formOk i && (x.check i c.gi).isNone && x.q.isNone && decide (x.m ≠ 0) && p x

theorem runsIf_runs {s : State} {i : Instr} {p : Iss → Bool} (h : runsIf s i p = true) :
    ∃ x, Runs s i x ∧ p x = true := by
  unfold runsIf at h
  split at h
  · simp at h
  · rename_i c hc
    split at h
    · simp at h
    · rename_i x hx
      simp only [Bool.and_eq_true, decide_eq_true_eq, Option.isNone_iff_eq_none] at h
      exact ⟨x, ⟨h.1.1.1.1, ⟨c, hc, hx, h.1.1.1.2⟩, h.1.1.2, h.1.2⟩, h.2⟩

theorem meets {s : State} {i : Instr} {p : Iss → Prop} [DecidablePred p]
    (h : runsIf s i (fun x => decide (p x)) = true) : ∃ x, Runs s i x ∧ p x := by
  obtain ⟨x, hr, hp⟩ := runsIf_runs h
  exact ⟨x, hr, of_decide_eq_true hp⟩

theorem runs_each {s : State} {is : List Instr} (h : is.all (fun i => runsIf s i fun _ => true) = true) :
    ∀ i ∈ is, ∃ x, Runs s i x := by
  intro i hi
  obtain ⟨x, hx, -⟩ := runsIf_runs (List.all_eq_true.mp h i hi)
  exact ⟨x, hx⟩

/-! ### Witnesses: words of the cores -/

theorem witness_IntegerArithmetic :
    ∀ i ∈ [Instr.addInteger P .i8 (.v 8) (.v 1) (.v 2), .subInteger P .n64 (.v 8) (.v 2) (.k 4),
      .mulInteger P .i16 (.v 8) (.v 1) (.imm 0x3ffff), .mulhi P .n64 (.v 8) (.v 2) (.v 4), .mulw P .i32 (.v 8) (.v 1) (.v 2),
      .mad P .i32 (.v 8) (.v 1) (.v 2) (.v 3), .neg P .i32 (.v 8) (.v 1), .abs P .i64 (.v 8) (.v 2),
      .minInteger P .n8 (.v 8) (.v 1) (.v 2), .maxInteger P .i64 (.v 8) (.v 2) (.v 4),
      .clamp P .n32 (.v 8) (.v 1) (.v 2) (.v 3)], ∃ x, Runs start i x := runs_each (by decide +kernel)

theorem witness_DivisionAndShifts :
    ∀ i ∈ [Instr.divInteger P .i32 (.v 8) (.v 1) (.v 2), .rem P .n64 (.v 8) (.v 2) (.v 4), .shl P .b32 (.v 8) (.v 1) (.v 2),
      .shr P .b64 (.v 8) (.v 2) (.imm 64), .sra P .i32 (.v 8) (.v 1) (.v 2)], ∃ x, Runs start i x :=
  runs_each (by decide +kernel)

theorem witness_BitsAndFields :
    ∀ i ∈ [Instr.and P .b8 (.v 8) (.v 1) (.v 2), .or P .b16 (.v 8) (.v 1) (.v 2), .xor P .b32 (.v 8) (.v 1) (.v 2),
      .andn P .b64 (.v 8) (.v 2) (.v 4), .not P .b64 (.v 8) (.v 2), .popc P .b64 (.v 8) (.v 2), .clz P .b32 (.v 8) (.v 1),
      .ctz P .b64 (.v 8) (.v 2), .brev P .b32 (.v 8) (.v 1), .rotl P .b64 (.v 8) (.v 2) (.imm 63),
      .bfx P .i64 (.v 8) (.v 2) (.v 1), .bfi P .b32 (.v 8) (.v 1) (.v 2) (.v 3), .lea P .n64 7 (.v 8) (.v 2) (.v 1)],
      ∃ x, Runs start i x := runs_each (by decide +kernel)

theorem witness_SelectAndMove :
    ∀ i ∈ [Instr.setb P .i8 .lt (.v 8) (.v 1) (.v 2), .sel P .b64 7 (.v 8) (.v 2) (.v 4), .mov P .b64 (.k 4) (.v 2),
      .mov P .b32 (.v 8) (.sp .lane), .movi P .n64 (.v 8) (BitVec.allOnes 40)], ∃ x, Runs start i x :=
  runs_each (by decide +kernel)

theorem witness_CompareAndCarry :
    ∀ i ∈ [Instr.cmpInteger P .i64 .ge 7 (.v 2) (.v 4), .addx P .n64 0 (.v 8) (.v 2) (.v 4),
      .addx P .n32 7 (.v 8) (.v 1) (.v 2)], ∃ x, Runs start i x := runs_each (by decide +kernel)

theorem witness_FloatArithmetic :
    ∀ i ∈ [Instr.addFloat P .f32 .rn (.v 8) (.v 1) (.v 2), .subFloat P .f64 .ru (.v 8) (.v 2) (.v 4),
      .mulFloat P .f16x2 .rz (.v 8) (.v 1) (.v 2), .fma P .bf16 .rd (.v 8) (.v 1) (.v 2) (.v 3),
      .divFloat P .f64 .rn (.v 8) (.v 2) (.v 4), .rcp P .f32 .rn (.v 8) (.v 1), .sqrt P .f16 .rn (.v 8) (.v 1),
      .rsq P .bf16 .ru (.v 8) (.v 1), .scale P .f32 .rn (.v 8) (.v 1) (.v 2),
      .dot2 P .bf16x2 .rn (.v 8) (.v 1) (.v 2) (.v 3)], ∃ x, Runs start i x := runs_each (by decide +kernel)

theorem witness_FloatSelection :
    ∀ i ∈ [Instr.minFloat P .f64 true (.v 8) (.v 2) (.v 4), .maxFloat P .f16x2 false (.v 8) (.v 1) (.v 2),
      .cmpFloat P .f32 .nan 0 (.v 1) (.v 2), .classF P .f64 0 (.v 2) (.v 1), .rndi P .f32 .rn (.v 8) (.v 1),
      .cpsign P .bf16x2 (.v 8) (.v 1) (.v 2)], ∃ x, Runs start i x := runs_each (by decide +kernel)

theorem witness_Transcendental :
    ∀ i ∈ [Instr.ex2 P .f32 (.v 8) (.v 1), .lg2 P .f16 (.v 8) (.v 1), .sin P .bf16x2 (.v 8) (.v 1), .cos P .f32 (.v 8) (.v 1),
      .tanh P .bf16 (.v 8) (.v 1)], ∃ x, Runs start i x := runs_each (by decide +kernel)

theorem witness_Conversions :
    ∀ i ∈ [Instr.cvt P .i8 .f64 .rz (.v 8) (.v 2), .pack P .e4m3 .rn (.v 8) (.v 1) (.v 2), .unpack P .f16x2 (.v 8) (.v 1),
      .bsel P (.v 8) (.v 2) (.imm 0x3210), .qnt P .nq4 (.v 8) (.v 2), .dqt P .f32 (.v 8) (.v 1) (.v 2)],
      ∃ x, Runs start i x := runs_each (by decide +kernel)

theorem witness_CrossLaneAndRandom :
    ∀ i ∈ [Instr.shfl P .up (.v 8) (.v 1) (.imm 31), .bcast P (.k 4) (.v 1) (.imm 0), .vote P .ballot (.v 8) 7,
      .matchW P .b64 (.v 8) (.v 2), .scanw P .add .f32 true (.v 8) (.v 1), .redw P .min .i64 (.k 4) (.v 2),
      .rnd P .b64 (.v 8), .rndSeed P .b64 (.v 2) (.v 4)], ∃ x, Runs start i x := runs_each (by decide +kernel)

theorem witness_KulischInstructions :
    ∀ i ∈ [Instr.kzero P 3, .kadd P .f32 0 (.v 1), .ksub P .e4m3 1 (.v 1), .kdot P .bf16x2 2 (.v 1) (.v 2),
      .kround P .f64 .rn (.v 8) 0, .ksave P (.k 46) 3, .kload P 1 (.k 0), .kstat P (.v 8) 0], ∃ x, Runs start i x :=
  runs_each (by decide +kernel)

/-! ### Witnesses: numbers -/

/-- 1.0 and -1.0 in FP32. -/
theorem one_f32 : unpackF .f32 0x3f800000 = .fin false (2 ^ 23) (-23) ∧ unpackF .f32 0xbf800000 = .fin true (2 ^ 23) (-23) := by
  decide +kernel

/-- 448.0 and 1.0 in FP8 E4M3. -/
theorem one_e4m3 : unpackF .e4m3 0x38 = .fin false 8 (-3) := by decide +kernel

theorem witness_RoundedSums :
    isArith .f32 ∧ isFin .f32 0x3f800000 = true ∧ isFin .f32 0xbf800000 = true ∧
    patRat .f32 0x3f800000 + patRat .f32 0x3f800000 ≠ 0 ∧
    (patRat .f32 0x3f800000 + patRat .f32 0xbf800000 = 0 ∧ signOf .f32 0x3f800000 ≠ signOf .f32 0xbf800000) ∧
    patRat .f32 0x3f800000 - patRat .f32 0xbf800000 ≠ 0 ∧ patRat .f32 0x3f800000 * patRat .f32 0xbf800000 ≠ 0 ∧
    patRat .f32 0x3f800000 * patRat .f32 0x3f800000 + patRat .f32 0x3f800000 ≠ 0 := by
  refine ⟨.inr (.inr (.inl rfl)), by decide +kernel, by decide +kernel, ?_⟩
  simp only [patRat, one_f32.1, one_f32.2, FV.rat]
  refine ⟨by norm_num, ⟨by norm_num, by decide +kernel⟩, by norm_num, by norm_num, by norm_num⟩

theorem witness_RoundedQuotients :
    isArith .f32 ∧ isFin .f32 0x3f800000 = true ∧ patRat .f32 0x3f800000 ≠ 0 := by
  refine ⟨.inr (.inr (.inl rfl)), by decide +kernel, ?_⟩
  simp only [patRat, one_f32.1, FV.rat]
  norm_num

theorem witness_RoundedRoots : isArith .f32 ∧ isFin .f32 0x3f800000 = true ∧ 0 < patRat .f32 0x3f800000 := by
  refine ⟨.inr (.inr (.inl rfl)), by decide +kernel, ?_⟩
  simp only [patRat, one_f32.1, FV.rat]
  norm_num

theorem witness_RoundedConversions :
    isArith .f32 ∧ isFin .f32 0x3f800000 = true ∧ patRat .f32 0x3f800000 ≠ 0 ∧ isFin .e4m3 0x38 = true ∧
    patRat .e4m3 0x38 ≠ 0 := by
  refine ⟨.inr (.inr (.inl rfl)), by decide +kernel, ?_, by decide +kernel, ?_⟩
  · simp only [patRat, one_f32.1, FV.rat]
    norm_num
  · simp only [patRat, one_e4m3, FV.rat]
    norm_num

theorem kul_zero : kulSide 0 = 0 ∧ (0 : Kul).toInt = 0 ∧ kulLow ≤ 2 ^ 300 ∧ 2 ^ 300 ≤ kulHigh := by decide +kernel

theorem kul_ends : kulSide (kulOf kulHigh) = 0 ∧ (kulOf kulHigh).toInt = kulHigh ∧ kulSide (kulOf kulLow) = 0 ∧
    (kulOf kulLow).toInt = kulLow := by decide +kernel

/-- 1 added to 0 stays in the range; 1 added to the highest value, and -1 to the lowest, leave it. -/
theorem witness_KulischValues_finite :
    (((2 ^ 300 : Int) : ℚ) = (0 : Kul).toInt + 2 ^ 300 * ([some (FV.fin false 1 0)].map fun t => (t.getD .nan).rat).sum ∧
      kulLow ≤ 2 ^ 300 ∧ (2 ^ 300 : Int) ≤ kulHigh) ∧
    (((kulHigh + 2 ^ 300 : Int) : ℚ) = (kulOf kulHigh).toInt +
      2 ^ 300 * ([some (FV.fin false 1 0)].map fun t => (t.getD .nan).rat).sum ∧ kulHigh < kulHigh + 2 ^ 300) ∧
    (((kulLow - 2 ^ 300 : Int) : ℚ) = (kulOf kulLow).toInt +
      2 ^ 300 * ([some (FV.fin true 1 0)].map fun t => (t.getD .nan).rat).sum ∧ kulLow - 2 ^ 300 < kulLow) := by
  refine ⟨⟨?_, kul_zero.2.2.1, kul_zero.2.2.2⟩, ⟨?_, by omega⟩, ?_, by omega⟩
  · simp [FV.rat]
  · simp [kul_ends.2.1, FV.rat]
  · simp [kul_ends.2.2.2, FV.rat]
    ring

theorem witness_KulischValues_sides :
    kulSide 0 ||| (if some (FV.inf true) ∈ [some (FV.inf true)] then 2 else 0) ≠ 0 ∧ (0 : Kul) ≠ kulOf (-2 ^ 575) ∧
    kulSide (kulOf (2 ^ 300)) = 0 ∧ kulOf (2 ^ 300) ≠ 0 ∧ kulSide (kulOf (-2 ^ 575 + 1)) = 1 ∧
    kulSide (kulOf (-2 ^ 575 + 2)) = 2 ∧ kulSide (kulOf (-2 ^ 575 + 3)) = 3 ∧ 4 ≤ kulSide (kulOf (-2 ^ 575 + 4)) := by
  decide +kernel

/-! ### Witnesses: memory -/

/-- What the checks of R174 find for the addresses f of lanes ls neither stops the access nor holds it back. -/
def passes (s : State) (x : Iss) (ls : List Nat) (align : Nat) (need : Perm) (winOk : Bool) (f : Nat → Nat) : Bool :=
  let rs := (x.trAll align need winOk false (ls.map fun l => (l, f l)) s).1
  (worstOf rs).isNone && (heldOf rs).isNone

theorem passes_passes {s : State} {x : Iss} {ls : List Nat} {align : Nat} {need : Perm} {winOk : Bool} {f : Nat → Nat}
    (h : passes s x ls align need winOk f = true) : ∃ rs, Passes s x ls align need winOk f rs := by
  simp only [passes, Bool.and_eq_true, Option.isNone_iff_eq_none] at h
  exact ⟨_, rfl, h⟩

theorem witness_LoadsAndStores :
    runsIf start (.ld P .b32 .no .x4 (.v 8) (.v 2) 16) (fun x =>
      passes start x (maskLanes x.m) 16 .r true fun l => x.ea start l (.v 2) 16) = true ∧
    runsIf start (.ldk P .b64 .no .x1 (.k 8) (.k 2) 16) (fun x =>
      passes start x [lowLane x.m] 8 .r false fun l => x.ea start l (.k 2) 16) = true ∧
    runsIf start (.st P .b8 .no .x1 (.v 8) (.v 2) 4095) (fun x =>
      passes start x (maskLanes x.m) 1 .w true fun l => x.ea start l (.v 2) 4095) = true := by decide +kernel

theorem witness_AtomicsStart :
    runsIf start (.atom P .f32 .add .no (.v 8) (.v 2) 16) (fun x => x.wp.drained &&
      passes start x (maskLanes x.m) 4 .a false fun l => x.ea start l (.v 2) 16) = true ∧
    runsIf start (.vatom P .f16x2 .add .rel (.v 8) (.v 2) 32) (fun x => x.wp.drained &&
      passes start x (maskLanes x.m) (atomSize true .f16x2) .a false fun l => x.ea start l (.v 2) 32) = true ∧
    runsIf start (.atom P .b64 .cas .acqrel (.v 8) (.v 2) 16) (fun x => x.wp.drained &&
      passes start x (maskLanes x.m) 8 .a false fun l => x.ea start l (.v 2) 16) = true ∧
    runsIf start (.vatom P .i32 .max .acq (.v 8) (.v 2) 32) (fun x =>
      passes start x (maskLanes x.m) (atomSize true .i32) .a false fun l => x.ea start l (.v 2) 32) = true ∧
    runsIf start (.red P .n32 .inc .no (.k 8) (.v 2) 16) (fun x =>
      passes start x (maskLanes x.m) 4 .a true fun l => x.ea start l (.v 2) 16) = true ∧
    runsIf start (.vred P .i8 .add .rel (.v 8) (.v 2) 32) (fun x => x.wp.drained &&
      passes start x (maskLanes x.m) (atomSize true .i8) .a true fun l => x.ea start l (.v 2) 32) = true := by
  decide +kernel

/-! ### Witnesses: faults, control and scratchpad -/

/-- A fault would stop the group (StopsGroup). -/
def stopsGroup (x : Iss) : Bool := decide (StopsGroup x)

theorem witness_TrapsAndBreakpoints :
    runsIf (onR fun r => { r with trapoff := 4096 }) (.trap P 7) (fun x => decide (x.ln.rc.trapoff ≠ 0) &&
      (maskLanes x.m).all fun l => !(x.wp.lane l).hs) = true ∧
    runsIf start (.trap P 7) (fun x => decide (x.ln.rc.trapoff = 0) && stopsGroup x &&
      (maskLanes x.m).all fun l => !(x.wp.lane l).hs) = true ∧
    runsIf start (.bkpt P) (fun x => stopsGroup x && (maskLanes x.m).all fun l => !(x.wp.lane l).hs) = true := by
  decide +kernel

theorem witness_ReturnFromHandler :
    runsIf (onL fun ln => { ln with hs := true, epc := 76 }) (.rfe P) (fun x =>
      (maskLanes x.m).all fun l => (x.wp.lane l).hs) = true ∧
    runsIf start (.rfe P) (fun x => stopsGroup x && (maskLanes x.m).any fun l => !(x.wp.lane l).hs) = true := by
  decide +kernel

theorem witness_ControlRegisters :
    runsIf start (.flagrd P (.v 8)) (fun x => x.wp.matOut == 0) = true ∧
    runsIf (onW fun w => { w with matOut := 1 }) (.flagrd P (.v 8)) (fun x => x.wp.matOut != 0) = true ∧
    (∀ i ∈ [Instr.flagclr P 7, .csrr P 0x000 (.v 8), .csrr P 0x001 (.k 8), .csrr P 0x010 (.v 8), .csrr P 0x020 (.v 8),
      .csrr P 0x021 (.v 8), .csrr P 0x022 (.v 8), .csrw P 0x022 (.k 4)], runsIf start i (fun _ => true) = true) ∧
    runsIf (onG fun g => { g with world := 1024 }) (.csrr P 0x100 (.v 8)) (fun x => x.g.world == 1024) = true ∧
    runsIf start (.csrr P 0x100 (.v 8)) (fun x => x.g.world != 1024 && stopsGroup x) = true := by decide +kernel

theorem witness_ControlFlow :
    (∀ i ∈ [Instr.nop P, .bra P 0, .call P (.v 8) 5, .meet P (-1), .yield P 64], runsIf start i (fun _ => true) = true) ∧
    (∀ i ∈ [Instr.brx P (.v 0), .ret P (.v 0)], runsIf (withV [76, 0]) i (fun x =>
      (maskLanes x.m).all fun l => onGrid x.ln.rc.kbase (x.reg64 (withV [76, 0]) l (.v 0) 0).toNat) = true) ∧
    runsIf start (.bra P (-1)) (fun x => stopsGroup x && decide ((x.pc.toNat : Int) - 12 < x.ln.rc.kbase)) = true := by
  decide +kernel

/-- Every granule of the first scratchpad bytes is full. -/
def fullSpad : State := onG fun g => { g with fe := [(0, true)] }

/-- A warp with a store outstanding. -/
def storing : State := onW fun w => { w with stores := 1 }

theorem witness_Scratchpad :
    (∀ i ∈ [Instr.ldsp P .b32 .x4 false false (.v 8) (.v 2) 16, .stsp P .b64 .x1 false (.v 8) (.v 2) 8,
      .stsp P .b8 .x1 true (.v 8) (.v 2) 3, .feget P (.v 8) (.v 2) 0, .feset P (.v 2) 0, .feclr P (.v 2) 0],
      runsIf start i (fun x => x.wp.drained && (maskLanes x.m).all fun l =>
        [(16, 16), (8, 8), (3, 1), (0, 1)].all fun e => !x.spBad (x.spOff start l (.v 2) (BitVec.ofNat 20 e.1)) e.2 e.2) =
        true) ∧
    runsIf fullSpad (.ldsp P .b32 .x1 true true (.v 8) (.v 2) 0) (fun x => (maskLanes x.m).all fun l =>
      !x.spBad (x.spOff fullSpad l (.v 2) 0) 4 4 && x.g.fe.getD (x.spPlace (x.spOff fullSpad l (.v 2) 0) / 16) false) =
      true ∧
    runsIf start (.ldsp P .b32 .x1 true true (.v 8) (.v 2) 0) (fun x => (maskLanes x.m).all fun l =>
      !x.spBad (x.spOff start l (.v 2) 0) 4 4 && !x.g.fe.getD (x.spPlace (x.spOff start l (.v 2) 0) / 16) false) = true ∧
    runsIf storing (.feset P (.v 2) 0) (fun x => !x.wp.drained && (maskLanes x.m).all fun l =>
      !x.spBad (x.spOff storing l (.v 2) 0) 1 1) = true ∧
    runsIf start (.ldsp P .b32 .x1 false false (.v 8) (.v 2) 0xffffc) (fun x => stopsGroup x &&
      ((maskLanes x.m).find? fun l => x.spBad (x.spOff start l (.v 2) 0xffffc) 4 4) == some 0) = true := by
  decide +kernel

/-! ### Witnesses: queues, barriers and tasks -/

/-- Queue 1 of the group changed. -/
def withQ (q : TileQ) : State := onG fun g => { g with tqs := g.tqs.put 1 q }

/-- A wait for counter 0 to reach 1, of another warp's instruction. -/
def counterWait : State :=
  { withV [0, 0, 1, 0] with waits := [(0, ⟨3, .cntwait P (.v 0) (.v 2), 1, 64, 0, .counter, [(0, 0), (1, 1)], false⟩)] }

theorem witness_QueuesAndCounters :
    runsIf start (.tqpush P 1 (.k 4)) (fun x => (x.g.tq 1).slots != 0 && x.wp.drained && (x.g.tq 1).allow != 0) = true ∧
    runsIf storing (.tqpush P 1 (.k 4)) (fun x => (x.g.tq 1).slots != 0 && !x.wp.drained) = true ∧
    runsIf (withQ ⟨4, [], 0⟩) (.tqpush P 1 (.k 4)) (fun x => (x.g.tq 1).slots != 0 && (x.g.tq 1).allow == 0) = true ∧
    (∀ i ∈ [Instr.tqpop P (.v 8) 1, .tqtry P 0 (.v 8) 1],
      runsIf (withQ ⟨4, [(5, 0)], 3⟩) i (fun x => (x.g.tq 1).slots != 0 && x.wp.drained &&
        (x.g.tq 1).content == [(5, 0)]) = true ∧
      runsIf ((withQ ⟨4, [(5, 0)], 3⟩).onWarp 2 fun w => { w with loads := 1 }) i (fun x => (x.g.tq 1).slots != 0 &&
        !x.wp.drained && (x.g.tq 1).content == [(5, 0)]) = true) ∧
    (∀ i ∈ [Instr.tqpop P (.v 8) 1, .tqtry P 0 (.v 8) 1, .tqallow P (.v 8) 1], runsIf start i (fun x =>
      (x.g.tq 1).slots != 0 && (x.g.tq 1).content == []) = true) ∧
    (∀ i ∈ [Instr.tqpush P 1 (.k 4), .tqpop P (.v 8) 1, .tqtry P 0 (.v 8) 1, .tqallow P (.v 8) 1],
      runsIf (onG fun g => { g with tqs := [] }) i (fun x => (x.g.tq 1).slots == 0 && stopsGroup x) = true) ∧
    (∀ b ∈ [true, false], runsIf counterWait (.cntsig P b (.v 0) (.v 2)) (fun x => x.wp.drained &&
      counterWait.counterOf x.g.world (x.reg counterWait (lowLane x.m) (.v 0) 0).toNat == some 0) = true) ∧
    runsIf storing (.cntsig P true (.v 0) (.v 2)) (fun x => !x.wp.drained &&
      (storing.counterOf x.g.world (x.reg storing (lowLane x.m) (.v 0) 0).toNat).isSome) = true ∧
    runsIf start (.cntwait P (.v 0) (.v 2)) (fun x =>
      start.counterOf x.g.world (x.reg start (lowLane x.m) (.v 0) 0).toNat == some 0 &&
        decide ((x.reg64 start (lowLane x.m) (.v 2) 0).toNat ≤ start.counter 0)) = true ∧
    runsIf (withV [0, 0, 1, 0]) (.cntwait P (.v 0) (.v 2)) (fun x =>
      decide (start.counter 0 < (x.reg64 (withV [0, 0, 1, 0]) (lowLane x.m) (.v 2) 0).toNat)) = true ∧
    (∀ i ∈ [Instr.cntsig P true (.v 0) (.v 2), .cntwait P (.v 0) (.v 2)], runsIf (withV [4]) i (fun x => stopsGroup x &&
      ((withV [4]).counterOf x.g.world (x.reg (withV [4]) (lowLane x.m) (.v 0) 0).toNat).isNone) = true) := by
  decide +kernel

/-- A group of two warps, of which the other one has arrived at barrier 1. -/
def arrivedOther : State :=
  let s := onR fun r => { r with groupw := 2 }
  let s := s.onGroup 1 fun g => { g with warps := [2, 3], bars := [(1, ⟨2, 1, none⟩)] }
  { s with warps := s.warps.put 3 { placeWarp with bars := [(1, ⟨true, false, .no⟩)] } }

/-- The issuing warp has arrived at barrier 1, or its phase has ended. -/
def atBar (b : BarW) : State := (onR fun r => { r with groupw := 2 }).onWarp 2 fun w => w.setBar 1 b

/-- The warp may arrive at barrier 1. -/
def freshAt (s : State) (x : Iss) : Bool :=
  !x.wp.isTask && x.wp.bar 1 == ⟨false, false, .no⟩ && x.wp.drained && !s.converting x

/-- A warp of two is to come, and barrier 1 has n arrivals. -/
def two (n : Nat) : State :=
  (onR fun r => { r with groupw := 2 }).onGroup 1 fun g => { g with bars := [(1, ⟨2, n, none⟩)] }

theorem witness_Barriers :
    (∀ i ∈ [Instr.barArrive P 1, .bar P 1], runsIf (two 0) i (fun x => freshAt (two 0) x && decide ¬lastArrival (two 0) x 1) =
      true) ∧
    (∀ i ∈ [Instr.barArrive P 1, .bar P 1], runsIf arrivedOther i (fun x => freshAt arrivedOther x && x.g.barCheck == .no &&
      decide (lastArrival arrivedOther x 1) && (arrivedOther.barWaits x.w 1).isEmpty) = true) ∧
    (arrivedOther.warps.find 3).isSome = true ∧
    (∀ i ∈ [Instr.barArrive P 1, .bar P 1], ∀ s ∈ [storing, start.onCore 0 fun k =>
        { k with copies := [⟨5, 2, 1, 0, false, false, 1, .cvF32, 0, 0, 32, [24576], [], [], 0⟩] }],
      runsIf s i (fun x => !x.wp.isTask && x.wp.bar 1 == ⟨false, false, .no⟩ && (!x.wp.drained || s.converting x)) =
        true) ∧
    (∀ i ∈ [Instr.barWait P 1, .barTest P 0 1], runsIf (atBar ⟨false, true, .no⟩) i (fun x => !x.wp.isTask &&
      x.wp.bar 1 == ⟨false, true, .no⟩ && ((atBar ⟨false, true, .no⟩).barWaits x.w 1).isEmpty) = true) ∧
    (∀ i ∈ [Instr.barWait P 1, .barTest P 0 1], runsIf (atBar ⟨true, false, .no⟩) i (fun x => !x.wp.isTask &&
      x.wp.bar 1 == ⟨true, false, .no⟩) = true) ∧
    runsIf ((two 0).onWarp 2 fun w => w.setK 4 1) (.barset P 1 (.k 4)) (fun x => !x.wp.isTask && x.g.xw == 0 &&
      decide (1 ≤ x.ln.rc.groupw)) = true ∧
    runsIf ((two 1).onWarp 2 fun w => w.setK 4 2) (.barset P 1 (.k 4)) (fun x => !x.wp.isTask &&
      decide (2 ≤ x.ln.rc.groupw)) = true ∧
    (∀ i ∈ [Instr.bar P 1, .barArrive P 1, .barWait P 1, .barTest P 0 1, .barset P 1 (.k 4)],
      runsIf (onW fun w => { w with isTask := true }) i (fun x => x.wp.isTask && stopsGroup x) = true) ∧
    runsIf start (.barset P 0 (.k 4)) (fun x => !x.wp.isTask && stopsGroup x) = true := by decide +kernel

/-- Frames in every lane, and the ranges that spawn takes: 0 to 5, with the entry 64. -/
def spawning : State :=
  onL fun ln => { ln with
    v := [(6, 64), (10, 5), (12, 9)], frames := [⟨0, 0, false⟩] }

/-- Every lane with frames. -/
def framed (fs : List Frame) : State := onL fun ln => { ln with frames := fs }

theorem witness_Tasks :
    runsIf start (.fmark P) (fun x => (maskLanes x.m).all fun l => decide ((x.wp.lane l).frames.length < 8)) = true ∧
    runsIf (framed (List.replicate 8 ⟨0, 0, false⟩)) (.fmark P) (fun x => stopsGroup x &&
      (maskLanes x.m).any fun l => decide (8 ≤ (x.wp.lane l).frames.length)) = true ∧
    runsIf spawning (.spawn P (.v 8) (.v 12) (.v 6)) (fun x => x.wp.drained &&
      let rs := (maskLanes x.m).map (x.spawnReq spawning (.v 8) (.v 12) (.v 6))
      (maskLanes x.m).all (fun l => !(x.wp.lane l).own.isEmpty) && rs.all (fun r => (r.bad x.ln.rc.kbase).isNone) &&
      rs.all (fun r => decide (r.lo < r.hi)) && decide (spawning.recsTaken x.wp.core + rs.length ≤ 4096) &&
      decide (spawning.hseqs.getD 0 0 < 2 ^ 32)) = true ∧
    (∀ i ∈ [Instr.spawn P (.v 8) (.v 12) (.v 6), .await P (.v 8)], runsIf start i (fun x => stopsGroup x &&
      (maskLanes x.m).any fun l => (x.wp.lane l).own.isEmpty) = true) ∧
    runsIf (framed [⟨0, 0, false⟩]) (.await P (.v 8)) (fun x => (maskLanes x.m).all fun l =>
      !(x.wp.lane l).own.isEmpty && (x.wp.lane l).frameDone) = true ∧
    runsIf (framed [⟨1, 0, false⟩]) (.await P (.v 8)) (fun x => (maskLanes x.m).all fun l =>
      !(x.wp.lane l).own.isEmpty && !(x.wp.lane l).frameDone) = true ∧
    (∀ i ∈ [Instr.tidx P .lo (.v 8), .tidx P .arg (.k 8), .tstat P (.v 8)], runsIf start i (fun _ => true) = true) := by
  decide +kernel

/-- Lane 0 alone issues. -/
def lane0 (s : State) : State := { s with cur := some ⟨2, 1, 64, none, none, false, 0, false⟩ }

/-- Lane 0 runs iteration 3 of 3 to 5 inline, for a frame of warp 3. -/
def inlineRun : State :=
  let s := (lane0 start).onLanes 2 1 fun _ ln =>
    { ln with task := some ⟨3, 5, 3, 5, 0, 64, ⟨3, 0, 0⟩, true⟩, conts := [⟨76, 0, 0, none, 0, false, false⟩] }
  let w := { placeWarp with lanes := List.replicate 32 { Lane.start 64 with frames := [⟨2, 0, false⟩] } }
  { s with warps := s.warps.put 3 w }

theorem witness_LanesEnd :
    runsIf (lane0 start) (.exit P) (fun x => x.wp.mayEnd 0 && (x.wp.lane 0).task.isNone && !inMask x.m 1 &&
      !(x.wp.lane 1).exited) = true ∧
    runsIf inlineRun (.tret P) (fun x => decide (x.m = oneLane 0) && x.wp.mayEnd 0 && !(x.wp.lane 0).exited &&
      (x.wp.lane 0).task == some ⟨3, 5, 3, 5, 0, 64, ⟨3, 0, 0⟩, true⟩) = true ∧
    ((inlineRun.warps.find 3).map fun w => (w.lane 0).frames) = some [⟨2, 0, false⟩] ∧
    runsIf start (.tret P) (fun x => stopsGroup x && (maskLanes x.m).any fun l => (x.wp.lane l).task.isNone) = true := by
  decide +kernel

/-- The group of a pair of cores, with FIFO f holding n entries. -/
def paired (f n : Nat) : State :=
  onG fun g => { g with pair := true, vfifo := g.vfifo.setD f (List.replicate n (List.replicate 32 7)) [] }

/-- No dynamic block is free, and the core's emergency token is taken. -/
def noBlocks : State := (onR fun r => { r with rf := 1 }).onCore 0 fun c => { c with emer := some 2 }

/-- A lower warp of the group waits in ralloc. -/
def behindLower : State :=
  let s := onW fun w => { w with ident := ⟨1, 1, 0⟩ }
  { s with
    warps := s.warps.put 3 { placeWarp with lanes := placeWarp.lanes.map fun ln => { ln with wait := some 9 } }
    waits := [(9, ⟨3, .ralloc P 2, all32, 64, 0, .ralloc, [], false⟩)] }

/-- No other warp of the group that waits in ralloc goes first. -/
def firstInLine (s : State) (x : Iss) : Bool :=
  (s.rallocs x).all fun o => o.wp.gid != x.wp.gid || decide (x.wp.ident.warp ≤ o.wp.ident.warp)

theorem witness_BlocksAndFifos :
    runsIf (onW fun w => { w with held := 8 }) (.ralloc P 3) (fun x => x.wp.held.getLsbD 3) = true ∧
    runsIf start (.ralloc P 3) (fun x => !x.wp.held.getLsbD 3 &&
      decide (0 < start.freeBlocks x.wp.gid x.wp.core x.ln.rc) && firstInLine start x) = true ∧
    runsIf behindLower (.ralloc P 3) (fun x => !x.wp.held.getLsbD 3 &&
      behindLower.freeBlocks x.wp.gid x.wp.core x.ln.rc != 0 && !firstInLine behindLower x) = true ∧
    runsIf noBlocks (.ralloc P 3) (fun x => !x.wp.held.getLsbD 3 &&
      noBlocks.freeBlocks x.wp.gid x.wp.core x.ln.rc == 0 && (noBlocks.core x.wp.core).emer.isSome) = true ∧
    (∀ i ∈ [Instr.rfree P 3, .rblk P (.k 8)], runsIf start i (fun x => x.wp.emer.isNone) = true) ∧
    runsIf (paired 0 2) (.vput P 0 (.v 8)) (fun x => x.g.pair && x.wp.tier == 0 && x.wp.drained &&
      decide ((x.g.fifo 0).length < 16)) = true ∧
    runsIf (paired 0 16) (.vput P 0 (.v 8)) (fun x => x.g.pair && x.wp.tier == 0 && x.wp.drained &&
      decide (16 ≤ (x.g.fifo 0).length)) = true ∧
    runsIf (paired 2 1) (.vget P 2 (.v 8)) (fun x => x.g.pair && x.wp.tier != 1 && x.wp.drained &&
      !(x.g.fifo 2).isEmpty) = true ∧
    (let s := (paired 2 1).onWarp 2 fun w => { w with loads := 1 }
     runsIf s (.vget P 2 (.v 8)) (fun x => x.g.pair && x.wp.tier != 1 && !x.wp.drained) = true ∧
     runsIf s (.vput P 0 (.v 8)) (fun x => x.g.pair && x.wp.tier == 0 && !x.wp.drained) = true) ∧
    runsIf (paired 2 0) (.vget P 2 (.v 8)) (fun x => x.g.pair && x.wp.tier != 1 && (x.g.fifo 2).isEmpty) = true ∧
    runsIf (paired 2 0) (.vfree P 2 (.v 8)) (fun x => x.g.pair) = true ∧
    (∀ i ∈ [Instr.vput P 0 (.v 8), .vget P 0 (.v 8), .vfree P 0 (.v 8)], runsIf start i (fun x =>
      !x.g.pair && stopsGroup x) = true) := by decide +kernel

/-! ### Witnesses: waits on memory, copies, launches and the matrix engine -/

/-- A monitor on the sector of address 0 of world 0, of a waiting waita that has been named already, or not. -/
def monitored (sat : Bool) : State :=
  { start with
    monitors := [⟨0, 0, 7, 24576 / 32, 1⟩]
    waits := [(7, ⟨3, .waita P 0 (.v 8) (.v 2) 0, 1, 64, 0, .sleep, [], sat⟩)] }

/-- The address of lane 0 is in a scrubbed page that is not Sinter-managed, and its line can be read. -/
def plainHit (s : State) (x : Iss) (a : Nat) : Bool :=
  match x.trLane s a 1 .none false false with
  | (.loc h, u) => h.sint.isNone && (u.replyErr x.g.world h.pa).isNone && !u.away (coreDie x.wp.core) h.pa &&
      !u.unscr h.pa && h.pa == 24576
  | _ => false

/-- n lines with hint EL of the set of the first address, and its own line. -/
def lined (n : Nat) (own : Bool) : State :=
  let s := lane0 start
  { s with l2 := [(s.setOf 24576, (upTo 0 n).map (fun k => ⟨5, k, [], .el⟩) ++
      if own then [⟨0, 192, [0], .no⟩] else [])] }

theorem witness_WaitsAndHints :
    runsIf start (.waita P 0 (.v 8) (.v 2) 16) (fun x =>
      passes start x (maskLanes x.m) 4 .r false fun l => x.ea start l (.v 2) 16) = true ∧
    (∀ sat ∈ [true, false], runsIf (monitored sat) (.wake P (.v 2) 0) (fun x =>
      let f := fun l => x.ea (monitored sat) l (.v 2) 0
      passes (monitored sat) x (maskLanes x.m) 1 .r false f &&
        (x.trAll 1 .r false false ((maskLanes x.m).map fun l => (l, f l)) (monitored sat)).1.any fun r => match r.tr with
          | .loc h => (monitored sat).monitors.any fun m => m.sector == h.pa / 32 && m.world == x.g.world &&
              ((monitored sat).waits.find m.q).isSome
          | _ => false) = true) ∧
    (∀ i ∈ [Instr.pfetch P .el (.v 2) 0, .evict P .en (.v 2) 0], ∀ n ∈ [0, 7, 8], ∀ own ∈ [true, false],
      runsIf (lined n own) i (fun x => decide (x.m = oneLane 0) &&
        plainHit (lined n own) x (x.ea (lined n own) 0 (.v 2) 0) && ((lined n own).lineAt x.g.world 24576).isSome == own &&
        decide (((lined n own).l2.getD ((lined n own).setOf 24576) []).length < 16) &&
        (((lined n own).l2.getD ((lined n own).setOf 24576) []).filter fun y =>
          !y.is x.g.world 24576 && y.hint == .el).length == n) = true) := by decide +kernel

/-- A copy of 32 bytes from global address 0 into the scratchpad, under tag 1, or the other way round. -/
def copyOf (out : Bool) : Copy := ⟨5, 2, 1, 0, out, false, 1, .no, 0, 0, 32, [24576], [], [], 0⟩

/-- The copy stands in the engine of core 0. -/
def copying (c : Copy) : State :=
  (onW fun w => { w with tags := [(1, ⟨1, none⟩)] }).onCore 0 fun k => { k with copies := [c] }

/-- The copy's hypotheses, but for its direction. -/
def copySound (s : State) : Bool :=
  match s.copyHead 5 with
  | none => false
  | some (n, c) => (s.groups.find c.gid).isSome && (s.warps.find c.w).isSome && s.copyFree n c c.count && (s.copyFirst c 0 c.count).isNone &&
      decide (c.soff % 16 = 0 ∧ c.n % 16 = 0 ∧ c.va % 16 = 0) && (c.pas.all fun p => p % 4096 == 0) &&
      ((upTo 0 c.n).all fun k => c.pa k == 24576 + k) && (upTo 0 (cnvGlobal c.cnv c.n)).all fun k => !s.unscr (c.pa k)

theorem witness_Copies :
    runsIf (withK [0, 0, 0, 0, 32]) (.tcopy P false false 1 .no (.k 0) (.k 2) (.k 4)) (fun x =>
      let s := withK [0, 0, 0, 0, 32]
      (copyBad x .no 0 0 32).isNone && x.wp.drained && (s.core x.wp.core).copies.isEmpty &&
      (let rs := (x.trAll 1 .r false false ((pagesOf 0 (cnvGlobal .no 32)).map fun p => (lowLane x.m, p)) s).1
       (worstOf rs).isNone && (heldOf rs).isNone) &&
      (x.reg s (lowLane x.m) (.k 4) 0).toNat == 32) = true ∧
    runsIf (withK [0, 0, 0, 0, 31]) (.tcopy P false false 1 .no (.k 0) (.k 2) (.k 4)) (fun x =>
      (copyBad x .no 0 0 31).isSome && stopsGroup x) = true ∧
    runsIf start (.tcwait P 1) (fun x => x.wp.tags.getD 1 Tag.idle == ⟨0, none⟩) = true ∧
    runsIf (copying (copyOf false)) (.tcwait P 1) (fun x => (x.wp.tags.getD 1 Tag.idle).out != 0) = true ∧
    runsIf (onW fun w => { w with tags := [(1, ⟨0, some (11, 16)⟩)] }) (.tcwait P 1) (fun x =>
      x.wp.tags.getD 1 Tag.idle == ⟨0, some (11, 16)⟩ && stopsGroup x) = true ∧
    copySound (copying (copyOf false)) = true ∧ copySound (copying (copyOf true)) = true ∧
    (let s := copying { copyOf false with bad := [(0, 11)] }
     ((s.copyHead 5).map fun e => (s.copyFirst e.2 0 e.2.count, s.copyFree e.1 e.2 0)) = some (some (0, 11), true)) := by decide +kernel

/-- The context of world 0 with a quota of q entries. -/
def quota (q : Nat) : State := start.onCtx 0 fun c => { c with qs := q }

/-- Launches that wait in the device launch queue of world 0. -/
def manyLaunches : State :=
  let s := quota 1000
  { s with launches := s.launches ++ (upTo 10 64).map fun n => (n, { placeLaunch with st := .waiting }) }

/-- The address in the registers v4 and v5, 0, passes the checks of klaunch. -/
def recordOk (s : State) (x : Iss) : Bool :=
  x.wp.drained && passes s x [lowLane x.m] 256 .r false (fun _ => (x.reg64 s (lowLane x.m) (.v 4) 0).toNat) &&
    plainHit s x 0

theorem witness_DeviceLaunches :
    runsIf start (.fslot P 3 (.k 8)) (fun _ => true) = true ∧
    runsIf storing (.klaunch P (.v 8) (.v 4)) (fun x => !x.wp.drained) = true ∧
    runsIf (quota 1) (.klaunch P (.v 8) (.v 4)) (fun x => recordOk (quota 1) x &&
      ((quota 1).outstanding x.g.world == (quota 1).quota x.g.world)) = true ∧
    runsIf manyLaunches (.klaunch P (.v 8) (.v 4)) (fun x => recordOk manyLaunches x &&
      manyLaunches.outstanding x.g.world != manyLaunches.quota x.g.world && manyLaunches.devQueued x.g.world == 64) = true ∧
    runsIf (quota 1000) (.klaunch P (.v 8) (.v 4)) (fun x => recordOk (quota 1000) x &&
      (quota 1000).outstanding x.g.world != (quota 1000).quota x.g.world && (quota 1000).devQueued x.g.world != 64) =
      true := by decide +kernel

/-- Format slot 2 holds FP16 times FP16. -/
def formatted : State := onR fun r => { r with slots := r.slots.set 2 ([12, 12] ++ List.replicate 14 0) }

/-- formatted, with the descriptor of a scratchpad tile at 0 in k4 and k5. -/
def fragments : State := formatted.onWarp 2 fun w => w.setK 5 0x80000000

/-- The mma of the tests. -/
def mmaWord : Instr := .mma P 2 .all false false 0 5 32 4

/-- The slot is not empty, and the active descriptors are legal. -/
def soundMma (s : State) (x : Iss) : Bool :=
  !slotEmpty (x.slotBytes 2) && (activeQuarters x.m).all fun q => !descBad (mfmt (x.slotBytes 2)).nq (x.desc s .all 4 q)

/-- The instructions of the matrix engine that name tile 5, and tile 6. -/
def tileWords : List Instr :=
  [.mmz P 5, .accmov P 5 6, .accld P .f32 false 5 (.v 16), .accld P .f16x2 true 5 (.v 16),
    .accst P .bf16x2 false false .rn 5 (.v 16), .accst P .f32 true true .rn 5 (.v 16)]

theorem witness_MatrixIssue :
    (∀ i ∈ tileWords, runsIf start i (fun x => decide (5 < 8 * x.ln.rc.acc ∧ 6 < 8 * x.ln.rc.acc)) = true) ∧
    (∀ i ∈ [Instr.mmstat P .pin (.k 8), .tfetch P 4, .tunpin P 4], runsIf start i (fun _ => true) = true) ∧
    runsIf fragments mmaWord (fun x => soundMma fragments x && !partialQuarter x.m && decide (5 < 8 * x.ln.rc.acc)) = true ∧
    runsIf start mmaWord (fun x => slotEmpty (x.slotBytes 2) && stopsGroup x) = true ∧
    (let s := formatted.onWarp 2 fun w => w.setK 5 0x40000000
     runsIf s mmaWord (fun x => !slotEmpty (x.slotBytes 2) && !soundMma s x && stopsGroup x) = true) ∧
    runsIf (lane0 fragments) mmaWord (fun x => soundMma (lane0 fragments) x && partialQuarter x.m && stopsGroup x) = true ∧
    (let s := fragments.onLaunch 0 fun x => { x with rc := { x.rc with acc := 0 } }
     runsIf s mmaWord (fun x => soundMma s x && !partialQuarter x.m && stopsGroup x && decide ¬(5 < 8 * x.ln.rc.acc)) =
       true) ∧
    (∀ i ∈ tileWords, runsIf (onR fun r => { r with acc := 0 }) i (fun x => stopsGroup x &&
      decide ¬(5 < 8 * x.ln.rc.acc)) = true) ∧
    runsIf (onR fun r => { r with acc := 1 }) (.accmov P 5 8) (fun x => stopsGroup x &&
      decide (5 < 8 * x.ln.rc.acc ∧ ¬(8 < 8 * x.ln.rc.acc))) = true := by decide +kernel

/-- The word i waits in s since a cycle for a reason, and its core's clock stands at 2^22. -/
def waiting (s : State) (i : Instr) (k : WKindW) (stat : Tbl Nat) (sat : Bool) (since : Nat) : State :=
  let s := (s.onLanes 2 all32 fun _ ln => { ln with wait := some 9, since := since }).onCore 0 fun c =>
    { c with clk := 2 ^ 22 }
  { s with cur := none, waits := [(9, ⟨2, i, all32, 64, since, k, stat, sat⟩)] }

/-- The waiting instruction of s may take effect as an issue that meets p. -/
def wakes (s : State) (p : Iss → Bool) : Bool :=
  match s.waits.find 9, s.issWait 9 with
  | some y, some x => decide (s.power ≠ .off) && s.runs y.w && (s.core x.wp.core).gate == .open && p x
  | _, _ => false

/-- The word i stands alone in the matrix engine of core 0. -/
def inEngine (s : State) (i : Instr) (vals : List (List Word)) (addrs : List Nat) : State :=
  (waiting s i .matrix [] false 0).onCore 0 fun c => { c with matq := [⟨9, 2, vals, addrs, []⟩] }

/-- engineHead holds of the engine of core 0. -/
def atHead (s : State) (p : Iss → Bool) : Bool :=
  match (s.core 0).matq, s.waits.find 9, s.issWait 9 with
  | op :: _, some y, some x => decide (s.power ≠ .off ∧ op.q = 9 ∧ y.kind = .matrix) && s.matReady y op x && p x
  | _, _, _ => false

/-- Entry n of core 0's pin table holds descriptor 0 for the group; the others hold descriptors of their own. -/
def pinned (s : State) (n : Nat) : State :=
  s.onCore 0 fun c => { c with pins := (upTo 0 16).map fun k => ⟨0, 1, if k = n then 0 else 64 * (k + 1), true, [], [], []⟩ }

theorem witness_MatrixWork :
    (∀ i ∈ [Instr.mmz P 5, .accmov P 5 6, .accld P .f32 false 5 (.v 16), .accst P .bf16x2 false false .rn 5 (.v 16),
      .mmstat P .busy (.k 8), .tunpin P 4], atHead (inEngine start i [] []) (fun _ => true) = true) ∧
    atHead (inEngine start (.tfetch P 4) [] [2 ^ 63]) (fun _ => descSp (2 ^ 63)) = true ∧
    atHead (inEngine start (.tfetch P 4) [] [0]) (fun x => !descSp 0 &&
      decide (((inEngine start (.tfetch P 4) [] [0]).core x.wp.core).pinsHeld < 16)) = true ∧
    (let s := pinned (inEngine start (.tfetch P 4) [] [0]) 3
     atHead s (fun x => !descSp 0 && (s.core x.wp.core).pinsHeld == 16 &&
       (s.core x.wp.core).pins.any fun p => p.names x.g.world x.wp.gid 0 && p.held) = true) ∧
    (let d := 0x80000000 * 2 ^ 32
     atHead (inEngine fragments mmaWord [] [d, d, d, d]) (fun x => (activeQuarters x.m).all fun _ =>
       descSp d && (x.descAlign false 64 d).isNone && mfmt (x.slotBytes 2) == ⟨.f16, .f16, 0, 0, 0⟩) = true) := by
  decide +kernel

/-! ### Witnesses: pages and units -/

/-- Pair 0 belongs to world 0. -/
def withPair (vs : List Nat) : State := { withK vs with pubTab := [(0, ⟨0, false⟩)] }

/-- The first page of world 0 is a page of tile 0 of a Sinter region, in a state. -/
def sinter (st : SState) : State :=
  let s := lane0 start
  { s with
    mem := memSets s.mem 20480 (leBytes 8 (24576 + 3103))
    regions := [⟨0, 0, 0, 0, 0, [⟨st, 4, [], 0, false, false, false⟩]⟩] }

/-- What the page instructions find at the addresses in v2 and v3. -/
def onTilesOf (s : State) (x : Iss) : List LReq :=
  (x.trAll 1 .none false false ((maskLanes x.m).map fun l => (l, (x.reg64 s l (.v 2) 0).toNat)) s).1

theorem witness_Pages :
    runsIf (withPair [0, 1]) (.publish P (.k 0) (.k 1)) (fun x => x.wp.drained && x.wp.shd == 0 &&
      (withPair [0, 1]).pairOf x.g.world 0 && (x.reg (withPair [0, 1]) (lowLane x.m) (.k 1) 0).toNat == 1) = true ∧
    (let s := (withPair [0, 1]).onWarp 2 fun w => { w with shd := 1 }
     runsIf s (.publish P (.k 0) (.k 1)) (fun x => x.wp.shd != 0 && s.pairOf x.g.world 0) = true) ∧
    runsIf (withPair [4096, 1]) (.publish P (.k 0) (.k 1)) (fun x => stopsGroup x &&
      decide (4096 < (x.reg (withPair [4096, 1]) (lowLane x.m) (.k 0) 0).toNat + 1)) = true ∧
    runsIf (withPair [0, 2]) (.publish P (.k 0) (.k 1)) (fun x => stopsGroup x &&
      !(withPair [0, 2]).pairOf x.g.world 1 && (withPair [0, 2]).pairOf x.g.world 0) = true ∧
    (∀ st ∈ [SState.absent, .resident, .leaving], ∀ i ∈ [Instr.sfetch P (.v 2), .sevict P (.v 2), .sstat P (.v 8) (.v 2)],
      runsIf (sinter st) i (fun x => decide (x.m = oneLane 0) && x.wp.drained &&
        (heldOf (onTilesOf (sinter st) x)).isNone && (onTilesOf (sinter st) x).map LReq.tile == [some (0, 0)]) = true) ∧
    runsIf storing (.sevict P (.v 2)) (fun x => !x.wp.drained) = true ∧
    runsIf (lane0 start) (.sstat P (.v 8) (.v 2)) (fun x => decide (x.m = oneLane 0) &&
      (heldOf (onTilesOf (lane0 start) x)).isNone && (onTilesOf (lane0 start) x).map LReq.tile == [none]) = true ∧
    (let s := { sinter .absent with warm := [(0, ⟨2, 0, false⟩)] }
     ∀ i ∈ [Instr.sfetch P (.v 2), .sevict P (.v 2), .sstat P (.v 8) (.v 2)], runsIf s i (fun x => x.wp.drained &&
       (heldOf (onTilesOf s x)).isSome) = true) := by decide +kernel

/-- The upper core of the column of core 0 changed. -/
def upper (f : Core → Core) : State := start.onCore 1 f

theorem witness_Units :
    (∀ i ∈ [Instr.rflv P (.v 8), .bstat P (.v 8), .wrec P .hsu (.v 8) (.v 2)], runsIf start i (fun _ => true) = true) ∧
    (∀ v ∈ [1, 4095], runsIf (withV [v]) (.boost P 2 (.v 8) (.v 0)) (fun x =>
      (x.reg (withV [v]) (lowLane x.m) (.v 0) 0).toNat == v) = true) ∧
    (∀ v ∈ [0, 4096], runsIf (withV [v]) (.boost P 2 (.v 8) (.v 0)) (fun x => stopsGroup x &&
      (x.reg (withV [v]) (lowLane x.m) (.v 0) 0).toNat == v) = true) ∧
    (∀ i ∈ [Instr.pgateOn P (.v 8), .pgateOff P (.v 8)], ∀ f ∈ [fun c : Core => { c with drain := true }, id,
      fun c => { c with matq := [⟨9, 3, [], [], []⟩] }, fun c => { c with gate := .pending 1 },
      fun c => { c with gate := .gated 1 5 }], runsIf (upper f) i (fun _ => true) = true) ∧
    start.quiet 1 = true ∧ (upper fun c => { c with matq := [⟨9, 3, [], [], []⟩] }).quiet 1 = false ∧
    start.otherWorld 0 1 = false := by decide +kernel

/-! ### Witnesses: accesses in flight and waits -/

/-- A unit of one word at the first address of the code page. -/
def unit0 : Acc := ⟨0, 0, 24576, 4, [1, 2, 3, 4], 0, 0, false, none, none⟩

/-- Access 5 of a kind of the warp, with n units. -/
def flying (k : TxKind) (i : Instr) (us : List Acc) (owed : Nat) : State :=
  { start with txns := [(5, ⟨2, 0, 0, k, i, 1, 64, us, [], owed, [], [], none⟩)] }

/-- The load of the tests. -/
def loadWord : Instr := .ld P .b32 .no .x1 (.v 8) (.v 2) 0

/-- The unit of access 5 may be performed now, over no copy in the L1; whether it leaves another. -/
def ready (s : State) (k : TxKind) : Option Bool :=
  match s.unitNow 5 0 k with
  | none => none
  | some (t, a) =>
    if decide (s.power ≠ .off) && (s.core t.core).gate == .open && a.port.isNone && t.q.isNone && s.elemOk 5 t a &&
        ((t.with a).all fun b => ((s.core t.core).l1.find (l1Key t.world b.pa)).isNone &&
          decide (b.pa % 32 + b.n ≤ 32 ∧ b.pa % 32 + b.data.length ≤ 32)) && (s.warps.find t.w).isSome then
      some !(t.done (t.with a)).units.isEmpty
    else none

/-- The load fails whole with LINK_UNAVAILABLE. -/
def failing : State := flying .load loadWord [{ unit0 with err := some 11 }] 0

theorem witness_MemoryEvents :
    ready (flying .load loadWord [unit0, { unit0 with idx := 32, va := 32, pa := 24608 }] 0) .load = some true ∧
    ready (flying .load loadWord [unit0] 0) .load = some false ∧
    ready (flying .store (.st P .b32 .no .x1 (.v 8) (.v 2) 0) [unit0] 1) .store = some false ∧
    ready (flying .atomic (.red P .n32 .add .no (.v 8) (.v 2) 0) [unit0] 1) .atomic = some false ∧
    ((flying .store (.st P .b32 .no .x1 (.v 8) (.v 2) 0) [] 1).txns.find 5).isSome = true ∧
    (match failing.txns.find 5 with
      | none => false
      | some t => failing.allFailed 5 t && failing.worstUnit t t.units == some (11, 0, 0) && t.q.isNone &&
          match failing.issOf t with
          | none => false
          | some y => stopsGroup { y with m := t.takers }) = true ∧
    (1 : Nat) < 2 ^ Ty.bits .i32 := by decide +kernel

/-- Sets on their way, for flagclr: an element and a converting copy of the warp are in flight. -/
theorem witness_ControlRegisters_flying :
    (let s := (flying .atomic (.red P .n32 .add .no (.v 8) (.v 2) 0) [unit0] 1).onCore 0 fun k =>
       { k with copies := [{ copyOf false with cnv := .cvF32 }] }
     runsIf s (.flagclr P 7) (fun x => x.w == 2 && ((s.txns.find 5).map fun t => t.w) == some 2 &&
       (s.core x.wp.core).copies.any fun y => y.gid == x.wp.gid) = true) := by decide +kernel

/-- Granule 6, the code page, is to be scrubbed. -/
def dirty : State := { flying .load loadWord [unit0] 0 with unscrubbed := [(6, true)] }

theorem witness_WalksAndScrubs :
    (match start.walk 0 0 0 with
      | (.leaf l, _) => decide (l.addr + 8 ≤ hbmSize ∧ adBits l.ent true ≠ l.ent)
      | _ => false) = true ∧
    (match start.walk 0 0 (2 ^ 40) with
      | (.bad _, _) => true
      | _ => false) = true ∧
    dirty.toucher 6 = some 0 ∧ dirty.unscrubbed.getD 6 false = true := by decide +kernel

theorem witness_WaitsEnd_lanes :
    (match start.iss P with
      | none => false
      | some x => decide (start.power ≠ .off ∧ x.m ≠ 0) && x.q.isNone && stopsGroup x) = true ∧
    (let i := Instr.ldsp P .b32 .x1 true true (.v 8) (.v 2) 0
     let s := waiting fullSpad i .fe [] false 0
     wakes s (fun x => x.allFull (x.offs s (.v 2) 0) &&
       (maskLanes x.m).all fun l => !x.spBad (x.spOff s l (.v 2) 0) 4 4) = true) ∧
    (let i := Instr.ldsp P .b32 .x1 true true (.v 8) (.v 2) 0
     let s := waiting start i .fe [] false 0
     wakes s (fun x => ((s.waits.find 9).map fun y => feOk s y x) == some false && stopsGroup x &&
       decide (2 ^ 22 ≤ x.clk)) = true) ∧
    (let s := waiting start (.waita P 0 (.v 8) (.v 2) 0) .sleep [(0, 4)] false 0
     wakes s (fun x => s.compared 9 && decide (x.m ≠ 0 ∧ tmoCycles 0 ≤ x.clk)) = true) ∧
    (let s := waiting start (.tcwait P 1) .tcwait [] false 0
     wakes s (fun x => x.wp.tags.getD 1 Tag.idle == ⟨0, none⟩) = true) ∧
    (let s := waiting start (.tqpush P 1 (.k 4)) .tqpush [] false 0
     wakes s (fun x => (x.g.tq 1).slots != 0 && x.wp.drained && (x.g.tq 1).allow != 0) = true) ∧
    (let s := waiting (withQ ⟨4, [(5, 0)], 3⟩) (.tqpop P (.v 8) 1) .tqpop [] false 0
     wakes s (fun x => (x.g.tq 1).slots != 0 && x.wp.drained && (x.g.tq 1).content == [(5, 0)]) = true) ∧
    (let s := waiting start (.cntwait P (.v 0) (.v 2)) .counter [(0, 0), (1, 1)] true 0
     wakes s (fun x => (s.counterOf x.g.world (x.reg s (lowLane x.m) (.v 0) 0).toNat).isSome) = true) ∧
    (let s := waiting (atBar ⟨false, true, .no⟩) (.barWait P 1) .bar [(0, 1)] false 0
     wakes s (fun x => !x.wp.isTask && (x.wp.bar 1).done && (x.wp.bar 1).trp == .no && s.barWaits x.w 1 == [9]) = true) ∧
    (let s := waiting start (.ralloc P 3) .ralloc [] false 0
     wakes s (fun x => ((s.waits.find 9).map fun y => rallocOk s y x) == some true && !x.wp.held.getLsbD 3 &&
       decide (0 < s.freeBlocks x.wp.gid x.wp.core x.ln.rc)) = true) := by decide +kernel

theorem witness_WaitsEnd_ports :
    (let s := waiting (paired 0 2) (.vput P 0 (.v 8)) .vput [] false 0
     wakes s (fun x => x.g.pair && x.wp.tier == 0 && x.wp.drained && decide ((x.g.fifo 0).length < 16)) = true) ∧
    (let s := waiting (paired 2 1) (.vget P 2 (.v 8)) .vget [] false 0
     wakes s (fun x => x.g.pair && x.wp.tier != 1 && x.wp.drained && !(x.g.fifo 2).isEmpty) = true) ∧
    (let s := waiting start (.tfetch P 4) .tfetch [(5, 0)] false 0
     wakes s (fun x => (s.core x.wp.core).pins.isEmpty && decide ((s.core x.wp.core).pinsHeld < 16 ∧ 4096 ≤ x.clk)) =
       true) ∧
    (let s := (waiting start (.tfetch P 4) .tfetch [(5, 0)] false (2 ^ 22)).onGroup 1 fun g => { g with preempt := true }
     wakes s (fun x => x.g.preempt && (s.core x.wp.core).pins.isEmpty) = true) ∧
    (let s := waiting start (.feset P (.v 2) 0) .drain [] false 0
     wakes s (fun x => x.wp.drained && (maskLanes x.m).all fun l =>
       !x.spBad (x.spOff s l (.v 2) 0) 1 1 && decide (x.spOff s l (.v 2) 0 < 2 ^ 19)) = true) := by decide +kernel

/-- A record of the frame of lane 0 of the warp. -/
def helpRec : TRec := ⟨0, 3, 0, 3, 64, 0, ⟨2, 0, 0⟩, 0, 1, 0, ⟨0, 0, 0⟩⟩

/-- The lanes await a frame of n iterations. -/
def awaiting (n : Nat) : State := waiting (framed [⟨n, 0, false⟩]) (.await P (.v 8)) .await [] false 0

theorem witness_LanesWait :
    (match (awaiting 0).laneWaits 9 0 with
      | some (y, wp) => y.kind == .await && ((awaiting 0).core wp.core).gate == .open && wp.saved == 0 &&
          (wp.lane 0).frames == [⟨0, 0, false⟩]
      | none => false) = true ∧
    (let s := (awaiting 3).onCore 0 fun c => { c with recs := [helpRec] }
     ((s.helps 9 0).map fun e => (e.2.2, (e.2.1.lane 0).exited)) = some (helpRec, false) ∧ (s.core 0).gate = .open) ∧
    (let s := (awaiting 3).onWarp 2 fun w => { w with held := 8 }
     ((s.warps.find 2).map fun w => s.longIdle w && !s.stirs w && w.score.isEmpty && w.freeable != 0 && s.runs 2 &&
       (s.groups.find w.gid).isSome) = some true) ∧
    (∀ s ∈ [onW fun w => { w with saved := 8 }, (awaiting 0).onWarp 2 fun w => { w with saved := 8 }],
     ((s.warps.find 2).map fun w => w.saved != 0 && (!s.idle w || s.stirs w) &&
       decide (blockCount w.saved ≤ s.freeBlocks 1 0 placeRec) && (s.groups.find w.gid).isSome) = some true) ∧
    (let s := onW fun w => { w with score := [⟨1, 8, 1, none⟩] }
     ((s.warps.find 2).map fun w => (w.score.find? fun h => h.tx.isNone).isSome) = some true) := by decide +kernel

/-! ### Witnesses: groups, work and launches -/

/-- Partition 0 holds cluster 0, with all the power. -/
def part0 : Part := { Part.start with mask := 1, share := 2400 }

/-- start between two steps, with partition 0. -/
def idle : State := { start with cur := none, parts := [(0, part0)] }

/-- idle with the one launch and nothing resident; a launch of priority p has n of one group placed. -/
def placing (p n : Nat) : State :=
  { idle with groups := [], warps := [], launches := [(0, { placeLaunch with prio := p, next := n })] }

/-- A group of priority 0 fills core 0, and a launch of priority 3 waits for its place; column 0 alone is usable. -/
def crowded : State :=
  let rc := { placeRec with rf := 60 }
  let s := { idle with
    launches := [(0, { placeLaunch with rc := rc }), (5, { placeLaunch with rc := rc, prio := 3, next := 0, order := 5 })] }
  s.onCore 1 fun c => { c with drain := true }

/-- The group stops for a pre-emption, or for a fault. -/
def stoppingFor (f : Option Nat) : State :=
  let f := f.map fun c => (⟨{ cls := c, pc := 64, addr := 0, lanes := 1, perf := 0, lvl := 0, info := 0, warp := 0
                              dbl := false }, 0, 2, if c = 15 then all32 else 0, none, none, [2]⟩ : Pend)
  (idle.onGroup 1 fun g => { g with st := .stopping, preempt := f.isNone, pend := f }).onWarp 2 fun w =>
    { w with stopped := true }

/-- The group's record is posted, and it waits for a slot; or it is in slot 3. -/
def stopped (inPlace : Bool) : State :=
  let f : FRec := ⟨15, 64, 0, 1, 0, 0, 7, 0, false⟩
  idle.onGroup 1 fun g => { g with st := .stopped, inPlace := inPlace, frec := some f }

/-- The group is saved in slot 3, or resuming from it. -/
def inSlot (st : GState) : State :=
  let s := (idle.onGroup 1 fun g => { g with st := st, slot := some 3 }).onWarp 2 fun w =>
    if st = .saved then { w with core := 320 } else w
  { s with slots := [(3, ⟨.held, 0, some 1, []⟩)] }

theorem witness_Groups :
    (match State.candOf (placing 0 0).cands 0 with
      | some c => c.ng == .fresh && (placing 0 0).mayPlace (placing 0 0).cands c &&
          ((placing 0 0).launches.find c.lid).isSome
      | none => false) = true ∧
    (crowded.victimOf 1).isSome = true ∧ crowded.cstate 0 = .running ∧
    ((crowded.groups.find 1).map fun g => g.st) = some .resident ∧
    (∀ f ∈ [none, some 15, some 14], (stoppingFor f).takeSlot 0 = some 0 ∧ (stoppingFor f).groupQuiet 1 = true ∧
      (stoppingFor f).slotUp 0 = true ∧ (stoppingFor f).allStopped 1 = true ∧
      ((stoppingFor f).groups.find 1).isSome = true ∧ ((stoppingFor f).launches.find 0).isSome = true ∧
      (stoppingFor f).waits = []) ∧
    (let s := (stoppingFor (some 15)).onCtx 0 fun c => { c with allot := 0 }
     s.takeSlot 0 = none ∧ s.groupQuiet 1 = true) ∧
    ((stopped true).takeSlot 0 = some 0 ∧ (stopped true).groupQuiet 1 = true ∧ (stopped true).slotUp 0 = true) ∧
    (match (inSlot .saved).cands.find? fun c => c.ng == .saved 1 with
      | some c => (inSlot .saved).mayPlace (inSlot .saved).cands c
      | none => false) = true ∧
    ((inSlot .resuming).groups.find 1).map (fun g => (g.slot, g.preempt)) = some (some 3, false) ∧
    (inSlot .resuming).walkHeld 1 = false ∧ (inSlot .resuming).cstate 0 = .running := by
  decide +kernel

/-- A record of 32 iterations of launch 0 in the store of core 0. -/
def served : State :=
  { idle.onCore 0 fun c => { c with recs := [⟨0, 32, 0, 32, 64, 0, ⟨2, 0, 0⟩, 0, 1, 0, ⟨0, 0, 0⟩⟩] } with asks := [(0, 0)] }

/-- The page at virtual address 0 of world 0, with its leaf, as a ring holds it. -/
def codePage : HPage := ⟨24576, 0, 24576 + 2111, 20480⟩

/-- The hypervisor ring is ready for an event that core 0 holds; and an event for world 0. -/
def posting : State :=
  { idle with
    links := [(0, .active), (8, .active)], heq := ⟨4096, true, 1, 6, 0, 0⟩
    evq := [{ Event.blank with ring := 1024, src := 0 }, { Event.blank with ring := 0, src := 0 }]
    ctxs := idle.ctxs.mapV fun _ c => { c with eqlog2 := 6, eqpages := [codePage] } }

theorem witness_WorkAndEvents :
    (idle.canAsk 0 0 = true ∧ (0, 0) ∉ idle.asks ∧ idle.launches.map (fun e => e.1) = [0] ∧ idle.asksFirst 0 0 = true) ∧
    (served.asks.find? (served.served 0) = some (0, 0) ∧ ((served.serveRec 0 0).map fun e => e.2.hi) = some 32 ∧
      (served.groups.filter fun e => served.canHost 0 0 e).length = 1) ∧
    (∀ r ∈ [0, 1024], (posting.evq.find? fun e => e.src == 0 && e.ring == r).isSome = true) ∧
    (posting.hostUp = true ∧ (posting.heq.tail + 2 ^ 32 - posting.heq.head) % 2 ^ 32 ≠ 2 ^ posting.heq.log2n) ∧
    ((posting.ctxs.find 0).map fun c => (posting.postCtx 0 c { Event.blank with ring := 0, src := 0 }).isSome) =
      some true := by decide +kernel

/-- The one group that can host is the one chosen, whatever the free value. -/
theorem witness_WorkAndEvents_host : (served.hostFor 0 0).isSome = true := by
  have h : (served.groups.filter fun e => served.canHost 0 0 e) = [(1, placeGroup)] := by decide +kernel
  simp [State.hostFor, h, Nat.mod_one]

/-- The bytes of a table, by place. -/
def bytesAt (n : Nat) (t : Tbl Nat) : List Byte := (upTo 0 n).map fun k => BitVec.ofNat 8 (t.getD k 0)

/-- A launch record that passes the checks of R253: one group of one warp on column 0, with its code at 64; or with no
group in one direction. -/
def recordBytes (ny : Nat) : List Byte :=
  bytesAt 256 [(0, 64), (8, 64), (20, 1), (22, 16), (24, 16), (25, 1), (26, 1), (32, 1), (36, ny), (40, 1), (44, 64),
    (48, 1), (49, 1)]

/-- idle with all links ACTIVE. -/
def linked : State := { idle with links := (upTo 0 17).map fun n => (n, .active) }

/-- A launch of a kernel waits, with its copy of the record. -/
def queuedLaunch (ny : Nat) : State :=
  { linked with
    groups := [], warps := []
    launches := [(6, { placeLaunch with copy := recordBytes ny, st := .waiting, next := 0 })] }

/-- The launch of queuedLaunch may start, and its checks answer p. -/
def checks (ny : Nat) (p : Chk → Bool) : Bool :=
  match (queuedLaunch ny).launches.find 6 with
  | none => false
  | some x => x.st == .waiting && (queuedLaunch ny).mayStart 6 x &&
      p (((queuedLaunch ny).startChecking 6 x).checkLaunch 6 x).1

/-- The launch has drained. -/
def drained : State :=
  { linked with groups := [], warps := [], launches := [(0, { placeLaunch with st := .draining, retired := 1 })] }

/-- A queue entry of a kind, with its status word at 48. -/
def entryState (kind : Nat) (st : EState) (a b c : Nat) : State :=
  { idle with links := [(0, .active)], entries := [(4, ⟨0, 0, 0, kind, false, true, 9, 48, a, b, c, st, 0, none, false⟩)] }

/-- The entry of a state meets p. -/
def entryIs (s : State) (p : Entry → Bool) : Bool := ((s.entries.find 4).map p).getD false

theorem witness_Launches :
    checks 1 (fun r => match r with
      | .pass _ => true
      | _ => false) = true ∧
    checks 0 (fun r => match r with
      | .fail 4 36 => true
      | _ => false) = true ∧
    (match drained.launches.find 0 with
      | some x => x.st == .draining && x.retired == x.rc.total &&
          (((drained.writeBack x.world).onLaunch 0 fun x => { x with st := .completing }).wordsReady x).1
      | none => false) = true ∧
    entryIs (entryState 2 .waiting 0 64 16) (fun e => (entryState 2 .waiting 0 64 16).canStart 4 e) = true ∧
    entryIs (entryState 2 .started 0 64 16) (fun e => ((entryState 2 .started 0 64 16).writeReady 0 e.status).1 &&
      match ((entryState 2 .started 0 64 16).writeReady 0 e.status).2.entryUnits 0 0 64 16 1 e.moved with
      | (.done, _, _) => true
      | _ => false) = true ∧
    entryIs (entryState 3 .waiting 0 7 0) (fun e => (entryState 3 .waiting 0 7 0).canStart 4 e &&
      ((entryState 3 .waiting 0 7 0).earlier 4 e).isEmpty && (entryState 3 .waiting 0 7 0).counterOf 0 e.a == some 0) = true ∧
    entryIs (entryState 4 .started 0 0 0) (fun e => decide (e.b ≤ (entryState 4 .started 0 0 0).counter 0) &&
      ((entryState 4 .started 0 0 0).writeReady 0 e.status).1) = true ∧
    entryIs (entryState 4 .started 0 7 0) (fun e => !e.sat && decide ((entryState 4 .started 0 7 0).counter 0 < e.b)) = true := by
  decide +kernel

/-- A queue of 16 entries at 0. -/
def ringQ : SubQ := ⟨0, 4, 0, false, [codePage]⟩

/-- The host link and that of die 0 are ACTIVE, and world 0 has a queue of 16 entries at 0. -/
def hosted : State :=
  { idle with
    links := [(0, .active), (8, .active)]
    ctxs := idle.ctxs.mapV fun _ c => { c with qs := 8, sqs := [(0, ringQ)] } }

theorem witness_HostAccesses :
    hosted.hostOk = true ∧ hosted.mbox = [] ∧ hosted.cstate 0 = .running ∧ hosted.queueOut 0 0 = 0 ∧
    ((hosted.ctxs.find 0).bind fun c => c.sqs.find 0) = some ringQ ∧
    hosted.ringAway 0 ringQ 0 1 = false ∧
    (match hosted.engineAt 0 0 .w with
      | (.ok pa, _) => pa == 24576
      | _ => false) = true ∧
    (match hosted.engineAt 0 0 .r with
      | (.ok pa, s) => pa == 24576 && !s.unscr pa
      | _ => false) = true ∧
    hosted.gcq.en = false ∧ (4 ≤ 0x80000004 % 32 ∧ 0x80000004 % 32 ≤ 12 ∧ bitAt 0x80000004 31 = true) ∧
    (6 ≤ 0x80000006 % 32 ∧ 0x80000006 % 32 ≤ 16 ∧ bitAt 0x80000006 31 = true) := by decide +kernel

/-! ### Witnesses: commands -/

/-- Command 20, of a code, has been taken from the ring. -/
def commanded (s : State) (code : Nat) (args : List Nat) (st : CmdSt) (flags : Nat) : State :=
  { s with cmds := [(20, ⟨0, code, flags, 0, 7, 64, args, st, 0, 0, 0, [], none⟩)] }

/-- The command may start (cmdStarts), and its fields from operand n on are sound (cmdSound). -/
def soundCmd (s : State) (code n : Nat) (args : List Nat) : Bool :=
  let s := commanded s code args .taken 0
  match s.cmds.find 20 with
  | none => false
  | some c => s.running && decide (c.code = code ∧ c.flags < 4 ∧ c.rsv = 0 ∧ c.compl % 32 = 0 ∧ c.blk = none) &&
      s.cmdReady 20 c && (upTo n (6 - n)).all fun j => c.arg j == 0

/-- The machine of such a command, with its block of n bytes at 64 read. -/
def readBlock (s : State) (code : Nat) (args : List Nat) (n : Nat) : State :=
  loaded (commanded s code args .taken 0) 20 (memBytes s.hostMem 64 n)

/-- The ring holds a command. -/
def ringed : State := { hosted with gcq := ⟨4096, true, 0, 4, 1, 0⟩ }

/-- linked with the share of partition 0 set. -/
def shared (n : Nat) : State := { linked with parts := [(0, { part0 with share := n })] }

/-- A second partition, of cluster 1, that no context and no group uses. -/
def twoParts : State := { linked with parts := [(0, part0), (1, { Part.start with mask := 2 })] }

/-- A command of an object has been taken, and its completion may be written. -/
def ending (code : Nat) (args : List Nat) (st : CmdSt) (p : State → Cmd → Bool) : Bool :=
  let s := commanded linked code args st 0
  match s.cmds.find 20 with
  | none => false
  | some c => s.power != .off && s.hostUp && c.compl % 32 == 0 && c.st == st && p s c

theorem witness_CommandRing_ring :
    (ringed.running && ringed.gcq.en && ringed.hostUp && decide (ringed.gcq.head ≠ ringed.gcq.tail)) = true ∧
    (let s := commanded linked 0x11 [0] .taken 4
     s.running = true ∧ (s.cmds.find 20).map (fun c => s.cmdReady 20 c && decide (4 ≤ c.flags)) = some true) ∧
    ending 0x11 [0] .ended (fun _ _ => true) = true ∧
    ending 0x30 [0, 0, 4096] .started (fun s c => s.cmdDone c == some 0) = true ∧
    ending 0x77 [] .taken (fun s c => s.cmdReady 20 c && !cmdCodes.contains c.code) = true := by decide +kernel

theorem witness_CommandRing_partition :
    (soundCmd linked 0x01 3 [0, 1, 5] = true ∧ linked.clusterOk = BitVec.allOnes 40 ∧
      ((shared 600).railsFor [(0, { part0 with share := 600, weight := 5 })]).isSome = true ∧
      ((shared 2400).railsFor [(0, { part0 with weight := 5 })]).isNone = true) ∧
    (soundCmd twoParts 0x01 3 [1] = true ∧ twoParts.busyCluster 1 = false ∧ ∀ e ∈ twoParts.ctxs, e.2.part ≠ 1) := by
  decide +kernel

theorem witness_CommandRing_shares :
    (∀ n ∈ [0, 600], soundCmd linked 0x02 2 [0, n] = true ∧
      (linked.railsFor [(0, { part0 with share := n })]).isSome = true) := by decide +kernel

theorem witness_CommandRing_others :
    soundCmd linked 0x03 3 [0, 7, 3200] = true ∧ soundCmd linked 0x04 2 [0, 2 ^ 20] = true ∧
    (soundCmd { linked with ctxs := [] } 0x05 1 [1024] = true ∧ ({ linked with ctxs := [] } : State).slotsHeld = 0) ∧
    (soundCmd linked 0x50 4 [4096, 0, 0, 1] = true ∧ soundCmd linked 0x50 4 [0, 0, 65535, 65536] = true ∧
      linked.hostUp = true) ∧
    soundCmd linked 0x51 0 [] = true := by decide +kernel

/-- linked with the context of world 0 in a state, and its key slot too. -/
def inState (st : CState) (k : KState) : State :=
  { linked with ctxs := linked.ctxs.mapV fun _ c => { c with st := st }, keys := [(0, ⟨k, 1⟩)] }

/-- The configuration block of a context on partition 0 with one queue of 16 entries, under the tables of world 0. -/
def blockBytes : List Byte :=
  bytesAt 256 [(1, 6), (4, 16), (9, 16), (24, 100), (28, 4), (32, 1), (72, 4)]

/-- Bytes stand in host memory at 64. -/
def hostHolds (s : State) (bs : List Byte) : State := { s with hostMem := memSets [] 64 bs }

/-- No group and no entry runs: all that CONFIGURE asks of world 1. -/
def configurable : State := hostHolds { linked with keys := linked.keys ++ [(1, ⟨.valid, 1⟩)] } blockBytes

/-- A slot that holds the group. -/
def slotted : State :=
  { (stopped false).onGroup 1 (fun g => { g with slot := some 3 }) with slots := [(3, ⟨.held, 0, some 1, []⟩)] }

/-- Its pages could be walked. -/
def pagesFound {α : Type} : Pages α → Bool
  | .ok _ => true
  | _ => false

theorem witness_CommandEffects_states :
    (∀ e ∈ [(0x11, CState.configured), (0x12, .locked), (0x14, .suspended), (0x13, .running), (0x15, .running)],
      soundCmd (inState e.2 .valid) e.1 1 [0] = true ∧ (inState e.2 .valid).cstate 0 = e.2) ∧
    (soundCmd (inState .running .valid) 0x11 1 [0] = true ∧ soundCmd (inState .running .valid) 0x12 1 [1023] = true) ∧
    (let t := readBlock configurable 0x10 [1, 64] 256
     let bs := memBytes configurable.hostMem 64 256
     soundCmd configurable 0x10 2 [1, 64] = true ∧ configurable.cstate 1 = .free ∧ configurable.hostUp = true ∧
       firstBad (t.blockLimits bs) = none ∧ t.blockFits 1 bs = true ∧
       pagesFound ((t.underRoot 1 (recField bs 8 8)).blockQueues 1 bs) = true ∧
       pagesFound ((t.underRoot 1 (recField bs 8 8)).pagesOf 1 (recField bs 16 8) (64 * 2 ^ recField bs 1 1) .w) = true ∧
       configurable.entries = [] ∧ ∀ e ∈ configurable.launches, e.2.world ≠ 1) ∧
    (soundCmd (inState .configured .empty) 0x16 2 [0, 64] = true ∧ (inState .configured .empty).keyOpen 0 = true ∧
      ((inState .configured .empty).ctxs.find 0).map (fun c => c.prot) = some false) ∧
    (∀ code ∈ [0x20, 0x21], soundCmd slotted code 2 [0, 3] = true ∧ (slotted.groups.find 1).isSome = true) := by
  decide +kernel

theorem witness_CommandEffects_objects :
    soundCmd linked 0x30 3 [0, 4096, 4096] = true ∧
    (soundCmd linked 0x31 3 [0, 4094, 2] = true ∧ linked.pubTab = [] ∧ linked.fixedCtx 0 = false) ∧
    (let s := hostHolds linked (bytesAt 64 [(2, 1), (8, 1), (25, 1), (33, 1)])
     let bs := memBytes s.hostMem 64 64
     soundCmd s 0x32 2 [0, 64] = true ∧ firstBad (regionLimits bs) = none ∧
     (match (readBlock s 0x32 [0, 64] 64).readCaps 0 (recField bs 32 8) (recField bs 8 4) with
       | (.bytes caps, t) => caps.all (fun b => decide (b.toNat ≤ 63)) && recField bs 40 24 == 0 && !t.regionBusy 0 bs &&
           !t.fixedCtx 0
       | _ => false) = true) ∧
    (soundCmd linked 0x33 2 [24576, 4096] = true ∧ linked.badFrame 24576 4096 = false) ∧
    (let s := hostHolds linked (bytesAt 32 [(2, 0x20), (10, 0x20), (24, 3), (26, 7)])
     let bs := memBytes s.hostMem 64 32
     soundCmd s 0x34 3 [0, 64, 1] = true ∧ firstBad (windowLimits bs 0) = none ∧ windowsMeet [windowOfBytes bs 0] = false ∧
     s.regions = []) := by decide +kernel

theorem witness_CommandEffects_links :
    (soundCmd linked 0x40 1 [0] = true ∧ soundCmd linked 0x40 1 [3] = true ∧ linked.warm = [] ∧
      ∀ n ∈ upTo 0 8, linked.link n = .active) ∧
    soundCmd { linked with warm := [(1, ⟨1, 0, false⟩)] } 0x40 1 [0] = true ∧
    (∀ n ∈ [0, 8, 16], ∀ st ∈ [LkState.active, .down],
      let s := { linked with links := linked.links.put n st }
      soundCmd s 0x41 1 [linkSource n] = true ∧ linkOf (linkSource n) = some n ∧ s.link n = st) ∧
    (∀ st ∈ [LkState.active, .down, .retraining, .quiescing, .resetting],
      let s := { linked with links := linked.links.put 16 st }
      soundCmd s 0x42 1 [7] = true ∧ s.link (portLink 7) = st) := by decide +kernel

/-! ### Witnesses: messages, contexts, links and dies -/

/-- Session 0 is established, session 1 is not, and the context of world 0 is in a state. -/
def talking (st : CState) (prot : Bool) : State :=
  { linked with
    spdm := ⟨true, true, true, [(0, true), (1, false)]⟩
    ctxs := linked.ctxs.mapV fun _ c => { c with st := st, prot := prot } }

theorem witness_Messages :
    (∀ st ∈ [CState.configured, .locked, .running, .suspended, .error], (talking st true).listens = true ∧
      (talking st true).cstate 0 = st) ∧
    (talking .running true).spdm.sessions.find 0 = some true ∧ (talking .running true).spdm.sessions.find 1 = some false ∧
    (talking .running true).spdm.sessions.find 2 = none ∧ (talking .running true).spdm.version = true ∧
    (talking .running true).spdm.caps = true ∧ (talking .running true).spdm.algos = true ∧
    (talking .configured false).keyByTsm 0 = true ∧ linked.listens = true ∧ linked.spdm.version = false ∧
    linked.spdm.caps = false ∧ linked.spdm.algos = false ∧ linked.keyByTsm 0 = false := by decide +kernel

theorem witness_ContextEvents :
    (∀ st ∈ [CState.locked, .running, .suspended], (inState st .valid).power ≠ .off ∧ (inState st .valid).cstate 0 = st ∧
      ((inState st .valid).key 0).st = .valid) ∧
    (inState .configured .revoked).cstate 0 = .configured ∧ ((inState .configured .revoked).key 0).st = .revoked ∧
    (((talking .running true).ctxs.find 0).map fun c => c.prot) = some true ∧
    (((talking .departing true).ctxs.find 0).map fun c => c.st) = some .departing ∧
    (talking .running true).running = true ∧ (talking .running true).link hostLink ≠ .down ∧
    0 ∈ (talking .running true).protectedFns ∧ 0 ∉ (talking .running false).protectedFns ∧
    (let s := { talking .locked true with ide := [(63, ⟨[0], 5⟩)] }
     s.ide.find 63 = some ⟨[0], 5⟩ ∧ s.ide.find 0 = none ∧ s.streamErrs 63 [] = [0]) := by decide +kernel

/-- linked with link n in a state. -/
def withLink (n : Nat) (st : LkState) : State := { linked with links := linked.links.put n st }

/-- Die 0 keeps only its link n, which retrains. -/
def lastLink (n : Nat) : State :=
  { linked with links := ((linked.links.put 0 .down).put 4 .down).put n .retraining }

theorem witness_Links :
    (∀ n ∈ [0, 8, 9, 16], (withLink n .resetting).link n = .resetting ∧ (withLink n .resetting).resetDie n = none) ∧
    (State.reset.power = .selfTest ∧ State.reset.running = false ∧ State.reset.link 0 = .down) ∧
    (∀ n ∈ [8, 16], (withLink n .down).running = true ∧ (withLink n .down).link n = .down ∧
      (withLink n .down).resetDie n = none) ∧
    (let s := { withLink 0 .resetting with warm := [(0, ⟨6, 0, false⟩)] }
     s.link 0 = .resetting ∧ s.resetDie 0 = some (0, ⟨6, 0, false⟩)) ∧
    (∀ n ∈ [0, 8, 9, 16], linked.link n = .active ∧ (withLink n .down).link n ≠ .active ∧
      (withLink n .retraining).link n = .retraining) ∧
    ((lastLink 6).link 6 = .retraining ∧ (lastLink 6).running = true ∧ 0 ∉ ((lastLink 6).moveLink 6 .down).joinedDies ∧
      0 ∉ (lastLink 6).dead ∧ (lastLink 6).warm.find 0 = none) ∧
    (∀ n ∈ [9, 16], (withLink n .quiescing).link n = .quiescing) ∧
    (∀ st ∈ [LkState.down, .resetting],
      let s := { withLink 16 st with time := 100000, portDown := [(7, 0)] }
      s.link (portLink 7) = st ∧ s.portDown.getD 7 0 + 100000 ≤ s.time) ∧
    linked.link (portLink 7) ≠ .down ∧ linked.link (portLink 7) ≠ .resetting := by decide +kernel

/-- Die 0 is in a step of its reset, with no group on it. -/
def resetting (step bad : Nat) : State :=
  { linked with warm := [(0, ⟨step, bad, false⟩)], groups := [], warps := [] }

/-- Die 0 is in a step of its reset, and its link 4 in a state; die 1 is cut off when die 0 has left the ring. -/
def besides (step : Nat) (st : LkState) : State :=
  { resetting step 0 with links := ((linked.links.put 1 .down).put 7 .down).put 4 st }

/-- The reset of die 1, and the link that it shares with die 0, after i. -/
def quiesced (s : State) (i : Instr) : Option (Option Warm × LkState) :=
  match exec i s with
  | .next u => some (u.warm.find 1, u.link 4)
  | _ => none

theorem witness_WarmReset :
    (∀ step ∈ [1, 2, 3, 4, 5, 6, 7], (resetting step 0).warm.find 0 = some ⟨step, 0, false⟩ ∧
      (resetting step 0).onDie 0 = []) ∧
    ({ linked with warm := [(0, ⟨1, 0, false⟩)] } : State).onDie 0 ≠ [] ∧
    (∀ st ∈ [LkState.active, .retraining], (besides 1 st).link 4 = st ∧
      quiesced (besides 1 st) (.warmResetQuiesce 0) = some (some ⟨4, 0, true⟩, .down)) ∧
    (quiesced (resetting 1 0) (.warmResetQuiesce 0) = some (none, .quiescing) ∧ (resetting 1 0).link 4 = .active) ∧
    ((besides 4 .down).deadEnd 0 4 = false ∧ ({ besides 4 .down with dead := [1] } : State).deadEnd 0 4 = true) ∧
    (0 < (resetting 5 0).spares.getD 0 0 ∧ 0 < (resetting 5 0).spares.length ∧ colDie 0 = 0) ∧
    (({ resetting 5 0 with spares := [0, 4, 4, 4] } : State).spares.getD 0 0 = 0) ∧
    ((besides 6 .resetting).link 4 = .resetting ∧ otherDie 0 4 = some 1 ∧ (besides 6 .resetting).warm.find 1 = none) ∧
    (0 ∉ (resetting 6 0).dead ∧ (resetting 6 7).warm.find 0 = some ⟨6, 7, false⟩) := by decide +kernel

/-- A unit of a store goes to port 3, alone or with another one. -/
def farStore (us : Nat) : State :=
  { flying .store (.st P .b32 .no .x1 (.v 8) (.v 2) 0) (List.replicate us { unit0 with port := some 3 }) 1 with
    links := [(12, .active)] }

/-- The Sinter region of sinter with the links ACTIVE that it needs, a log, and the one mapped page of its tile. -/
def tiled (st : SState) (log : List LogE) : State :=
  { sinter st with
    links := [(0, .active), (8, .active), (12, .active)]
    regions := [⟨0, 0, 0, 0, 0, [⟨st, 4, log, 0, false, false, false⟩]⟩] }

/-- What an access from a peer meets at an address of world 0. -/
def meetsAt (s : State) (va : Nat) (need : Perm) : Option Nat :=
  match s.engineAt 0 va need with
  | (.ok pa, u) => if u.unscr pa then none else some pa
  | (.tile, _) => some 1
  | (.bad _, _) => some 2
  | (.err _, _) => some 3
  | (.held, _) => some 4

theorem witness_Peers :
    (linked.running = true ∧ linked.farq = [] ∧ linked.link (portLink 3) = .active ∧ linked.farSeen = []) ∧
    5 ∈ ({ linked with farSeen := [(3, [5])] } : State).farSeen.getD 3 [] ∧
    (∀ need ∈ [Perm.r, .w, .a], meetsAt linked 0 need = some 24576 ∧ meetsAt linked 4088 need = some (24576 + 4088)) ∧
    (meetsAt (tiled .absent []) 0 .w = some 1 ∧ (tiled .absent []).running = true ∧ (tiled .absent []).farq = [] ∧
      (tiled .absent []).link (portLink 3) = .active ∧
      ((tiled .absent []).tileAt 0 0).map (fun e => (e.1, e.2.1, e.2.2.st,
        (e.2.2.appends [storeEntry 0 (toBytes [1, 2, 3, 4])]).2)) = some (0, 0, .absent, 4) ∧
      (match (tiled .absent []).walk hubDie 0 0 with
        | (.leaf _, _) => true
        | _ => false) = true) ∧
    meetsAt linked (2 ^ 40) .r = some 2 ∧ meetsAt { linked with keys := [] } 0 .r = some 3 ∧
    meetsAt { linked with warm := [(0, ⟨2, 0, false⟩)] } 0 .r = some 4 ∧
    (∀ us ∈ [1, 2], ((farStore us).txns.find 5).map (fun t => ((farStore us).farUnit 5 t).map fun e => e.1) =
      some (some 0)) ∧
    (((farStore 1).core 0).gate = .open ∧ ((farStore 1).warps.find 2).isSome = true) := by decide +kernel

/-- Whatever value is free, a peer's answer is an acknowledgement or a failure. -/
theorem witness_Peers_answer (s : State) : s.farErr = none ∨ ∃ k, s.farErr = some k := by
  cases s.farErr <;> simp

/-- Whatever value is free, an image is offered that passes its check, or none. -/
theorem witness_PowerAndHeat_image (s : State) : s.signedImage = none ∨ ∃ e, s.signedImage = some e := by
  cases s.signedImage <;> simp

/-- n entries of a log that do not merge. -/
def entries (n : Nat) : List LogE := (upTo 0 n).map fun k => ⟨0, 2, 4, 8 * k + 8, 0, 0⟩

/-- A store or a reduction of one word to the ABSENT tile, with n entries in its log of at most four. -/
def logging (n : Nat) (k : TxKind) (i : Instr) : State :=
  { tiled .absent (entries n) with
    txns := [(5, ⟨2, 0, 0, k, i, 1, 64, [{ unit0 with sm := true }], [], 1, [], [], none⟩)] }

/-- The unit of the access may be appended, and so many of its bytes fit. -/
def mayLog (s : State) (bytes : Nat) : Bool :=
  match s.txns.find 5 with
  | none => false
  | some t => match t.units[0]?, s.tileAt t.world 0 with
    | some a, some (0, 0, y) => a.sm && logs t.ins && y.st == .absent && a.err.isNone && !s.isKept 5 t && s.inOrder 5 t a &&
        s.firstIn t 0 0 0 && (s.replyErr t.world a.pa).isNone && !s.away (coreDie t.core) a.pa && a.n == 4 &&
        a.data.length == a.n && (y.appends (logEntries t a)).2 == bytes
    | _, _ => false

/-- A fetch or eviction of the tile runs; the class with which it fails; and its frames. -/
def tileWays (s : State) : Option (Bool × Option Nat × Bool) :=
  (s.tileOf 0 0).map fun e => (s.tileRuns e.1 0, s.tileFails e.1 0,
    (s.frames e.1 0)[0]? == some (some 24576) && (s.frames e.1 0).tail.all fun f => f.isNone)

theorem witness_SinterTiles :
    (∀ e ∈ [(0, 4), (3, 4), (4, 0)],
      mayLog (logging e.1 .store (.st P .b32 .no .x1 (.v 8) (.v 2) 0)) e.2 = true ∧
      mayLog (logging e.1 .atomic (.red P .n32 .add .no (.v 8) (.v 2) 0)) e.2 = true) ∧
    mayLog (logging 3 .atomic (.red P .f16x2 .add .no (.v 8) (.v 2) 0)) 2 = true ∧
    (∀ st ∈ [SState.arriving, .leaving], ∀ log ∈ [[], [⟨0, 2, 4, 8, 0, 7⟩]],
      tileWays (tiled st log) = some (true, some 11, true) ∧
      tileWays { tiled st log with links := [(0, .active), (8, .retraining)] } = some (false, none, true)) ∧
    (tiled .leaving []).unscr 24576 = false := by decide +kernel

/-- The frames of a tile with one mapped page are apart. -/
theorem frames_apart (pa : Nat) (fs : List (Option Nat)) (h : ∀ f ∈ fs, f = none) :
    (some pa :: fs).Pairwise fun a b => ∀ p, a = some p → b ≠ some p := by
  refine List.pairwise_cons.mpr ⟨fun b hb _ _ => ?_, ?_⟩
  · rw [h b hb]; simp
  · refine List.Pairwise.imp_of_mem ?_ (List.pairwise_of_forall_mem_list (r := fun _ _ => True) fun _ _ _ _ => trivial)
    intro a b ha _ _ p hp
    rw [h a ha] at hp
    simp at hp

/-- Partition 0 with a group that waits for boost, under identity 9. -/
def boosting : State :=
  let s := waiting idle (.boost P 2 (.v 8) (.v 0)) .boost [(0, 5)] false 0
  { s with parts := [(0, { part0 with lbr := 2 ^ 40 })] }

/-- A spare has been called up for the column of core 0, which drains with nothing on it. -/
def worn : State :=
  let s := { idle with groups := [], warps := [], calls := [(0, (0, 7))] }
  s.onCore 0 fun c => { c with drain := true }

theorem witness_WearAndBoost :
    (idle.running = true ∧ idle.poweredUnit 0 = true ∧ (upper fun c => { c with gate := .gated 1 0 }).poweredUnit 1 = false ∧
      (idle.parts.find 0).isSome = true ∧ (idle.cores.find 0).isSome = true) ∧
    (let s := ({ idle with parts := [] } : State).onCore 0 fun c => { c with rest := .resting 0 90 }
     (s.core 0).rest = .resting 0 90 ∧ s.corePart 0 = none) ∧
    ((worn.core 0).drain = true ∧ worn.onCoreGroups 0 = [] ∧ worn.onCoreGroups 1 = [] ∧ worn.warm.find (colDie 0) = none ∧
      colDie 0 < worn.spares.length ∧ 0 < worn.spares.getD (colDie 0) 0 ∧ worn.calls.find 0 = some (0, 7)) ∧
    (∀ left ∈ [0, 3], ((idle.onGroup 1 fun g => { g with grant := some ⟨1, left, false⟩ }).groups.find 1).map
      (fun g => g.grant) = some (some ⟨1, left, false⟩)) ∧
    wakes boosting (fun _ => ((boosting.waits.find 9).map fun y => boosting.waitPart y) == some (some 0) &&
      boosting.waits.all fun e => decide (9 ≤ e.1)) = true ∧ (boosting.parts.find 0).isSome = true ∧
    (let s := { idle with time := 1000000 }
     s.running = true ∧ s.time % 1000000 = 0 ∧ s.nvmAt ≠ s.time) := by decide +kernel

/-- A hot zone on the column of core 0 since time 0, with the core at a temperature. -/
def hot (temp : Nat) : State := { idle with time := 1000, temps := [(0, temp)], zones := [⟨0, [0], 0⟩] }

theorem witness_PowerAndHeat :
    (idle.running = true ∧ (idle.time + 1) % 1000 ≠ 0 ∧ borrowShares [(0, { part0 with est := 3000000 })] ≠ 0) ∧
    (∀ p ∈ [{ part0 with reef := 3, at3 := 20 }, { part0 with reef := 3, at3 := 10 }, { part0 with reef := 0, below3 := 10 }],
      (({ idle with parts := [(0, p)] } : State).parts.find 0) = some p) ∧
    (let s := { idle with temps := [(0, 95)] }
     95 ≤ s.temps.getD 0 0 ∧ s.zoneOf (coreCol 0) = none) ∧
    ((hot 95).zoneOf (coreCol 0) = some ⟨0, [0], 0⟩ ∧ 95 ≤ (hot 95).zoneTemp (coreCol 0) ∧
      (hot 89).zoneTemp (coreCol 0) < 90 ∧ 90 ≤ (hot 90).zoneTemp (coreCol 0)) ∧
    (((upper fun c => { c with gate := .pending 1 }).core 1).gate = .pending 1 ∧
      (upper fun c => { c with gate := .pending 1 }).quiet 1 = true) ∧
    (let f := fun c : Core => { c with gate := .gated 1 0 }
     ((upper f).core 1).gate = .gated 1 0 ∧ (upper f).quiet 1 = true ∧
       (upper fun c => { f c with matq := [⟨9, 3, [], [], []⟩] }).quiet 1 = false) ∧
    (let s := upper fun c => { c with gate := .waking 0 none, clk := 2048 }
     (s.core 1).gate = .waking 0 none ∧ 0 + 2048 ≤ (s.core 1).clk) ∧
    ({ idle with power := .failing } : State).power = .failing ∧ idle.power = .on ∧ State.reset.power = .selfTest ∧
    ({ State.reset with power := .off } : State).power = .off ∧
    ({ State.reset with spares := [0, 4, 4, 4] } : State).spares.getD (colDie 0) 0 = 0 := by decide +kernel

/-! ### Witnesses: steps -/

/-- A word that decodes stands where the next step fetches; and one that does not. -/
def placed (w : Nat) : State := State.reset.withFetchWord 96 w

/-- The issue of the next step of s meets p. -/
def issuing (s : State) (p : Cur → Bool) : Bool :=
  match s.agenda with
  | .issue n :: rest =>
    s.second.isNone && decide (s.power ≠ .off) &&
    match State.selectWarp { s with agenda := rest } n (s.core n).quad with
    | none => false
    | some r =>
      match (State.opportunity { s with agenda := rest } n r).cur with
      | none => false
      | some u => !u.late && decide (u.pc.toNat % 4096 ≤ 4084) && p u &&
          match (State.opportunity { s with agenda := rest } n r).codeAt 0 0 u.pc.toNat with
          | (.ok pa, _) => pa == 24576 + 64
          | _ => false
  | _ => false

/-- The instruction of the group that issues next on the second port, when its word is executed. -/
def secondRuns (s : State) (u : Cur) (i : Instr) : Bool :=
  let s1 := { s with second := none, cur := some u }
  decide (s.second = some u ∧ u.pc.toNat % 4096 ≤ 4084) &&
  match State.codeAt { s1 with freeCtr := u.draw } (coreDie (s1.warpCore u.w)) (s1.worldOf u.w) u.pc.toNat with
  | (.ok pa, s2) =>
    let r := s2.codeBytes (s1.warpCore u.w) (s1.worldOf u.w) pa 12
    (match decodeBytes r.1 with
      | .ok (j, []) => j == i
      | _ => false) &&
    (match exec i { r.2 with freeCtr := max s1.freeCtr r.2.freeCtr + 1 } with
      | .next _ => true
      | _ => false)
  | _ => false

theorem witness_StepRunsDecoded :
    (∀ late ∈ [true, false],
      secondRuns { placed 0xe01c00007000000000000000 with second := some ⟨2, all32, 64, none, none, late, 0, false⟩ }
        ⟨2, all32, 64, none, none, late, 0, false⟩ (.trap P 7) = true) ∧
    issuing (placed 0xe01c00007000000000000000) (fun u => u.w == 2 && u.act == all32) = true ∧
    issuing (placed 0) (fun u => u.w == 2) = true ∧
    (match decodeBytes (leBytes 12 0xe01c00007000000000000000), decodeBytes (leBytes 12 0) with
      | .ok (i, []), .error _ => i == .trap P 7
      | _, _ => false) = true ∧
    ({ placed 0 with agenda := [.ev .powerOn] } : State).second = none := by decide +kernel

theorem witness_EmptyMask :
    ∀ i ∈ [Instr.mov P .b32 (.k 4) (.v 1), .bcast P (.k 4) (.v 1) (.imm 0), .vote P .all (.k 4) 7, .redw P .add .f32 (.k 4) (.v 1),
      .addInteger P .i32 (.v 8) (.v 1) (.v 2), .tret P],
      (match { start with cur := some ⟨2, 0, 64, none, none, false, 0, false⟩ }.iss P with
        | none => false
        | some x => (match ctlOf i with
          | none => false
          | some _c => x.q.isNone && decide (x.m = 0))) = true := by decide +kernel

theorem reset_rests : restInv State.reset := ⟨rfl, by intro g gr h; simp [State.reset, Tbl.find] at h⟩

/-- The step after reset answers a next state. -/
theorem witness_StepKeepsRest : ∃ t, step State.reset = .next t := by
  have h : (match step State.reset with
    | .next _ => true
    | _ => false) = true := by decide +kernel
  revert h
  cases step State.reset <;> simp

theorem witness_StepKeepsMemory : State.reset.memOk ∧ ∃ t, step State.reset = .next t :=
  ⟨⟨by decide +kernel, by decide +kernel⟩, witness_StepKeepsRest⟩

/-! ### Words written out from the tables of R30, R40 to R51 and R68 to R86 -/

/-- The word w decodes to i, which is well-formed, and i encodes to w. -/
def isWord (e : Nat × Instr) : Bool :=
  (match decodeWord (BitVec.ofNat 96 e.1) with
    | .ok i => i == e.2
    | .error _ => false) && formOk e.2 && encode e.2 == some (BitVec.ofNat 96 e.1)

/-- The word w is no instruction. -/
def isBad (w : Nat) : Bool :=
  match decodeWord (BitVec.ofNat 96 w) with
    | .ok _ => false
    | .error _ => true

/-- Words of the table of R80. -/
def wordsInteger1 : List (Nat × Instr) :=
  [(0x005c001000000840002ffffd, .addInteger P .i32 (.v 8) (.k 2) (.imm 0x3fffd)),
   (0x009c003800000840002ffffd, .subInteger P .n64 (.v 8) (.k 2) (.imm 0x3fffd)),
   (0x00dc000000000840002ffffd, .mulInteger P .i8 (.v 8) (.k 2) (.imm 0x3fffd)),
   (0x011c001800000840002ffffd, .mulhi P .i64 (.v 8) (.k 2) (.imm 0x3fffd)),
   (0x015c002800000840002ffffd, .mulw P .n16 (.v 8) (.k 2) (.imm 0x3fffd)),
   (0x019c001000000840002ffffd, .divInteger P .i32 (.v 8) (.k 2) (.imm 0x3fffd)),
   (0x01dc003000000840002ffffd, .rem P .n32 (.v 8) (.k 2) (.imm 0x3fffd)),
   (0x029c002000000840002ffffd, .minInteger P .n8 (.v 8) (.k 2) (.imm 0x3fffd)),
   (0x02dc000800000840002ffffd, .maxInteger P .i16 (.v 8) (.k 2) (.imm 0x3fffd)),
   (0x021c00180000080000200000, .neg P .i64 (.v 8) (.v 2)),
   (0x025c00000000088000000000, .abs P .i8 (.v 8) (.sp .lane)),
   (0x031c00500000080000200004, .and P .b32 (.v 8) (.v 2) (.v 4)),
   (0x035c00580000080000200004, .or P .b64 (.v 8) (.v 2) (.v 4)),
   (0x039c00400000080000200004, .xor P .b8 (.v 8) (.v 2) (.v 4)),
   (0x041c00480000080000200004, .andn P .b16 (.v 8) (.v 2) (.v 4)),
   (0x045c00500000080000200004, .shl P .b32 (.v 8) (.v 2) (.v 4)),
   (0x049c00580000080000200004, .shr P .b64 (.v 8) (.v 2) (.v 4)),
   (0x04dc00180000080000200004, .sra P .i64 (.v 8) (.v 2) (.v 4)),
   (0x051c00500000080000200004, .rotl P .b32 (.v 8) (.v 2) (.v 4)),
   (0x055c00380000080000200004, .bfx P .n64 (.v 8) (.v 2) (.v 4))]

theorem test_wordsInteger1 : wordsInteger1.all isWord = true := by decide +kernel

/-- Words of the table of R80. -/
def wordsInteger2 : List (Nat × Instr) :=
  [(0x03dc00580000080000200000, .not P .b64 (.v 8) (.v 2)),
   (0x059c00500000090000300000, .popc P .b32 (.v 9) (.v 3)),
   (0x05dc00500000090000300000, .clz P .b32 (.v 9) (.v 3)),
   (0x061c00500000090000300000, .ctz P .b32 (.v 9) (.v 3)),
   (0x065c00500000090000300000, .brev P .b32 (.v 9) (.v 3)),
   (0x069c003d0000080000200001, .lea P .n64 5 (.v 8) (.v 2) (.v 1)),
   (0x06dc00303000080000100002, .addx P .n32 3 (.v 8) (.v 1) (.v 2)),
   (0x071c00128000050000100002, .cmpInteger P .i32 .ge 5 (.v 1) (.v 2)),
   (0x075c00210000080000100002, .setb P .n8 .lt (.v 8) (.v 1) (.v 2)),
   (0x079c00582000080000200004, .sel P .b64 2 (.v 8) (.v 2) (.v 4)),
   (0x07dc00580400088003000000, .mov P .b64 (.k 8) (.sp .clk)),
   (0x081c0038000008123456789a, .movi P .n64 (.v 8) 0x123456789a),
   (0x0c1c00106000080000200004, .mad P .i32 (.v 8) (.v 2) (.v 4) (.k 6)),
   (0x0c5c00106000080000200004, .mad P .n32 (.v 8) (.v 2) (.v 4) (.k 6)),
   (0x0c9c00106000080000200004, .mad P .i64 (.v 8) (.v 2) (.v 4) (.k 6)),
   (0x0cdc00106000080000200004, .mad P .n64 (.v 8) (.v 2) (.v 4) (.k 6)),
   (0x0d1c00106000080000200004, .clamp P .i32 (.v 8) (.v 2) (.v 4) (.k 6)),
   (0x0d5c00106000080000200004, .clamp P .n32 (.v 8) (.v 2) (.v 4) (.k 6)),
   (0x0d9c00106000080000200004, .clamp P .i64 (.v 8) (.v 2) (.v 4) (.k 6)),
   (0x0ddc00106000080000200004, .clamp P .n64 (.v 8) (.v 2) (.v 4) (.k 6))]

theorem test_wordsInteger2 : wordsInteger2.all isWord = true := by decide +kernel

/-- Words of the table of R80. -/
def wordsInteger3 : List (Nat × Instr) :=
  [(0x0e1c00106000080000200004, .bfi P .b32 (.v 8) (.v 2) (.v 4) (.k 6)),
   (0x0e5c00106000080000200004, .bfi P .b64 (.v 8) (.v 2) (.v 4) (.k 6))]

theorem test_wordsInteger3 : wordsInteger3.all isWord = true := by decide +kernel

/-- Words of the table of R81. -/
def wordsFloat1 : List (Nat × Instr) :=
  [(0x201c00720000080000200004, .addFloat P .f32 .rz (.v 8) (.v 2) (.v 4)),
   (0x205c007c0000080000200004, .subFloat P .f64 .rd (.v 8) (.v 2) (.v 4)),
   (0x209c009e0000080000200004, .mulFloat P .bf16x2 .ru (.v 8) (.v 2) (.v 4)),
   (0x225c00600000080000200004, .divFloat P .f16 .rn (.v 8) (.v 2) (.v 4)),
   (0x249c006a0000080000200004, .scale P .bf16 .rz (.v 8) (.v 2) (.v 4)),
   (0x20dc00740000080000200004, .minFloat P .f32 true (.v 8) (.v 2) (.v 4)),
   (0x211c00900000080000200004, .maxFloat P .f16x2 false (.v 8) (.v 2) (.v 4)),
   (0x215c007e8000030000200004, .cmpFloat P .f64 .geu 3 (.v 2) (.v 4)),
   (0x219c00700000080000200000, .rcp P .f32 .rn (.v 8) (.v 2)),
   (0x21dc00720000080000200000, .rsq P .f32 .rz (.v 8) (.v 2)),
   (0x221c00740000080000200000, .sqrt P .f32 .rd (.v 8) (.v 2)),
   (0x241c00760000080000200000, .rndi P .f32 .ru (.v 8) (.v 2)),
   (0x229c00600000080000200000, .ex2 P .f16 (.v 8) (.v 2)),
   (0x22dc00600000080000200000, .lg2 P .f16 (.v 8) (.v 2)),
   (0x231c00600000080000200000, .sin P .f16 (.v 8) (.v 2)),
   (0x235c00600000080000200000, .cos P .f16 (.v 8) (.v 2)),
   (0x239c00600000080000200000, .tanh P .f16 (.v 8) (.v 2)),
   (0x23dc00700000060000200004, .classF P .f32 6 (.v 2) (.v 4)),
   (0x245c00780000080000200004, .cpsign P .f64 (.v 8) (.v 2) (.v 4)),
   (0x2c1c00406000080000200004, .fma P .f16 .rz (.v 8) (.v 2) (.v 4) (.v 6))]

theorem test_wordsFloat1 : wordsFloat1.all isWord = true := by decide +kernel

/-- Words of the table of R81. -/
def wordsFloat2 : List (Nat × Instr) :=
  [(0x2c5c00406000080000200004, .fma P .bf16 .rz (.v 8) (.v 2) (.v 4) (.v 6)),
   (0x2c9c00406000080000200004, .fma P .f32 .rz (.v 8) (.v 2) (.v 4) (.v 6)),
   (0x2cdc00406000080000200004, .fma P .f64 .rz (.v 8) (.v 2) (.v 4) (.v 6)),
   (0x2d1c00d06000080000200004, .dot2 P .f16x2 .ru (.v 8) (.v 2) (.v 4) (.k 6)),
   (0x2d9c00006000080000200004, .fma P .f16x2 .rn (.v 8) (.v 2) (.v 4) (.v 6)),
   (0x2d5c00d06000080000200004, .dot2 P .bf16x2 .ru (.v 8) (.v 2) (.v 4) (.k 6)),
   (0x2ddc00006000080000200004, .fma P .bf16x2 .rn (.v 8) (.v 2) (.v 4) (.v 6))]

theorem test_wordsFloat2 : wordsFloat2.all isWord = true := by decide +kernel

/-- Words of the table of R82. -/
def wordsConvert1 : List (Nat × Instr) :=
  [(0x401c0003d000080000200000, .cvt P .i8 .f64 .rz (.v 8) (.v 2)),
   (0x405c00840000080000200004, .pack P .e4m3 .rd (.v 8) (.v 2) (.v 4)),
   (0x409c00900000080000200000, .unpack P .f16x2 (.v 8) (.v 2)),
   (0x40dc000000000800002c3210, .bsel P (.v 8) (.v 2) (.imm 0x3210)),
   (0x411c00a00000080000200000, .qnt P .nq4 (.v 8) (.v 2)),
   (0x415c00980000080000200004, .dqt P .bf16x2 (.v 8) (.v 2) (.v 4)),
   (0x441c00000000080000200004, .shfl P .idx (.v 8) (.v 2) (.v 4)),
   (0x441c00400000080000200004, .shfl P .up (.v 8) (.v 2) (.v 4)),
   (0x441c00800000080000200004, .shfl P .dn (.v 8) (.v 2) (.v 4)),
   (0x441c00c00000080000200004, .shfl P .xor (.v 8) (.v 2) (.v 4)),
   (0x445c00000400080000300000, .vote P .all (.k 8) 3),
   (0x445c00400400080000300000, .vote P .any (.k 8) 3),
   (0x445c00800400080000300000, .vote P .eq (.k 8) 3),
   (0x445c00c00400080000300000, .vote P .ballot (.k 8) 3),
   (0x449c007a0400080000200000, .redw P .max .f64 (.k 8) (.v 2)),
   (0x44dc00108000080000200000, .scanw P .add .i32 true (.v 8) (.v 2)),
   (0x451c00580000080000200000, .matchW P .b64 (.v 8) (.v 2)),
   (0x455c00000000080000280024, .bcast P (.v 8) (.v 2) (.sp .tier)),
   (0x461c00700000080000000000, .rnd P .f32 (.v 8)),
   (0x461c005c0000000000200004, .rndSeed P .b64 (.v 2) (.v 4))]

theorem test_wordsConvert1 : wordsConvert1.all isWord = true := by decide +kernel

/-- Words of the table of R82. -/
def wordsConvert2 : List (Nat × Instr) :=
  [(0x481c00000000030000000000, .kzero P 3),
   (0x485c00700000010000200000, .kadd P .f32 1 (.v 2)),
   (0x489c00880000020000200004, .kdot P .e5m2 2 (.v 2) (.v 4)),
   (0x48dc00980000030000200000, .ksub P .bf16x2 3 (.v 2)),
   (0x491c007c0000080000200000, .kround P .f64 .rd (.v 8) 2),
   (0x495c000004002e0000300000, .ksave P (.k 46) 3),
   (0x499c00000000014000200000, .kload P 1 (.k 2)),
   (0x49dc00000000080000200000, .kstat P (.v 8) 2)]

theorem test_wordsConvert2 : wordsConvert2.all isWord = true := by decide +kernel

/-- Words of the table of R83. -/
def wordsMemory1 : List (Nat × Instr) :=
  [(0x601c00570000080000200040, .ld P .b32 .el .x4 (.v 8) (.v 2) 0x40),
   (0x605c005a84000840002fffff, .st P .b64 .ef .x2 (.k 8) (.k 2) 0xfffff),
   (0x609c00040400088003100007, .ldk P .i8 .en .x1 (.k 8) (.sp .kbase) 7),
   (0x60dc0050e000080000200010, .ldsp P .b32 .x2 true true (.v 8) (.v 2) 16),
   (0x611c00284000084000200010, .stsp P .n16 .x1 true (.v 8) (.k 2) 16),
   (0x615c00000000080000200010, .feget P (.v 8) (.v 2) 16),
   (0x619c00000000000000200010, .feset P (.v 2) 16),
   (0x61dc00000000000000200010, .feclr P (.v 2) 16),
   (0x621c005ce000080000200008, .atom P .b64 .cas .acqrel (.v 8) (.v 2) 8),
   (0x625c00334400080000200008, .red P .n32 .inc .rel (.k 8) (.v 2) 8),
   (0x629c00902000080000200008, .vatom P .f16x2 .add .acq (.v 8) (.v 2) 8),
   (0x62dc00010000080000200008, .vred P .i8 .max .no (.v 8) (.v 2) 8),
   (0x631c00c00000080000200008, .waita P 12 (.v 8) (.v 2) 8),
   (0x635c00000000000000200008, .wake P (.v 2) 8),
   (0x639c00060000000000200008, .pfetch P .el (.v 2) 8),
   (0x63dc00040000000000200008, .evict P .en (.v 2) 8),
   (0x641c00e40400084000240005, .tcopy P true true 9 .no (.k 8) (.k 2) (.k 5)),
   (0x641c00260400084000240005, .tcopy P false false 9 .cvF32 (.k 8) (.k 2) (.k 5)),
   (0x645c00009000000000000000, .tcwait P 9)]

theorem test_wordsMemory1 : wordsMemory1.all isWord = true := by decide +kernel

/-- Words of the table of R84. -/
def wordsQueue1 : List (Nat × Instr) :=
  [(0x801c00000000000000700000, .bar P 7),
   (0x801c00001000000000700000, .barArrive P 7),
   (0x801c00002000000000700000, .barWait P 7),
   (0x801c00003000020000700000, .barTest P 2 7),
   (0x805c00000000000000740005, .barset P 7 (.k 5)),
   (0x821c00000000000001f40004, .tqpush P 31 (.k 4)),
   (0x825c00000000080001f00000, .tqpop P (.v 8) 31),
   (0x829c00003000080001f00000, .tqtry P 3 (.v 8) 31),
   (0x82dc00000400080001f00000, .tqallow P (.k 8) 31),
   (0x831c00001000000000340004, .cntsig P true (.v 3) (.k 4)),
   (0x835c00000000004000300004, .cntwait P (.k 3) (.v 4)),
   (0x841c0000000008000064000c, .spawn P (.v 8) (.v 6) (.k 12)),
   (0x845c00000000000000000000, .fmark P),
   (0x849c00000000080000000000, .await P (.v 8)),
   (0x84dc00000000000000000000, .tret P),
   (0x851c00002400080000000000, .tidx P .arg (.k 8)),
   (0x855c00000000090000000000, .tstat P (.v 9)),
   (0x861c00003000000000800000, .vput P 3 (.v 8)),
   (0x865c00002000080000000000, .vget P 2 (.v 8)),
   (0x869c00001400080000000000, .vfree P 1 (.k 8))]

theorem test_wordsQueue1 : wordsQueue1.all isWord = true := by decide +kernel

/-- Words of the table of R85. -/
def wordsTile1 : List (Nat × Instr) :=
  [(0xa01c00b700007f0000440008, .mma P 5 .qd2 true true 2 127 4 8),
   (0xa05c000000007f0000000000, .mmz P 127),
   (0xa09c009400007f0000800000, .accld P .f16x2 true 127 (.v 8)),
   (0xa0dc008780007f4000800000, .accst P .e4m3 true true .ru 127 (.k 8)),
   (0xa11c000000007f0007e00000, .accmov P 127 126),
   (0xa15c00000000004003e00000, .tfetch P 62),
   (0xa19c00000000004003e00000, .tunpin P 62),
   (0xa1dc00003400080000000000, .mmstat P .pin (.k 8)),
   (0xa41c00000000004000200003, .publish P (.k 2) (.v 3)),
   (0xa45c00000000000000200000, .sfetch P (.v 2)),
   (0xa49c00000000090000200000, .sstat P (.v 9) (.v 2)),
   (0xa4dc00000000004000200000, .sevict P (.k 2))]

theorem test_wordsTile1 : wordsTile1.all isWord = true := by decide +kernel

/-- Words of the table of R86. -/
def wordsControl1 : List (Nat × Instr) :=
  [(0xc01c00000000000000000000, .nop P),
   (0xc0680800000000fffffffffb, .bra ⟨true, 2, 0, 1, false, false, false⟩ (-5)),
   (0xc09c00000000000000200000, .brx P (.v 2)),
   (0xc0dc00000000080000000005, .call P (.v 8) 5),
   (0xc11c00000000004000200000, .ret P (.k 2)),
   (0xc15c00000000000000000000, .exit P),
   (0xc19c0000000000123456789a, .meet P 0x123456789a),
   (0xc1dc00fff000000000000000, .yield P 4095),
   (0xc21c00007000000000000000, .ralloc P 7),
   (0xc25c00005000000000000000, .rfree P 5),
   (0xc29c00000400080000000000, .rblk P (.k 8)),
   (0xc41c00000000094000200000, .klaunch P (.v 9) (.k 2)),
   (0xc45c00006400080000000000, .fslot P 6 (.k 8)),
   (0xe01c00abc000000000000000, .trap P 0xabc),
   (0xe05c00000000000000000000, .bkpt P),
   (0xe09c00000400090000000000, .flagrd P (.k 9)),
   (0xe0dc00005000000000000000, .flagclr P 5),
   (0xe11c00100000080000000000, .csrr P 0x100 (.v 8)),
   (0xe15c00022000004000200000, .csrw P 0x022 (.k 2)),
   (0xe19c00000000000000000000, .rfe P)]

theorem test_wordsControl1 : wordsControl1.all isWord = true := by decide +kernel

/-- Words of the table of R86. -/
def wordsControl2 : List (Nat × Instr) :=
  [(0xe41c00000000090000000000, .rflv P (.v 9)),
   (0xe45c00002000094000300000, .boost P 2 (.v 9) (.k 3)),
   (0xe49c00000400080000000000, .bstat P (.k 8)),
   (0xe4dc00001000090000000000, .pgateOn P (.v 9)),
   (0xe4dc00000000090000000000, .pgateOff P (.v 9)),
   (0xe51c00000000080000300000, .wrec P .bsu (.v 8) (.v 3)),
   (0xe51c00001000080000300000, .wrec P .hsu (.v 8) (.v 3)),
   (0xe51c00002000080000300000, .wrec P .esu (.v 8) (.v 3)),
   (0xc03676000000000000000000, .nop ⟨true, 5, 9, 6, true, true, false⟩),
   (0xc01ff9000000000000000000, .nop ⟨false, 7, 15, 7, false, false, true⟩)]

theorem test_wordsControl2 : wordsControl2.all isWord = true := by decide +kernel

/-- Words of the table of R45. -/
def wordsSpecial1 : List (Nat × Instr) :=
  [(0x07dc00500000088000000000, .mov P .b32 (.v 8) (.sp .lane)),
   (0x07dc00500000088000100000, .mov P .b32 (.v 8) (.sp .warp)),
   (0x07dc00500000088000200000, .mov P .b32 (.v 8) (.sp .gwarp)),
   (0x07dc00500000088000400000, .mov P .b32 (.v 8) (.sp .groupX)),
   (0x07dc00500000088000500000, .mov P .b32 (.v 8) (.sp .groupY)),
   (0x07dc00500000088000600000, .mov P .b32 (.v 8) (.sp .groupZ)),
   (0x07dc00500000088000800000, .mov P .b32 (.v 8) (.sp .ngroupX)),
   (0x07dc00500000088000900000, .mov P .b32 (.v 8) (.sp .ngroupY)),
   (0x07dc00500000088000a00000, .mov P .b32 (.v 8) (.sp .ngroupZ)),
   (0x07dc00500000088001000000, .mov P .b32 (.v 8) (.sp .it)),
   (0x07dc00500000088002000000, .mov P .b32 (.v 8) (.sp .core)),
   (0x07dc00500000088002100000, .mov P .b32 (.v 8) (.sp .colX)),
   (0x07dc00500000088002200000, .mov P .b32 (.v 8) (.sp .colY)),
   (0x07dc00500000088002300000, .mov P .b32 (.v 8) (.sp .die)),
   (0x07dc00500000088002400000, .mov P .b32 (.v 8) (.sp .tier)),
   (0x07dc00500000088003000000, .mov P .b32 (.v 8) (.sp .clk)),
   (0x07dc00500000088003100000, .mov P .b32 (.v 8) (.sp .kbase))]

theorem test_wordsSpecial1 : wordsSpecial1.all isWord = true := by decide +kernel

/-- Words that R53 and R87 refuse: unassigned opcodes, reserved bits, codes, kinds and indexes, one of each. -/
def wordsRefused : List Nat :=
  [0x001c00000000000000000000, 0x0bdc00000000000000000000, 0xffdc00000000000000000000, 0x021c00100000080000200001,
   0x059c00501000080000200000, 0x005c00a80000080000200004, 0x005c00500000080000200004, 0x005c0010000008c000100004,
   0x005c00100400080000200004, 0x005c00180000090000200004, 0x005c00100001080000200004, 0x005c00100000084004000004,
   0x005c00100000088000300004, 0x071c00100000080000200004, 0x071c00130000010000200004, 0x215c00770000010000200004,
   0x0c1c00406000080000200004, 0x0c1c00206000080000200004, 0x601c00518000080000200000, 0x601c00590000080000200000,
   0x625c00302000080000200000, 0x625c00540000080000200000, 0x621c00350000080000200000, 0x641c00028400084000240004,
   0x641c00400400084000240004, 0xc1dc00000000000000000000, 0xe45c00003000080000300000, 0xe51c00003000080000300000,
   0xe11c00005000080000000000, 0xa01c00180000000000440008, 0xa01c00001000000000440008, 0xa05c00000000800000000000,
   0x825c00000000080002000000, 0x801c00000000000001000000, 0x481c00000000040000000000, 0x851c00003000080000000000,
   0xa0dc00920000000000800000, 0x801c00000000010000100000, 0xc01c00001000000000000000, 0x631c00d00000080000200000,
   0x201c006000000800002d0000, 0x201c008000000800002c0000]

theorem test_wordsRefused : wordsRefused.all isBad = true := by decide +kernel

/-! ### Fields that are no instruction (R40 to R53, R68 to R79, R87) -/

/-- Terms of which each breaks one condition of its row. -/
def illFormed1 : List Instr :=
  [Instr.addInteger P .b32 (.v 8) (.v 1) (.v 2), .subInteger P .i64 (.v 9) (.v 2) (.v 4),
   .mulInteger P .i64 (.v 8) (.v 3) (.v 4), .addInteger P .i32 (.k 8) (.v 1) (.v 2),
   .addInteger P .i32 (.v 8) (.imm 1) (.v 2), .minInteger P .n64 (.v 8) (.v 2) (.v 5),
   .maxInteger P .f32 (.v 8) (.v 1) (.v 2), .mulhi P .i16 (.v 8) (.v 1) (.v 2),
   .divInteger P .i8 (.v 8) (.v 1) (.v 2), .rem P .n16 (.v 8) (.v 1) (.v 2), .mulw P .i64 (.v 8) (.v 2) (.v 4),
   .mulw P .i32 (.v 9) (.v 2) (.v 4), .neg P .n32 (.v 8) (.v 1), .abs P .b32 (.v 8) (.v 1),
   .and P .i32 (.v 8) (.v 1) (.v 2), .or P .b64 (.v 8) (.v 2) (.v 3), .xor P .f32 (.v 8) (.v 1) (.v 2),
   .andn P .b64 (.v 7) (.v 2) (.v 4), .not P .i32 (.v 8) (.v 1), .not P .b32 (.v 8) (.imm 1),
   .shl P .b16 (.v 8) (.v 1) (.v 2), .shr P .b8 (.v 8) (.v 1) (.v 2), .sra P .b32 (.v 8) (.v 1) (.v 2),
   .rotl P .b64 (.v 8) (.v 3) (.v 2), .bfx P .b32 (.v 8) (.v 1) (.v 2), .bfi P .b16 (.v 8) (.v 1) (.v 2) (.v 3),
   .bfi P .b32 (.v 8) (.v 1) (.imm 2) (.v 3), .bfi P .b32 (.v 8) (.v 1) (.v 2) (.sp .lane), .popc P .b8 (.v 8) (.v 1),
   .clz P .b64 (.v 8) (.v 3), .ctz P .i32 (.v 8) (.v 1), .brev P .b64 (.v 9) (.v 2),
   .lea P .i16 1 (.v 8) (.v 2) (.v 1), .addx P .i32 1 (.v 8) (.v 1) (.v 2), .cmpInteger P .f32 .eq 1 (.v 1) (.v 2),
   .cmpInteger P .i32 .nan 1 (.v 1) (.v 2), .setb P .i32 .ltu (.v 8) (.v 1) (.v 2),
   .setb P .i32 .lt (.k 8) (.v 1) (.v 2), .sel P .f32 1 (.v 8) (.v 1) (.v 2), .mov P .i32 (.v 8) (.v 1)]

theorem test_illFormed1 : illFormed1.all (fun i => !formOk i) = true := by decide +kernel

/-- Terms of which each breaks one condition of its row. -/
def illFormed2 : List Instr :=
  [Instr.mov P .b64 (.k 5) (.v 2), .movi P .b8 (.v 8) 1, .movi P .i32 (.v 8) 0x100000000,
   .mad P .b32 (.v 8) (.v 1) (.v 2) (.v 3), .mad P .i64 (.v 8) (.v 2) (.v 4) (.v 7),
   .clamp P .i8 (.v 8) (.v 1) (.v 2) (.v 3), .addFloat P .i32 .rn (.v 8) (.v 1) (.v 2),
   .subFloat P .e4m3 .rn (.v 8) (.v 1) (.v 2), .mulFloat P .f16 .rn (.v 8) (.v 1) (.imm 0x10000),
   .fma P .f64 .rn (.v 8) (.v 2) (.v 4) (.v 7), .fma P .f32 .rn (.v 8) (.v 1) (.imm 2) (.v 3),
   .divFloat P .f16x2 .rn (.v 8) (.v 1) (.v 2), .rcp P .bf16x2 .rn (.v 8) (.v 1), .sqrt P .i32 .rn (.v 8) (.v 1),
   .rsq P .f64 .rn (.v 9) (.v 2), .rndi P .f16x2 .rn (.v 8) (.v 1), .ex2 P .f64 (.v 8) (.v 2),
   .lg2 P .i32 (.v 8) (.v 1), .sin P .e5m2 (.v 8) (.v 1), .cos P .f32 (.k 8) (.v 1), .tanh P .f32 (.v 8) (.imm 0),
   .minFloat P .n32 false (.v 8) (.v 1) (.v 2), .maxFloat P .f64 false (.v 8) (.v 2) (.v 3),
   .cpsign P .b32 (.v 8) (.v 1) (.v 2), .cmpFloat P .f16x2 .eq 1 (.v 1) (.v 2), .classF P .bf16x2 1 (.v 1) (.v 2),
   .scale P .f16x2 .rn (.v 8) (.v 1) (.v 2), .dot2 P .f16 .rn (.v 8) (.v 1) (.v 2) (.v 3),
   .cvt P .f32 .f32 .rn (.v 8) (.v 1), .cvt P .i32 .i16 .rz (.v 8) (.v 1), .cvt P .b32 .f32 .rn (.v 8) (.v 1),
   .cvt P .f64 .f32 .rn (.v 9) (.v 1), .pack P .f32 .rn (.v 8) (.v 1) (.v 2), .unpack P .f16x2 (.v 9) (.v 1),
   .unpack P .f16 (.v 8) (.v 1), .bsel P (.v 8) (.v 1) (.v 2), .qnt P .f32 (.v 8) (.v 2), .qnt P .nq4 (.v 8) (.v 3),
   .dqt P .f32 (.v 9) (.v 1) (.v 2), .dqt P .f16 (.v 8) (.v 1) (.v 2)]

theorem test_illFormed2 : illFormed2.all (fun i => !formOk i) = true := by decide +kernel

/-- Terms of which each breaks one condition of its row. -/
def illFormed3 : List Instr :=
  [Instr.dqt P .f32 (.v 8) (.v 1) (.imm 2), .shfl P .up (.k 8) (.v 1) (.v 2), .bcast P (.v 8) (.v 1) (.v 2),
   .bcast P (.v 8) (.v 1) (.sp .lane), .bcast P (.v 8) (.imm 1) (.k 2), .matchW P .i32 (.v 8) (.v 1),
   .redw P .add .i32 (.v 8) (.v 1), .redw P .inc .n32 (.k 8) (.v 1), .scanw P .and .f32 false (.v 8) (.v 1),
   .scanw P .add .i16 false (.v 8) (.v 1), .rnd P .n32 (.v 8), .rnd P .b64 (.v 9), .rndSeed P .b32 (.v 0) (.v 2),
   .rndSeed P .b64 (.v 1) (.v 2), .kadd P .f64 0 (.v 2), .ksub P .i32 0 (.v 1), .kdot P .f32 0 (.v 1) (.imm 1),
   .kround P .f16 .rn (.v 8) 0, .kround P .f64 .rn (.v 9) 0, .ksave P (.v 8) 0, .ksave P (.k 48) 0, .kload P 0 (.k 3),
   .ld P .f32 .no .x1 (.v 8) (.v 2) 0, .ld P .b64 .no .x4 (.v 8) (.v 2) 0, .ld P .n8 .no .x2 (.v 8) (.v 2) 0,
   .ld P .b32 .no .x4 (.v 6) (.v 2) 0, .ld P .b32 .no .x1 (.k 8) (.v 2) 0, .ld P .b32 .no .x1 (.v 8) (.v 3) 0,
   .ld P .b32 .no .x1 (.v 8) (.sp .clk) 0, .st P .b64 .no .x1 (.k 7) (.v 2) 0, .ldk P .b32 .no .x1 (.v 8) (.k 2) 0,
   .ldk P .b32 .no .x1 (.k 8) (.v 2) 0, .ldsp P .b32 .x1 false true (.v 8) (.v 1) 0,
   .ldsp P .b32 .x1 false false (.v 8) (.sp .kbase) 0, .stsp P .f32 .x1 false (.v 8) (.v 1) 0,
   .feget P (.k 8) (.v 1) 0, .feset P (.imm 1) 0, .feclr P (.sp .lane) 0, .atom P .i32 .and .no (.v 8) (.v 2) 0,
   .atom P .b32 .cas .no (.v 9) (.v 2) 0]

theorem test_illFormed3 : illFormed3.all (fun i => !formOk i) = true := by decide +kernel

/-- Terms of which each breaks one condition of its row. -/
def illFormed4 : List Instr :=
  [Instr.atom P .f16x2 .min .no (.v 8) (.v 2) 0, .red P .b32 .exch .no (.v 8) (.v 2) 0,
   .red P .i32 .add .acq (.v 8) (.v 2) 0, .vatom P .i64 .add .no (.v 8) (.v 2) 0,
   .vatom P .i32 .add .no (.v 4) (.v 2) 0, .vred P .i32 .add .acqrel (.v 8) (.v 2) 0, .waita P 13 (.v 8) (.v 2) 0,
   .wake P (.v 1) 0, .pfetch P .no (.imm 1) 0, .evict P .no (.v 1) 0, .tcopy P false true 0 .no (.k 8) (.k 2) (.k 4),
   .tcopy P true false 0 .cvBf16 (.k 8) (.k 2) (.k 4), .tcopy P false false 0 .no (.v 8) (.k 2) (.k 4), .flagclr P 0,
   .csrr P 0x003 (.v 8), .csrr P 0x000 (.v 9), .csrw P 0x020 (.k 2), .csrw P 0x022 (.v 2),
   .cntsig P true (.v 0) (.v 1), .cntwait P (.v 0) (.k 3), .klaunch P (.v 8) (.v 3), .fslot P 0 (.k 6),
   .fslot P 0 (.v 8), .spawn P (.v 6) (.v 2) (.v 4), .await P (.k 8), .tidx P .lo (.v 9), .brx P (.v 1),
   .ret P (.k 3), .call P (.k 8) 0, .call P (.v 9) 0, .yield P 0, .rblk P (.v 8), .vput P 0 (.k 8), .vget P 0 (.k 8),
   .mma P 0 .all false false 0 0 5 4, .mma P 0 .all false false 3 0 32 4, .mma P 0 .all false false 0 0 4 5,
   .mma P 0 .qd4 false false 0 0 4 4, .mma P 0 .qd2 false false 0 0 4 2, .accld P .f16 false 0 (.v 16)]

theorem test_illFormed4 : illFormed4.all (fun i => !formOk i) = true := by decide +kernel

/-- Terms of which each breaks one condition of its row. -/
def illFormed5 : List Instr :=
  [Instr.accld P .f32 false 0 (.v 8), .accld P .f32 true 0 (.v 3), .accst P .f32 false false .rz 0 (.v 16),
   .accst P .f16x2 false true .rn 0 (.v 8), .accst P .e4m3 false false .rn 0 (.k 4), .tfetch P 5, .tunpin P 3,
   .mmstat P .mma (.v 8), .sfetch P (.v 1), .sevict P (.k 1), .sstat P (.v 8) (.v 1), .boost P 3 (.v 8) (.v 1),
   .boost P 0 (.v 8) (.v 1), .bstat P (.v 9), .wrec P .bsu (.v 9) (.v 1)]

theorem test_illFormed5 : illFormed5.all (fun i => !formOk i) = true := by decide +kernel

/-! ### Single steps: what the rules and the examples of the manual give -/

/-- What the word i, issued in s, leaves. -/
def after (s : State) (i : Instr) : Option State :=
  match exec i s with
  | .next u => some u
  | _ => none

/-- Lane l's register r after the word i. -/
def vAfter (s : State) (i : Instr) (l r : Nat) : Option Nat :=
  (after s i).bind fun u => (u.warps.find 2).map fun w => ((w.lane l).v.getD r 0).toNat

/-- Uniform register r after the word i. -/
def kAfter (s : State) (i : Instr) (r : Nat) : Option Nat :=
  (after s i).bind fun u => (u.warps.find 2).map fun w => (w.k.getD r 0).toNat

/-- Guard g of lane l after the word i. -/
def gAfter (s : State) (i : Instr) (l g : Nat) : Option Bool :=
  (after s i).bind fun u => (u.warps.find 2).map fun w => (w.lane l).g.getLsbD g

/-- GFLAGS after the word i: 1 is SAT, 2 INV and 4 KOVF. -/
def fAfter (s : State) (i : Instr) : Option Nat :=
  (after s i).bind fun u => (u.groups.find 1).map fun g => g.gflags.toNat

/-- The class, ADDR, INFO and LANES of the fault that the word i raises. -/
def faultOf (s : State) (i : Instr) : Option (Nat × Nat × Nat × Nat) :=
  (after s i).bind fun u => (u.groups.find 1).bind fun g => g.pend.map fun f =>
    (f.1.cls, f.1.addr, f.1.info, f.1.lanes.toNat)

/-- What of a state an event leaves. -/
def eventGives {α : Type} [DecidableEq α] (s : State) (i : Instr) (f : State → α) (a : α) : Bool :=
  ((after s i).map f) == some a

/-- R118, R89: 127 + 1 wraps to -128, which is sign-extended; 0 - 1 in 64 bits. -/
theorem test_add_sub :
    vAfter (withV [0, 127, 1]) (.addInteger P .i8 (.v 8) (.v 1) (.v 2)) 31 8 = some 0xffffff80 ∧
    vAfter (withV [0, 127, 1]) (.addInteger P .n8 (.v 8) (.v 1) (.v 2)) 31 8 = some 128 ∧
    vAfter (withV [0, 0, 0, 0, 1, 0]) (.subInteger P .n64 (.v 8) (.v 2) (.v 4)) 0 9 = some 0xffffffff := by decide +kernel

/-- R118: the high half of -2 * 3, and the whole product of two 32-bit values. -/
theorem test_products :
    vAfter (withV [0, 0xfffffffe, 3]) (.mulhi P .i32 (.v 8) (.v 1) (.v 2)) 5 8 = some 0xffffffff ∧
    vAfter (withV [0, 0xfffffffe, 3]) (.mulhi P .n32 (.v 8) (.v 1) (.v 2)) 5 8 = some 2 ∧
    vAfter (withV [0, 0xffffffff, 2]) (.mulw P .n32 (.v 8) (.v 1) (.v 2)) 5 9 = some 1 ∧
    vAfter (withV [0, 7, 9]) (.mulInteger P .i16 (.v 8) (.v 1) (.v 2)) 5 8 = some 63 ∧
    vAfter (withV [0, 7, 9, 1]) (.mad P .i32 (.v 8) (.v 1) (.v 2) (.v 3)) 5 8 = some 64 := by decide +kernel

/-- R119: division by zero, the least number by -1, and shifts by 32 and more. -/
theorem test_div_shift :
    vAfter (withV [0, 7]) (.divInteger P .i32 (.v 8) (.v 1) (.v 2)) 0 8 = some 0xffffffff ∧
    vAfter (withV [0, 7]) (.rem P .n32 (.v 8) (.v 1) (.v 2)) 0 8 = some 7 ∧
    vAfter (withV [0, 0x80000000, 0xffffffff]) (.divInteger P .i32 (.v 8) (.v 1) (.v 2)) 0 8 = some 0x80000000 ∧
    vAfter (withV [0, 0xfffffff9, 2]) (.rem P .i32 (.v 8) (.v 1) (.v 2)) 0 8 = some 0xffffffff ∧
    vAfter (withV [0, 7, 32]) (.shl P .b32 (.v 8) (.v 1) (.v 2)) 0 8 = some 0 ∧
    vAfter (withV [0, 7, 33]) (.shr P .b32 (.v 8) (.v 1) (.v 2)) 0 8 = some 0 ∧
    vAfter (withV [0, 0x80000000, 40]) (.sra P .i32 (.v 8) (.v 1) (.v 2)) 0 8 = some 0xffffffff ∧
    vAfter (withV [0, 0x80000001, 33]) (.rotl P .b32 (.v 8) (.v 1) (.v 2)) 0 8 = some 3 := by decide +kernel

/-- R118: the sign instructions, the selections and the bitwise instructions. -/
theorem test_bitwise :
    vAfter (withV [0, 0x80000000]) (.neg P .i32 (.v 8) (.v 1)) 0 8 = some 0x80000000 ∧
    vAfter (withV [0, 0xff]) (.abs P .i8 (.v 8) (.v 1)) 0 8 = some 1 ∧
    vAfter (withV [0, 0xffffffff, 1]) (.minInteger P .i32 (.v 8) (.v 1) (.v 2)) 0 8 = some 0xffffffff ∧
    vAfter (withV [0, 0xffffffff, 1]) (.maxInteger P .n32 (.v 8) (.v 1) (.v 2)) 0 8 = some 0xffffffff ∧
    vAfter (withV [0, 50, 1, 9]) (.clamp P .i32 (.v 8) (.v 1) (.v 2) (.v 3)) 0 8 = some 9 ∧
    vAfter (withV [0, 12, 10]) (.and P .b32 (.v 8) (.v 1) (.v 2)) 0 8 = some 8 ∧
    vAfter (withV [0, 12, 10]) (.or P .b32 (.v 8) (.v 1) (.v 2)) 0 8 = some 14 ∧
    vAfter (withV [0, 12, 10]) (.xor P .b8 (.v 8) (.v 1) (.v 2)) 0 8 = some 6 ∧
    vAfter (withV [0, 12, 10]) (.andn P .b16 (.v 8) (.v 1) (.v 2)) 0 8 = some 4 ∧
    vAfter (withV [0, 12]) (.not P .b8 (.v 8) (.v 1)) 0 8 = some 0xf3 := by decide +kernel

/-- R118, R120: counts, fields and addresses. -/
theorem test_fields :
    vAfter (withV [0, 0xf0f]) (.popc P .b32 (.v 8) (.v 1)) 0 8 = some 8 ∧
    vAfter (withV [0, 0]) (.clz P .b32 (.v 8) (.v 1)) 0 8 = some 32 ∧
    vAfter (withV [0, 0, 0, 16]) (.ctz P .b64 (.v 8) (.v 2)) 0 8 = some 36 ∧
    vAfter (withV [0, 1]) (.brev P .b32 (.v 8) (.v 1)) 0 8 = some 0x80000000 ∧
    vAfter (withV [0, 0x80, 0x404]) (.bfx P .i32 (.v 8) (.v 1) (.v 2)) 0 8 = some 0xfffffff8 ∧
    vAfter (withV [0, 0x80, 0x404]) (.bfx P .n32 (.v 8) (.v 1) (.v 2)) 0 8 = some 8 ∧
    vAfter (withV [0, 0xff, 1, 0x404]) (.bfi P .b32 (.v 8) (.v 1) (.v 2) (.v 3)) 0 8 = some 0xf1 ∧
    vAfter (withV [0, 5, 0x100, 0]) (.lea P .n64 3 (.v 8) (.v 2) (.v 1)) 0 8 = some 0x128 := by decide +kernel

/-- R121, R122, R70, R116: carries, comparisons, selection and moves. -/
theorem test_moves :
    vAfter (withV [0, 0xffffffff, 0]) (.addx P .n32 7 (.v 8) (.v 1) (.v 2)) 0 8 = some 0 ∧
    gAfter (withV [0, 0xffffffff, 1]) (.addx P .n32 2 (.v 8) (.v 1) (.v 2)) 0 2 = some true ∧
    gAfter (withV [0, 0xffffffff, 1]) (.cmpInteger P .i32 .lt 3 (.v 1) (.v 2)) 0 3 = some true ∧
    gAfter (withV [0, 0xffffffff, 1]) (.cmpInteger P .n32 .lt 3 (.v 1) (.v 2)) 0 3 = some false ∧
    vAfter (withV [0, 3, 3]) (.setb P .b32 .eq (.v 8) (.v 1) (.v 2)) 0 8 = some 0xffffffff ∧
    vAfter (withV [0, 3, 4]) (.sel P .b32 7 (.v 8) (.v 1) (.v 2)) 0 8 = some 3 ∧
    kAfter start (.mov P .b32 (.k 8) (.sp .lane)) 8 = some 0 ∧
    vAfter start (.mov P .b32 (.v 8) (.sp .lane)) 9 8 = some 9 ∧
    vAfter start (.movi P .i64 (.v 8) (BitVec.allOnes 40)) 0 9 = some 0xffffffff ∧
    vAfter start (.movi P .n64 (.v 8) (BitVec.allOnes 40)) 0 9 = some 0xff := by decide +kernel

/-- R94, R123: 2^24 + 1 ties to even, and is rounded up under RU; 1/3, the root of 2 and 1/2; R129 and R128. -/
theorem test_float :
    vAfter (withV [0, 0x4b800000, 0x3f800000]) (.addFloat P .f32 .rn (.v 8) (.v 1) (.v 2)) 0 8 = some 0x4b800000 ∧
    vAfter (withV [0, 0x4b800000, 0x3f800000]) (.addFloat P .f32 .ru (.v 8) (.v 1) (.v 2)) 0 8 = some 0x4b800001 ∧
    vAfter (withV [0, 0x3f800000, 0x3f800000]) (.subFloat P .f32 .rd (.v 8) (.v 1) (.v 2)) 0 8 = some 0x80000000 ∧
    vAfter (withV [0, 0x7f7fffff, 0x40000000]) (.mulFloat P .f32 .rn (.v 8) (.v 1) (.v 2)) 0 8 = some 0x7f7fffff ∧
    fAfter (withV [0, 0x7f7fffff, 0x40000000]) (.mulFloat P .f32 .rn (.v 8) (.v 1) (.v 2)) = some 1 ∧
    vAfter (withV [0, 0x40000000, 0x40400000, 0x3f800000]) (.fma P .f32 .rn (.v 8) (.v 1) (.v 2) (.v 3)) 0 8 =
      some 0x40e00000 ∧
    vAfter (withV [0, 0x3f800000, 0x40400000]) (.divFloat P .f32 .rn (.v 8) (.v 1) (.v 2)) 0 8 = some 0x3eaaaaab ∧
    vAfter (withV [0, 0x40400000]) (.rcp P .f32 .rz (.v 8) (.v 1)) 0 8 = some 0x3eaaaaaa ∧
    vAfter (withV [0, 0x40000000]) (.sqrt P .f32 .rn (.v 8) (.v 1)) 0 8 = some 0x3fb504f3 ∧
    vAfter (withV [0, 0x40800000]) (.rsq P .f32 .rn (.v 8) (.v 1)) 0 8 = some 0x3f000000 ∧
    vAfter (withV [0, 0x40200000]) (.rndi P .f32 .rn (.v 8) (.v 1)) 0 8 = some 0x40000000 ∧
    vAfter (withV [0, 0x3f800000, 0xffffffff]) (.scale P .f32 .rn (.v 8) (.v 1) (.v 2)) 0 8 = some 0x3f000000 ∧
    vAfter (withV [0, 0x3c003c00, 0x42004000, 0x3f800000]) (.dot2 P .f16x2 .rn (.v 8) (.v 1) (.v 2) (.v 3)) 0 8 =
      some 0x40c00000 := by decide +kernel

/-- R124 to R128: a NaN in min, comparisons, classes, signs, and the values that R126 gives the transcendental functions. -/
theorem test_float_select :
    vAfter (withV [0, 0x7fc00000, 0x3f800000]) (.minFloat P .f32 false (.v 8) (.v 1) (.v 2)) 0 8 = some 0x3f800000 ∧
    vAfter (withV [0, 0x7fc00000, 0x3f800000]) (.maxFloat P .f32 true (.v 8) (.v 1) (.v 2)) 0 8 = some 0x7fc00000 ∧
    gAfter (withV [0, 0x7fc00000, 0x3f800000]) (.cmpFloat P .f32 .ltu 3 (.v 1) (.v 2)) 0 3 = some true ∧
    gAfter (withV [0, 0x7fc00000, 0x3f800000]) (.cmpFloat P .f32 .ne 3 (.v 1) (.v 2)) 0 3 = some false ∧
    vAfter (withV [0, 0x3f800000, 0x80000000]) (.cpsign P .f32 (.v 8) (.v 1) (.v 2)) 0 8 = some 0xbf800000 ∧
    vAfter (withV [0, 0]) (.ex2 P .f32 (.v 8) (.v 1)) 0 8 = some 0x3f800000 ∧
    vAfter (withV [0, 0]) (.lg2 P .f32 (.v 8) (.v 1)) 0 8 = some 0xff800000 ∧
    vAfter (withV [0, 0x80000000]) (.sin P .f32 (.v 8) (.v 1)) 0 8 = some 0x80000000 ∧
    vAfter (withV [0, 0]) (.cos P .f32 (.v 8) (.v 1)) 0 8 = some 0x3f800000 ∧
    vAfter (withV [0, 0xff800000]) (.tanh P .f32 (.v 8) (.v 1)) 0 8 = some 0xbf800000 := by decide +kernel

/-- R130 to R135, and the examples of bsel, qnt and dqt: 0.15 and -0.3 in one block. -/
theorem test_convert :
    vAfter (withV [0, 0, 0, 0x40690000]) (.cvt P .i8 .f64 .rz (.v 8) (.v 2)) 0 8 = some 127 ∧
    fAfter (withV [0, 0, 0, 0x40690000]) (.cvt P .i8 .f64 .rz (.v 8) (.v 2)) = some 1 ∧
    vAfter (withV [0, 0x3f800000, 0xc0000000]) (.pack P .f16x2 .rn (.v 8) (.v 1) (.v 2)) 0 8 = some 0xc0003c00 ∧
    vAfter (withV [0, 0xc0003c00]) (.unpack P .f16x2 (.v 8) (.v 1)) 0 9 = some 0xc0000000 ∧
    vAfter (withV [0, 0x80e60, 0x44332211, 0x88776655]) (.bsel P (.v 8) (.v 2) (.v 1)) 0 8 = some 0xff225511 ∧
    vAfter (withV [0, 0x100e60, 0x44332211, 0x88776655]) (.bsel P (.v 8) (.v 2) (.v 1)) 0 8 = some 0x88225588 ∧
    vAfter (withV [0, 0, 0x44332211, 0x88776655]) (.bsel P (.v 8) (.v 2) (.imm 0x2e60)) 0 8 = some 0x88220011 ∧
    vAfter (withV [0, 0, 0x3e19999a, 0xbe99999a]) (.qnt P .nq4 (.v 8) (.v 2)) 0 8 = some 0x4c0c ∧
    vAfter (withV [0, 0x4c0c, 0x3f800000]) (.dqt P .f32 (.v 8) (.v 1) (.v 2)) 0 9 = some 0xbe9a0000 := by decide +kernel

/-- The example of R141: lanes 0 to 3 hold 2^24, 1, 1 and 5, and g1 is false in lane 3 only; here the lanes from 4 on have
exited. -/
def scanning : State :=
  let s := (onL fun ln => { ln with g := 2 }).onLanes 2 (BitVec.ofNat 32 8) fun _ ln => { ln with g := 0 }
  let v := fun l : Nat => if l = 0 then 0x4b800000 else if l = 3 then 0x40a00000 else 0x3f800000
  { s.onLanes 2 (BitVec.ofNat 32 15) (fun l ln => ln.setV 5 (BitVec.ofNat 32 (v l))) with
    cur := some ⟨2, 15, 64, none, none, false, 0, false⟩ }

theorem test_scan :
    (let i := Instr.scanw { P with gi := 1 } .add .f32 false (.v 6) (.v 5)
     vAfter scanning i 0 6 = some 0x4b800000 ∧ vAfter scanning i 1 6 = some 0x4b800000 ∧
       vAfter scanning i 2 6 = some 0x4b800001 ∧ vAfter scanning i 3 6 = some 0) ∧
    kAfter scanning (.redw { P with gi := 1 } .add .f32 (.k 2) (.v 5)) 2 = some 0x4b800001 := by decide +kernel

/-- R136 to R139. -/
theorem test_cross_lane :
    vAfter (onL fun ln => ln) (.shfl P .up (.v 8) (.sp .lane) (.imm 3)) 5 8 = some 2 ∧
    vAfter start (.shfl P .up (.v 8) (.sp .lane) (.imm 3)) 2 8 = some 2 ∧
    vAfter start (.bcast P (.v 8) (.sp .lane) (.imm 9)) 2 8 = some 9 ∧
    kAfter (lane0 start) (.vote P .ballot (.k 8) 7) 8 = some 1 ∧
    vAfter start (.matchW P .b32 (.v 8) (.sp .lane)) 4 8 = some 16 := by decide +kernel

/-- The example of R143: what rnd gives after a seed of zeros. -/
theorem test_rnd :
    (let s := start.onLanes 2 all32 fun _ ln => { ln with rng := Rng.zero }
     vAfter s (.rnd P .b32 (.v 8)) 0 8 = some 0x6627e8d5 ∧ vAfter s (.rnd P .f32 (.v 8)) 0 8 = some 0x3ecc4fd0) ∧
    (let s := start.onLanes 2 all32 fun _ ln => { ln with rng := { Rng.zero with idx := 3 } }
     vAfter s (.rnd P .b32 (.v 8)) 0 8 = some 0x9b00dbd8) ∧
    ((after (withV [1, 0, 2, 0]) (.rndSeed P .b64 (.v 0) (.v 2))).bind fun u =>
      (u.warps.find 2).map fun w => (w.lane 7).rng) = some ⟨1, 2, 0⟩ := by decide +kernel

/-- The example of R146: an accumulator of -2^300. -/
def minusOne : State := onW fun w => { w with ka := [0, kulOf (-2 ^ 300), 0, 0] }

theorem test_kulisch :
    ((after ((lane0 start).onWarp 2 fun w => w.setK 3 0x3f800000) (.ksub P .f32 1 (.k 3))).bind fun u =>
      (u.warps.find 2).map fun w => decide (w.acc 1 = kulOf (-2 ^ 300))) = some true ∧
    kAfter minusOne (.ksave P (.k 10) 1) 18 = some 0 ∧ kAfter minusOne (.ksave P (.k 10) 1) 19 = some 0xfffff000 ∧
    kAfter minusOne (.ksave P (.k 10) 1) 27 = some 0xffffffff ∧ kAfter minusOne (.kstat P (.k 10) 1) 10 = some 0x812c0000 ∧
    vAfter minusOne (.kround P .f32 .ru (.v 8) 1) 0 8 = some 0xbf800000 := by decide +kernel

/-- R225 to R227: the trap entry, the return from it, and a breakpoint. -/
theorem test_handlers :
    ((after (onR fun r => { r with trapoff := 48 }) (.trap P 7)).bind fun u => (u.warps.find 2).map fun w =>
      ((w.lane 3).pc.toNat, (w.lane 3).epc.toNat, (w.lane 3).hs, w.trapcause.toNat)) =
      some (64 + 48, 76, true, 0xffffffff * 2 ^ 32 + 15 * 2 ^ 24 + 7) ∧
    ((after (onL fun ln => { ln with hs := true, epc := 100 }) (.rfe P)).bind fun u => (u.warps.find 2).map fun w =>
      ((w.lane 3).pc.toNat, (w.lane 3).hs)) = some (100, false) ∧
    faultOf start (.rfe P) = some (1, 0, 1, 0xffffffff) ∧ faultOf start (.bkpt P) = some (16, 0, 0, 0xffffffff) ∧
    faultOf start (.trap P 7) = some (15, 0, 7, 0xffffffff) ∧ faultOf start (.csrr P 0x100 (.v 8)) = some (2, 0, 0, 0xffffffff) ∧
    vAfter (onG fun g => { g with gflags := 5 }) (.flagrd P (.v 8)) 0 8 = some 5 ∧
    fAfter (onG fun g => { g with gflags := 5 }) (.flagclr P 1) = some 4 ∧
    ((after (withK [0, 0, 3]) (.csrw P 0x022 (.k 2))).bind fun u => (u.groups.find 1).map fun g => g.traparm.toNat) =
      some 3 ∧
    vAfter (onG fun g => { g with traparm := 2 }) (.csrr P 0x022 (.v 8)) 0 8 = some 2 := by decide +kernel

/-- The PC of lane l after the word i. -/
def pcAfter (s : State) (i : Instr) (l : Nat) : Option Nat :=
  (after s i).bind fun u => (u.warps.find 2).map fun w => (w.lane l).pc.toNat

/-- R32, R50, R305 to R308. -/
theorem test_control :
    pcAfter start (.nop P) 7 = some 76 ∧ pcAfter start (.bra P 5) 7 = some 124 ∧
    pcAfter start (.call P (.v 8) 5) 7 = some 124 ∧ vAfter start (.call P (.v 8) 5) 7 8 = some 76 ∧
    pcAfter (withV [100, 0]) (.brx P (.v 0)) 7 = some 100 ∧ pcAfter (withV [88, 0]) (.ret P (.v 0)) 7 = some 88 ∧
    faultOf start (.bra P (-1)) = some (6, 52, 0, 0xffffffff) ∧ faultOf (withV [65, 0]) (.brx P (.v 0)) = some (6, 65, 0, 0xffffffff) ∧
    ((after start (.meet P 5)).bind fun u => (u.warps.find 2).map fun w => (w.lane 3).mr.toNat) = some 124 ∧
    ((after start (.yield P 64)).bind fun u => (u.warps.find 2).map fun w => w.yield) = some 512 ∧
    ((after (lane0 start) (.exit P)).bind fun u => (u.warps.find 2).map fun w => ((w.lane 0).exited, (w.lane 1).exited)) =
      some (true, false) := by decide +kernel

/-- R149, R172, R180: a store to the scratchpad and its full bit, a load, and the offsets that raise ALIGN. -/
theorem test_scratchpad :
    ((after (withV [0x11223344, 0, 0x20]) (.stsp P .b32 .x1 true (.v 0) (.v 2) 4)).bind fun u => (u.groups.find 1).map fun g =>
      (g.spad.getD 36 0, g.spad.getD 39 0, g.fe.getD 2 false, g.fe.getD 3 false)) = some (0x44, 0x11, true, false) ∧
    (let s := onG fun g => { g with spad := [(16, 0xfe), (17, 0xff)] }
     vAfter s (.ldsp P .i16 .x1 false false (.v 8) (.v 2) 16) 0 8 = some 0xfffffffe ∧
       vAfter s (.ldsp P .n16 .x1 false false (.v 8) (.v 2) 16) 0 8 = some 0xfffe) ∧
    faultOf start (.ldsp P .b32 .x1 false false (.v 8) (.v 2) 2) = some (6, 2, 0, 0xffffffff) ∧
    vAfter fullSpad (.feget P (.v 8) (.v 2) 0) 0 8 = some 1 ∧ vAfter fullSpad (.feget P (.v 8) (.v 2) 16) 0 8 = some 0 ∧
    ((after fullSpad (.feclr P (.v 2) 0)).bind fun u => (u.groups.find 1).map fun g => g.fe.getD 0 false) = some false ∧
    ((after start (.feset P (.v 2) 0)).bind fun u => (u.groups.find 1).map fun g => g.fe.getD 0 false) = some true := by
  decide +kernel

/-- R168, R174, R177, R181, R187: an access starts; a page without a leaf raises its fault. -/
theorem test_global :
    (∀ i ∈ [Instr.ld P .b32 .no .x1 (.v 8) (.v 2) 0, .ldk P .b32 .no .x1 (.k 8) (.k 2) 0, .atom P .n32 .add .no (.v 8) (.v 2) 0,
      .vatom P .i32 .add .no (.v 8) (.v 2) 0], ((after start i).bind fun u => (u.warps.find 2).map fun w => w.loads) = some 1) ∧
    (∀ i ∈ [Instr.st P .b32 .no .x1 (.v 8) (.v 2) 0, .red P .n32 .add .no (.v 8) (.v 2) 0],
      ((after start i).bind fun u => (u.warps.find 2).map fun w => w.stores) = some 32) ∧
    (∀ i ∈ [Instr.pfetch P .el (.v 2) 0, .evict P .en (.v 2) 0, .wake P (.v 2) 0], pcAfter start i 0 = some 76) ∧
    pcAfter start (.waita P 0 (.v 8) (.v 2) 0) 0 = some 64 ∧
    (faultOf (withV [0, 0, 0, 256]) (.ld P .b32 .no .x1 (.v 8) (.v 2) 0)).map (fun f => f.1) = some 8 ∧
    faultOf start (.ld P .b32 .no .x1 (.v 8) (.v 2) 2) = some (6, 2, 0, 0xffffffff) := by decide +kernel

/-- R182: the lanes add 5, 7, 1 and 2 to 100 in order, and read 100, 105, 112 and 113. -/
theorem test_atomic_order :
    (let a := fun v : Nat => ({ unit0 with data := leBytes 4 v } : Acc)
     let r := applyLanes .add .n32 100 [a 5, a 7, a 1, a 2]
     (r.1.map fun u => leNat u.data, r.2.1)) = ([100, 105, 112, 113], 115) ∧
    (let a := ({ unit0 with data := leBytes 4 0x3f800000 } : Acc)
     (applyLanes .add .f32 0x4b800000 [a, a]).2.1) = 0x4b800000 := by decide +kernel

/-- Queue n of the group after the word i. -/
def qAfter (s : State) (i : Instr) (n : Nat) : Option TileQ :=
  (after s i).bind fun u => (u.groups.find 1).bind fun g => g.tqs.find n

/-- R240 to R243: queue 1 has four slots. -/
theorem test_queues :
    qAfter (withK [0, 0, 0, 0, 77]) (.tqpush P 1 (.k 4)) 1 = some ⟨4, [(77, 0)], 3⟩ ∧
    qAfter (withQ ⟨4, [(5, 0), (6, 0)], 2⟩) (.tqpop P (.v 8) 1) 1 = some ⟨4, [(6, 0)], 3⟩ ∧
    vAfter (withQ ⟨4, [(5, 0), (6, 0)], 2⟩) (.tqpop P (.v 8) 1) 0 8 = some 5 ∧
    gAfter start (.tqtry P 3 (.v 8) 1) 0 3 = some false ∧ vAfter start (.tqallow P (.v 8) 1) 0 8 = some 4 ∧
    faultOf (onG fun g => { g with tqs := [] }) (.tqpop P (.v 8) 1) = some (12, 1, 0, 0xffffffff) ∧
    eventGives (withV [1, 0, 7, 0]) (.cntsig P false (.v 0) (.v 2)) (fun u => u.counter 1) 7 = true ∧
    pcAfter (withV [1, 0, 7, 0]) (.cntwait P (.v 0) (.v 2)) 0 = some 64 ∧
    pcAfter (withV [1, 0, 0, 0]) (.cntwait P (.v 0) (.v 2)) 0 = some 76 := by decide +kernel

/-- R313 to R318: a group of one warp ends each phase at once; in one of two, the first arrival waits. -/
theorem test_barriers :
    pcAfter start (.bar P 1) 0 = some 76 ∧ pcAfter (two 0) (.bar P 1) 0 = some 64 ∧ pcAfter (two 1) (.bar P 1) 0 = some 76 ∧
    gAfter (atBar ⟨false, true, .no⟩) (.barTest P 2 1) 0 2 = some true ∧
    gAfter (atBar ⟨true, false, .no⟩) (.barTest P 2 1) 0 2 = some false ∧
    pcAfter (atBar ⟨true, false, .no⟩) (.barWait P 1) 0 = some 64 ∧
    ((after (two 0) (.barArrive P 1)).bind fun u => (u.groups.find 1).map fun g => (u.bar g 1).cnt) = some 1 ∧
    faultOf start (.barset P 0 (.k 4)) = some (1, 0, 11, 0xffffffff) := by decide +kernel

/-- R264, R265, R276, R281: frames, a spawned range of five iterations in each lane, and the end of an iteration. -/
theorem test_tasks :
    ((after start (.fmark P)).bind fun u => (u.warps.find 2).map fun w => (w.lane 4).frames) = some [⟨0, 0, false⟩] ∧
    ((after spawning (.spawn P (.v 8) (.v 12) (.v 6))).bind fun u => (u.warps.find 2).map fun w => (w.lane 4).frames) =
      some [⟨5, 0, false⟩] ∧
    eventGives spawning (.spawn P (.v 8) (.v 12) (.v 6)) (fun u => (u.core 0).recs.length) 32 = true ∧
    vAfter (framed [⟨0, 3, false⟩]) (.await P (.v 8)) 0 8 = some 3 ∧ pcAfter (framed [⟨2, 3, false⟩]) (.await P (.v 8)) 0 = some 64 ∧
    ((after inlineRun (.tret P)).bind fun u => (u.warps.find 2).bind fun w => (w.lane 0).task.map fun t => t.it) = some 4 ∧
    ((after inlineRun (.tret P)).bind fun u => (u.warps.find 3).map fun w => (w.lane 0).frames) = some [⟨1, 0, false⟩] ∧
    vAfter inlineRun (.tidx P .hi (.v 8)) 0 8 = some 5 ∧ faultOf start (.tret P) = some (1, 0, 4, 0xffffffff) := by decide +kernel

/-- R298 to R302, R310, R312. -/
theorem test_blocks :
    ((after start (.ralloc P 3)).bind fun u => (u.warps.find 2).map fun w => w.held.toNat) = some 8 ∧
    ((after (onW fun w => { w with held := 12 }) (.rfree P 3)).bind fun u => (u.warps.find 2).map fun w => w.held.toNat) = some 4 ∧
    ((after (paired 0 2) (.vput P 0 (.v 8))).bind fun u => (u.groups.find 1).map fun g => (g.fifo 0).length) = some 3 ∧
    vAfter (paired 2 1) (.vget P 2 (.v 8)) 9 8 = some 7 ∧ vAfter (paired 2 1) (.vfree P 2 (.v 8)) 9 8 = some 15 ∧
    faultOf start (.vfree P 0 (.v 8)) = some (1, 0, 7, 0xffffffff) := by decide +kernel

/-- R190, R262, R263, R323, R339. -/
theorem test_engines :
    eventGives (withK [0, 0, 0, 0, 32]) (.tcopy P false false 1 .no (.k 0) (.k 2) (.k 4)) (fun u => (u.core 0).copies.length) 1 =
      true ∧
    faultOf (withK [0, 0, 0, 0, 8]) (.tcopy P false false 1 .no (.k 0) (.k 2) (.k 4)) = some (6, 8, 0, 0xffffffff) ∧
    vAfter (quota 1) (.klaunch P (.v 8) (.v 4)) 0 8 = some 2 ∧ vAfter (quota 9) (.klaunch P (.v 8) (.v 4)) 0 8 = some 0 ∧
    (∀ i ∈ [Instr.mmz P 5, .accmov P 5 6, .accld P .f32 false 5 (.v 16), .mmstat P .mma (.k 8)],
      eventGives start i (fun u => (u.core 0).matq.length) 1 = true) ∧
    faultOf start mmaWord = some (1, 0, 13, 0xffffffff) ∧
    eventGives start (.tfetch P 4) (fun u => (u.core 0).matq.length) 1 = true ∧
    kAfter formatted (.fslot P 2 (.k 8)) 8 = some 0x0c0c := by decide +kernel

/-- R355, R366, R367, R411 to R416. -/
theorem test_pages_units :
    eventGives (withPair [0, 1]) (.publish P (.k 0) (.k 1)) (fun u => u.pubTab) [(0, ⟨0, true⟩)] = true ∧
    faultOf (withPair [0, 2]) (.publish P (.k 0) (.k 1)) = some (9, 1, 0, 0xffffffff) ∧
    eventGives (sinter .absent) (.sfetch P (.v 2)) (fun u => (u.tileOf 0 0).map fun e => e.2.st) (some .arriving) = true ∧
    eventGives (sinter .resident) (.sevict P (.v 2)) (fun u => (u.tileOf 0 0).map fun e => e.2.st) (some .leaving) = true ∧
    vAfter (sinter .resident) (.sstat P (.v 8) (.v 2)) 0 8 = some (2 ^ 31 + 4 * 2 ^ 9) ∧
    vAfter idle (.rflv P (.v 8)) 0 8 = none ∧ vAfter start (.rflv P (.v 8)) 0 8 = some 0 ∧
    vAfter start (.pgateOff P (.v 8)) 0 8 = some 2 ∧ vAfter start (.pgateOn P (.v 8)) 0 8 = some 1 ∧
    vAfter (withV [817]) (.wrec P .bsu (.v 8) (.v 0)) 0 9 = some 0xffffffff ∧
    vAfter (onG fun g => { g with grant := some ⟨1, 5, false⟩, lastBoost := 1 }) (.bstat P (.v 8)) 0 8 =
      some (5 * 32 + 8 + 1) ∧
    faultOf (withV [4096]) (.boost P 2 (.v 8) (.v 0)) = some (6, 4096, 0, 0xffffffff) := by decide +kernel

/-! ### Events -/

/-- R157, R158, R177: a load ends with its register written; a store writes its bytes; its acknowledgement lowers the
count. -/
theorem test_access_events :
    (((after ((flying .load loadWord [unit0] 0).onLanes 2 all32 fun _ ln => ln.setVs 8 1 9) (.loadDataReturn 5 0)).bind fun u =>
      (u.warps.find 2).map fun w => ((w.lane 0).v.getD 8 0).toNat) = some 0) ∧
    eventGives (flying .store (.st P .b32 .no .x1 (.v 8) (.v 2) 0) [unit0] 1) (.writeUnitPerformed 5 0)
      (fun u => u.hbmNat 1 24576 4) 0x04030201 = true ∧
    eventGives (flying .atomic (.red P .n32 .add .no (.v 8) (.v 2) 0) [unit0, { unit0 with lane := 1 }] 1)
      (.atomicElementApplied 5 0) (fun u => u.hbmNat 1 24576 4) 0x08060402 = true ∧
    eventGives failing (.errorReply 5) (fun u => (u.groups.find 1).bind fun g => g.pend.map fun f => f.1.cls) (some 11) =
      true ∧
    eventGives start (.pageWalk 0 0 0 true) (fun u => (bitAt (u.hbmNat 1 20480 8) 52, u.tcache.any fun t => t.lvl == 0 && t.vpn == 0))
      (false, true) = true := by decide +kernel

/-- R208: the first touch of a frame writes its zeros. -/
theorem test_first_touch :
    eventGives dirty (.firstTouchScrub 6) (fun u => u.unscrubbed.getD 6 false) false = true := by decide +kernel

/-- R283, R256, R296, R208: a group is placed, saved and stopped. -/
theorem test_group_events :
    eventGives (placing 0 0) (.groupPlacement 0) (fun u => u.groups.map fun e => (e.2.core, e.2.num, e.2.warps.length))
      [(0, 0, 1)] = true ∧
    eventGives crowded (.preEmptionRequest 1) (fun u => (u.groups.find 1).map fun g => g.preempt) (some true) = true ∧
    eventGives (stoppingFor none) (.groupSave 1) (fun u => (u.groups.find 1).map fun g => (g.st, g.slot)) (some (.saved, some 0)) =
      true ∧
    eventGives (stoppingFor (some 15)) (.groupStop 1) (fun u => (u.groups.find 1).map fun g => g.st) (some .stopped) = true ∧
    eventGives (inSlot .saved) (.groupResume 1) (fun u => (u.groups.find 1).map fun g => g.st) (some .resuming) = true ∧
    eventGives (inSlot .resuming) (.restoreComplete 1) (fun u => (u.groups.find 1).map fun g => (g.st, g.slot))
      (some (.resident, none)) = true ∧
    eventGives drained (.launchCompletion 0) (fun u => u.launches.length) 0 = true ∧
    eventGives (queuedLaunch 1) (.launchStart 6) (fun u => u.launches.map fun e => e.2.st) [.dispatching] = true ∧
    eventGives (entryState 3 .waiting 0 7 0) (.counterSignalEntry 4) (fun u => u.counter 0) 7 = true := by decide +kernel

/-- R215 to R217, R196, R200: commands end with their status, and move contexts. -/
theorem test_command_events :
    (let s := commanded (inState .configured .valid) 0x11 [0] .taken 0
     eventGives s (.lock 20) (fun u => (u.cstate 0, (u.cmds.find 20).map fun c => c.status)) (.locked, some 1) = true) ∧
    (let s := commanded (inState .running .valid) 0x11 [0] .taken 0
     eventGives s (.lock 20) (fun u => (u.cmds.find 20).map fun c => c.status) (some 3) = true) ∧
    (let s := commanded (inState .running .valid) 0x11 [1024] .taken 0
     eventGives s (.lock 20) (fun u => (u.cmds.find 20).map fun c => (c.status, c.detail)) (some (2, 16)) = true) ∧
    (let s := commanded { idle with ctxs := [] } 0x05 [1024] .taken 0
     eventGives s (.caldsize 20) (fun u => u.nslots) 1024 = true) ∧
    (let s := commanded idle 0x05 [1024] .taken 0
     eventGives s (.caldsize 20) (fun u => (u.nslots, (u.cmds.find 20).map fun c => c.status)) (4096, some 3) = true) ∧
    eventGives ringed .commandTake (fun u => (u.gcq.head, u.cmds.length)) (1, 1) = true ∧
    eventGives (talking .configured false) (.lockInterfaceRequest 0 0) (fun u => u.cstate 0) .locked = true ∧
    eventGives (talking .configured false) (.lockInterfaceRequest 1 0) (fun u => u.cstate 0) .configured = true := by
  decide +kernel

/-- R372, R378, R394, R400, R406, R408, R409, R414. -/
theorem test_device_events :
    eventGives (withLink 9 .resetting) (.linkTrainingSuccess 9) (fun u => u.link 9) .active = true ∧
    eventGives (withLink 9 .retraining) (.retrainFailure 9) (fun u => u.link 9) .down = true ∧
    eventGives (lastLink 6) (.retrainFailure 6) (fun u => (u.warm.find 0).map fun w => w.step) (some 4) = true ∧
    eventGives (resetting 1 0) (.warmResetQuiesce 0) (fun u => (u.warm.find 0).map fun w => w.step) (some 2) = true ∧
    eventGives (resetting 7 0) (.reAdmission 0) (fun u => u.warm) [] = true ∧
    eventGives (hot 89) (.throttleEnd 0) (fun u => u.zones) [] = true ∧
    eventGives (upper fun c => { c with gate := .pending 1 }) (.gateApply 0) (fun u => (u.core 1).gate) (.gated 1 0) = true ∧
    eventGives idle .powerFailWarning (fun u => u.power) .failing = true ∧
    eventGives State.reset (.selfTestEnd [] []) (fun u => u.power) .on = true ∧
    eventGives idle .shockSensor (fun u => u.transport) true = true := by decide +kernel

/-- R409, log 3: the device takes its self-test before it fetches anything, and a placed word is the first to run (log 12). -/
theorem test_steps :
    (match step (placed 0xe01c00007000000000000000) with
      | .next u => ((u.groups.find 1).bind fun g => g.pend.map fun f => (f.1.cls, f.1.info)) == some (15, 7)
      | _ => false) = true ∧
    (match step (placed 0) with
      | .next u => ((u.groups.find 1).bind fun g => g.pend.map fun f => f.1.cls) == some 1
      | _ => false) = true := by decide +kernel

/-- The hypotheses of DecodeEncode. -/
theorem witness_DecodeEncode :
    WellFormed (.trap P 7) ∧ (ctlOf (.trap P 7)).isSome = true ∧ (encodeBytes (.trap P 7)).isSome = true :=
  ⟨(by decide +kernel : formOk _ = true), by decide +kernel, by decide +kernel⟩

/-! ### Further clauses: values, marks, waits and departures -/

/-- 1.0, -1.0, -0.0 and the least number of FP32, an infinity, a NaN and a sum and a product that are zero: what the clauses
of FloatArithmetic and FloatSelection ask of a, b and p. -/
theorem witness_FloatArithmetic_values :
    isArith .f32 ∧ (∀ y ∈ [0x3f800000, 0xbf800000, 0x80000000, 1, 0x7f800000, 0x7fc00000, 0x7f800001], y < 2 ^ fmtBits .f32) ∧
    (isNan .f32 0x7fc00000 = true ∧ isNan .f32 0x7f800001 = true ∧ isNan .f32 0x3f800000 = false) ∧
    (isFin .f32 0x3f800000 = true ∧ patRat .f32 0x3f800000 ≠ 0 ∧ patRat .f32 0xbf800000 < 0) ∧
    (isFin .f32 0x80000000 = true ∧ patRat .f32 0x80000000 + patRat .f32 0x80000000 = 0 ∧
      patRat .f32 0x3f800000 * patRat .f32 0x80000000 = 0 ∧
      patRat .f32 0x3f800000 * patRat .f32 0x3f800000 + patRat .f32 0xbf800000 = 0) ∧
    (infOf .f32 false = 0x7f800000 ∧ mulF .f32 .rn 0x7f800000 0x3f800000 = Res.of (infOf .f32 false)) ∧
    (signPat .f32 true = 0x80000000 ∧ |patRat .f32 1| < (2 : ℚ) ^ (1 - (expBias .f32 : ℤ)) ∧ patRat .f32 1 ≠ 0 ∧
      ¬|patRat .f32 0x3f800000| < (2 : ℚ) ^ (1 - (expBias .f32 : ℤ))) := by
  have h0 : unpackF .f32 0x80000000 = .fin true 0 (-149) := by decide +kernel
  have h1 : unpackF .f32 1 = .fin false 1 (-149) := by decide +kernel
  have hb : expBias .f32 = 127 := by decide +kernel
  refine ⟨.inr (.inr (.inl rfl)), by decide +kernel, by decide +kernel, ⟨by decide +kernel, ?_⟩, ⟨by decide +kernel, ?_⟩,
    by decide +kernel, by decide +kernel, ?_⟩ <;> simp only [patRat, one_f32.1, one_f32.2, h0, h1, hb, FV.rat] <;> norm_num

/-- Pairs of FP16 elements, and FP32 addends, for every clause of dot2: the element that is a NaN; a product of an infinity
and a zero; infinities of both signs, and of one; a sum that is not zero, and two that are. -/
theorem witness_FloatArithmetic_dot2 :
    ([elemOf .f16x2 0x7e003c00 0, elemOf .f16x2 0x7e003c00 1].find? (isNan .f16)) = some 0x7e00 ∧
    isNan .f32 0x7fc00000 = true ∧
    (elemOf .f16x2 0x7c00 0 = infOf .f16 false ∧ elemOf .f16x2 0 0 = signPat .f16 false) ∧
    (isFin .f16 (elemOf .f16x2 0x7c00 0) = false ∧ infOf .f32 true = 0xff800000) ∧
    (∀ j < 2, isFin .f16 (elemOf .f16x2 0x3c003c00 j) = true ∧ isFin .f16 (elemOf .f16x2 0xbc003c00 j) = true ∧
      isFin .f16 (elemOf .f16x2 0 j) = true) := by decide +kernel

/-- What the rules of the conversions, the reductions and the random numbers ask of their operands. -/
theorem witness_Conversions_values :
    (Ty.isI .i8 = true ∧ Ty.isN .n64 = true ∧ isFin .e4m3 0x38 = true ∧ isNan .e4m3 0x7f = true ∧ infOf .e5m2 true = 0xfc ∧
      signPat .e4m3 true = 0x80) ∧
    ((BitVec.ofNat 8 0xff : BitVec 8).toInt ≠ 0 ∧ (BitVec.ofNat 8 0 : BitVec 8).toInt = 0) ∧
    (isNan .f32 0x7fc00000 = true ∧ isFin .f32 0x3f800000 = true ∧ (0x3f800000 : Nat) < 2 ^ 32 ∧ (255 : Nat) < 256) ∧
    ((∀ v ∈ [0x7fc00000, 0x3f800000], v < 2 ^ Ty.bits .f32) ∧
      [0x7fc00000, 0x3f800000].find? (isNan .f32) = some 0x7fc00000 ∧ isNan .f32 0x3f800000 = false) ∧
    (infOf .f32 false ∈ [infOf .f32 false, infOf .f32 true] ∧ infOf .f32 true ∉ [infOf .f32 false, 0x3f800000]) ∧
    ((∀ v ∈ [0x3f800000, 0x3f800000], isFin .f32 v = true) ∧ ∀ v ∈ [0x80000000, 0x80000000], v = signPat .f32 true) ∧
    (∃ v ∈ [0, 0x80000000], v ≠ signPat .f32 true) ∧ Rng.zero.idx < 4 := by decide +kernel

/-- The leaf of the code page lacks AF and DF, and lane 0 alone issues. -/
def unmarked : State := lane0 { start with mem := memSets start.mem 20480 (leBytes 8 (24576 + 63)) }

/-- The access of lane 0 at the address in v2 finds a leaf whose bits are to be set, of which no entry tells already. -/
def marks (s : State) (x : Iss) (wr : Bool) : Bool :=
  decide (x.m = oneLane 0) && match x.trLane s (x.ea s 0 (.v 2) 0) 4 (if wr then .w else .r) true false with
    | (.loc h, s') => adBits h.leaf.ent wr != h.leaf.ent && decide (h.leaf.addr + 8 ≤ hbmSize) &&
        s'.tcache.all fun e => !e.parts.contains (x.ea s 0 (.v 2) 0 / 4096)
    | _ => false

theorem witness_LoadsAndStores_marks :
    runsIf unmarked loadWord (fun x => marks unmarked x false) = true ∧
    (∀ s ∈ [unmarked, lane0 start], runsIf s (.st P .b32 .no .x1 (.v 8) (.v 2) 0) (fun x => marks s x true) = true) := by
  decide +kernel

/-- Every lane but lane 0 is parked at 64, where it stands; lane 2 has still to come there, or not. -/
def parked (late : Bool) : State :=
  (lane0 start).onLanes 2 (all32 - 1) fun l ln => { ln with mr := 64, pc := if late && l == 2 then 88 else ln.pc }

/-- All lanes of M may end, and run no iteration. -/
def mayExit (s : State) (x : Iss) : Bool :=
  (maskLanes x.m).all fun l => s.canEnd x.w l x.wp && (x.wp.lane l).task.isNone && !(x.wp.lane l).exited

/-- Lane 0 runs iteration t, inline for a frame of warp 3, or in a task warp of which the other lanes have exited, or not. -/
def iteration (t : Task) (isTask alone : Bool) : State :=
  let s := (inlineRun.onWarp 2 fun w => { w with isTask := isTask }).onLanes 2 1 fun _ ln => { ln with task := some t }
  if alone then s.onLanes 2 (all32 - 1) fun _ ln => { ln with exited := true } else s

/-- The hypotheses that every clause of iterationClause has. -/
def iterates (x : Iss) (t : Task) : Bool :=
  decide (x.m = oneLane 0) && x.wp.mayEnd 0 && !(x.wp.lane 0).exited && (x.wp.lane 0).task == some t && t.parent.w != x.w

/-- The group of start has no other warp left that has not ended. -/
def lastOne (s : State) (x : Iss) : Bool :=
  !s.ownsRecord x.wp.gid && x.g.st == .resident && s.warps.all fun e => e.1 == x.w || e.2.gid != x.wp.gid || e.2.over

theorem witness_LanesEnd_ends :
    (∀ late ∈ [true, false], runsIf (parked late) (.exit P) (fun x => mayExit (parked late) x && !inMask x.m 1 &&
      (x.wp.lane 1).mr == 64 && (x.wp.lane 1).pc == 64 && ((x.wp.lane 2).pc == 64) == !late) = true) ∧
    runsIf start (.exit P) (fun x => mayExit start x && lastOne start x &&
      (start.warps.filter fun e => e.2.gid == x.wp.gid && !e.2.over) == [(x.w, x.wp)]) = true ∧
    runsIf arrivedOther (.exit P) (fun x => mayExit arrivedOther x && (arrivedOther.warps.any fun e =>
      e.1 != x.w && e.2.gid == x.wp.gid && !e.2.over && (e.2.bar 1).arr) &&
      decide ((arrivedOther.bar x.g 1).exp ≤ (arrivedOther.bar x.g 1).cnt + 1) &&
      decide ¬((arrivedOther.bar x.g 2).exp ≤ (arrivedOther.bar x.g 2).cnt + 1)) = true ∧
    (∀ i ∈ [Instr.tret P, .exit P],
      (let t : Task := ⟨4, 5, 3, 5, 0, 64, ⟨3, 0, 0⟩, true⟩
       runsIf (iteration t false false) i (fun x => iterates x t && decide ¬(t.it + 1 < t.hi) &&
         ((x.wp.lane 0).conts.head?.map fun k => k.fail) == some false) = true) ∧
      (let t : Task := ⟨3, 5, 3, 5, 0, 64, ⟨3, 0, 0⟩, false⟩
       (∀ alone ∈ [true, false], runsIf (iteration t true alone) i (fun x => iterates x t &&
         x.wp.isTask && (x.wp.lane 1).exited == alone) = true) ∧
       ((iteration t true true).warps.find 3).map (fun p => p.gid == 1 && !p.over) = some true ∧
       (let s := (iteration t true true).onWarp 3 fun w => { w with lanes := w.lanes.map fun ln => { ln with exited := true } }
        runsIf s i (fun x => iterates x t && x.wp.isTask && lastOne s x) = true)) ∧
      runsIf (lane0 storing) (.exit P) (fun x => decide (x.m = oneLane 0) && !(lane0 storing).canEnd x.w 0 x.wp) = true) := by
  decide +kernel

/-- Die 0 quiesces for its warm reset, so that requests to it are held. -/
def quiescing (s : State) : State := { s with warm := [(0, ⟨2, 0, false⟩)] }

/-- World 0 has a peer window at address 0. -/
def windowed (s : State) : State := s.onCtx 0 fun c => { c with windows := [⟨0, 2 ^ 21, 0, 3, 7⟩] }

/-- The page lies on die 1, to which no route leads. -/
def afar : State := { start with mem := memSets start.mem 20480 (leBytes 8 (2 ^ 37 + 24576 + 2111)) }

/-- The one page of the tile that is mapped has its leaf apart from the tile's frames. -/
theorem witness_SinterTiles_leaves :
    ((tiled .leaving []).tileOf 0 0).map (fun e => ((tiled .leaving []).tilePages e.1 0).filterMap fun p => match p with
      | .ok h => some (h.sint.isSome, decide (h.leaf.addr + 8 ≤ 24576))
      | _ => none) = some [(true, true)] := by decide +kernel

/-- What the checks that stop nothing find for the lanes' addresses. -/
def foundBy (s : State) (x : Iss) : List LReq :=
  (x.trAll 1 .none false false ((maskLanes x.m).map fun l => (l, x.ea s l (.v 2) 0)) s).1

theorem witness_WaitsAndHints_held :
    (∀ i ∈ [Instr.pfetch P .el (.v 2) 0, .evict P .en (.v 2) 0],
      runsIf (quiescing (lane0 start)) i (fun x =>
        (x.heldBack (quiescing (lane0 start)) (foundBy (quiescing (lane0 start)) x)).isSome) = true ∧
      runsIf (lane0 start) i (fun x => (x.heldBack (lane0 start) (foundBy (lane0 start) x)).isNone &&
        (maskLanes x.m).all fun l => ((lane0 start).windowOf x.g.world (x.ea (lane0 start) l (.v 2) 0)).isNone) = true) ∧
    (∀ e ∈ [(lane0 start, false), (lane0 afar, true)], runsIf e.1 (.wake P (.v 2) 0) (fun x =>
      let f := fun l => x.ea e.1 l (.v 2) 0
      passes e.1 x (maskLanes x.m) 1 .r false f &&
        (x.heldBack e.1 (x.trAll 1 .r false false ((maskLanes x.m).map fun l => (l, f l)) e.1).1).isSome == e.2) = true) ∧
    runsIf (windowed (lane0 start)) (.evict P .en (.v 2) 0) (fun x => x.g.pend.isNone && (x.wp.lane 0).task.isNone &&
      (x.heldBack (windowed (lane0 start)) (foundBy (windowed (lane0 start)) x)).isNone &&
      ((maskLanes x.m).find? fun l =>
        ((windowed (lane0 start)).windowOf x.g.world (x.ea (windowed (lane0 start)) l (.v 2) 0)).isSome) == some 0) = true ∧
    runsIf unmarked (.pfetch P .el (.v 2) 0) (fun x => plainHit unmarked x 0 &&
      match x.trLane unmarked 0 1 .none false false with
      | (.loc h, _) => !bitAt h.leaf.ent 11 && decide (h.leaf.addr + 8 ≤ hbmSize)
      | _ => false) = true := by decide +kernel

theorem witness_Copies_tags :
    (∀ e ∈ [(start, 0), (copying (copyOf false), 1)], runsIf e.1 (.tcwait P 1) (fun x =>
      ((e.1.core x.wp.core).copies.filter fun y => y.w == x.w && y.tag == 1).length == e.2) = true) ∧
    runsIf (onW fun w => { w with tags := [(1, ⟨0, some (11, 16)⟩)] }) (.tcwait P 1) (fun x =>
      (x.wp.tags.getD 1 Tag.idle).fail == some (11, 16) && stopsGroup x) = true := by decide +kernel

/-- The rows of an accld or accst of global memory, at address 0 for every lane, translate and pass. -/
def rowsPass (s : State) (x : Iss) (op : MatOp) (t : Ty) (need : Perm) : Bool :=
  let rs := (x.trAll (rowBytes t) need false false ((maskLanes x.m).map fun l => (l, op.addrs.getD l 0)) s).1
  (worstOf rs).isNone && (heldOf rs).isNone

/-- The pages of an mma's global descriptors are plain, and hold none of the tables that map them. -/
def pagesPlain (s : State) (x : Iss) (d : Nat) : Bool :=
  let rs := (x.trAll 1 .r false false ((descPages false 16 d).map fun p => (lowLane x.m, p)) s).1
  (x.descAlign false 16 d).isNone && !rs.isEmpty && rs.all fun r => match r.tr with
    | .loc h => h.sint.isNone && (s.replyErr x.g.world h.pa).isNone && !s.away (coreDie x.wp.core) h.pa && !s.unscr h.pa &&
        rs.all fun r' => match r'.tr with
          | .loc h' => h.pa / 4096 != h'.leaf.addr / 4096 && h.pa / 4096 != (h'.leaf.addr + 7) / 4096
          | _ => false
    | _ => false

/-- Sixteen entries of core 0's pin table are held by a group, none for descriptor 0. -/
def crowdedPins (s : State) (gid : Nat) : State :=
  s.onCore 0 fun c => { c with pins := (upTo 0 16).map fun k => ⟨0, gid, 64 * (k + 1), true, [], [], []⟩ }

theorem witness_MatrixWork_global :
    (let i := Instr.accld P .f32 true 5 (.v 16)
     let s := inEngine start i [] (List.replicate 32 0)
     atHead s (fun x => match (s.core 0).matq with
       | op :: _ => op.vals.isEmpty && rowsPass s x op .f32 .r
       | [] => false) = true ∧
     atHead (inEngine start i [[]] []) (fun _ => true) = true) ∧
    (let s := inEngine start (.accst P .bf16x2 true false .rn 5 (.v 16)) [] (List.replicate 32 0)
     atHead s (fun x => match (s.core 0).matq with
       | op :: _ => rowsPass s x op .bf16x2 .w
       | [] => false) = true) ∧
    (let s := inEngine formatted mmaWord [] [0, 0, 0, 0]
     atHead s (fun x => pagesPlain s x 0 && mfmt (x.slotBytes 2) == ⟨.f16, .f16, 0, 0, 0⟩) = true) ∧
    (∀ gid ∈ [1, 7],
      let s := crowdedPins (inEngine start (.tfetch P 4) [] [0]) gid
      atHead s (fun x => !descSp 0 && (x.pinWay s 0).isNone && (s.core x.wp.core).pinsHeld == 16 &&
        ((s.core x.wp.core).pins.any fun p => p.gid == x.wp.gid && p.held) == (gid == 1) &&
        (s.core x.wp.core).pins.all fun p => !p.names x.g.world x.wp.gid 0) = true) := by decide +kernel

theorem witness_Units_waking :
    (∀ i ∈ [Instr.pgateOn P (.v 8), .pgateOff P (.v 8)], ∀ g ∈ [none, some 5],
      runsIf (upper fun c => { c with gate := .waking 0 g }) i (fun _ => true) = true) ∧
    (∀ e ∈ [(upper fun c => { c with gate := .pending 1 }, true),
        (upper fun c => { c with gate := .pending 1, matq := [⟨9, 3, [], [], []⟩] }, false)],
      (e.1.core 1).gate = .pending 1 ∧ e.1.quiet 1 = e.2) := by decide +kernel

/-- The accld of global memory in the engine of core 0 waits for its last unit. -/
def rowLoad : State :=
  let i := Instr.accld P .f32 true 5 (.v 16)
  { inEngine start i [] [] with txns := [(5, ⟨2, 0, 0, .load, i, all32, 64, [unit0], [], 0, [], [], some 9⟩)] }

theorem witness_MemoryEvents_rows :
    (match rowLoad.unitNow 5 0 .load with
      | some (t, a) => decide (t.q = some 9 ∧ a.port = none ∧ (t.done (t.with a)).units = []) &&
          (t.with a).all fun b => decide (b.pa % 32 + b.n ≤ 32) && ((rowLoad.core t.core).l1.find (l1Key t.world b.pa)).isNone
      | none => false) = true ∧ ((rowLoad.core 0).matq.any fun o => o.q == 9) = true ∧
    (rowLoad.core 0).gate = .open ∧ (failing.txns.find 5).map Txn.anew = some false ∧
    (∀ e ∈ failing.txns, e.2.kind ≠ .atomic) := by decide +kernel

theorem witness_WaitsEnd_more :
    (let s := waiting start (.waita P 0 (.v 8) (.v 2) 0) .sleep [(0, 3)] false 0
     wakes s (fun x => s.compared 9 && decide (x.m ≠ 0 ∧ tmoCycles 0 ≤ x.clk)) = true ∧
       ((s.waits.find 9).map fun y => !y.sat && y.stat.all fun e => e.2 != 4) = some true) ∧
    (let s := (waiting start (.tcwait P 1) .tcwait [(7, 1)] false 0).onCore 0 fun k => { k with copies := [copyOf false] }
     wakes s (fun x => (x.wp.tags.getD 1 Tag.idle).fail.isNone && ((s.waits.find 9).map fun y =>
       (s.core x.wp.core).copies.all fun k => (y.stat.find k.id).isNone) == some true) = true) ∧
    (let s := waiting start (.tfetch P 4) .tfetch [(5, 0)] false 0
     wakes s (fun x => (x.pinWay s 0).isNone) = true) := by decide +kernel

/-- A group that is to be saved while its context may hold no slot. -/
def slotless : State := (stoppingFor none).onCtx 0 fun c => { c with allot := 0 }

theorem witness_Groups_slotless :
    slotless.allAtStops 1 = true ∧ slotless.takeSlot 0 = none ∧ slotless.staysStopped 0 = false ∧
    ((slotless.groups.find 1).map fun g => (g.st, g.preempt, g.pend.isNone)) = some (.stopping, true, true) := by
  decide +kernel

/-- The engine has a status word of world 0 still to write. -/
def owing (s : State) : State := { s with late := [⟨0, 48, leBytes 16 7, none, false⟩] }

theorem witness_CommandEffects_departure :
    (∀ s ∈ [inState .running .valid, owing (inState .running .valid), inState .running .revoked],
      soundCmd s 0x15 1 [0] = true ∧ s.cstate 0 = .running) ∧
    ((inState .running .valid).key 0).st = .valid ∧ ((inState .running .revoked).key 0).st ≠ .valid ∧
    configurable.late = [] ∧ (∃ l ∈ (owing (inState .running .valid)).late, l.world = 0) := by decide +kernel

/-- Every hypothesis of the departure's clauses occurs: with a word owed, which a quiescing die holds back, and with none. -/
theorem witness_CommandEffects_owed :
    (let s := quiescing (commanded (owing (inState .running .valid)) 0x15 [0] .taken 0)
     eventGives s (.stop 20) (fun u => ((u.key 0).st, u.late.any fun l => l.world == 0)) (.valid, true) = true) ∧
    (let s := commanded (inState .running .valid) 0x15 [0] .taken 0
     eventGives s (.stop 20) (fun u => ((u.key 0).st, u.late.any fun l => l.world == 0)) (.revoked, false) = true) := by
  decide +kernel

/-- A load and a copy of world 0 are in flight at address 0. -/
def inFlight : State :=
  { linked with
    txns := [(5, ⟨2, 0, 0, .load, loadWord, 1, 64, [unit0], [], 0, [], [], none⟩)]
    cores := [(0, { Core.fresh with copies := [{ copyOf false with id := 6 }] })] }

theorem witness_CommandEffects_users :
    (∀ args ∈ [[0, 0, 4096], [0, 4096, 4096], [0]], soundCmd inFlight 0x30 3 args = true) ∧
    ((inFlight.txns.find 5).map fun t => !inFlight.isKept 5 t && t.units.any fun a => a.port.isNone && meetRange a.va a.n 0 4096) =
      some true ∧
    ((inFlight.core 0).copies.any fun y => y.world == 0 && meetRange y.va (cnvGlobal y.cnv y.n) 0 4096) = true := by
  decide +kernel

theorem witness_ContextEvents_waiting :
    (let s := { talking .departing true with ctxs := (talking .departing true).ctxs.mapV fun _ c => { c with depart := 1 } }
     (s.ctxs.find 0).map (fun c => c.depart) = some 1) ∧
    ((talking .departing true).ctxs.find 0).map (fun c => c.depart) = some 0 ∧
    ({ talking .running true with power := .selfTest } : State).power ≠ .off := by decide +kernel

theorem witness_Links_saving :
    (let s := { lastLink 6 with warm := [(0, ⟨1, 0, false⟩)] }
     s.link 6 = .retraining ∧ 0 ∉ (s.moveLink 6 .down).joinedDies ∧ 0 ∉ s.dead ∧
       s.warm.find 0 = some ⟨1, 0, false⟩) := by decide +kernel

/-- The last core of partition 0 ends its rest, worn like the others or more. -/
def rested (bsu : Nat) : State :=
  { idle.onCore 35 (fun c => { c with rest := .resting 0 90 }) with units := [(35, ⟨bsu, 0, 0, 0⟩)] }

theorem witness_WearAndBoost_rest :
    (∀ bsu ∈ [0, 2 ^ 30], ((rested bsu).core 35).rest = .resting 0 90 ∧ (rested bsu).corePart 35 = some 0 ∧
      (rested bsu).parts.find 0 = some part0) ∧
    part0.cores.map (fun n => ((rested (2 ^ 30)).wear n).bsu) = [0, 0, 0, 0, 0, 0, 0, 2 ^ 30] ∧
    102 * medianOf [0, 0, 0, 0, 0, 0, 0, 2 ^ 30 - 2304] < 100 * (2 ^ 30 - 2304) ∧
    ¬102 * medianOf [0, 0, 0, 0, 0, 0, 0, 0] < 100 * 0 ∧
    (∃ k ∈ part0.cores, k ≠ 35 ∧ (rested (2 ^ 30)).coreIn k = true) ∧ (idle.core 0).drain = false := by
  refine ⟨by decide +kernel, by decide +kernel, ?_, by omega, by decide +kernel, by decide +kernel⟩
  rw [medianOf, List.mergeSort_of_pairwise (by decide +kernel)]
  decide

theorem witness_PowerAndHeat_estimates :
    idle.estDone = false ∧ (idle.time + 1) % 1000 ≠ 0 ∧
    (let s := { idle with time := 999 }
     s.running = true ∧ s.estDone = false ∧ (s.time + 1) % 1000 = 0) ∧
    (let s := { idle with estDone := true }
     s.running = true ∧ s.estDone = true) := by decide +kernel

/-- The fetch of the group that issues next on the second port: the first half and, of a word in two pages, the other. -/
def fetches (s : State) (u : Cur) : Option (Except Fetched Nat × Option (Except Fetched Nat)) :=
  let s1 := { s with second := none, cur := some u }
  let code (t : State) (va : Nat) := t.codeAt (coreDie (s1.warpCore u.w)) (s1.worldOf u.w) va
  let r := code { s1 with freeCtr := u.draw } u.pc.toNat
  let left := 4096 - u.pc.toNat % 4096
  if s.second != some u then none
  else some (r.1, if left < 12 then some (code r.2 (u.pc.toNat + left)).1 else none)

/-- A group is to issue at a PC on the second port; the page at 4096 maps to the code page, too. -/
def secondAt (pc : Nat) : State × Cur :=
  let u : Cur := ⟨2, all32, BitVec.ofNat 64 pc, none, none, false, 0, false⟩
  let s := placed 0
  ({ s with mem := memSets s.mem 20488 (leBytes 8 (24576 + 2111)), second := some u }, u)

/-- The fetch of secondAt, with the state changed, meets p. -/
def fetchMeets (pc : Nat) (f : State → State) (p : Except Fetched Nat → Option (Except Fetched Nat) → Bool) : Bool :=
  match fetches (f (secondAt pc).1) (secondAt pc).2 with
  | some (a, b) => p a b
  | none => false

/-- A fetch succeeds, fails, or is held back. -/
def fetchKind : Except Fetched Nat → Nat
  | .ok _ => 0
  | .error (.bad _ _) => 1
  | .error .held => 2
  | .error _ => 3

theorem witness_StepRunsDecoded_fetches :
    fetchMeets 4092 id (fun a b => fetchKind a == 0 && (b.map fetchKind) == some 0) = true ∧
    fetchMeets 8192 id (fun a _ => fetchKind a == 1) = true ∧
    fetchMeets 4092 (fun s => { s with mem := memSets s.mem 20488 (leBytes 8 0) })
      (fun a b => fetchKind a == 0 && (b.map fetchKind) == some 1) = true ∧
    fetchMeets 64 (fun s => { s with mem := memSets s.mem 20480 (leBytes 8 (2 ^ 37 + 24576 + 2111)) })
      (fun a _ => fetchKind a == 2) = true ∧
    fetchMeets 4092 (fun s => { s with mem := memSets s.mem 20488 (leBytes 8 (2 ^ 37 + 24576 + 2111)) })
      (fun a b => fetchKind a == 0 && (b.map fetchKind) == some 2) = true ∧
    fetchMeets 64 windowed (fun a _ => fetchKind a == 1) = true := by decide +kernel

end Sys2Proof.Tests
end

/-!
Decoding and encoding (R30, R31, R40 to R53, R67 to R87): a code read back is the sub-field it was written for, an operand
field is its operand, the fields of a word are those it was joined from, and so on up to the bytes of an instruction.
-/

namespace Sys2Proof

open Sys2Proof.Machine

/-! ### The codes of the sub-fields -/

@[simp] theorem Ty.ofCode_code (t : Ty) : Ty.ofCode t.code = some t := by cases t <;> rfl

@[simp] theorem Rm.ofCode_code (m : Rm) : Rm.ofCode m.code = m := by cases m <;> rfl

@[simp] theorem Cmp.ofCode_code (c : Cmp) : Cmp.ofCode c.code = some c := by cases c <;> rfl

@[simp] theorem Ch.ofCode_code (c : Ch) : Ch.ofCode c.code = c := by cases c <;> rfl

@[simp] theorem Cnt.ofCode_code (n : Cnt) : Cnt.ofCode n.code = some n := by cases n <;> rfl

@[simp] theorem MOrd.ofCode_code (o : MOrd) : MOrd.ofCode o.code = o := by cases o <;> rfl

@[simp] theorem Aop.ofCode_code (o : Aop) : Aop.ofCode o.code = some o := by cases o <;> rfl

@[simp] theorem SReg.ofCode_code (r : SReg) : SReg.ofCode r.code = some r := by cases r <;> rfl

@[simp] theorem ShMode.ofCode_code (m : ShMode) : ShMode.ofCode m.code = m := by cases m <;> rfl

@[simp] theorem VoteMode.ofCode_code (m : VoteMode) : VoteMode.ofCode m.code = m := by cases m <;> rfl

@[simp] theorem Cnv.ofCode_code (c : Cnv) : Cnv.ofCode c.code = some c := by cases c <;> rfl

@[simp] theorem TFld.ofCode_code (f : TFld) : TFld.ofCode f.code = some f := by cases f <;> rfl

@[simp] theorem MmCtr.ofCode_code (r : MmCtr) : MmCtr.ofCode r.code = r := by cases r <;> rfl

@[simp] theorem WKind.ofCode_code (k : WKind) : WKind.ofCode k.code = some k := by cases k <;> rfl

@[simp] theorem Qdm.ofCode_code (q : Qdm) : Qdm.ofCode q.code = some q := by cases q <;> rfl

/-- redw and scanw keep the low three bits of AOP, which tell the operations of R140 apart. -/
theorem Aop.ofCode_low_code {op : Aop} {t : Ty} (h : redOk op t = true) :
    Aop.ofCode (0#1 ++ op.code.extractLsb' 0 3) = some op := by
  cases op with
  | add | min | max | and | or | xor => rfl
  | inc | dec | exch | cas => cases h

/-! ### Single bits -/

@[simp] theorem getElem_bit (b : Bool) : (bit b)[0] = b := by cases b <;> rfl

theorem bit_getLsbD {n : Nat} (x : BitVec n) (k : Nat) : bit (x.getLsbD k) = x.extractLsb' k 1 := by
  apply BitVec.eq_of_getLsbD_eq
  intro i hi
  obtain rfl : i = 0 := by omega
  simp

theorem getLsbD_append_of_lt {m n k : Nat} {x : BitVec m} {y : BitVec n} (h : k < n) :
    (x ++ y).getLsbD k = y.getLsbD k := by
  rw [BitVec.getLsbD_append, if_pos h]

theorem getLsbD_append_of_le {m n k : Nat} {x : BitVec m} {y : BitVec n} (h : n ≤ k) :
    (x ++ y).getLsbD k = x.getLsbD (k - n) := by
  rw [BitVec.getLsbD_append, if_neg (Nat.not_lt.mpr h)]

/-! ### Operand fields (R40, R43, R48) -/

theorem pDst_enc (d : Dst) : pDst d.enc = some d := by
  cases d <;>
    simp (disch := decide) only [pDst, Dst.enc, BitVec.extractLsb'_append_eq_of_le,
      BitVec.extractLsb'_append_eq_of_add_le] <;>
    simp

theorem pSrc_enc (a : Src) : pSrc a.enc = some a := by
  cases a <;>
    simp (disch := decide) only [pSrc, Src.enc, BitVec.extractLsb'_append_eq_of_le,
      BitVec.extractLsb'_append_eq_of_add_le] <;>
    simp

theorem pSrcC_append_of_encC {p : Src} {y : BitVec 10} (h : p.encC = some y) (x : BitVec 2) :
    pSrcC (x ++ y) = some p := by
  cases p with
  | v i | k i =>
    obtain rfl := Option.some.inj h
    simp (disch := decide) only [pSrcC, BitVec.extractLsb'_append_eq_of_le, BitVec.extractLsb'_append_eq_of_add_le]
    simp
  | sp r | imm b => cases h

/-- RM of a word that names a source C (R48). -/
theorem ofCode_code_append (rm : Rm) (y : BitVec 10) :
    Rm.ofCode (BitVec.extractLsb' (n := 12) 10 2 (rm.code ++ y)) = rm := by
  rw [BitVec.extractLsb'_append_eq_left, Rm.ofCode_code]

/-! ### Words and their fields (R30) -/

theorem unpackWord_packWord (r : Raw) : unpackWord (packWord r) = r := by
  simp (disch := decide) only [unpackWord, packWord, BitVec.extractLsb'_append_eq_of_le,
    BitVec.extractLsb'_append_eq_of_add_le, getLsbD_append_of_lt, getLsbD_append_of_le]
  simp

theorem packWord_unpackWord (w : IWord) : packWord (unpackWord w) = w := by
  simp (disch := decide) only [unpackWord, packWord, bit_getLsbD,
    BitVec.extractLsb'_append_extractLsb'_eq_extractLsb', BitVec.extractLsb'_eq_self]

/-! ### The reader undoes the writer -/

/-- A word with a source C exists only when its type has an opcode and its source C a code (R48). -/
theorem bind_encC_eq_some {o : Option (BitVec 10)} {p : Src} {f : BitVec 10 → BitVec 10 → Raw} {r : Raw}
    (h : (o.bind fun x => p.encC.map (f x)) = some r) : ∃ x y, o = some x ∧ p.encC = some y ∧ f x y = r := by
  obtain ⟨x, ho, hp⟩ := Option.bind_eq_some_iff.mp h
  obtain ⟨y, hy, hr⟩ := Option.map_eq_some_iff.mp hp
  exact ⟨x, y, ho, hy, hr⟩

/-- The opcode of a written word is assigned, and reading its fields gives the instruction back (R33, R67, R80 to
R86). -/
theorem ofRaw_toRaw {i : Instr} {r : Raw} (hi : formOk i = true) (h : toRaw i = some r) :
    opAssigned r.op = true ∧ ofRaw r = some i := by
  cases i
  -- Words of one opcode: cut the fields out of the joins, then read each code back.
  case
      addInteger | subInteger | mulInteger | mulhi | mulw | divInteger | rem | neg | abs | minInteger | maxInteger |
      and | or | xor | not | andn | shl | shr | sra | rotl | bfx | popc | clz | ctz | brev | lea | addx | cmpInteger |
      setb | sel | mov | movi |
      addFloat | subFloat | mulFloat | minFloat | maxFloat | cmpFloat | rcp | rsq | sqrt | divFloat | ex2 | lg2 |
      sin | cos | tanh | classF | rndi | cpsign | scale |
      cvt | pack | unpack | bsel | qnt | dqt | shfl | vote | matchW | bcast | rnd | rndSeed | kzero | kadd | kdot |
      ksub | kround | ksave | kload | kstat |
      ld | st | ldk | ldsp | stsp | feget | feset | feclr | atom | red | vatom | vred | waita | wake | pfetch | evict |
      tcopy | tcwait |
      bar | barArrive | barWait | barTest | barset | tqpush | tqpop | tqtry | tqallow | cntsig | cntwait | spawn |
      fmark | await | tret | tidx | tstat | vput | vget | vfree |
      mma | mmz | accld | accst | accmov | tfetch | tunpin | mmstat | publish | sfetch | sstat | sevict |
      nop | bra | brx | call | ret | exit | meet | yield | ralloc | rfree | rblk | klaunch | fslot |
      trap | bkpt | flagrd | flagclr | csrr | csrw | rfe | rflv | boost | bstat | pgateOn | pgateOff | wrec =>
    obtain rfl := Option.some.inj h
    refine ⟨rfl, ?_⟩
    simp (disch := decide) only [ofRaw, ofRawInt, ofRawFlt, ofRawCnv, ofRawMem, ofRawQue, ofRawTil, ofRawCtl, ofRawSys,
      pDst_enc, pSrc_enc, fTy, mT, mTR, eRes, eUni, BitVec.extractLsb'_append_eq_of_le,
      BitVec.extractLsb'_append_eq_of_add_le, getLsbD_append_of_lt, getLsbD_append_of_le,
      BitVec.extractLsb'_append_extractLsb'_eq_extractLsb', BitVec.extractLsb'_setWidth_of_le,
      BitVec.reduceExtractLsb', BitVec.reduceToNat] <;>
      simp
  -- Words that keep only the low bits of AOP.
  case redw c op t d a | scanw c op t exc d a =>
    have hop : redOk op t = true := Bool.and_elim_left (Bool.and_elim_left hi)
    obtain rfl := Option.some.inj h
    refine ⟨rfl, ?_⟩
    simp (disch := decide) only [ofRaw, ofRawCnv, pDst_enc, pSrc_enc, fTy, BitVec.extractLsb'_append_eq_of_le,
      BitVec.extractLsb'_append_eq_of_add_le, getLsbD_append_of_lt, getLsbD_append_of_le, BitVec.reduceExtractLsb',
      BitVec.reduceToNat]
    simp [Aop.ofCode_low_code hop]
  -- Words with a source C: the opcode is one of those of the type.
  case mad c t d a b p | clamp c t d a b p | bfi c t d a b p =>
    obtain ⟨o, y, ho, hy, rfl⟩ := bind_encC_eq_some h
    cases t <;> cases ho <;>
      refine ⟨rfl, ?_⟩ <;>
      simp only [ofRaw, ofRawInt, pDst_enc, pSrc_enc, pSrcC_append_of_encC hy, BitVec.reduceExtractLsb',
        BitVec.reduceToNat] <;>
      rfl
  case fma c t rm d a b p | dot2 c t rm d a b p =>
    obtain ⟨o, y, ho, hy, rfl⟩ := bind_encC_eq_some h
    cases t <;> cases ho <;>
      refine ⟨rfl, ?_⟩ <;>
      simp only [ofRaw, ofRawFlt, pDst_enc, pSrc_enc, pSrcC_append_of_encC hy, ofCode_code_append,
        BitVec.reduceExtractLsb', BitVec.reduceToNat] <;>
      rfl
  -- Events have no word.
  all_goals cases h

/-! ### Decoding a word -/

theorem decodeRaw_eq_ok_iff {r : Raw} {i : Instr} :
    decodeRaw r = .ok i ↔ formOk i = true ∧ toRaw i = some r := by
  constructor
  · intro h
    unfold decodeRaw at h
    split at h <;> [skip; cases h]
    split at h <;> [cases h; skip]
    split at h <;> [skip; cases h]
    split at h <;> [skip; cases h]
    cases h
    exact ⟨‹_›, ‹_›⟩
  · rintro ⟨hi, hr⟩
    obtain ⟨hop, hread⟩ := ofRaw_toRaw hi hr
    simp [decodeRaw, hop, hread, hi, hr]

theorem encode_eq_some_iff {i : Instr} {w : IWord} : encode i = some w ↔ toRaw i = some (unpackWord w) := by
  rw [encode, Option.map_eq_some_iff]
  constructor
  · rintro ⟨r, hr, rfl⟩
    rw [hr, unpackWord_packWord]
  · exact fun h => ⟨_, h, packWord_unpackWord w⟩

theorem decodeWord_eq_ok_iff {w : IWord} {i : Instr} : decodeWord w = .ok i ↔ WellFormed i ∧ encode i = some w := by
  rw [decodeWord, decodeRaw_eq_ok_iff, encode_eq_some_iff, WellFormed]

theorem encode_isSome (i : Instr) : (encode i).isSome = (ctlOf i).isSome := by
  simp [encode, ctlOf]

/-! ### Bytes (R31) -/

theorem leBytes_getD {n k : Nat} (x : Nat) (h : k < n) : (leBytes n x).getD k 0 = BitVec.ofNat 8 (x / 256 ^ k) := by
  induction n generalizing x k with
  | zero => omega
  | succ n ih =>
    cases k with
    | zero => simp [leBytes]
    | succ k =>
      rw [leBytes, List.getD_cons_succ, ih _ (by omega), Nat.div_div_eq_div_mul, Nat.pow_succ, Nat.mul_comm]

theorem leBytes_getD_toNat {m n k : Nat} (w : BitVec m) (h : k < n) :
    (leBytes n w.toNat).getD k 0 = w.extractLsb' (8 * k) 8 := by
  rw [leBytes_getD _ h, BitVec.extractLsb', Nat.shiftRight_eq_div_pow, Nat.pow_mul]

theorem leNat_leBytes (n x : Nat) : leNat (leBytes n x) = x % 256 ^ n := by
  induction n generalizing x with
  | zero => simp [leBytes, leNat, Nat.mod_one]
  | succ n ih => simp [leBytes, leNat, ih, Nat.pow_succ', Nat.mod_mul (a := 256)]

theorem decodeBytes_leBytes_append (w : IWord) (rest : List Byte) :
    decodeBytes (leBytes 12 w.toNat ++ rest) = (decodeWord w).map fun i => (i, rest) := by
  have hlen : (leBytes 12 w.toNat).length = 12 := leBytes_length ..
  have hw : BitVec.ofNat 96 (leNat (leBytes 12 w.toNat)) = w := by
    rw [leNat_leBytes]
    exact BitVec.eq_of_toNat_eq (by simpa using w.isLt)
  rw [decodeBytes, if_neg (by simp [hlen]), List.take_left' hlen, List.drop_left' hlen, hw]

theorem encodeBytes_eq_some_iff {i : Instr} {bs : List Byte} :
    encodeBytes i = some bs ↔ ∃ w, encode i = some w ∧ leBytes 12 w.toNat = bs :=
  Option.map_eq_some_iff

/-- Settles O55: the reader undoes the writer for every well-formed instruction, the decoder accepts only what the
encoder writes, and twelve bytes, the lowest first, hold the word. -/
theorem decodeEncode : Obligations.DecodeEncode := by
  refine ⟨fun i w hw => ?_, fun i hi hc => ?_, fun i bs rest hi hb => ?_, fun w i => decodeWord_eq_ok_iff.mp⟩
  · exact ⟨_, encodeBytes_eq_some_iff.mpr ⟨w, hw, rfl⟩, leBytes_length .., fun k => leBytes_getD_toNat w⟩
  · obtain ⟨w, hw⟩ := Option.isSome_iff_exists.mp ((encode_isSome i).trans hc)
    exact ⟨w, hw, decodeWord_eq_ok_iff.mpr ⟨hi, hw⟩⟩
  · obtain ⟨w, hw, rfl⟩ := encodeBytes_eq_some_iff.mp hb
    rw [decodeBytes_leBytes_append, decodeWord_eq_ok_iff.mpr ⟨hi, hw⟩]
    rfl

end Sys2Proof

/-!
Lane instructions on integers (R88 to R90, R119): values of a type as bit vectors, and division, remainder and shifts.
-/

namespace Sys2Proof.Machine

/-! ### Results told for the lanes of M alone -/

theorem inMask_lt {m : Mask} {l : Nat} (h : inMask m l = true) : l < 32 := BitVec.lt_of_getLsbD h

theorem mem_laneNums {l : Nat} : l ∈ laneNums ↔ l < 32 := by
  rw [show laneNums = List.range 32 from rfl, List.mem_range]

theorem mem_maskLanes {m : Mask} {l : Nat} : l ∈ maskLanes m ↔ inMask m l = true := by
  rw [maskLanes, List.mem_filter, mem_laneNums]
  exact and_iff_right_of_imp inMask_lt

theorem maskLanes_ne_nil {m : Mask} (h : m ≠ 0) : maskLanes m ≠ [] := by
  intro hnil
  refine h (BitVec.eq_of_getLsbD_eq fun l _ => ?_)
  have hl : ¬inMask m l = true := fun hl => by simpa [hnil] using mem_maskLanes.mpr hl
  simpa [inMask] using hl

theorem inMask_lowLane {m : Mask} (h : m ≠ 0) : inMask m (lowLane m) = true := by
  obtain ⟨l, ls, hls⟩ := List.exists_cons_of_ne_nil (maskLanes_ne_nil h)
  rw [← mem_maskLanes, lowLane, hls]
  exact List.mem_cons_self ..

/-- A destination takes results from the lanes of M only, so a result matters in those alone. -/
theorem Gives.congr {i : Instr} {d : Dst} {n : Nat} {r r' : State → Iss → Nat → Nat} (h : Gives i d n r)
    (hr : ∀ s x, Runs s i x → ∀ l, inMask x.m l = true → r s x l = r' s x l) : Gives i d n r' := by
  intro s x hx
  obtain ⟨u, he, hret, wp, hw, hd⟩ := h s x hx
  refine ⟨u, he, hret, wp, hw, ?_⟩
  cases d with
  | v i => exact fun l j hl hm hj => (hd l j hl hm hj).trans (by rw [hr s x hx l hm])
  | k i => exact fun j hj => (hd j hj).trans (by rw [hr s x hx _ (inMask_lowLane hx.lanes)])

/-! ### Values of a type as bit vectors (R88 to R90) -/

theorem toInt_eq_toInt_ofNat (w x : Nat) : toInt w x = (BitVec.ofNat w x).toInt := by
  have hw : 2 * (x % 2 ^ w) < 2 ^ w ↔ x % 2 ^ w < 2 ^ (w - 1) := by
    cases w with
    | zero => simp [Nat.mod_one]
    | succ w => rw [Nat.pow_succ', Nat.add_sub_cancel]; omega
  simp only [toInt, BitVec.toInt_eq_toNat_cond, BitVec.toNat_ofNat, hw]

theorem ofInt_eq_toNat_ofInt (w : Nat) (z : Int) : ofInt w z = (BitVec.ofInt w z).toNat := (BitVec.toNat_ofInt z).symm

/-- A number of a type, read from a bit vector. -/
theorem tyInt_eq (t : Ty) (x : Nat) :
    tyInt t x = if t.isI then (BitVec.ofNat t.bits x).toInt else ((BitVec.ofNat t.bits x).toNat : Int) := by
  simp only [tyInt, toInt_eq_toInt_ofNat, BitVec.toNat_ofNat]

theorem ofInt_tyInt (t : Ty) (x : Nat) : BitVec.ofInt t.bits (tyInt t x) = BitVec.ofNat t.bits x := by
  rw [tyInt_eq]
  split
  · exact BitVec.ofInt_toInt
  · rw [BitVec.ofInt_natCast, BitVec.ofNat_toNat, BitVec.setWidth_eq]

theorem tyInt_eq_zero_iff {t : Ty} {x : Nat} : tyInt t x = 0 ↔ BitVec.ofNat t.bits x = 0 := by
  constructor
  · intro h
    rw [← ofInt_tyInt, h]
    exact BitVec.ofInt_natCast _ 0
  · intro h
    rw [tyInt_eq, h]
    simp

theorem tyExt_toNat (t : Ty) (b : BitVec t.bits) : tyExt t b.toNat = regVal t b := by
  simp only [tyExt, regVal, toInt_eq_toInt_ofNat, ofInt_eq_toNat_ofInt, BitVec.ofNat_toNat, BitVec.setWidth_eq,
    BitVec.signExtend, Nat.mod_eq_of_lt b.isLt]

theorem intRes_eq (t : Ty) (z : Int) : intRes t z = Res.of (regVal t (BitVec.ofInt t.bits z)) := by
  rw [intRes, ofInt_eq_toNat_ofInt, tyExt_toNat]

theorem regVal_of_32_le {t : Ty} (h : 32 ≤ t.bits) (b : BitVec t.bits) : regVal t b = b.toNat := by
  rw [regVal, decide_eq_false (Nat.not_lt.mpr h), Bool.and_false]
  rfl

/-- An operand of .b32 or .b64 fits its width (R44, R89). -/
theorem Iss.val_lt {t : Ty} (h : t.isBW = true) (x : Iss) (s : State) (l : Nat) (a : Src) : x.val s l t a < 2 ^ t.bits := by
  have hreg : (if t.bits = 64 then (x.src64 s l a).toNat else (x.src32 s l a).toNat % 2 ^ t.bits) < 2 ^ t.bits := by
    split
    next h64 => exact (x.src64 s l a).isLt.trans_eq (by rw [h64])
    next => exact Nat.mod_lt _ (Nat.two_pow_pos _)
  cases a with
  | imm b => cases t <;> cases h <;> exact Nat.mod_lt _ (Nat.two_pow_pos _)
  | v i | k i | sp r => exact hreg

/-! ### Division and remainder (R119) -/

theorem ofInt_allOnes (w : Nat) : BitVec.ofInt w (2 ^ w - 1) = BitVec.allOnes w := by
  have h : ((2 ^ w - 1 : Nat) : Int) = 2 ^ w - 1 := by simp [Nat.one_le_two_pow]
  rw [← h, BitVec.ofInt_natCast]
  exact BitVec.eq_of_toNat_eq (by simp)

/-- The one quotient that does not fit: the least number by -1 (R119). -/
theorem ofNat_sdiv_of_least {w p q : Nat} (hw : 0 < w) (hp : (BitVec.ofNat w p).toInt = -2 ^ (w - 1))
    (hq : (BitVec.ofNat w q).toInt = -1) : (BitVec.ofNat w p).sdiv (BitVec.ofNat w q) = BitVec.ofNat w p := by
  have hp' : BitVec.ofNat w p = BitVec.intMin w :=
    BitVec.eq_of_toInt_eq (hp.trans (by rw [BitVec.toInt_intMin_of_pos hw]))
  have hq' : BitVec.ofNat w q = -1#w := by
    rw [← BitVec.ofInt_toInt (x := BitVec.ofNat w q), hq, BitVec.ofInt_neg]
    rfl
  rw [hp', hq', BitVec.intMin_sdiv_neg_one]

theorem ofInt_divOp (t : Ty) (p q : Nat) :
    BitVec.ofInt t.bits (divOp t p q) =
      if BitVec.ofNat t.bits q = 0 then BitVec.allOnes t.bits
      else if t.isI then (BitVec.ofNat t.bits p).sdiv (BitVec.ofNat t.bits q)
      else BitVec.ofNat t.bits p / BitVec.ofNat t.bits q := by
  have hp := tyInt_eq t p
  have hq := tyInt_eq t q
  simp only [divOp, tyInt_eq_zero_iff, Bool.and_eq_true, decide_eq_true_eq]
  split
  next => exact ofInt_allOnes _
  next =>
    split
    next h =>
      obtain ⟨⟨hI, hx⟩, hy⟩ := h
      rw [if_pos hI] at hp hq ⊢
      rw [ofInt_tyInt, ofNat_sdiv_of_least (by cases t <;> decide) (hp ▸ hx) (hq ▸ hy)]
    next =>
      rw [hp, hq]
      split
      · exact BitVec.eq_of_toInt_eq (by rw [BitVec.toInt_ofInt, BitVec.toInt_sdiv])
      · rw [← Int.ofNat_tdiv, BitVec.ofInt_natCast, ← BitVec.toNat_udiv, BitVec.ofNat_toNat, BitVec.setWidth_eq]

theorem remOp_eq_tmod (t : Ty) (p q : Nat) : remOp t p q = (tyInt t p).tmod (tyInt t q) := by
  simp only [remOp]
  split
  next h => rw [h, Int.tmod_zero]
  next h =>
    split
    next hm =>
      simp only [Bool.and_eq_true, decide_eq_true_eq] at hm
      rw [hm.2, Int.tmod_neg, Int.tmod_one]
    next => rw [Int.tmod_def]

theorem ofInt_remOp (t : Ty) (p q : Nat) :
    BitVec.ofInt t.bits (remOp t p q) =
      if t.isI then (BitVec.ofNat t.bits p).srem (BitVec.ofNat t.bits q)
      else BitVec.ofNat t.bits p % BitVec.ofNat t.bits q := by
  rw [remOp_eq_tmod, tyInt_eq, tyInt_eq]
  split
  · rw [← BitVec.toInt_srem, BitVec.ofInt_toInt]
  · rw [← Int.ofNat_tmod, ← BitVec.toNat_umod, BitVec.ofInt_natCast, BitVec.ofNat_toNat, BitVec.setWidth_eq]

/-! ### Shifts (R119) -/

theorem shlOp_eq (w a n : Nat) : shlOp w a n = (BitVec.ofNat w a <<< n).toNat := by
  simp only [shlOp, BitVec.toNat_shiftLeft, BitVec.toNat_ofNat, Nat.shiftLeft_eq, Nat.mod_mul_mod]
  split
  next h => exact (Nat.mod_eq_zero_of_dvd ((Nat.pow_dvd_pow 2 h).mul_left a)).symm
  next => rfl

theorem shrOp_eq {w a : Nat} (h : a < 2 ^ w) (n : Nat) : shrOp w a n = (BitVec.ofNat w a >>> n).toNat := by
  simp only [shrOp, BitVec.toNat_ushiftRight, BitVec.toNat_ofNat, Nat.shiftRight_eq_div_pow, Nat.mod_eq_of_lt h]
  split
  next hn => exact (Nat.div_eq_of_lt (h.trans_le (Nat.pow_le_pow_right (by omega) hn))).symm
  next => rfl

theorem ofInt_sraOp (w n : Nat) (b : BitVec w) : BitVec.ofInt w (sraOp w b.toInt n) = b.sshiftRight n := by
  have hlo := BitVec.le_two_mul_toInt (x := b)
  have hhi := BitVec.two_mul_toInt_lt (x := b)
  rw [BitVec.sshiftRight, Int.shiftRight_eq_div_pow, sraOp]
  split
  next hn =>
    have hpow : (2 : Int) ^ w ≤ 2 ^ n := pow_le_pow_right₀ (by omega) hn
    split
    next h0 => rw [Int.ediv_eq_neg_one_of_neg_of_le h0 (by push_cast; omega)]
    next h0 => rw [Int.ediv_eq_zero_of_lt (by omega) (by push_cast; omega)]
  next => push_cast; rfl

theorem divInteger_gives (c : Ctl) (t : Ty) (d : Dst) (a b : Src) :
    Gives (.divInteger c t d a b) d t.regs fun s x l => regVal t
      (if x.bv s l t b = 0 then BitVec.allOnes t.bits
       else if t.isI then (x.bv s l t a).sdiv (x.bv s l t b) else x.bv s l t a / x.bv s l t b) :=
  execLane_gives_of _ _ d _ _ _ (fun _ => rfl) fun s x l => by
    rw [lane2, intRes_eq, ofInt_divOp]
    rfl

theorem rem_gives (c : Ctl) (t : Ty) (d : Dst) (a b : Src) :
    Gives (.rem c t d a b) d t.regs fun s x l => regVal t
      (if t.isI then (x.bv s l t a).srem (x.bv s l t b) else x.bv s l t a % x.bv s l t b) :=
  execLane_gives_of _ _ d _ _ _ (fun _ => rfl) fun s x l => by
    rw [lane2, intRes_eq, ofInt_remOp]
    rfl

theorem shl_gives (c : Ctl) (t : Ty) (d : Dst) (a b : Src) :
    Gives (.shl c t d a b) d t.regs fun s x l => (x.bv s l t a <<< x.val s l .b32 b).toNat :=
  execLane_gives_of _ _ d _ _ _ (fun _ => rfl) fun s x l => by
    rw [lane2, shlOp_eq]
    rfl

theorem shr_gives (c : Ctl) (t : Ty) (d : Dst) (a b : Src) :
    Gives (.shr c t d a b) d t.regs fun s x l => (x.bv s l t a >>> x.val s l .b32 b).toNat := by
  have h : Gives (.shr c t d a b) d t.regs fun s x l => shrOp t.bits (x.val s l t a) (x.val s l .b32 b) :=
    execLane_gives_of _ _ d _ _ _ (fun _ => rfl) fun _ _ _ => rfl
  refine h.congr fun s x hx l _ => ?_
  have ht : t.isBW = true := Bool.and_elim_left (Bool.and_elim_left (Bool.and_elim_left hx.formed))
  exact shrOp_eq (x.val_lt ht s l a) _

theorem sra_gives (c : Ctl) (t : Ty) (d : Dst) (a b : Src) :
    Gives (.sra c t d a b) d t.regs fun s x l => ((x.bv s l t a).sshiftRight (x.val s l .b32 b)).toNat := by
  have h : Gives (.sra c t d a b) d t.regs fun s x l =>
      regVal t (BitVec.ofInt t.bits (sraOp t.bits (tyInt t (x.val s l t a)) (x.val s l .b32 b))) :=
    execLane_gives_of _ _ d _ _ _ (fun _ => rfl) fun s x l => by rw [lane2, intRes_eq]
  refine h.congr fun s x hx l _ => ?_
  have ht : (t == .i32 || t == .i64) = true := Bool.and_elim_left (Bool.and_elim_left (Bool.and_elim_left hx.formed))
  have hwide : (t == .i32 || t == .i64) = true → t.isI = true ∧ 32 ≤ t.bits := by cases t <;> decide
  obtain ⟨hI, h32⟩ := hwide ht
  rw [regVal_of_32_le h32, tyInt_eq, if_pos hI, ofInt_sraOp]
  rfl

/-- Settles O2: each instruction is the operation of R119 on the numbers of its type, and the operations on numbers are
those on bit vectors. -/
theorem divisionAndShifts : Obligations.DivisionAndShifts := fun c t d a b =>
  ⟨divInteger_gives c t d a b, rem_gives c t d a b, shl_gives c t d a b, shr_gives c t d a b, sra_gives c t d a b⟩

end Sys2Proof.Machine

/-!
Floating-point patterns and their numbers (R91 to R96): the number of a magnitude, its order, and one rounding to nearest.
-/

namespace Sys2Proof.Machine

/-! ### Formats (R91) -/

/-- The magnitude bits of a pattern. -/
def magOf (t : Ty) (x : Nat) : Nat := x % 2 ^ (fmtBits t - 1)

/-- The binade of a magnitude, with the subnormal numbers in that of the least normal ones. -/
def magExp (t : Ty) (p : Nat) : Nat := p / 2 ^ manBits t - 1

/-- The significand of a magnitude. -/
def magMan (t : Ty) (p : Nat) : Nat := p - magExp t p * 2 ^ manBits t

/-- The number of a magnitude, with every exponent beyond the largest one as well. -/
def magRat (t : Ty) (p : Nat) : ℚ := magMan t p * 2 ^ (minExp t + magExp t p)

/-- A sign as a factor. -/
def signRat (n : Bool) : ℚ := if n then -1 else 1

theorem two_le_manBits (t : Ty) : 2 ≤ manBits t := by cases t <;> decide

/-- The magnitudes around the largest finite one stand in one binade, whose number is k. -/
theorem exists_maxFin_eq {t : Ty} (ht : t ≠ .e4m3) : ∃ k, maxFin t = k * 2 ^ manBits t + (2 ^ (manBits t + 1) - 1) ∧
    infPat t = k * 2 ^ manBits t + 2 ^ (manBits t + 1) ∧
    2 ^ (fmtBits t - 1) = k * 2 ^ manBits t + 3 * 2 ^ manBits t := by
  refine ⟨infPat t / 2 ^ manBits t - 2, ?_⟩
  revert ht
  cases t <;> decide

theorem infPat_eq_maxFin_add_one {t : Ty} (ht : t ≠ .e4m3) : infPat t = maxFin t + 1 := by
  obtain ⟨k, hmax, hinf, -⟩ := exists_maxFin_eq ht
  have := Nat.two_pow_pos (manBits t + 1)
  omega

theorem infPat_lt {t : Ty} (ht : t ≠ .e4m3) : infPat t < 2 ^ (fmtBits t - 1) := by
  obtain ⟨k, -, hinf, hpow⟩ := exists_maxFin_eq ht
  have := Nat.two_pow_pos (manBits t)
  have hsucc : 2 ^ (manBits t + 1) = 2 * 2 ^ manBits t := Nat.pow_succ'
  omega

theorem maxFin_odd {t : Ty} (ht : t ≠ .e4m3) : maxFin t % 2 = 1 := by
  revert ht
  cases t <;> decide

/-! ### The number of a magnitude -/

theorem magRat_mul_add (t : Ty) {k top : Nat} (htop : top ≤ 2 ^ (manBits t + 1)) (hk : k = 0 ∨ 2 ^ manBits t ≤ top) :
    magRat t (k * 2 ^ manBits t + top) = top * 2 ^ (minExp t + k) := by
  have hP := Nat.two_pow_pos (manBits t)
  have hsucc : 2 ^ (manBits t + 1) = 2 * 2 ^ manBits t := Nat.pow_succ'
  rcases htop.lt_or_eq with htop | rfl
  · have hexp : magExp t (k * 2 ^ manBits t + top) = k := by
      rw [magExp, Nat.mul_comm, Nat.mul_add_div hP]
      have : top / 2 ^ manBits t < 2 := Nat.div_lt_of_lt_mul (by omega)
      rcases hk with rfl | hk
      · omega
      · have := Nat.div_pos hk hP
        omega
    rw [magRat, magMan, hexp, Nat.add_sub_cancel_left]
  · have hexp : magExp t (k * 2 ^ manBits t + 2 ^ (manBits t + 1)) = k + 1 := by
      rw [magExp, hsucc, ← Nat.add_mul, Nat.mul_div_cancel _ hP]
      omega
    have hman : magMan t (k * 2 ^ manBits t + 2 ^ (manBits t + 1)) = 2 ^ manBits t := by
      rw [magMan, hexp, hsucc, Nat.add_mul]
      omega
    rw [magRat, hexp, hman]
    push_cast
    rw [← add_assoc, zpow_add_one₀ two_ne_zero, pow_succ]
    ring

theorem exists_eq_mul_add (t : Ty) (p : Nat) :
    ∃ k top, p = k * 2 ^ manBits t + top ∧ top < 2 ^ (manBits t + 1) ∧ (k = 0 ∨ 2 ^ manBits t ≤ top) := by
  have hP := Nat.two_pow_pos (manBits t)
  have hsucc : 2 ^ (manBits t + 1) = 2 * 2 ^ manBits t := Nat.pow_succ'
  have hdiv := Nat.div_add_mod p (2 ^ manBits t)
  have hmod := Nat.mod_lt p hP
  rw [Nat.mul_comm] at hdiv
  cases hq : p / 2 ^ manBits t with
  | zero => exact ⟨0, p, by omega, by rw [hq] at hdiv; omega, .inl rfl⟩
  | succ k =>
    rw [hq, Nat.succ_mul] at hdiv
    exact ⟨k, 2 ^ manBits t + p % 2 ^ manBits t, by omega, by omega, .inr (by omega)⟩

theorem magRat_strictMono (t : Ty) : StrictMono (magRat t) := by
  refine strictMono_nat_of_lt_succ fun p => ?_
  obtain ⟨k, top, rfl, htop, hk⟩ := exists_eq_mul_add t p
  rw [magRat_mul_add t htop.le hk, Nat.add_assoc, magRat_mul_add t (k := k) (top := top + 1) htop (by omega)]
  have hu : (0 : ℚ) < 2 ^ (minExp t + k) := by positivity
  push_cast
  nlinarith

@[simp] theorem magRat_zero (t : Ty) : magRat t 0 = 0 := by simp [magRat, magMan]

theorem magRat_nonneg (t : Ty) (p : Nat) : 0 ≤ magRat t p :=
  magRat_zero t ▸ (magRat_strictMono t).monotone (Nat.zero_le p)

/-! ### Rounding to nearest (R94) -/

/-- The magnitude r is the number a rounded to nearest among all magnitudes, with ties to an even one. -/
def NearestMag (t : Ty) (a : ℚ) (r : Nat) : Prop :=
  ∀ p, |magRat t r - a| ≤ |magRat t p - a| ∧ (|magRat t p - a| = |magRat t r - a| → p ≠ r → r % 2 = 0)

/-- A number between two neighbours, f of a last place above the lower one, is rounded to the upper one past the middle,
or at it from an odd lower one. -/
theorem nearestMag_of_between (t : Ty) {k top : Nat} {f : ℚ} (hf0 : 0 ≤ f) (hf1 : f < 1)
    (htop : top < 2 ^ (manBits t + 1)) (hk : k = 0 ∨ 2 ^ manBits t ≤ top) :
    NearestMag t ((top + f) * 2 ^ (minExp t + k))
      (k * 2 ^ manBits t + top + if 1 / 2 < f ∨ f = 1 / 2 ∧ top % 2 = 1 then 1 else 0) := by
  have hparity : (k * 2 ^ manBits t + top) % 2 = top % 2 := by
    obtain ⟨j, hj⟩ := Nat.exists_eq_add_of_le' (two_le_manBits t)
    rw [hj, Nat.pow_succ, ← Nat.mul_assoc, Nat.mul_add_mod_self_right]
  have hlo : magRat t (k * 2 ^ manBits t + top) = top * 2 ^ (minExp t + k) := magRat_mul_add t htop.le hk
  have hhi : magRat t (k * 2 ^ manBits t + top + 1) = (top + 1) * 2 ^ (minExp t + k) := by
    rw [Nat.add_assoc, magRat_mul_add t (top := top + 1) htop (by omega)]
    push_cast
    rfl
  have hmono := magRat_strictMono t
  generalize k * 2 ^ manBits t + top = p0 at hparity hlo hhi ⊢
  have hu : (0 : ℚ) < 2 ^ (minExp t + k) := by positivity
  generalize (2 : ℚ) ^ (minExp t + k) = u at hlo hhi hu ⊢
  have hfu : 0 ≤ f * u := by positivity
  have hgu : 0 < (1 - f) * u := mul_pos (by linarith) hu
  have hdlo : |magRat t p0 - (top + f) * u| = f * u := by rw [hlo, abs_of_nonpos] <;> linarith
  have hdhi : |magRat t (p0 + 1) - (top + f) * u| = (1 - f) * u := by rw [hhi, abs_of_nonneg] <;> linarith
  -- A magnitude below the lower neighbour, or above the upper one, is farther off than that neighbour.
  have hbelow : ∀ p, p < p0 → f * u < |magRat t p - (top + f) * u| := fun p hp => by
    have := hmono hp
    rw [abs_of_nonpos] <;> linarith
  have habove : ∀ p, p0 + 1 < p → (1 - f) * u < |magRat t p - (top + f) * u| := fun p hp => by
    have := hmono hp
    rw [abs_of_nonneg] <;> linarith
  intro p
  have hp : p < p0 ∨ p = p0 ∨ p = p0 + 1 ∨ p0 + 1 < p := by omega
  split
  next hup =>
    have hhalf : (1 - f) * u ≤ f * u := mul_le_mul_of_nonneg_right (by rcases hup with h | h <;> linarith [h]) hu.le
    rw [hdhi]
    rcases hp with h | rfl | rfl | h
    · have hd := hhalf.trans_lt (hbelow p h)
      exact ⟨hd.le, fun he => absurd he hd.ne'⟩
    · refine ⟨by rwa [hdlo], fun he _ => ?_⟩
      have hf : f = 1 - f := mul_right_cancel₀ hu.ne' (hdlo ▸ he)
      rcases hup with h | h
      · linarith
      · omega
    · exact ⟨hdhi.ge, fun _ hne => absurd rfl hne⟩
    · have hd := habove p h
      exact ⟨hd.le, fun he => absurd he hd.ne'⟩
  next hdown =>
    rw [not_or, not_lt, not_and] at hdown
    obtain ⟨hle, hodd⟩ := hdown
    have hhalf : f * u ≤ (1 - f) * u := mul_le_mul_of_nonneg_right (by linarith) hu.le
    rw [Nat.add_zero, hdlo]
    rcases hp with h | rfl | rfl | h
    · have hd := hbelow p h
      exact ⟨hd.le, fun he => absurd he hd.ne'⟩
    · exact ⟨hdlo.ge, fun _ hne => absurd rfl hne⟩
    · refine ⟨by rwa [hdhi], fun he _ => ?_⟩
      have hf : 1 - f = f := mul_right_cancel₀ hu.ne' (hdhi ▸ he)
      have := hodd (by linarith)
      omega
    · have hd := hhalf.trans_lt (habove p h)
      exact ⟨hd.le, fun he => absurd he hd.ne'⟩

/-- What is cut off and its middle decide as the part f of a last place does. -/
theorem roundsUp_rn_iff {neg : Bool} {top cut d : Nat} (hd : 0 < d) :
    roundsUp .rn neg (top % 2 == 1) cut (2 ^ (d - 1)) = true ↔
      1 / 2 < (cut / 2 ^ d : ℚ) ∨ (cut / 2 ^ d : ℚ) = 1 / 2 ∧ top % 2 = 1 := by
  obtain ⟨j, rfl⟩ := Nat.exists_eq_add_of_lt hd
  have hp : (0 : ℚ) < 2 ^ (0 + j + 1) := by positivity
  rw [lt_div_iff₀ hp, div_eq_iff hp.ne', Nat.zero_add, Nat.add_sub_cancel, pow_succ]
  have h1 : 1 / 2 * ((2 : ℚ) ^ j * 2) = ((2 ^ j : Nat) : ℚ) := by push_cast; ring
  rw [h1, Nat.cast_lt, Nat.cast_inj]
  simp [roundsUp]

theorem roundsUp_rn_of_lt {neg odd : Bool} {cut half : Nat} (h : cut < half) : roundsUp .rn neg odd cut half = false := by
  simp [roundsUp, h.le, h.ne]

/-- Two more places than a number has are cut off as any greater count of places is: nothing is left, and what is cut off
is below the middle. -/
theorem roundsUp_min_cut (neg : Bool) {m len : Nat} (hm : m < 2 ^ len) (d : Nat) :
    m / 2 ^ min d (len + 2) = m / 2 ^ d ∧
      roundsUp .rn neg (m / 2 ^ d % 2 == 1) (m % 2 ^ min d (len + 2)) (2 ^ (min d (len + 2) - 1)) =
        roundsUp .rn neg (m / 2 ^ d % 2 == 1) (m % 2 ^ d) (2 ^ (d - 1)) := by
  rcases Nat.le_total d (len + 2) with h | h
  · rw [Nat.min_eq_left h]
    exact ⟨rfl, rfl⟩
  · have hlt : ∀ j, len + 2 ≤ j → m < 2 ^ j ∧ m < 2 ^ (j - 1) := fun j hj =>
      ⟨hm.trans_le (Nat.pow_le_pow_right (by omega) (by omega)), hm.trans_le (Nat.pow_le_pow_right (by omega) (by omega))⟩
    obtain ⟨hs, hs1⟩ := hlt _ le_rfl
    obtain ⟨hd, hd1⟩ := hlt d h
    rw [Nat.min_eq_right h, Nat.div_eq_of_lt hs, Nat.div_eq_of_lt hd, Nat.mod_eq_of_lt hs, Nat.mod_eq_of_lt hd,
      roundsUp_rn_of_lt hs1, roundsUp_rn_of_lt hd1]
    exact ⟨rfl, rfl⟩

/-- The exponent of the last place that a format keeps of m * 2^e. -/
def lastExp (t : Ty) (m : Nat) (e : Int) : Int := max (e + (Nat.log2 m + 1 : Nat) - 1 - manBits t) (minExp t)

theorem roundMag_eq (t : Ty) (neg : Bool) {m : Nat} (hm : m ≠ 0) (e : Int) :
    roundMag t .rn neg m e = (lastExp t m e - minExp t).toNat * 2 ^ manBits t +
      if lastExp t m e ≤ e then m * 2 ^ (e - lastExp t m e).toNat
      else m / 2 ^ (lastExp t m e - e).toNat +
        if roundsUp .rn neg (m / 2 ^ (lastExp t m e - e).toNat % 2 == 1) (m % 2 ^ (lastExp t m e - e).toNat)
          (2 ^ ((lastExp t m e - e).toNat - 1)) then 1 else 0 := by
  obtain ⟨hdiv, hup⟩ := roundsUp_min_cut neg (Nat.lt_log2_self (n := m)) (lastExp t m e - e).toNat
  simp only [roundMag, if_neg hm]
  rw [← lastExp, hdiv, hup]
  split
  · rfl
  · split <;> rfl

/-- Every number has a magnitude next to it: rounding to nearest finds it, with ties to an even one (R94). -/
theorem roundMag_nearest (t : Ty) (neg : Bool) {m : Nat} (hm : m ≠ 0) (e : Int) :
    NearestMag t (m * 2 ^ e) (roundMag t .rn neg m e) := by
  have hlen : m < 2 ^ (Nat.log2 m + 1) := Nat.lt_log2_self
  have hlen' : 2 ^ Nat.log2 m ≤ m := Nat.log2_self_le hm
  have hlast : lastExp t m e = max (e + (Nat.log2 m + 1 : Nat) - 1 - manBits t) (minExp t) := rfl
  rw [roundMag_eq t neg hm]
  generalize lastExp t m e = q at hlast ⊢
  obtain ⟨k, hk⟩ := Int.eq_ofNat_of_zero_le (show 0 ≤ q - minExp t by omega)
  have hq : q = minExp t + k := by omega
  rw [hk, Int.toNat_natCast]
  split
  next he =>
    obtain ⟨d, hd⟩ := Int.eq_ofNat_of_zero_le (show 0 ≤ e - q by omega)
    rw [hd, Int.toNat_natCast]
    have hlt : m * 2 ^ d < 2 ^ (manBits t + 1) :=
      calc m * 2 ^ d < 2 ^ (Nat.log2 m + 1) * 2 ^ d := Nat.mul_lt_mul_of_pos_right hlen (Nat.two_pow_pos d)
        _ = 2 ^ (Nat.log2 m + 1 + d) := (Nat.pow_add ..).symm
        _ ≤ 2 ^ (manBits t + 1) := Nat.pow_le_pow_right (by omega) (by omega)
    have hge : k = 0 ∨ 2 ^ manBits t ≤ m * 2 ^ d := by
      refine or_iff_not_imp_left.mpr fun hk0 => ?_
      rw [show manBits t = Nat.log2 m + d by omega, Nat.pow_add]
      exact Nat.mul_le_mul_right _ hlen'
    have h := nearestMag_of_between t le_rfl one_pos hlt hge
    have ha : (m * 2 ^ e : ℚ) = ((m * 2 ^ d : Nat) + 0) * 2 ^ (minExp t + k) := by
      rw [show e = d + (minExp t + k) by omega, zpow_add₀ two_ne_zero, zpow_natCast]
      push_cast
      ring
    rw [ha]
    norm_num at h ⊢
    exact h
  next he =>
    obtain ⟨d, hd⟩ := Int.eq_ofNat_of_zero_le (show 0 ≤ q - e by omega)
    rw [hd, Int.toNat_natCast]
    have hpos : (0 : ℚ) < 2 ^ d := by positivity
    have hlt : m / 2 ^ d < 2 ^ (manBits t + 1) := by
      refine Nat.div_lt_of_lt_mul (hlen.trans_le ?_)
      rw [← Nat.pow_add]
      exact Nat.pow_le_pow_right (by omega) (by omega)
    have hge : k = 0 ∨ 2 ^ manBits t ≤ m / 2 ^ d := by
      refine or_iff_not_imp_left.mpr fun hk0 => (Nat.le_div_iff_mul_le (Nat.two_pow_pos d)).mpr ?_
      rwa [← Nat.pow_add, show manBits t + d = Nat.log2 m by omega]
    have hcut : ((m % 2 ^ d : Nat) : ℚ) < 2 ^ d := by exact_mod_cast Nat.mod_lt m (Nat.two_pow_pos d)
    have h := nearestMag_of_between t (f := (m % 2 ^ d : Nat) / 2 ^ d) (by positivity) ((div_lt_one hpos).mpr hcut) hlt hge
    have ha : (m * 2 ^ e : ℚ) = ((m / 2 ^ d : Nat) + (m % 2 ^ d : Nat) / 2 ^ d) * 2 ^ (minExp t + k) := by
      have hm' : (m : ℚ) = 2 ^ d * (m / 2 ^ d : Nat) + (m % 2 ^ d : Nat) := by exact_mod_cast (Nat.div_add_mod m (2 ^ d)).symm
      rw [show minExp t + k = d + e by omega, zpow_add₀ two_ne_zero, zpow_natCast]
      field_simp
      rw [hm']
      ring
    rw [ha]
    simp only [roundsUp_rn_iff (show 0 < d by omega), ← Nat.add_assoc]
    exact h

end Sys2Proof.Machine

/-!
Patterns and the values they stand for (R91, R92), and results rounded once to a format (R94 to R96).
-/

namespace Sys2Proof.Machine

/-! ### Patterns (R91, R92) -/

section
variable {t : Ty}

theorem unpackF_eq (ht : t ≠ .e4m3) (x : Nat) :
    unpackF t x = if magOf t x < infPat t then .fin (signOf t x) (magMan t (magOf t x)) (minExp t + magExp t (magOf t x))
      else if magOf t x = infPat t then .inf (signOf t x) else .nan := by
  have h8 : (t == .e4m3) = false := beq_eq_false_iff_ne.mpr ht
  simp only [unpackF, bne, h8, decide_eq_false ht, Bool.false_and, Bool.not_false, Bool.true_and, Bool.false_eq_true,
    if_false, beq_iff_eq, decide_eq_true_eq]
  rw [← magOf]
  generalize magOf t x = p
  rcases Nat.lt_trichotomy p (infPat t) with h | rfl | h
  · rw [if_neg h.ne, if_neg h.not_gt, if_pos h]
    have hdiv := Nat.div_add_mod p (2 ^ manBits t)
    rw [Nat.mul_comm] at hdiv
    cases hq : p / 2 ^ manBits t with
    | zero =>
      have hexp : magExp t p = 0 := by rw [magExp, hq]
      have hman : magMan t p = p % 2 ^ manBits t := by
        rw [hq] at hdiv
        rw [magMan, hexp]
        omega
      simp [hexp, hman]
    | succ k =>
      have hexp : magExp t p = k := by rw [magExp, hq]; rfl
      have hman : magMan t p = 2 ^ manBits t + p % 2 ^ manBits t := by
        rw [hq, Nat.succ_mul] at hdiv
        rw [magMan, hexp]
        omega
      simp [hexp, hman]
  · simp
  · rw [if_neg h.ne', if_pos h, if_neg h.not_gt, if_neg h.ne']

theorem isNan_iff (ht : t ≠ .e4m3) (x : Nat) : isNan t x = true ↔ infPat t < magOf t x := by
  rw [isNan, unpackF_eq ht, beq_iff_eq]
  split
  next h => simp [h.le]
  next h =>
    split
    next he => simp [he]
    next hne => simp; omega

theorem isFin_iff (ht : t ≠ .e4m3) (x : Nat) : isFin t x = true ↔ magOf t x < infPat t := by
  rw [isFin, unpackF_eq ht]
  by_cases h : magOf t x < infPat t
  · simp [h]
  · by_cases he : magOf t x = infPat t <;> simp [he, h]

theorem unpackF_eq_inf_iff (ht : t ≠ .e4m3) (x : Nat) (n : Bool) :
    unpackF t x = .inf n ↔ magOf t x = infPat t ∧ signOf t x = n := by
  rw [unpackF_eq ht]
  split
  next h => simp [h.ne]
  next h => split <;> simp [*]

/-- The number of a finite pattern. -/
theorem patRat_eq (ht : t ≠ .e4m3) {x : Nat} (hx : magOf t x < infPat t) :
    patRat t x = signRat (signOf t x) * magRat t (magOf t x) := by
  rw [patRat, unpackF_eq ht, if_pos hx, FV.rat, magRat, signRat, mul_assoc]

theorem magOf_add_signPat {p : Nat} (hp : p < 2 ^ (fmtBits t - 1)) (n : Bool) : magOf t (p + signPat t n) = p := by
  cases n <;> simp [magOf, signPat, Nat.mod_eq_of_lt hp]

theorem signOf_add_signPat {p : Nat} (hp : p < 2 ^ (fmtBits t - 1)) (n : Bool) : signOf t (p + signPat t n) = n := by
  cases n <;> simp [signOf, signPat, Nat.div_eq_of_lt hp, Nat.add_div_right]

theorem magOf_signPat (t : Ty) (n : Bool) : magOf t (signPat t n) = 0 := by
  simpa using magOf_add_signPat (t := t) (Nat.two_pow_pos _) n

theorem signOf_signPat (t : Ty) (n : Bool) : signOf t (signPat t n) = n := by
  simpa using signOf_add_signPat (t := t) (Nat.two_pow_pos _) n

theorem two_pow_fmtBits (t : Ty) : 2 ^ fmtBits t = 2 * 2 ^ (fmtBits t - 1) := by cases t <;> rfl

theorem add_signPat_lt {p : Nat} (hp : p < 2 ^ (fmtBits t - 1)) (n : Bool) : p + signPat t n < 2 ^ fmtBits t := by
  rw [two_pow_fmtBits]
  cases n <;> simp only [signPat, Bool.false_eq_true, if_false, if_true] <;> omega

/-- A pattern is its magnitude with its sign bit. -/
theorem magOf_add_signOf {x : Nat} (hx : x < 2 ^ fmtBits t) : magOf t x + signPat t (signOf t x) = x := by
  have hP := Nat.two_pow_pos (fmtBits t - 1)
  have hdiv := Nat.div_add_mod x (2 ^ (fmtBits t - 1))
  rw [two_pow_fmtBits] at hx
  have hq : x / 2 ^ (fmtBits t - 1) < 2 := Nat.div_lt_of_lt_mul (by omega)
  rw [magOf, signPat, signOf]
  interval_cases x / 2 ^ (fmtBits t - 1) <;> simp <;> omega

theorem eq_add_signPat_iff {p x : Nat} (hp : p < 2 ^ (fmtBits t - 1)) (hx : x < 2 ^ fmtBits t) (n : Bool) :
    x = p + signPat t n ↔ magOf t x = p ∧ signOf t x = n := by
  constructor
  · rintro rfl
    exact ⟨magOf_add_signPat hp n, signOf_add_signPat hp n⟩
  · rintro ⟨rfl, rfl⟩
    exact (magOf_add_signOf hx).symm

/-- An infinity has one pattern of each sign. -/
theorem unpackF_eq_inf_iff_eq (ht : t ≠ .e4m3) {x : Nat} (hx : x < 2 ^ fmtBits t) (n : Bool) :
    unpackF t x = .inf n ↔ x = infOf t n := by
  rw [unpackF_eq_inf_iff ht, infOf, eq_add_signPat_iff (infPat_lt ht) hx]

theorem eq_signPat_iff {x : Nat} (hx : x < 2 ^ fmtBits t) (n : Bool) :
    x = signPat t n ↔ magOf t x = 0 ∧ signOf t x = n := by
  rw [← eq_add_signPat_iff (Nat.two_pow_pos _) hx, Nat.zero_add]

/-! ### Results rounded once (R94 to R96) -/

theorem abs_signRat_mul (n : Bool) (a : ℚ) : |signRat n * a| = |a| := by cases n <;> simp [signRat]

theorem patRat_add_signPat (ht : t ≠ .e4m3) {p : Nat} (hp : p < infPat t) (n : Bool) :
    patRat t (p + signPat t n) = signRat n * magRat t p := by
  have hp' := hp.trans (infPat_lt ht)
  rw [patRat_eq ht] <;> rw [magOf_add_signPat hp']
  · rw [signOf_add_signPat hp']
  · exact hp

theorem patRat_of_lt_infPat (ht : t ≠ .e4m3) {p : Nat} (hp : p < infPat t) : patRat t p = magRat t p := by
  have h := patRat_add_signPat ht hp false
  simpa [signPat, signRat] using h

/-- The step from the largest finite number to the next one, which only an unbounded exponent reaches, is as wide as the
step before it. -/
theorem topStep_eq (ht : t ≠ .e4m3) : topStep t = magRat t (maxFin t + 1) - magRat t (maxFin t) := by
  obtain ⟨k, hmax, -, -⟩ := exists_maxFin_eq ht
  have hinf := infPat_eq_maxFin_add_one ht
  have hsucc : 2 ^ (manBits t + 1) = 2 * 2 ^ manBits t := Nat.pow_succ'
  have htwo : 2 ≤ 2 ^ manBits t := Nat.le_pow (by have := two_le_manBits t; omega)
  have hval : ∀ i ≤ 2, magRat t (maxFin t - 1 + i) = ((2 ^ (manBits t + 1) - 2 : Nat) + i) * 2 ^ (minExp t + k) := by
    intro i hi
    rw [show maxFin t - 1 + i = k * 2 ^ manBits t + (2 ^ (manBits t + 1) - 2 + i) by omega,
      magRat_mul_add t (by omega) (by omega), Nat.cast_add]
  have h0 := hval 0 (by omega)
  have h1 := hval 1 (by omega)
  have h2 := hval 2 (by omega)
  rw [Nat.add_zero] at h0
  rw [show maxFin t - 1 + 1 = maxFin t by omega] at h1
  rw [show maxFin t - 1 + 2 = maxFin t + 1 by omega] at h2
  rw [topStep, patRat_of_lt_infPat ht (by omega), patRat_of_lt_infPat ht (by omega), h0, h1, h2]
  push_cast
  ring

/-- Rounding to nearest passes the largest finite number from the middle of the step behind it on, as that number is odd. -/
theorem NearestMag.maxFin_lt_iff (ht : t ≠ .e4m3) {a : ℚ} {r : Nat} (h : NearestMag t a r) :
    maxFin t < r ↔ magRat t (maxFin t) + topStep t / 2 ≤ a := by
  have hmono := magRat_strictMono t
  have hstep := hmono (Nat.lt_succ_self (maxFin t))
  rw [topStep_eq ht]
  constructor
  · intro hr
    have hle := (h (maxFin t)).1
    have hr' : magRat t (maxFin t + 1) ≤ magRat t r := hmono.monotone hr
    by_contra! hlt
    rw [abs_of_nonneg (by linarith)] at hle
    rcases abs_cases (magRat t (maxFin t) - a) with ⟨habs, -⟩ | ⟨habs, -⟩ <;> linarith
  · intro ha
    by_contra! hr
    obtain ⟨hle, htie⟩ := h (maxFin t + 1)
    have hr' : magRat t r ≤ magRat t (maxFin t) := hmono.monotone hr
    have hodd := maxFin_odd ht
    rw [abs_of_nonpos (a := magRat t r - a) (by linarith)] at hle htie
    rcases abs_cases (magRat t (maxFin t + 1) - a) with ⟨habs, -⟩ | ⟨habs, -⟩
    · have hmax : r = maxFin t := hmono.injective (by linarith)
      have := htie (by subst hmax; linarith) (by omega)
      omega
    · linarith

theorem exceeds_rn_iff (ht : t ≠ .e4m3) (n : Bool) {a : ℚ} (ha : 0 ≤ a) :
    Exceeds t .rn ((signRat n * a : ℚ) : ℝ) ↔ magRat t (maxFin t) + topStep t / 2 ≤ a := by
  have hinf := infPat_eq_maxFin_add_one ht
  have habs : |((signRat n * a : ℚ) : ℝ)| = (a : ℝ) := by
    rw [← Rat.cast_abs, abs_signRat_mul, abs_of_nonneg ha]
  have htop : ((magRat t (maxFin t) : ℝ) + (topStep t : ℝ) / 2) = ((magRat t (maxFin t) + topStep t / 2 : ℚ) : ℝ) := by
    push_cast
    rfl
  simp only [Exceeds, habs, patRat_of_lt_infPat ht (show maxFin t < infPat t by omega), htop, Rat.cast_lt, Rat.cast_inj,
    maxFin_odd ht, and_true, eq_comm (a := a), le_iff_lt_or_eq]

/-- A magnitude that is nearest to a number, with its sign, is nearest among the finite patterns of both signs. -/
theorem NearestMag.nearest (ht : t ≠ .e4m3) {a : ℚ} (ha : 0 < a) {r : Nat} (h : NearestMag t a r) (hr : r < infPat t)
    (n : Bool) : Nearest t .rn ((signRat n * a : ℚ) : ℝ) (r + signPat t n) := by
  have heven : signPat t n % 2 = 0 := by cases n <;> cases t <;> rfl
  have hdist : ∀ p, |signRat n * magRat t p - signRat n * a| = |magRat t p - a| := fun p => by
    rw [← mul_sub, abs_signRat_mul]
  intro q hq
  rw [isFin_iff ht] at hq
  have hcast : ∀ z w : ℚ, |(z : ℝ) - (w : ℝ)| = ((|z - w| : ℚ) : ℝ) := fun z w => by push_cast; rfl
  rw [hcast, hcast, Rat.cast_le, Rat.cast_inj, patRat_add_signPat ht hr, patRat_eq ht hq, hdist]
  by_cases hs : signOf t q = n
  · rw [hs, hdist]
    refine ⟨(h _).1, fun htie hne => ?_⟩
    have := (h _).2 htie fun he => hne (by rw [he])
    omega
  · -- A pattern of the other sign is no nearer than 0 is.
    have hq0 := magRat_nonneg t (magOf t q)
    obtain ⟨h0, htie0⟩ := h 0
    rw [magRat_zero, zero_sub, abs_neg, abs_of_pos ha] at h0 htie0
    have hfar : |signRat (signOf t q) * magRat t (magOf t q) - signRat n * a| = magRat t (magOf t q) + a := by
      have hn : n = !signOf t q := Bool.eq_not.mpr (Ne.symm hs)
      have hop : signRat n = -signRat (signOf t q) := by rw [hn]; cases signOf t q <;> simp [signRat]
      rw [hop, neg_mul, sub_neg_eq_add, ← mul_add, abs_signRat_mul, abs_of_nonneg (by linarith)]
    rw [hfar]
    refine ⟨by linarith, fun htie hne => ?_⟩
    have hz : magRat t (magOf t q) = 0 := by linarith
    have := htie0 (by linarith) fun h0r => hne (by rw [hz, ← h0r, magRat_zero, mul_zero, mul_zero])
    omega

/-- A number other than 0 is rounded once, to nearest (R94 to R96). -/
theorem packF_roundedTo (ht : t ≠ .e4m3) (n : Bool) {m : Nat} (hm : m ≠ 0) (e : Int) :
    RoundedTo t .rn ((signRat n * (m * 2 ^ e) : ℚ) : ℝ) (packF t .rn n m e) := by
  have ha : (0 : ℚ) < m * 2 ^ e := by positivity
  have hnear := roundMag_nearest t n hm e
  have hmax := hnear.maxFin_lt_iff ht
  have hinf := infPat_eq_maxFin_add_one ht
  have hlt := infPat_lt ht
  have hsign : decide (((signRat n * (m * 2 ^ e) : ℚ) : ℝ) < 0) = n := by
    cases n
    · exact decide_eq_false fun h => absurd (Rat.cast_lt_zero.mp h) (by simpa [signRat] using ha.le)
    · exact decide_eq_true (Rat.cast_lt_zero.mpr (by simpa [signRat] using ha))
  have hval : ∃ p, p < infPat t ∧ (packF t .rn n m e).val = p + signPat t n := by
    simp only [packF]
    split
    · exact ⟨maxFin t, by omega, rfl⟩
    · exact ⟨_, by omega, rfl⟩
  obtain ⟨p, hp, hv⟩ := hval
  have hp' := hp.trans hlt
  refine
    { finite := by rw [hv, isFin_iff ht, magOf_add_signPat hp']; exact hp
      width := by rw [hv]; exact add_signPat_lt hp' n
      sign := by rw [hv, signOf_add_signPat hp', hsign]
      beyond := fun hx => ?_
      inRange := fun hx => ?_ }
  · rw [exceeds_rn_iff ht n ha.le, ← hmax] at hx
    rw [hsign, packF]
    exact if_pos hx
  · rw [exceeds_rn_iff ht n ha.le, ← hmax] at hx
    have hpack : packF t .rn n m e = ⟨roundMag t .rn n m e + signPat t n, 0⟩ := if_neg hx
    rw [hpack]
    exact ⟨rfl, hnear.nearest ht ha (by omega) n⟩

end

end Sys2Proof.Machine

/-!
Reductions (R140, R141): over integers and bit strings by their own orders and bits, over floating values by the exact sum
rounded once and by the order in which -0 stands below +0.
-/

namespace Sys2Proof.Machine

/-! ### Selecting the least term -/

/-- A fold that goes over to a term of a smaller key ends at a term of the least key. -/
theorem foldl_least {key : Nat → Int} {f : Nat → Nat → Nat} {P : Nat → Prop}
    (hf : ∀ a b, P a → P b → f a b = if key b < key a then b else a) {vs : List Nat} {a : Nat} (ha : P a)
    (hvs : ∀ v ∈ vs, P v) : vs.foldl f a ∈ a :: vs ∧ ∀ v ∈ a :: vs, key (vs.foldl f a) ≤ key v := by
  induction vs generalizing a with
  | nil => simp
  | cons b vs ih =>
    have hb := hvs b (List.mem_cons_self ..)
    have hpick : f a b ∈ [a, b] ∧ key (f a b) ≤ key a ∧ key (f a b) ≤ key b := by
      rw [hf a b ha hb]
      split
      · exact ⟨by simp, by omega, le_rfl⟩
      · exact ⟨by simp, le_rfl, by omega⟩
    obtain ⟨hmem, hka, hkb⟩ := hpick
    have hP : P (f a b) := by
      rcases List.mem_pair.mp hmem with h | h <;> rw [h] <;> assumption
    obtain ⟨hin, hle⟩ := ih hP fun v hv => hvs v (List.mem_cons_of_mem _ hv)
    have hfirst := hle _ (List.mem_cons_self ..)
    rw [List.foldl_cons]
    refine ⟨?_, ?_⟩
    · rcases List.mem_cons.mp hin with h | h
      · rw [h]
        exact List.mem_append_left vs hmem
      · exact List.mem_cons_of_mem _ (List.mem_cons_of_mem _ h)
    · simp only [List.mem_cons, forall_eq_or_imp]
      exact ⟨hfirst.trans hka, hfirst.trans hkb, fun v hv => hle v (List.mem_cons_of_mem _ hv)⟩

/-! ### Integers and bit strings (R140) -/

section
variable {t : Ty} {vs : List Nat}

theorem tyLt_iff (t : Ty) (a b : Nat) :
    tyLt t (BitVec.ofNat t.bits a) (BitVec.ofNat t.bits b) = true ↔ tyInt t a < tyInt t b := by
  rw [tyLt, tyInt_eq, tyInt_eq]
  split
  · exact BitVec.slt_iff_toInt_lt
  · rw [BitVec.ult_iff_lt, BitVec.lt_def, Int.ofNat_lt]

theorem tyInt_inj {a b : Nat} (ha : a < 2 ^ t.bits) (hb : b < 2 ^ t.bits) (h : tyInt t a = tyInt t b) : a = b := by
  have h' : BitVec.ofNat t.bits a = BitVec.ofNat t.bits b := by rw [← ofInt_tyInt, h, ofInt_tyInt]
  have := congrArg BitVec.toNat h'
  rwa [BitVec.toNat_ofNat, BitVec.toNat_ofNat, Nat.mod_eq_of_lt ha, Nat.mod_eq_of_lt hb] at this

/-- The numbers of a type lie in its range (R88). -/
theorem tyInt_mem_range (t : Ty) (a : Nat) : intLow t ≤ tyInt t a ∧ tyInt t a ≤ intHigh t := by
  rw [tyInt_eq, intLow, intHigh]
  split
  · have h1 := BitVec.le_toInt (BitVec.ofNat t.bits a)
    have h2 := BitVec.toInt_lt (x := BitVec.ofNat t.bits a)
    omega
  · have h1 := (BitVec.ofNat t.bits a).isLt
    have h2 : ((BitVec.ofNat t.bits a).toNat : Int) < ((2 ^ t.bits : Nat) : Int) := Int.ofNat_lt.mpr h1
    push_cast at h2
    omega

theorem emptyRed_min_of_int (h : t.isI = true ∨ t.isN = true) :
    emptyRed .min t = (BitVec.ofInt t.bits (intHigh t)).toNat ∧ tyInt t (emptyRed .min t) = intHigh t := by
  cases t <;> simp [Ty.isI, Ty.isN] at h <;> decide +kernel

theorem emptyRed_max_of_int (h : t.isI = true ∨ t.isN = true) :
    emptyRed .max t = (BitVec.ofInt t.bits (intLow t)).toNat ∧ tyInt t (emptyRed .max t) = intLow t := by
  cases t <;> simp [Ty.isI, Ty.isN] at h <;> decide +kernel

/-- A fold that starts from a key that no term is above ends at a term. -/
theorem foldl_least_mem {key : Nat → Int} {f : Nat → Nat → Nat} (hf : ∀ a b, f a b = if key b < key a then b else a)
    {a : Nat} (hne : vs ≠ []) (htop : ∀ v ∈ vs, key a ≤ key v → a = v) :
    vs.foldl f a ∈ vs ∧ ∀ v ∈ vs, key (vs.foldl f a) ≤ key v := by
  obtain ⟨hmem, hle⟩ := foldl_least (P := fun _ => True) (a := a) (vs := vs) (fun a b _ _ => hf a b) trivial fun _ _ => trivial
  have hle' : ∀ v ∈ vs, key (vs.foldl f a) ≤ key v := fun v hv => hle v (List.mem_cons_of_mem _ hv)
  refine ⟨?_, hle'⟩
  rcases List.mem_cons.mp hmem with h | h
  · obtain ⟨v, hv⟩ := List.exists_mem_of_ne_nil vs hne
    rw [h] at hle' ⊢
    rwa [htop v hv (hle' v hv)]
  · exact h

theorem redInt_min (ht : t.isI = true ∨ t.isN = true) (hne : vs ≠ []) (hvs : ∀ v ∈ vs, v < 2 ^ t.bits) :
    redInt .min t vs ∈ vs ∧ ∀ v ∈ vs, tyInt t (redInt .min t vs) ≤ tyInt t v := by
  obtain ⟨hempty, htop⟩ := emptyRed_min_of_int ht
  refine foldl_least_mem (key := tyInt t) (fun _ _ => rfl) hne fun v hv hle => ?_
  refine tyInt_inj (hempty ▸ BitVec.isLt _) (hvs v hv) (le_antisymm hle ?_)
  rw [htop]
  exact (tyInt_mem_range t v).2

theorem redInt_max (ht : t.isI = true ∨ t.isN = true) (hne : vs ≠ []) (hvs : ∀ v ∈ vs, v < 2 ^ t.bits) :
    redInt .max t vs ∈ vs ∧ ∀ v ∈ vs, tyInt t v ≤ tyInt t (redInt .max t vs) := by
  obtain ⟨hempty, hbot⟩ := emptyRed_max_of_int ht
  have h := foldl_least_mem (key := fun v => -tyInt t v) (f := fun a b => if tyInt t a < tyInt t b then b else a)
    (a := emptyRed .max t) (fun a b => by simp only [neg_lt_neg_iff]) hne fun v hv hle => by
      refine tyInt_inj (hempty ▸ BitVec.isLt _) (hvs v hv) (le_antisymm ?_ (neg_le_neg_iff.mp hle))
      rw [hbot]
      exact (tyInt_mem_range t v).1
  exact ⟨h.1, fun v hv => neg_le_neg_iff.mp (h.2 v hv)⟩

theorem toNat_sum_ofNat (w : Nat) (vs : List Nat) : (vs.map fun v => BitVec.ofNat w v).sum.toNat = vs.sum % 2 ^ w := by
  induction vs with
  | nil => simp
  | cons v vs ih => rw [List.map_cons, List.sum_cons, BitVec.toNat_add, ih, BitVec.toNat_ofNat, List.sum_cons, ← Nat.add_mod]

theorem testBit_foldl_and (vs : List Nat) (a k : Nat) :
    (vs.foldl (fun a b => a &&& b) a).testBit k = true ↔ a.testBit k = true ∧ ∀ v ∈ vs, v.testBit k = true := by
  induction vs generalizing a with
  | nil => simp
  | cons v vs ih => simp [ih, and_assoc]

theorem testBit_foldl_or (vs : List Nat) (a k : Nat) :
    (vs.foldl (fun a b => a ||| b) a).testBit k = true ↔ a.testBit k = true ∨ ∃ v ∈ vs, v.testBit k = true := by
  induction vs generalizing a with
  | nil => simp
  | cons v vs ih => simp [ih, or_assoc]

theorem testBit_foldl_xor (vs : List Nat) (a k : Nat) :
    (vs.foldl (fun a b => a ^^^ b) a).testBit k = true ↔
      ((vs.countP fun v => v.testBit k) + if a.testBit k = true then 1 else 0) % 2 = 1 := by
  induction vs generalizing a with
  | nil => cases h : a.testBit k <;> simp [h]
  | cons v vs ih =>
    rw [List.foldl_cons, ih, Nat.testBit_xor, List.countP_cons]
    cases a.testBit k <;> cases v.testBit k <;> simp [Nat.add_assoc, Nat.add_mod_right]

theorem reduceOp_of_not_isF (h : t.isF = false) (op : Aop) (hne : vs ≠ []) :
    reduceOp op t vs = Res.of (redInt op t vs) := by
  simp [reduceOp, hne, h]

/-! ### Floating sums (R141) -/

/-- The number of a signed term over a power of two. -/
def termRat (p : Int × Int) : ℚ := p.1 * 2 ^ p.2

theorem foldl_min_le (ts : List (Int × Int)) (e : Int) :
    ts.foldl (fun e p => min e p.2) e ≤ e ∧ ∀ p ∈ ts, ts.foldl (fun e p => min e p.2) e ≤ p.2 := by
  induction ts generalizing e with
  | nil => simp
  | cons p ts ih =>
    obtain ⟨h0, hle⟩ := ih (min e p.2)
    rw [List.foldl_cons]
    simp only [List.mem_cons, forall_eq_or_imp]
    exact ⟨by omega, by omega, hle⟩

theorem foldl_numerators {ts : List (Int × Int)} {e : Int} (h : ∀ p ∈ ts, e ≤ p.2) (a : Int) :
    ((ts.foldl (fun a p => a + p.1 * 2 ^ (p.2 - e).toNat) a : Int) : ℚ) * 2 ^ e = a * 2 ^ e + (ts.map termRat).sum := by
  induction ts generalizing a with
  | nil => simp
  | cons p ts ih =>
    obtain ⟨d, hd⟩ := Int.eq_ofNat_of_zero_le (show 0 ≤ p.2 - e by have := h p (List.mem_cons_self ..); omega)
    have hp : p.2 = d + e := by omega
    rw [List.foldl_cons, ih fun q hq => h q (List.mem_cons_of_mem _ hq), List.map_cons, List.sum_cons, termRat, hd,
      Int.toNat_natCast, hp, zpow_add₀ two_ne_zero, zpow_natCast]
    push_cast
    ring

theorem sumTerms_eq (ts : List (Int × Int)) : termRat (sumTerms ts) = (ts.map termRat).sum := by
  have h := foldl_numerators (foldl_min_le ts (ts.headD (0, 0)).2).2 0
  rw [Int.cast_zero, zero_mul, zero_add] at h
  exact h

theorem sum_finTerms (fs : List FV) : ((finTerms fs).map termRat).sum = (fs.map FV.rat).sum := by
  induction fs with
  | nil => rfl
  | cons f fs ih =>
    cases f with
    | nan | inf n => simpa [finTerms, FV.rat] using ih
    | fin n m e =>
      have hf : termRat (signedM n m, e) = (FV.fin n m e).rat := by cases n <;> simp [termRat, signedM, FV.rat]
      have hcons : finTerms (.fin n m e :: fs) = (signedM n m, e) :: finTerms fs := rfl
      rw [hcons, List.map_cons, List.sum_cons, List.map_cons, List.sum_cons, ih, hf]

/-- The exact sum of finite terms, other than 0, is rounded once. -/
theorem packF_sumTerms_roundedTo (ht : t ≠ .e4m3) {ts : List (Int × Int)} (hs : (ts.map termRat).sum ≠ 0) :
    RoundedTo t .rn (((ts.map termRat).sum : ℚ) : ℝ)
      (packF t .rn (decide ((sumTerms ts).1 < 0)) (sumTerms ts).1.natAbs (sumTerms ts).2) := by
  rw [← sumTerms_eq] at hs ⊢
  generalize sumTerms ts = p at hs ⊢
  have hp : p.1 ≠ 0 := fun h => hs (by simp [termRat, h])
  have hval : termRat p = signRat (decide (p.1 < 0)) * (p.1.natAbs * 2 ^ p.2) := by
    rw [termRat, ← mul_assoc]
    congr 1
    rcases lt_or_gt_of_ne hp with h | h
    · simp [signRat, h, Nat.cast_natAbs, abs_of_neg h]
    · simp [signRat, h.not_gt, Nat.cast_natAbs, abs_of_pos h]
  rw [hval]
  exact packF_roundedTo ht _ (Int.natAbs_ne_zero.mpr hp) _

theorem firstNan_eq (t : Ty) (vs : List Nat) : firstNan t vs = (vs.find? (isNan t)).map (quiet t) := by
  induction vs with
  | nil => rfl
  | cons v vs ih =>
    rw [firstNan, List.find?_cons]
    cases isNan t v
    · exact ih
    · rfl

theorem redAddF_of_nan {v : Nat} (h : vs.find? (isNan t) = some v) : redAddF t vs = Res.of (quiet t v) := by
  rw [redAddF, nanOr, firstNan_eq, h]
  rfl

theorem redAddF_of_no_nan (h : ∀ v ∈ vs, isNan t v = false) : redAddF t vs = sumF t .rn (vs.map (unpackF t)) := by
  have hfind : vs.find? (isNan t) = none := List.find?_eq_none.mpr fun v hv => by simp [h v hv]
  rw [redAddF, nanOr, firstNan_eq, hfind]
  rfl

theorem hasInf_iff (ht : t ≠ .e4m3) (hvs : ∀ v ∈ vs, v < 2 ^ fmtBits t) (n : Bool) :
    hasInf n (vs.map (unpackF t)) = true ↔ infOf t n ∈ vs := by
  simp only [hasInf, List.any_map, List.any_eq_true, Function.comp_apply, beq_iff_eq]
  constructor
  · rintro ⟨v, hv, h⟩
    rwa [← (unpackF_eq_inf_iff_eq ht (hvs v hv) n).mp h]
  · exact fun h => ⟨_, h, (unpackF_eq_inf_iff_eq ht (hvs _ h) n).mpr rfl⟩

theorem magMan_eq_zero_iff (t : Ty) (p : Nat) : magMan t p = 0 ↔ p = 0 := by
  constructor
  · intro h
    refine (magRat_strictMono t).injective ?_
    rw [magRat_zero, magRat, h, Nat.cast_zero, zero_mul]
  · rintro rfl
    simp [magMan]

theorem allZero_iff (ht : t ≠ .e4m3) (hvs : ∀ v ∈ vs, v < 2 ^ fmtBits t) (n : Bool) :
    allZero n (vs.map (unpackF t)) = true ↔ ∀ v ∈ vs, v = signPat t n := by
  rw [allZero, List.all_map, List.all_eq_true]
  refine forall₂_congr fun v hv => ?_
  rw [eq_signPat_iff (hvs v hv), Function.comp_apply, unpackF_eq ht]
  have hinf : 0 < infPat t := by rw [infPat_eq_maxFin_add_one ht]; omega
  by_cases hfin : magOf t v < infPat t
  · simp [hfin, magMan_eq_zero_iff, and_comm]
  · have hne : magOf t v ≠ 0 := by omega
    by_cases he : magOf t v = infPat t
    · simp [he, hinf.ne']
    · simp [he, hfin, hne]

theorem reduceOp_add_of_isF (h : t.isF = true) (hne : vs ≠ []) : reduceOp .add t vs = redAddF t vs := by
  simp [reduceOp, hne, h]

theorem sum_map_rat (t : Ty) (vs : List Nat) : ((finTerms (vs.map (unpackF t))).map termRat).sum = (vs.map (patRat t)).sum := by
  rw [sum_finTerms, List.map_map]
  rfl

/-- A sum of finite terms takes the exact sum; an exact zero is -0 for negative zeros alone (R96). -/
theorem sumF_of_finite (ht : t ≠ .e4m3) (hvs : ∀ v ∈ vs, v < 2 ^ fmtBits t) (hfin : ∀ v ∈ vs, isFin t v = true) :
    ((vs.map (patRat t)).sum ≠ 0 →
      RoundedTo t .rn (((vs.map (patRat t)).sum : ℚ) : ℝ) (sumF t .rn (vs.map (unpackF t)))) ∧
    ((vs.map (patRat t)).sum = 0 →
      sumF t .rn (vs.map (unpackF t)) = Res.of (signPat t (allZero true (vs.map (unpackF t))))) := by
  have hinf : ∀ n, hasInf n (vs.map (unpackF t)) = false := fun n => by
    refine Bool.eq_false_iff.mpr fun h => ?_
    have hf := hfin _ ((hasInf_iff ht hvs n).mp h)
    rw [isFin_iff ht, infOf, magOf_add_signPat (infPat_lt ht)] at hf
    exact lt_irrefl _ hf
  have hsum := sum_map_rat t vs
  have hterm := sumTerms_eq (finTerms (vs.map (unpackF t)))
  rw [hsum] at hterm
  have hzero : (sumTerms (finTerms (vs.map (unpackF t)))).1 = 0 ↔ (vs.map (patRat t)).sum = 0 := by
    rw [← hterm, termRat, mul_eq_zero_iff_right (by positivity), Int.cast_eq_zero]
  constructor
  · intro hne
    have := packF_sumTerms_roundedTo ht (hsum ▸ hne)
    simpa [sumF, hinf, hzero, hne, hsum] using this
  · intro h0
    have hmode : (Rm.rn == Rm.rd) = false := rfl
    simp [sumF, hinf, hzero, h0, hmode]

/-! ### Floating minima and maxima (R141) -/

theorem ordKey_of_pos {x : Nat} (h : signOf t x = false) : ordKey t x = magOf t x := by
  rw [ordKey, h]
  rfl

theorem ordKey_of_neg {x : Nat} (h : signOf t x = true) : ordKey t x = -(magOf t x : Int) - 1 := by
  rw [ordKey, h]
  rfl

theorem ordKey_bounds (t : Ty) (x : Nat) : -(magOf t x : Int) - 1 ≤ ordKey t x ∧ ordKey t x ≤ magOf t x := by
  cases h : signOf t x
  · rw [ordKey_of_pos h]
    omega
  · rw [ordKey_of_neg h]
    omega

/-- Among finite patterns a smaller number has a smaller key. -/
theorem ordKey_lt_of_patRat_lt (ht : t ≠ .e4m3) {a b : Nat} (ha : magOf t a < infPat t) (hb : magOf t b < infPat t)
    (h : patRat t a < patRat t b) : ordKey t a < ordKey t b := by
  have hmono := magRat_strictMono t
  have hpa := magRat_nonneg t (magOf t a)
  have hpb := magRat_nonneg t (magOf t b)
  rw [patRat_eq ht ha, patRat_eq ht hb] at h
  cases hsa : signOf t a <;> cases hsb : signOf t b <;> simp only [hsa, hsb, signRat, if_true, if_false,
    Bool.false_eq_true, neg_one_mul, one_mul, neg_lt_neg_iff, hmono.lt_iff_lt] at h
  case false.false =>
    rw [ordKey_of_pos hsa, ordKey_of_pos hsb]
    omega
  case false.true => linarith
  case true.false =>
    rw [ordKey_of_neg hsa, ordKey_of_pos hsb]
    omega
  case true.true =>
    rw [ordKey_of_neg hsa, ordKey_of_neg hsb]
    omega

/-- The keys that the model compares order patterns as R124 does. -/
theorem ordKey_lt_of_comesBefore (ht : t ≠ .e4m3) {a b : Nat} (h : comesBefore t a b) :
    ordKey t a < ordKey t b := by
  rcases h with h | ⟨rfl, rfl⟩
  · have hka := ordKey_bounds t a
    have hkb := ordKey_bounds t b
    rw [valLt, unpackF_eq ht, unpackF_eq ht] at h
    split at h
    next ha =>
      split at h
      next hb =>
        refine ordKey_lt_of_patRat_lt ht ha hb ?_
        rwa [patRat, patRat, unpackF_eq ht, unpackF_eq ht, if_pos ha, if_pos hb]
      next hb =>
        split at h
        next hb =>
          rw [ordKey_of_pos (x := b) h]
          omega
        next => exact h.elim
    next =>
      split at h
      next ha =>
        split at h
        next hb =>
          rw [ordKey_of_neg (x := a) h]
          omega
        next =>
          split at h
          next =>
            obtain ⟨hsa, hsb⟩ := h
            rw [ordKey_of_neg hsa, ordKey_of_pos hsb]
            omega
          next => exact h.elim
      next => exact h.elim
  · rw [ordKey_of_neg (signOf_signPat t true), ordKey_of_pos (signOf_signPat t false), magOf_signPat, magOf_signPat]
    decide

/-- A NaN comes neither before nor behind a pattern. -/
theorem not_nan_of_comesBefore (ht : t ≠ .e4m3) {a b : Nat} (h : comesBefore t a b) :
    isNan t a = false ∧ isNan t b = false := by
  have hbelow : ∀ u v : FV, u.below v → u ≠ .nan ∧ v ≠ .nan := fun u v h => by
    cases u <;> cases v <;> simp_all [FV.below]
  rcases h with h | ⟨rfl, rfl⟩
  · obtain ⟨ha, hb⟩ := hbelow _ _ h
    exact ⟨beq_false_of_ne ha, beq_false_of_ne hb⟩
  · have hz : ∀ n, isNan t (signPat t n) = false := fun n => by
      rw [Bool.eq_false_iff, Ne, isNan_iff ht, magOf_signPat]
      omega
    exact ⟨hz true, hz false⟩

/-- What .min and .max over floating terms compare: the key, or its opposite. -/
def pickKey (t : Ty) (isMax : Bool) (v : Nat) : Int := if isMax then -ordKey t v else ordKey t v

theorem minMaxF_eq_of_no_nan (t : Ty) (isMax : Bool) {a b : Nat} (ha : isNan t a = false) (hb : isNan t b = false) :
    minMaxF t isMax false a b = if pickKey t isMax b < pickKey t isMax a then b else a := by
  cases isMax <;> simp [minMaxF, ha, hb, pickKey]

theorem redMinMaxF_of_nans (isMax : Bool) (h : ∀ v ∈ vs, isNan t v = true) :
    redMinMaxF t isMax vs = quiet t (vs.headD 0) := by
  have hf : vs.filter (fun v => !isNan t v) = [] := List.filter_eq_nil_iff.mpr fun v hv => by simp [h v hv]
  rw [redMinMaxF, hf]

/-- A minimum or maximum is a term that is no NaN, and none of those has a smaller key. -/
theorem redMinMaxF_of_not_nans (isMax : Bool) (h : ¬∀ v ∈ vs, isNan t v = true) :
    redMinMaxF t isMax vs ∈ vs ∧ isNan t (redMinMaxF t isMax vs) = false ∧
      ∀ v ∈ vs, isNan t v = false → pickKey t isMax (redMinMaxF t isMax vs) ≤ pickKey t isMax v := by
  have hmem : ∀ v, v ∈ vs.filter (fun v => !isNan t v) ↔ v ∈ vs ∧ isNan t v = false := fun v => by simp
  rw [redMinMaxF]
  cases hf : vs.filter (fun v => !isNan t v) with
  | nil =>
    refine absurd (fun v hv => ?_) h
    by_contra hn
    have := (hmem v).mpr ⟨hv, Bool.eq_false_iff.mpr hn⟩
    simp [hf] at this
  | cons a rest =>
    rw [hf] at hmem
    obtain ⟨hin, hle⟩ := foldl_least (P := fun v => isNan t v = false) (fun a b => minMaxF_eq_of_no_nan t isMax)
      ((hmem a).mp (List.mem_cons_self ..)).2 fun v hv => ((hmem v).mp (List.mem_cons_of_mem _ hv)).2
    exact ⟨((hmem _).mp hin).1, ((hmem _).mp hin).2, fun v hv hn => hle v ((hmem v).mpr ⟨hv, hn⟩)⟩

theorem reduceOp_min_max_of_isF (h : t.isF = true) (hne : vs ≠ []) :
    reduceOp .min t vs = Res.of (redMinMaxF t false vs) ∧ reduceOp .max t vs = Res.of (redMinMaxF t true vs) := by
  simp [reduceOp, hne, h]

/-! ### The rule of reductions (R140, R141) -/

theorem isF_eq_false_of_int (h : t.isI = true ∨ t.isN = true) : t.isF = false := by
  cases t <;> simp [Ty.isI, Ty.isN] at h <;> rfl

theorem isF_eq_false_of_bits (h : t = .b32 ∨ t = .b64) : t.isF = false := by
  rcases h with rfl | rfl <;> rfl

theorem reduceOp_nil (op : Aop) (t : Ty) : reduceOp op t [] = Res.of (emptyRed op t) := if_pos rfl

theorem reduceOp_nil_of_int (h : t.isI = true ∨ t.isN = true) :
    reduceOp .add t [] = Res.of 0 ∧ reduceOp .min t [] = Res.of (BitVec.ofInt t.bits (intHigh t)).toNat ∧
      reduceOp .max t [] = Res.of (BitVec.ofInt t.bits (intLow t)).toNat := by
  rw [reduceOp_nil, reduceOp_nil, reduceOp_nil, (emptyRed_min_of_int h).1, (emptyRed_max_of_int h).1]
  exact ⟨rfl, rfl, rfl⟩

theorem reduceOp_nil_of_float (h : t = .f32 ∨ t = .f64) :
    reduceOp .add t [] = Res.of 0 ∧ reduceOp .min t [] = Res.of (infOf t false) ∧
      reduceOp .max t [] = Res.of (infOf t true) := by
  rcases h with rfl | rfl <;> exact ⟨rfl, rfl, rfl⟩

theorem reduceOp_of_int (h : t.isI = true ∨ t.isN = true) (hvs : ∀ v ∈ vs, v < 2 ^ t.bits) (hne : vs ≠ []) :
    reduceOp .add t vs = Res.of (vs.map fun v => BitVec.ofNat t.bits v).sum.toNat ∧
    (∃ r ∈ vs, reduceOp .min t vs = Res.of r ∧
      ∀ v ∈ vs, tyLt t (BitVec.ofNat t.bits v) (BitVec.ofNat t.bits r) = false) ∧
    ∃ r ∈ vs, reduceOp .max t vs = Res.of r ∧
      ∀ v ∈ vs, tyLt t (BitVec.ofNat t.bits r) (BitVec.ofNat t.bits v) = false := by
  have hred := fun op => reduceOp_of_not_isF (isF_eq_false_of_int h) op hne
  obtain ⟨hmin, hmin_le⟩ := redInt_min h hne hvs
  obtain ⟨hmax, hle_max⟩ := redInt_max h hne hvs
  refine ⟨?_, ⟨_, hmin, hred _, fun v hv => ?_⟩, _, hmax, hred _, fun v hv => ?_⟩
  · rw [hred, toNat_sum_ofNat]
    rfl
  · exact Bool.eq_false_iff.mpr fun hlt => ((tyLt_iff t _ _).mp hlt).not_ge (hmin_le v hv)
  · exact Bool.eq_false_iff.mpr fun hlt => ((tyLt_iff t _ _).mp hlt).not_ge (hle_max v hv)

theorem reduceOp_fl_of_bits (h : t = .b32 ∨ t = .b64) (op : Aop) (vs : List Nat) : (reduceOp op t vs).fl = 0 := by
  by_cases hne : vs = []
  · rw [hne, reduceOp_nil]
    rfl
  · rw [reduceOp_of_not_isF (isF_eq_false_of_bits h) op hne]
    rfl

theorem testBit_reduceOp_of_bits (h : t = .b32 ∨ t = .b64) (hvs : ∀ v ∈ vs, v < 2 ^ t.bits) (hne : vs ≠ []) (k : Nat) :
    ((reduceOp .and t vs).val.testBit k = true ↔ ∀ v ∈ vs, v.testBit k = true) ∧
    ((reduceOp .or t vs).val.testBit k = true ↔ ∃ v ∈ vs, v.testBit k = true) ∧
    ((reduceOp .xor t vs).val.testBit k = true ↔ (vs.countP fun v => v.testBit k) % 2 = 1) := by
  have hred := fun op => reduceOp_of_not_isF (isF_eq_false_of_bits h) op hne
  obtain ⟨v, hv⟩ := List.exists_mem_of_ne_nil vs hne
  have hk : (∀ v ∈ vs, v.testBit k = true) → k < t.bits := fun hall => by
    by_contra hk
    have := Nat.testBit_lt_two_pow ((hvs v hv).trans_le (Nat.pow_le_pow_right (by omega) (Nat.not_lt.mp hk)))
    rw [hall v hv] at this
    exact Bool.noConfusion this
  refine ⟨?_, ?_, ?_⟩
  · rw [hred]
    refine (testBit_foldl_and vs _ k).trans ?_
    rw [emptyRed, Nat.testBit_two_pow_sub_one, decide_eq_true_eq]
    exact and_iff_right_of_imp hk
  · rw [hred]
    exact (testBit_foldl_or vs 0 k).trans (by simp)
  · rw [hred]
    exact (testBit_foldl_xor vs 0 k).trans (by simp)

theorem sumF_of_infs (ht : t ≠ .e4m3) (hvs : ∀ v ∈ vs, v < 2 ^ fmtBits t) :
    (infOf t false ∈ vs → infOf t true ∈ vs → sumF t .rn (vs.map (unpackF t)) = invalid t 3) ∧
    ∀ n, infOf t n ∈ vs → infOf t (!n) ∉ vs → sumF t .rn (vs.map (unpackF t)) = Res.of (infOf t n) := by
  constructor
  · intro hpos hneg
    rw [← hasInf_iff ht hvs] at hpos hneg
    simp [sumF, hpos, hneg]
  · intro n hn hother
    rw [← hasInf_iff ht hvs] at hn hother
    cases n <;> simp_all [sumF, infOf, signPat]

theorem reduceOp_add_of_float (h : t = .f32 ∨ t = .f64) (hvs : ∀ v ∈ vs, v < 2 ^ t.bits) (hne : vs ≠ []) :
    (∀ v, vs.find? (isNan t) = some v → reduceOp .add t vs = Res.of (quiet t v)) ∧
    ((∀ v ∈ vs, isNan t v = false) →
      (infOf t false ∈ vs → infOf t true ∈ vs → reduceOp .add t vs = invalid t 3) ∧
      (∀ n, infOf t n ∈ vs → infOf t (!n) ∉ vs → reduceOp .add t vs = Res.of (infOf t n)) ∧
      ((∀ v ∈ vs, isFin t v = true) →
        ((vs.map (patRat t)).sum ≠ 0 → RoundedTo t .rn (((vs.map (patRat t)).sum : ℚ) : ℝ) (reduceOp .add t vs)) ∧
        ((vs.map (patRat t)).sum = 0 → (∀ v ∈ vs, v = signPat t true) → reduceOp .add t vs = Res.of (signPat t true)) ∧
        ((vs.map (patRat t)).sum = 0 → (∃ v ∈ vs, v ≠ signPat t true) → reduceOp .add t vs = Res.of 0))) := by
  have hF : t.isF = true := by rcases h with rfl | rfl <;> rfl
  have ht : t ≠ .e4m3 := by rcases h with rfl | rfl <;> decide
  have hbits : t.bits = fmtBits t := by rcases h with rfl | rfl <;> rfl
  rw [hbits] at hvs
  rw [reduceOp_add_of_isF hF hne]
  refine ⟨fun v => redAddF_of_nan, fun hnan => ?_⟩
  rw [redAddF_of_no_nan hnan]
  obtain ⟨hboth, hone⟩ := sumF_of_infs ht hvs
  refine ⟨hboth, hone, fun hfin => ?_⟩
  obtain ⟨hround, hzero⟩ := sumF_of_finite ht hvs hfin
  refine ⟨hround, fun h0 hall => ?_, fun h0 hex => ?_⟩
  · rw [hzero h0, (allZero_iff ht hvs true).mpr hall]
  · have hnot : allZero true (vs.map (unpackF t)) = false := by
      refine Bool.eq_false_iff.mpr fun hz => ?_
      obtain ⟨v, hv, hne⟩ := hex
      exact hne ((allZero_iff ht hvs true).mp hz v hv)
    rw [hzero h0, hnot]
    rfl

theorem reduceOp_min_max_of_float (h : t = .f32 ∨ t = .f64) (hne : vs ≠ []) :
    ((∀ v ∈ vs, isNan t v = true) → ∀ op ∈ [Aop.min, .max], reduceOp op t vs = Res.of (quiet t (vs.headD 0))) ∧
    ((¬∀ v ∈ vs, isNan t v = true) →
      (∃ r ∈ vs, isNan t r = false ∧ reduceOp .min t vs = Res.of r ∧ ∀ v ∈ vs, ¬comesBefore t v r) ∧
      ∃ r ∈ vs, isNan t r = false ∧ reduceOp .max t vs = Res.of r ∧ ∀ v ∈ vs, ¬comesBefore t r v) := by
  have hF : t.isF = true := by rcases h with rfl | rfl <;> rfl
  have ht : t ≠ .e4m3 := by rcases h with rfl | rfl <;> decide
  obtain ⟨hmin, hmax⟩ := reduceOp_min_max_of_isF hF hne
  constructor
  · intro hnans op hop
    rcases List.mem_pair.mp hop with rfl | rfl
    · rw [hmin, redMinMaxF_of_nans _ hnans]
    · rw [hmax, redMinMaxF_of_nans _ hnans]
  · intro hnans
    obtain ⟨hin, hn, hle⟩ := redMinMaxF_of_not_nans false hnans
    obtain ⟨hin', hn', hle'⟩ := redMinMaxF_of_not_nans true hnans
    refine ⟨⟨_, hin, hn, hmin, fun v hv hlt => ?_⟩, _, hin', hn', hmax, fun v hv hlt => ?_⟩
    · have := ordKey_lt_of_comesBefore ht hlt
      exact (hle v hv (not_nan_of_comesBefore ht hlt).1).not_gt this
    · have := ordKey_lt_of_comesBefore ht hlt
      exact (hle' v hv (not_nan_of_comesBefore ht hlt).2).not_gt (neg_lt_neg this)

theorem reduceRule_holds (hvs : ∀ v ∈ vs, v < 2 ^ t.bits) : reduceRule t vs := by
  refine ⟨?_, fun h => reduceOp_of_int h hvs, fun h op _ => reduceOp_fl_of_bits h op vs,
    fun h hne => testBit_reduceOp_of_bits h hvs hne, fun h hne => ?_⟩
  · rintro rfl
    refine ⟨reduceOp_nil_of_int, reduceOp_nil_of_float, fun _ => ⟨reduceOp_nil _ _, reduceOp_nil _ _, reduceOp_nil _ _⟩⟩
  · obtain ⟨hfirst, hsum⟩ := reduceOp_add_of_float h hvs hne
    obtain ⟨hall, hsome⟩ := reduceOp_min_max_of_float h hne
    exact ⟨hfirst, hsum, hall, hsome⟩

end

end Sys2Proof.Machine

/-!
Random numbers (R142, R143): the rounds of the generator, and what rnd draws from a random state.
-/

namespace Sys2Proof.Machine

/-! ### The rounds of the generator (R142) -/

/-- The four words of a counter after some rounds, as numbers. -/
def counterWords (z : (Word × Word × Word × Word) × Word × Word) : List Nat :=
  [z.1.1.toNat, z.1.2.1.toNat, z.1.2.2.1.toNat, z.1.2.2.2.toNat]

theorem toNat_mul_setWidth {c : Nat} (hc : c < 2 ^ 32) (x : Word) :
    (BitVec.ofNat 64 c * x.setWidth 64).toNat = c * x.toNat := by
  have hx := x.isLt
  have hlt : c * x.toNat < 2 ^ 64 := by nlinarith
  rw [BitVec.toNat_mul, BitVec.toNat_setWidth_of_le (by omega), BitVec.toNat_ofNat, Nat.mod_mul_mod, Nat.mod_eq_of_lt hlt]

theorem toNat_high_mul {c : Nat} (hc : c < 2 ^ 32) (x : Word) :
    ((BitVec.ofNat 64 c * x.setWidth 64).extractLsb' 32 32).toNat = c * x.toNat / 2 ^ 32 := by
  have hx := x.isLt
  have hlt : c * x.toNat / 2 ^ 32 < 2 ^ 32 := Nat.div_lt_of_lt_mul (by nlinarith)
  rw [BitVec.extractLsb'_toNat, toNat_mul_setWidth hc, Nat.shiftRight_eq_div_pow, Nat.mod_eq_of_lt hlt]

theorem toNat_low_mul {c : Nat} (hc : c < 2 ^ 32) (x : Word) :
    ((BitVec.ofNat 64 c * x.setWidth 64).extractLsb' 0 32).toNat = c * x.toNat % 2 ^ 32 := by
  rw [BitVec.extractLsb'_toNat, toNat_mul_setWidth hc, Nat.shiftRight_zero]

/-- A round on words is a round on their numbers. -/
theorem toNat_philoxRound (z : (Word × Word × Word × Word) × Word × Word) :
    (philoxRound z).1.1.toNat = 0xcd9e8d57 * z.1.2.2.1.toNat / 2 ^ 32 ^^^ z.1.2.1.toNat ^^^ z.2.1.toNat ∧
    (philoxRound z).1.2.1.toNat = 0xcd9e8d57 * z.1.2.2.1.toNat % 2 ^ 32 ∧
    (philoxRound z).1.2.2.1.toNat = 0xd2511f53 * z.1.1.toNat / 2 ^ 32 ^^^ z.1.2.2.2.toNat ^^^ z.2.2.toNat ∧
    (philoxRound z).1.2.2.2.toNat = 0xd2511f53 * z.1.1.toNat % 2 ^ 32 ∧
    (philoxRound z).2.1.toNat = (z.2.1.toNat + 0x9e3779b9) % 2 ^ 32 ∧
    (philoxRound z).2.2.toNat = (z.2.2.toNat + 0xbb67ae85) % 2 ^ 32 := by
  have h0 : 0xd2511f53 < 2 ^ 32 := by norm_num
  have h1 : 0xcd9e8d57 < 2 ^ 32 := by norm_num
  refine ⟨?_, toNat_low_mul h1 _, ?_, toNat_low_mul h0 _, BitVec.toNat_add .., BitVec.toNat_add ..⟩
  · exact (BitVec.toNat_xor ..).trans (congrArg (· ^^^ _) ((BitVec.toNat_xor ..).trans
      (congrArg (· ^^^ _) (toNat_high_mul h1 _))))
  · exact (BitVec.toNat_xor ..).trans (congrArg (· ^^^ _) ((BitVec.toNat_xor ..).trans
      (congrArg (· ^^^ _) (toNat_high_mul h0 _))))

theorem philoxGo_eq (n : Nat) (z : (Word × Word × Word × Word) × Word × Word) :
    philoxGo n z.1.1.toNat z.1.2.1.toNat z.1.2.2.1.toNat z.1.2.2.2.toNat z.2.1.toNat z.2.2.toNat =
      counterWords (philoxRound^[n] z) := by
  induction n generalizing z with
  | zero => rfl
  | succ n ih =>
    obtain ⟨h0, h1, h2, h3, hy0, hy1⟩ := toNat_philoxRound z
    rw [Function.iterate_succ_apply, ← ih, h0, h1, h2, h3, hy0, hy1, philoxGo.eq_def]

/-- The words of a random state, by its index (R143). -/
theorem philox_getD (r : Rng) (hr : r.idx < 4) : (philox r.ctr.toNat r.key.toNat).getD r.idx 0 = r.word.toNat := by
  have hcut : ∀ {w : Nat} (b : BitVec w) (k : Nat), b.toNat / 2 ^ k % 2 ^ 32 = (b.extractLsb' k 32).toNat := fun b k => by
    rw [BitVec.extractLsb'_toNat, Nat.shiftRight_eq_div_pow]
  have hkey : r.key.toNat / 2 ^ 32 = (r.key.extractLsb' 32 32).toNat := by
    rw [← hcut, Nat.mod_eq_of_lt]
    have := r.key.isLt
    omega
  have h0 : ∀ {w : Nat} (b : BitVec w), b.toNat % 2 ^ 32 = (b.extractLsb' 0 32).toNat := fun b => by
    rw [← hcut, Nat.pow_zero, Nat.div_one]
  rw [philox, h0, hcut, hcut, hcut, h0, hkey, philoxGo_eq 10 ((r.ctr.extractLsb' 0 32, r.ctr.extractLsb' 32 32,
    r.ctr.extractLsb' 64 32, r.ctr.extractLsb' 96 32), r.key.extractLsb' 0 32, r.key.extractLsb' 32 32), Rng.word]
  generalize philoxRound^[10] _ = z
  generalize r.idx = i at hr
  interval_cases i <;> rfl

theorem draw_eq (r : Rng) (hr : r.idx < 4) : r.draw = (r.word.toNat, r.behind) := by
  rw [Rng.draw, philox_getD r hr, Rng.behind]
  by_cases h : r.idx = 3
  · simp [h]
  · simp [h]

theorem idx_behind_lt {r : Rng} (hr : r.idx < 4) : r.behind.idx < 4 := by
  rw [Rng.behind]
  split
  · exact Nat.zero_lt_succ 3
  · show r.idx + 1 < 4
    omega

/-! ### Numbers below 1 (R143) -/

theorem exists_magRat_eq (t : Ty) (j m : Nat) (hm : m < 2 ^ (manBits t + 1)) :
    ∃ p, magRat t p = m * 2 ^ (minExp t + j) := by
  induction j generalizing m with
  | zero => exact ⟨0 * 2 ^ manBits t + m, magRat_mul_add t hm.le (.inl rfl)⟩
  | succ j ih =>
    rcases Nat.lt_or_ge m (2 ^ manBits t) with h | h
    · obtain ⟨p, hp⟩ := ih (2 * m) (by rw [Nat.pow_succ']; omega)
      refine ⟨p, ?_⟩
      rw [hp, Nat.cast_succ, ← add_assoc, zpow_add_one₀ two_ne_zero]
      push_cast
      ring
    · exact ⟨(j + 1) * 2 ^ manBits t + m, magRat_mul_add t hm.le (.inr h)⟩

theorem NearestMag.eq_of_magRat_eq {t : Ty} {a : ℚ} {r p : Nat} (h : NearestMag t a r) (hp : magRat t p = a) : r = p := by
  have hle := (h p).1
  rw [hp, sub_self, abs_zero] at hle
  refine (magRat_strictMono t).injective ?_
  rw [hp]
  exact sub_eq_zero.mp (abs_nonpos_iff.mp hle)

/-- A number that a format holds is its own rounding. -/
theorem magRat_roundMag_of_exact (t : Ty) (neg : Bool) {m : Nat} (hm : m < 2 ^ (manBits t + 1)) {e : Int}
    (he : minExp t ≤ e) : magRat t (roundMag t .rn neg m e) = m * 2 ^ e := by
  rcases Nat.eq_zero_or_pos m with rfl | hpos
  · simp [roundMag]
  · obtain ⟨j, hj⟩ := Int.eq_ofNat_of_zero_le (show 0 ≤ e - minExp t by omega)
    obtain ⟨p, hp⟩ := exists_magRat_eq t j m hm
    obtain rfl : e = minExp t + j := by omega
    rw [(roundMag_nearest t neg hpos.ne' _).eq_of_magRat_eq hp, hp]

/-- The top 24 bits of a word over 2^24 are an FP32 number below 1. -/
theorem packF_fraction {k : Nat} (hk : k < 2 ^ 24) :
    (packF .f32 .rn false k (-24)).val < 2 ^ 31 ∧ isFin .f32 (packF .f32 .rn false k (-24)).val = true ∧
      patRat .f32 (packF .f32 .rn false k (-24)).val = k / 2 ^ 24 := by
  have ht : Ty.f32 ≠ .e4m3 := by decide
  have hinf := infPat_lt ht
  have hmax := infPat_eq_maxFin_add_one ht
  have hexact : magRat .f32 (roundMag .f32 .rn false k (-24)) = k * 2 ^ (-24 : Int) :=
    magRat_roundMag_of_exact .f32 false hk (by decide)
  have hlt : roundMag .f32 .rn false k (-24) < infPat .f32 := by
    have hone : magRat .f32 (126 * 2 ^ 23 + 2 ^ 23) = 1 :=
      (magRat_mul_add .f32 (k := 126) (top := 2 ^ 23) (by decide) (by decide)).trans (by norm_num [minExp, expBias, manBits])
    refine (((magRat_strictMono .f32).lt_iff_lt (b := 126 * 2 ^ 23 + 2 ^ 23)).mp ?_).trans (by decide)
    rw [hexact, hone, zpow_neg, ← div_eq_mul_inv, div_lt_one (by positivity)]
    exact_mod_cast hk
  have hval : (packF .f32 .rn false k (-24)).val = roundMag .f32 .rn false k (-24) := by
    rw [packF, if_neg (by omega)]
    rfl
  rw [hval]
  refine ⟨hlt.trans hinf, ?_, ?_⟩
  · rw [isFin_iff ht, magOf, Nat.mod_eq_of_lt (hlt.trans hinf)]
    exact hlt
  · rw [patRat_of_lt_infPat ht hlt, hexact, zpow_neg, div_eq_mul_inv]
    rfl

theorem drawRule_holds {r : Rng} (hr : r.idx < 4) : drawRule r := by
  have h1 := draw_eq r hr
  have h2 := draw_eq r.behind (idx_behind_lt hr)
  obtain ⟨hlt, hfin, hval⟩ := packF_fraction (k := r.word.toNat / 256) (by have := r.word.isLt; omega)
  have h64 : r.value .b64 = (r.word.toNat + r.behind.word.toNat * 2 ^ 32, r.behind.behind) := by
    simp [Rng.value, h1, h2]
  have hf32 : r.value .f32 = ((packF .f32 .rn false (r.word.toNat / 256) (-24)).val, r.behind) := by
    simp [Rng.value, h1]
  refine ⟨?_, h64, ?_⟩
  · simp [Rng.value, h1]
  · rw [hf32]
    exact ⟨rfl, hlt, hfin, hval⟩

end Sys2Proof.Machine

/-!
Cross-lane and random-number instructions (R136 to R143): what the lanes of M receive, and the random state of a lane.
-/

namespace Sys2Proof.Machine

/-! ### Lanes that keep more than they must -/

theorem Lane.Kept.mono {a b : Lane} {us vs : List Use} (h : Lane.Kept a b us) (hs : ∀ u ∈ us, u ∈ vs) :
    Lane.Kept a b vs where
  rest := h.rest
  regs i hi := h.regs i fun hc => hi (covers_mono hc hs)
  guards n hn hi := h.guards n hn fun hc => hi (covers_mono hc hs)
  random hr := h.random fun hc => hr (covers_mono hc hs)
  meeting := h.meeting

/-- Writing a random state changes nothing else of a lane. -/
theorem Lane.rng_kept (ln : Lane) (r : Rng) {us : List Use} (hu : ∀ u ∈ useRng, u ∈ us) :
    Lane.Kept ln { ln with rng := r } us ∧ ({ ln with rng := r } : Lane).pc = ln.pc := by
  have hc : covers us 2048 := ⟨⟨2048, 1⟩, hu _ (List.mem_singleton.mpr rfl), le_rfl, Nat.lt_succ_self _⟩
  exact ⟨⟨rfl, fun _ _ => rfl, fun _ _ _ => rfl, fun hn => absurd hc hn, .inl rfl⟩, rfl⟩

theorem State.onLanes_find_self {s : State} {w : Nat} {wp : Warp} (m : Mask) (f : Nat → Lane → Lane)
    (h : s.warps.find w = some wp) : (s.onLanes w m f).warps.find w = some (wp.onLanes m f) := by
  show (s.onWarp w fun wp => wp.onLanes m f).warps.find w = _
  rw [State.onWarp_find, if_pos rfl, h]
  rfl

theorem Runs.find_warp {s : State} {i : Instr} {x : Iss} (h : Runs s i x) : s.warps.find x.w = some x.wp := by
  obtain ⟨c, -, hi, -⟩ := h.issue
  exact (State.iss_finds s c x hi).1

/-- Changing the lanes of M within vs after an instruction has retired. -/
theorem Retired.onLanes {s u : State} {x : Iss} {us vs : List Use} {fl : BitVec 3} (f : Nat → Lane → Lane)
    (h : Retired s u x us fl) (hs : ∀ v ∈ us, v ∈ vs)
    (hf : ∀ l ln, Lane.Kept ln (f l ln) vs ∧ (f l ln).pc = ln.pc) : Retired s (u.onLanes x.w x.m f) x vs fl := by
  obtain ⟨wp, hw, hk⟩ := h.warp
  have hrest : u.onLanes x.w x.m f =
      { s with warps := (u.onLanes x.w x.m f).warps, groups := (u.onLanes x.w x.m f).groups } := by
    rw [h.rest]
    rfl
  have hlane : ∀ l, l < x.wp.lanes.length →
      (wp.onLanes x.m f).lane l = if inMask x.m l then f l (wp.lane l) else wp.lane l :=
    fun l hl => Warp.onLanes_lane _ _ _ _ (hk.size ▸ hl)
  have hcov : ∀ {r}, ¬covers vs r → ¬covers us r := fun hn hc => hn (covers_mono hc hs)
  refine
    { rest := hrest
      warp := ⟨wp.onLanes x.m f, ?_, ?_⟩
      warps := fun w hne => ?_
      group := h.group
      groups := h.groups
      bytes := SameBytes.of_rest _ _ hrest }
  · exact State.onLanes_find_self _ _ hw
  · refine
      { size := (Warp.onLanes_size ..).trans hk.size
        rest := ?_
        lanes := fun l hl => ?_
        pcs := fun l hl => ?_
        uniform := fun i hi => hk.uniform i (hcov hi)
        accs := fun q hq => hk.accs q (hcov hq) }
    · rw [Warp.onLanes_rest, hk.rest]
    · have hl' := hk.lanes l hl
      rw [hlane l hl]
      cases hm : inMask x.m l
      · rw [hm] at hl'
        exact hl'
      · rw [hm] at hl'
        exact (hl'.mono hs).trans (hf l _).1
    · rw [hlane l hl, ← hk.pcs l hl]
      cases inMask x.m l
      · rfl
      · exact (hf l _).2
  · show (u.onWarp x.w fun wp => wp.onLanes x.m f).warps.find w = _
    rw [State.onWarp_find, if_neg hne]
    exact h.warps w hne

/-! ### Moves between lanes (R136 to R139) -/

/-- The lane that shfl asks for, below 0 or above 31 where there is none (R136). -/
def shflFrom (m : ShMode) (l n : Nat) : Int :=
  match m with
  | .idx => (n : Int) % 32
  | .up => (l : Int) - n
  | .dn => (l : Int) + n
  | .xor => ((l ^^^ (n % 32) : Nat) : Int)

/-- shfl reads the lane it asks for where that is one of M. -/
theorem shflLane_eq {l : Nat} (hl : l < 32) (m : ShMode) (n : Nat) :
    shflLane m l n = if 0 ≤ shflFrom m l n ∧ shflFrom m l n ≤ 31 then some (shflFrom m l n).toNat else none := by
  cases m with
  | idx =>
    have hj : ((n : Int) % 32).toNat = n % 32 := by omega
    rw [shflLane, shflFrom, if_pos (by omega), hj]
  | up =>
    rw [shflLane, shflFrom]
    split
    next h => rw [if_pos (by omega)]; congr 1; omega
    next h => rw [if_neg (by omega)]
  | dn =>
    rw [shflLane, shflFrom]
    split
    next h => rw [if_pos (by omega)]; rfl
    next h => rw [if_neg (by omega)]
  | xor =>
    have hx : l ^^^ n % 32 < 32 := Nat.xor_lt_two_pow (n := 5) hl (Nat.mod_lt n (by omega))
    rw [shflLane, shflFrom, if_pos (by omega), Nat.mod_eq_of_lt hx, Int.toNat_natCast]

theorem shfl_gives (c : Ctl) (m : ShMode) (d : Dst) (a b : Src) :
    Gives (.shfl c m d a b) d 1 fun s x l =>
      let j := shflFrom m l (x.val s l .b32 b)
      if 0 ≤ j ∧ j ≤ 31 ∧ inMask x.m j.toNat = true then x.val s j.toNat .b32 a else x.val s l .b32 a := by
  have h : Gives (.shfl c m d a b) d 1 fun s x l => (shflOp m a b x s l).val := by
    refine execLane_gives_of _ _ d 1 (shflOp m a b) _ (fun _ => rfl) fun s x l => ?_
    rw [shflOp]
    split <;> rfl
  refine h.congr fun s x _ l hl => ?_
  show (shflOp m a b x s l).val = _
  rw [shflOp, shflLane_eq (inMask_lt hl)]
  simp only [← and_assoc]
  generalize shflFrom m l (x.val s l .b32 b) = j
  by_cases hj : 0 ≤ j ∧ j ≤ 31
  · simp [hj, Res.of]
  · simp [hj, Res.of]

theorem bcast_gives (c : Ctl) (d : Dst) (a b : Src) :
    Gives (.bcast c d a b) d 1 fun s x _ =>
      let j := x.val s (lowLane x.m) .b32 b % 32
      if inMask x.m j then x.val s j .b32 a else 0 :=
  oneEffect_gives_of _ _ d 1 (bcastOp a b) _ _ (fun _ => rfl) fun _ _ _ => rfl

theorem vote_gives (c : Ctl) (vm : VoteMode) (d : Dst) (g : BitVec 3) :
    Gives (.vote c vm d g) d 1 fun s x _ =>
      let p : Mask := x.m &&& maskOf fun l => x.guard s l g
      match vm with
      | .all => if p = x.m then 1 else 0
      | .any => if p = 0 then 0 else 1
      | .eq => if p = x.m ∨ p = 0 then 1 else 0
      | .ballot => p.toNat := by
  refine oneEffect_gives_of _ _ d 1 (voteOp vm g) _ _ (fun _ => rfl) fun s x _ => ?_
  cases vm <;> simp [voteOp, bitOf, Iss.ballot, Iss.guard] <;> rfl

theorem matchW_gives (c : Ctl) (t : Ty) (d : Dst) (a : Src) :
    Gives (.matchW c t d a) d 1 fun s x l =>
      (x.m &&& maskOf fun j => decide (x.val s j t a = x.val s l t a) : Mask).toNat :=
  execLane_gives_of _ _ d 1 (matchOp t a) _ (fun _ => rfl) fun _ _ _ => rfl

/-! ### Reductions (R140) -/

theorem scanw_gives (c : Ctl) (op : Aop) (t : Ty) (exc : Bool) (d : Dst) (a : Src) :
    GivesRes (.scanw c op t exc d a) d t.regs fun s x l =>
      reduceOp op t (((maskLanes x.m).filter fun j => if exc then decide (j < l) else decide (j ≤ l)).map
        fun j => x.val s j t a) :=
  execLane_gives _ _ d t.regs (scanwOp op t exc a) fun _ => rfl

theorem redw_completes (c : Ctl) (op : Aop) (t : Ty) (d : Dst) (a : Src) :
    Completes (.redw c op t d a) (useD t.regs d)
      (fun s x => (reduceOp op t ((maskLanes x.m).map fun l => x.val s l t a)).fl)
      (fun s x u => Gets u x d t.regs fun _ => (reduceOp op t ((maskLanes x.m).map fun l => x.val s l t a)).val) :=
  oneEffect_gives _ _ d t.regs (redwOp op t a) _ fun _ => rfl

/-! ### Random states (R142, R143) -/

theorem not_covers_useD_useRng (t : Ty) (d : Dst) : ¬covers (useD t.regs d) 2048 := by
  have hregs : t.regs ≤ 2 := by cases t <;> decide
  rintro ⟨u, hu, hlo, hhi⟩
  cases d with
  | v i =>
    obtain rfl := List.mem_singleton.mp hu
    have : 2048 < i.toNat + t.regs := hhi
    omega
  | k i =>
    obtain rfl := List.mem_singleton.mp hu
    have : 2048 < 512 + i.toNat + t.regs := hhi
    omega

/-- A retired instruction that left the random states alone, and then advances them in the lanes of M. -/
theorem Retired.advance_rng {s u : State} {x : Iss} {us : List Use} {fl : BitVec 3} (f : Rng → Rng)
    (h : Retired s u x us fl) (hr : ¬covers us 2048) :
    Retired s (u.onLanes x.w x.m fun _ ln => { ln with rng := f ln.rng }) x (us ++ useRng) fl ∧
    (∀ d n r, Gets u x d n r → Gets (u.onLanes x.w x.m fun _ ln => { ln with rng := f ln.rng }) x d n r) ∧
    GetsRng (u.onLanes x.w x.m fun _ ln => { ln with rng := f ln.rng }) x fun l => f (x.wp.lane l).rng := by
  obtain ⟨wp, hw, hk⟩ := h.warp
  have hw' := State.onLanes_find_self x.m (fun _ ln => { ln with rng := f ln.rng }) hw
  have hlane : ∀ l, l < x.wp.lanes.length → inMask x.m l = true →
      (wp.onLanes x.m fun _ ln => { ln with rng := f ln.rng }).lane l = { wp.lane l with rng := f (wp.lane l).rng } :=
    fun l hl hm => (Warp.onLanes_lane _ _ _ _ (hk.size ▸ hl)).trans (if_pos hm)
  refine ⟨h.onLanes _ (fun v hv => List.mem_append_left _ hv) fun _ ln =>
    ln.rng_kept _ fun v hv => List.mem_append_right _ hv, fun d n r hd => ?_, _, hw', fun l hl hm => ?_⟩
  · obtain ⟨wp', hf, hd⟩ := hd
    obtain rfl := Option.some.inj (hw.symm.trans hf)
    refine ⟨_, hw', ?_⟩
    cases d with
    | v i =>
      intro l j hl hm hj
      rw [hlane l hl hm]
      exact hd l j hl hm hj
    | k i => exact hd
  · have hl' := hk.lanes l hl
    rw [if_pos hm] at hl'
    rw [hlane l hl hm, hl'.random hr]

theorem Iss.flagsOf_eq_zero (x : Iss) {f : Nat → Res} (h : ∀ l, (f l).fl = 0) : x.flagsOf f = 0 := by
  rw [Iss.flagsOf]
  induction maskLanes x.m with
  | nil => rfl
  | cons l ls ih => rw [List.foldl_cons, h, BitVec.or_self, ih]

theorem rnd_completes (c : Ctl) (t : Ty) (d : Dst) :
    Completes (.rnd c t d) (useD t.regs d ++ useRng) (fun _ _ => 0) fun _ x u =>
      Gets u x d t.regs (fun l => ((x.wp.lane l).rng.value t).1) ∧
      GetsRng u x fun l => ((x.wp.lane l).rng.value t).2 := by
  intro s x h
  obtain ⟨hret, hgets⟩ := laneEffect_spec (.rnd c t d) (.fixed 9) d t.regs
    (fun x _ l => Res.of ((x.wp.lane l).rng.value t).1) (useD t.regs d) (fun _ hu => hu) s s x 0 h (Wrote.start _ h)
  rw [x.flagsOf_eq_zero fun _ => rfl, BitVec.or_self] at hret
  obtain ⟨hret', hkeep, hrng⟩ := hret.advance_rng (fun r => (r.value t).2) (not_covers_useD_useRng t d)
  exact ⟨_, issueWord_runs _ s x noEmpty noPre (rndEffect t d) h rfl, hret', hkeep _ _ _ hgets, hrng⟩

/-- The lane after rnd.seed (R143). -/
def seededLane (a b : Src) (x : Iss) (s : State) (l : Nat) (ln : Lane) : Lane :=
  { ln with rng := ⟨x.src64 s l a, (x.src64 s l b).setWidth 128, 0⟩ }

theorem rndSeed_completes (c : Ctl) (t : Ty) (a b : Src) :
    Completes (.rndSeed c t a b) useRng (fun _ _ => 0) fun s x u =>
      GetsRng u x fun l => ⟨x.src64 s l a, (x.src64 s l b).setWidth 128, 0⟩ := by
  intro s x h
  have hw := (Wrote.start useRng h).onLanes (seededLane a b x s) fun l ln => ln.rng_kept _ fun _ hu => hu
  obtain ⟨wp, hf, -, -, hl⟩ := State.retire_warp _ x h.fresh _
    (State.onLanes_find_self x.m (seededLane a b x s) h.find_warp)
  refine ⟨_, issueWord_runs _ s x noEmpty noPre (rndSeedEffect a b) h rfl, hw.retire h.fresh, wp, hf, fun l hlt hm => ?_⟩
  rw [(hl l (by rw [Warp.onLanes_size]; exact hlt)).2.2, Warp.onLanes_lane _ _ _ _ hlt, if_pos hm]
  rfl

/-- Settles O10: each word that moves between lanes, reduces or draws completes as R136 to R143 say;
the reductions follow R140 and R141, with one rounding of the exact sum, and a drawn word is that of ten rounds (R142). -/
theorem crossLaneAndRandom : Obligations.CrossLaneAndRandom := by
  refine ⟨fun t vs hvs => reduceRule_holds hvs, fun r hr => drawRule_holds hr, fun c t m vm op exc g d a b => ?_,
    fun c t d a b => ⟨rnd_completes c t d, rndSeed_completes c t a b⟩⟩
  exact ⟨shfl_gives c m d a b, bcast_gives c d a b, vote_gives c vm d g, matchW_gives c t d a, scanw_gives c op t exc d a,
    redw_completes c op t d a⟩

end Sys2Proof.Machine

/-!
How a word ends: with one value written, with its lanes waiting (R287), or with a fault that stops its group (R205,
R208).
-/

namespace Sys2Proof.Machine

/-! ### Words with one value -/

/-- A write of one value from any state in which the issue has written within us. -/
theorem oneEffect_spec {s t : State} {x : Iss} {us : List Use} {fl : BitVec 3} (lat : Lat) (d : Dst) (n : Nat)
    (f : Iss → State → Res) (hu : ∀ u ∈ useD n d, u ∈ us) (hq : x.q = none) (h : Wrote s t x us fl) :
    Retired s (oneEffect lat d n f x t) x us (fl ||| (f x t).fl) ∧
      Gets (oneEffect lat d n f x t) x d n fun _ => (f x t).val :=
  have hn := h.note lat d n
  ⟨((hn.putD d n _ hu).orFlags _).retire hq, hn.putD_gets d n _ _ hq⟩

/-- A word that faults in nothing after the register-block check has its effect wherever it runs. -/
theorem softWord_runs (i : Instr) (s : State) (x : Iss) (body : Iss → State → State) (h : Runs s i x) :
    softWord i s body = .next (body x s) := by
  obtain ⟨-, ⟨c, hc, hi, hk⟩, -, hm⟩ := h
  have hb : x.blocksOk (touchesOf i) = true := by
    cases hb : x.blocksOk (touchesOf i) with
    | true => rfl
    | false => simp [Iss.check, hb] at hk
  simp only [softWord, hc, hi, hb]
  rw [if_neg (by simpa using hm)]

theorem softWord_gives_of (i : Instr) (lat : Lat) (d : Dst) (n : Nat) (r : State → Iss → Nat)
    (he : ∀ s, exec i s = softWord i s (oneEffect lat d n fun x s => Res.of (r s x))) :
    Gives i d n fun s x _ => r s x := by
  intro s x h
  obtain ⟨hret, hgets⟩ := oneEffect_spec lat d n (fun x s => Res.of (r s x)) (fun _ hu => hu) h.fresh
    (Wrote.start (useD n d) h)
  exact ⟨_, (he s).trans (softWord_runs _ s x _ h), by simpa [Res.of] using hret, hgets⟩

/-! ### Beginning to wait (R287) -/

theorem inMask_and_not (a m : Mask) (l : Nat) : inMask (a &&& ~~~m) l = (inMask a l && !inMask m l) := by
  by_cases hl : l < 32
  · simp [inMask, hl]
  · simp [inMask, BitVec.getLsbD_of_ge _ l (Nat.le_of_not_lt hl)]

/-- A warp whose lanes M begin to wait under number q. -/
def Warp.halted (wp : Warp) (x : Iss) (q : Nat) : Warp :=
  (wp.onLanes (x.act &&& ~~~x.m) fun _ ln => { ln with pc := ln.pc + 12 }).onLanes x.m fun _ ln => ln.waits q x.clk

theorem Warp.halted_size (wp : Warp) (x : Iss) (q : Nat) : (wp.halted x q).lanes.length = wp.lanes.length := by
  rw [Warp.halted, Warp.onLanes_size, Warp.onLanes_size]

theorem Warp.halted_lane (wp : Warp) (x : Iss) (q l : Nat) (hl : l < wp.lanes.length) :
    (wp.halted x q).lane l = if inMask x.m l then (wp.lane l).waits q x.clk
      else if inMask x.act l then { wp.lane l with pc := (wp.lane l).pc + 12 } else wp.lane l := by
  rw [Warp.halted, Warp.onLanes_lane _ _ _ _ (by rwa [Warp.onLanes_size]), Warp.onLanes_lane _ _ _ _ hl, inMask_and_not]
  cases inMask x.m l <;> simp

theorem Warp.halted_settle_halts (x : Iss) (q l : Nat) (hl : l < x.wp.lanes.length) :
    Halts x q l ((x.wp.halted x q).settle.lane l) := by
  have h := Warp.settle_lane (x.wp.halted x q) l (by rwa [Warp.halted_size])
  rwa [Warp.halted_lane _ _ _ _ hl] at h

theorem State.block_fresh (s : State) (x : Iss) (i : Instr) (k : WKindW) (stat : Tbl Nat) (hq : x.q = none) :
    s.block x i k stat = { s with
      warps := s.warps.upd x.w fun wp => (wp.halted x s.nextId).settle
      waits := s.waits.put s.nextId ⟨x.w, i, x.m, x.pc, x.clk, k, stat, false⟩
      nextId := s.nextId + 1 } := by
  simp only [State.block, hq, State.newId, State.settle, State.onLanes, State.onWarp, Tbl.upd_upd]
  rfl

/-- A fresh issue that blocks waits, and nothing else changes. -/
theorem Runs.block_waits {s : State} {i : Instr} {x : Iss} (h : Runs s i x) (k : WKindW) (stat : Tbl Nat) :
    Waits s (s.block x i k stat) x i k stat := by
  rw [State.block_fresh s x i k stat h.fresh]
  refine
    { rest := rfl
      ident := rfl
      wait := rfl
      warp := ⟨(x.wp.halted x s.nextId).settle, ?_, ?_, ?_, ?_⟩
      warps := ?_ }
  · rw [Tbl.find_upd_self, h.find_warp]
    rfl
  · rw [Warp.settle_rest]
    rfl
  · rw [Warp.settle_size, Warp.halted_size]
  · exact fun l hl => Warp.halted_settle_halts x s.nextId l hl
  · exact fun w hne => Tbl.find_upd_ne _ _ _ _ hne

/-! ### Faults that stop the group (R205, R208) -/

theorem Runs.find_group {s : State} {i : Instr} {x : Iss} (h : Runs s i x) : s.groups.find x.wp.gid = some x.g := by
  obtain ⟨c, -, hi, -⟩ := h.issue
  exact (State.iss_finds s c x hi).2.1

/-- A lane outside tasks takes the fault with the others. -/
theorem Runs.not_inTasks {s : State} {i : Instr} {x : Iss} (h : Runs s i x) {f : FRec} (hf : f.lanes = x.m)
    (hs : StopsGroup x) : s.inTasks x f = false := by
  obtain ⟨-, l, hl, ht⟩ := hs
  have hall : ((maskLanes x.m).all fun l => (x.wp.lane l).task.isSome) = false :=
    List.all_eq_false.mpr ⟨l, hl, by simp [ht]⟩
  rw [State.inTasks, h.find_warp, hf]
  exact (congrArg _ hall).trans (Bool.and_false _)

theorem State.stopGroup_first {s : State} {gid : Nat} {g : Group} (p : Pend) (hg : s.groups.find gid = some g)
    (hp : g.pend = none) :
    s.stopGroup gid p = s.onGroup gid fun g =>
      { g with st := if g.st == .resident then .stopping else g.st, pend := some p } := by
  simp only [State.stopGroup, hg, hp]

/-- A fault that is neither a trap nor a breakpoint, in the lanes of M, stops the group (R207, R277). -/
theorem Runs.raise_stops {s : State} {i : Instr} {x : Iss} (h : Runs s i x) (hs : StopsGroup x) {f : FRec} (code : Nat)
    (hf : f.lanes = x.m) (hc : f.cls < 15) : Stops s (s.raise x f code) x f := by
  have ht := h.not_inTasks hf hs
  have hcls : ∀ n, 15 ≤ n → (f.cls == n) = false := fun n hn => beq_eq_false_iff_ne.mpr (by omega)
  have hpath : s.faultPath x f = .stop := by simp [State.faultPath, ht, hcls]
  have hpost : postRetire f.cls = false := by simp [postRetire, hcls]
  have hu : s.raise x f code = s.onGroup x.wp.gid fun g =>
      { g with st := if g.st == .resident then .stopping else g.st, pend := some (s.pendOf x f none none) } := by
    simp only [State.raise, State.raiseWith, hpath, hpost, h.fresh]
    exact State.stopGroup_first _ h.find_group hs.1
  rw [hu]
  refine { rest := rfl, group := ?_, groups := fun g hne => ?_ }
  · rw [State.onGroup_find, if_pos rfl, h.find_group]
    rfl
  · rw [State.onGroup_find, if_neg hne]

end Sys2Proof.Machine

/-!
The unit instructions (R411 to R415): asking for a boost, reading levels, grants and wear records, gating an upper core.
-/

namespace Sys2Proof.Machine

/-! ### boost (R412) -/

theorem boost_effect {s : State} {x : Iss} (c : Ctl) (lvl : BitVec 2) (d a : Dst) (h : Runs s (.boost c lvl d a) x) :
    exec (.boost c lvl d a) s = .next (boostEffect (.boost c lvl d a) a x s) :=
  issueWord_runs _ s x noEmpty noPre _ h rfl

theorem boost_blocks (c : Ctl) (lvl : BitVec 2) (d a : Dst) (v : Nat) (hlo : 0 < v) (hhi : v ≤ 4095) :
    Blocks (.boost c lvl d a) .boost [(0, v)] fun s x => (x.reg s (lowLane x.m) a 0).toNat = v := by
  intro s x h hv
  have he : boostEffect (.boost c lvl d a) a x s = s.block x (.boost c lvl d a) .boost [(0, v)] := by
    simp only [boostEffect, hv]
    exact if_neg (by omega)
  exact ⟨_, boost_effect c lvl d a h, he ▸ h.block_waits .boost [(0, v)]⟩

theorem boost_faults (c : Ctl) (lvl : BitVec 2) (d a : Dst) :
    Faults (.boost c lvl d a)
      (fun s x => (x.reg s (lowLane x.m) a 0).toNat = 0 ∨ 4095 < (x.reg s (lowLane x.m) a 0).toNat) 6
      (fun s x => (x.reg s (lowLane x.m) a 0).toNat) fun _ _ => 0 := by
  intro s x h hv hs
  refine ⟨_, boost_effect c lvl d a h, ?_⟩
  simp only [boostEffect, if_pos hv]
  exact h.raise_stops hs 0 rfl (by decide : 6 < 15)

/-! ### rflv and bstat (R411, R413) -/

theorem rflv_gives (c : Ctl) (d : Dst) :
    Gives (.rflv c d) d 1 fun s x _ => ((s.partOf x.g.world).map fun p => p.reef).getD 0 :=
  oneEffect_gives_of _ _ d 1 _ _ _ (fun _ => rfl) fun _ _ _ => rfl

theorem bstat_gives (c : Ctl) (d : Dst) : Gives (.bstat c d) d 2 fun s x _ => bstatWord x s :=
  oneEffect_gives_of _ _ d 2 _ _ _ (fun _ => rfl) fun _ _ _ => rfl

/-! ### wrec (R415) -/

theorem State.wrecVal_eq (s : State) (world u : Nat) (k : WKind) :
    s.wrecVal world u k = if 816 < u ∨ u < 640 ∧ world ≠ 1024 ∧ s.corePart (u % 320) ≠ s.worldPart world then 2 ^ 64 - 1
      else (s.lastWear u).field k := by
  simp only [State.wrecVal, Bool.and_eq_true, decide_eq_true_eq, bne_iff_ne, and_assoc]

theorem wrec_gives (c : Ctl) (k : WKind) (d a : Dst) :
    Gives (.wrec c k d a) d 2 fun s x _ => s.wrecVal x.g.world (x.reg s (lowLane x.m) a 0).toNat k :=
  softWord_gives_of _ _ d 2 _ fun _ => rfl

/-! ### Gates (R414) -/

/-- The state t is s with the gate of core n at g: warps, groups, other cores and the bytes of memory are as in s. -/
structure GateSet (s t : State) (n : Nat) (g : Gate) : Prop where
  warps : t.warps = s.warps
  groups : t.groups = s.groups
  core : t.core n = { s.core n with gate := g }
  cores : ∀ k, k ≠ n → t.core k = s.core k
  bytes : SameBytes s t

theorem GateSet.refl {s : State} {n : Nat} {g : Gate} (h : (s.core n).gate = g) : GateSet s s n g where
  warps := rfl
  groups := rfl
  core := by rw [← h]
  cores _ _ := rfl
  bytes := ⟨fun _ _ => rfl, fun _ => rfl⟩

theorem State.onCore_core (s : State) (n k : Nat) (f : Core → Core) :
    (s.onCore n f).core k = if k = n then f (s.core n) else s.core k := Tbl.getD_put ..

theorem GateSet.onCore (s : State) (n : Nat) (f : Core → Gate) :
    GateSet s (s.onCore n fun c => { c with gate := f c }) n (f (s.core n)) where
  warps := rfl
  groups := rfl
  core := by rw [State.onCore_core, if_pos rfl]
  cores k hne := by rw [State.onCore_core, if_neg hne]
  bytes := ⟨fun _ _ => rfl, fun _ => rfl⟩

/-- The end of a rest changes wear records and the wear log alone. -/
theorem GateSet.restDone {s t : State} {n : Nat} {g : Gate} (h : GateSet s t n g) (core rec : Nat) (down : Bool) :
    GateSet s (t.restDone core rec down) n g := ⟨h.warps, h.groups, h.core, h.cores, h.bytes⟩

/-- A gate after pgate.off, in a core cycle (R414). -/
def Gate.opened (clk : Nat) : Gate → Gate
  | .open | .pending _ => .open
  | .waking t _ => .waking t none
  | .gated _ _ => .waking clk none

theorem State.openGate_sets (s : State) (n : Nat) :
    GateSet s (s.openGate n) n ((s.core n).gate.opened (s.core n).clk) := by
  unfold State.openGate
  match hg : (s.core n).gate with
  | .open => exact .refl hg
  | .pending k => exact .onCore s n fun _ => .open
  | .waking t k => exact .onCore s n fun _ => .waking t none
  | .gated k r => exact (GateSet.onCore s n fun c => .waking c.clk none).restDone n r true

/-- What refuses a gate request: the core rests, is being drained, or holds a group of another world. -/
def State.GateBarred (s : State) (world n : Nat) : Prop :=
  (∃ t r, (s.core n).rest = .resting t r) ∨ (s.core n).drain = true ∨ s.otherWorld world n = true

/-- A gate request for core n is answered with v and leaves its gate at g. -/
def GateOn (s : State) (gid world n v : Nat) (g : Gate) : Prop :=
  (s.gateOn gid world n).1 = v ∧ GateSet s (s.gateOn gid world n).2 n g

theorem GateOn.of_eq {s t : State} {gid world n v : Nat} {g : Gate} (he : s.gateOn gid world n = (v, t))
    (ht : GateSet s t n g) : GateOn s gid world n v g := by
  rw [GateOn, he]
  exact ⟨rfl, ht⟩

theorem State.gateOn_barred {s : State} {world n : Nat} (gid : Nat) (h : s.GateBarred world n) :
    GateOn s gid world n 3 (s.core n).gate := by
  have he : s.gateOn gid world n = (3, s) := by
    rcases h with ⟨t, r, h⟩ | h | h <;> simp [State.gateOn, h]
  exact .of_eq he (.refl rfl)

/-- The answer to a gate request that nothing bars and the gate after it, on a quiet core or another (R414). -/
def Gate.asked (gid : Nat) : Gate → Bool → Nat × Gate
  | .gated k r, _ => (1, .gated k r)
  | .waking t k, _ => (0, .waking t (some (k.getD gid)))
  | .pending k, true => (1, .gated k 0)
  | .pending k, false => (0, .pending k)
  | .open, true => (1, .gated gid 0)
  | .open, false => (0, .pending gid)

theorem State.gateOn_unbarred {s : State} {world n : Nat} (gid : Nat) (h : ¬s.GateBarred world n) :
    GateOn s gid world n ((s.core n).gate.asked gid (s.quiet n)).1 ((s.core n).gate.asked gid (s.quiet n)).2 := by
  simp only [State.GateBarred, not_or, not_exists, Bool.not_eq_true] at h
  obtain ⟨hrest, hdrain, hother⟩ := h
  -- hrest decides the model's match on how the core rests; simp finds it among the hypotheses.
  match hg : (s.core n).gate with
  | .gated k r => exact .of_eq (by simp [State.gateOn, Gate.asked, hdrain, hother, hg]) (.refl hg)
  | .waking t k =>
    have hset := GateSet.onCore s n fun _ => .waking t (some (k.getD gid))
    exact .of_eq (by simp [State.gateOn, Gate.asked, hdrain, hother, hg]) hset
  | .pending k =>
    cases hq : s.quiet n with
    | true =>
      have hset := GateSet.onCore s n fun _ => .gated k 0
      exact .of_eq (by simp [State.gateOn, Gate.asked, hdrain, hother, hg, hq]) hset
    | false => exact .of_eq (by simp [State.gateOn, Gate.asked, hdrain, hother, hg, hq]) (.refl hg)
  | .open =>
    cases hq : s.quiet n with
    | true =>
      have hset := GateSet.onCore s n fun _ => .gated gid 0
      exact .of_eq (by simp [State.gateOn, Gate.asked, hdrain, hother, hg, hq]) hset
    | false =>
      have hset := GateSet.onCore s n fun _ => .pending gid
      exact .of_eq (by simp [State.gateOn, Gate.asked, hdrain, hother, hg, hq]) hset

/-! ### pgate (R414) -/

/-- The word i goes on with v in its destination and leaves the gate of the upper core of its column at g; other
cores and the bytes of memory are as before. -/
def AnswersGate (i : Instr) (d : Dst) (s : State) (x : Iss) (v : Nat) (g : Gate) : Prop :=
  ∃ u, exec i s = .next u ∧ WentOn u x (useD 1 d) ∧ Gets u x d 1 (fun _ => v) ∧
    u.core (upperCore x.wp.core) = { s.core (upperCore x.wp.core) with gate := g } ∧
    (∀ n, n ≠ upperCore x.wp.core → u.core n = s.core n) ∧ SameBytes s u

/-- A word that sets the gate and then writes one value answers with it. -/
theorem Runs.answersGate {s t : State} {i : Instr} {x : Iss} {g : Gate} (h : Runs s i x) (d : Dst) (v : Nat)
    (ht : GateSet s t (upperCore x.wp.core) g)
    (he : exec i s = .next (oneEffect .variable d 1 (fun _ _ => Res.of v) x t)) : AnswersGate i d s x v g := by
  have hw : Wrote t t x (useD 1 d) 0 :=
    { rest := rfl
      warp := ⟨_, by rw [ht.warps, h.find_warp], Warp.Kept.refl ..⟩
      warps := fun _ _ => rfl
      group := by rw [ht.groups, h.find_group]; simp
      groups := fun _ _ => rfl }
  obtain ⟨hret, hgets⟩ := oneEffect_spec .variable d 1 (fun _ _ => Res.of v) (fun _ hu => hu) h.fresh hw
  have hcore : ∀ n, (oneEffect .variable d 1 (fun _ _ => Res.of v) x t).core n = t.core n := fun n => by
    rw [hret.rest]
    rfl
  exact ⟨_, he, hret.warp, hgets, (hcore _).trans ht.core, fun n hne => (hcore n).trans (ht.cores n hne),
    fun key a => (hret.bytes.1 key a).trans (ht.bytes.1 key a), fun a => (hret.bytes.2 a).trans (ht.bytes.2 a)⟩

theorem Runs.pgateOn_answers {s : State} {x : Iss} {c : Ctl} {d : Dst} {v : Nat} {g : Gate}
    (h : Runs s (.pgateOn c d) x) (hg : GateOn s x.wp.gid x.g.world (upperCore x.wp.core) v g) :
    AnswersGate (.pgateOn c d) d s x v g := by
  obtain ⟨rfl, ht⟩ := hg
  exact h.answersGate d _ ht (issueWord_runs _ s x noEmpty noPre (pgateOnEffect d) h rfl)

theorem Runs.pgateOn_unbarred {s : State} {x : Iss} {c : Ctl} {d : Dst} {g : Gate} {q : Bool}
    (h : Runs s (.pgateOn c d) x) (hb : ¬s.GateBarred x.g.world (upperCore x.wp.core))
    (hg : (s.core (upperCore x.wp.core)).gate = g)
    (hq : s.quiet (upperCore x.wp.core) = q) :
    AnswersGate (.pgateOn c d) d s x (g.asked x.wp.gid q).1 (g.asked x.wp.gid q).2 := by
  subst hg hq
  exact h.pgateOn_answers (State.gateOn_unbarred _ hb)

theorem Runs.pgateOff_answers {s : State} {x : Iss} {c : Ctl} {d : Dst} {g : Gate} (h : Runs s (.pgateOff c d) x)
    (hg : (s.core (upperCore x.wp.core)).gate = g) :
    AnswersGate (.pgateOff c d) d s x 2 (g.opened (s.core (upperCore x.wp.core)).clk) := by
  subst hg
  exact h.answersGate d 2 (s.openGate_sets _) (issueWord_runs _ s x noEmpty noPre (pgateOffEffect d) h rfl)

/-- Settles O35: rflv, bstat and wrec complete with what they read, boost waits or faults on its count of ticks, and
pgate answers and sets the gate of the upper core as its state asks (R411 to R415). -/
theorem units : Obligations.Units := by
  intro c lvl k d a
  refine ⟨rflv_gives c d, bstat_gives c d, ?_, boost_blocks c lvl d a, boost_faults c lvl d a, fun s x h => ?_,
    fun s x h => ?_⟩
  · exact (wrec_gives c k d a).congr fun s x _ _ _ => s.wrecVal_eq _ _ k
  · refine ⟨fun hb => h.pgateOn_answers (State.gateOn_barred _ hb), fun g r hb hg => h.pgateOn_unbarred hb hg rfl,
      fun g hb hg => ?_, fun t g hb hg => h.pgateOn_unbarred hb hg rfl, fun hb hg hq => h.pgateOn_unbarred hb hg hq,
      fun hb hg hq => h.pgateOn_unbarred hb hg hq⟩
    split
    next hq => exact h.pgateOn_unbarred hb hg hq
    next hq => exact h.pgateOn_unbarred hb hg (Bool.eq_false_of_not_eq_true hq)
  · exact ⟨h.pgateOff_answers, fun _ => h.pgateOff_answers, fun _ _ => h.pgateOff_answers,
      fun _ _ => h.pgateOff_answers⟩

end Sys2Proof.Machine
